-- ==== Sys2Proof/Word.lean ====
section
/-! DEFINITION. The word types of the block (spec/00_scope.md R9, spec/10_state.md R20): bytes, symbols,
byte strings, the 16-bit and 32-bit quantities. Every quantity of the block is unsigned. -/

namespace Sys2Proof

/-- `SYMBOL_BITS`: the width of one waveform code (R7). -/
abbrev Config.symbolBits : Nat := 8

/-- `COUNTER_BITS`: the width of each hardware counter value (R7). -/
abbrev Config.counterBits : Nat := 32

/-- A byte is 8 bits (R9). -/
abbrev Byte := BitVec 8

/-- A symbol is one waveform code of `SYMBOL_BITS` bits on the line (R9, R77). -/
abbrev Symbol := BitVec Config.symbolBits

/-- A byte string, first byte first (R9). -/
abbrev Bytes := List Byte

/-- The 16-bit quantities: the CRC (R22), `p2` (R80), slot, key and counter ids (R82). -/
abbrev Word16 := BitVec 16

/-- The 32-bit quantities: record words (R154), `method` and `arg2` (R14). -/
abbrev Word32 := BitVec 32

/-- A hardware counter value of `COUNTER_BITS` bits: `counter0` (R50), `match_count` and `lastgood` (R55). -/
abbrev CounterValue := BitVec Config.counterBits

/-- A slot, key-slot or counter id: what a command carries in its 16-bit `p2` (R82, R84). -/
abbrev SlotId := Word16

/-- `zeros(n)`: `n` bytes of `0x00` (R9). -/
def zeros (n : Nat) : Bytes := List.replicate n 0

end Sys2Proof
end

