-- ==== Sys2Proof/Config.lean ====
section
/-! DEFINITION. What an implementation fixes: the parameters of spec/00_scope.md R7 and R8, the secrets of
spec/10_state.md R18, the functions the spec leaves OPEN, and the free values that answer the draws of
spec/93_implementation_defined.md Part 1. The parameters are plain data (`Params`); a machine state carries one
`Params`, which no operation writes, so a statement about every state is a statement about every parameter value.
The functions and the free values have no body: nothing can be proved of what they answer. -/

namespace Sys2Proof.Config

/-! ### Lengths that R7 states as named constants -/

/-- `PULSES_PER_BYTE` (R7). -/
def pulsesPerByte : Nat := 8
/-- `ERR_REPLY_LEN`: length of a reply that carries a chip error code (R7, R86). -/
def errReplyLen : Nat := 4
/-- `NUMIN_LEN` (R7, R125). -/
def numinLen : Nat := 20
/-- `NONCE_CONST_LEN` (R7, R53). -/
def nonceConstLen : Nat := 3
/-- `BLOCK_LEN`: bytes per slot block, per digest, per TempKey (R7). -/
def blockLen : Nat := 32
/-- `OTHER_DATA_LEN` (R7, R143). -/
def otherDataLen : Nat := 13
/-- `CHECKMAC_BODY_LEN = 32 + 32 + 13` (R7, R127). -/
def checkMacBodyLen : Nat := blockLen + blockLen + otherDataLen
/-- `RECORD_LEN` (R7, R154). -/
def recordLen : Nat := 276
/-- `HMAC_LEN` (R7, R154). -/
def hmacLen : Nat := 32
/-- `PAIRING_LEN` (R7, R18). -/
def pairingLen : Nat := 32
/-- `SE_SERIAL_LEN` (R7, R18). -/
def seSerialLen : Nat := 9
/-- `OTP_KEY_LEN` (R7, R18). -/
def otpKeyLen : Nat := 72
/-- `HASH_CACHE_LEN` (R7, R18). -/
def hashCacheLen : Nat := 32
/-- `SECRET_LEN`, 72: the secret is masked with the OTP key (R8, R64). -/
def secretLen : Nat := otpKeyLen
/-- The bound of `TXBUF` and `RXBUF` in bytes (R20, R21). -/
def bufLen : Nat := 256
/-- `BAUD`, symbols are UART characters at this rate (R7, R221). No rule depends on it (R240). -/
def baud : Nat := 230400
/-- `WAKE_BAUD = BAUD / 2` (R7): the rate that `BAUDSEL = 1` selects. -/
def wakeBaud : Nat := baud / 2
/-- `WAKE_LOW` in microseconds, 1.5 ms to 2.5 ms (R7, R239). No rule depends on it. -/
def wakeLowMicros : Nat × Nat := (1500, 2500)

/-! ### Parameters -/

/-- The opcode bytes `OP_*` (R8, R84). -/
structure Opcodes where
  read : Byte
  write : Byte
  nonce : Byte
  genDig : Byte
  checkMac : Byte
  counter : Byte
  selfTest : Byte
  lock : Byte
  info : Byte
  macGen : Byte
  keyedHash : Byte
deriving DecidableEq, Repr

/-- The first-parameter bytes `P1_*` (R8, R84). -/
structure P1Codes where
  read32 : Byte
  write32 : Byte
  write32Enc : Byte
  nonce : Byte
  genDigData : Byte
  genDigCounter : Byte
  checkMac : Byte
  macGen : Byte
  counterRead : Byte
  counterIncr : Byte
  selfTest : Byte
  info : Byte
  keyedHashStart : Byte
  keyedHashEnd : Byte
deriving DecidableEq, Repr

/-- The chip status codes `ST_*` other than `ST_OK`, which is 0 (R8, R193). -/
structure StatusCodes where
  miscompare : Byte
  parse : Byte
  eccFault : Byte
  selfTest : Byte
  exec : Byte
  wake : Byte
  watchdog : Byte
  comm : Byte
deriving DecidableEq, Repr

/-- The slot ids `SLOT_*`, `KEY_PLAIN` and `NUM_SLOTS` (R8, R48). -/
structure Slots where
  pairing : SlotId
  kdf : SlotId
  pinHash : SlotId
  pinAttempt : SlotId
  lastgood : SlotId
  matchCount : SlotId
  seed : SlotId
  keyPlain : SlotId
  numSlots : Nat
deriving DecidableEq, Repr

/-- The seven result codes of R187, signed integers. -/
structure ResultCodes where
  ok : Int
  seFailure : Int
  badRequest : Int
  hmacFail : Int
  authFail : Int
  oldAuthFail : Int
  iAmBrick : Int
deriving DecidableEq, Repr

/-- The method selectors of the dispatch call (R8, R89). -/
structure Methods where
  pinControl : Word32
  readSeSlot : Word32
  getRandomBytes : Word32
  isBricked : Word32
deriving DecidableEq, Repr

/-- The PIN sub-method codes (R7, R89). -/
structure PinMethods where
  setup : Word32
  attempt : Word32
  change : Word32
  getSecret : Word32
deriving DecidableEq, Repr

/-- The place of one record field: its offset and its size in bytes (R154). -/
structure FieldLoc where
  off : Nat
  size : Nat
deriving DecidableEq, Repr

/-- The record layout, an OPEN parameter as a whole (R154, R8). -/
structure Layout where
  magicValue : FieldLoc
  pin : FieldLoc
  pinLen : FieldLoc
  delayAchieved : FieldLoc
  delayRequired : FieldLoc
  numFails : FieldLoc
  attemptsLeft : FieldLoc
  stateFlags : FieldLoc
  privateState : FieldLoc
  hmac : FieldLoc
  changeFlags : FieldLoc
  oldPin : FieldLoc
  oldPinLen : FieldLoc
  newPin : FieldLoc
  newPinLen : FieldLoc
  secret : FieldLoc
  cachedMainPin : FieldLoc
deriving DecidableEq, Repr

/-- The record's flag masks and the `change_flags` masks (R34, R35, R8). -/
structure FlagMasks where
  successful : Word32
  isBlank : Word32
  zeroSecret : Word32
  changeWalletPin : Word32
  changeSecret : Word32
deriving DecidableEq, Repr

/-- The SECRETS port (R18): burned in once, read-only for the life of the device. -/
structure RomSecrets where
  pairingSecret : Bytes
  seSerial : Bytes
  otpKey : Bytes
  hashCacheSecret : Bytes
  deviceSerial : Bytes
deriving DecidableEq, Repr

/-- Every parameter of R7 that enters a rule's condition or result, and every OPEN parameter of R8 that is data. -/
structure Params where
  /-- `CRC_POLY` (R7). -/
  crcPoly : Word16
  /-- `RETRY_MAX` (R7, R120). -/
  retryMax : Nat
  /-- `KDF_ITER` (R7, R161). -/
  kdfIter : Nat
  /-- `QUANT`, a power of two (R7, R166). -/
  quant : Word32
  /-- `LEN_IN_MAX` (R7, R178). -/
  lenInMax : Nat
  /-- The PIN sub-method codes (R7). -/
  pinMethod : PinMethods
  /-- `DELAY_DISPATCH` in milliseconds (R7, R179). -/
  delayDispatch : Nat
  /-- `DELAY_COLDBOOT` in milliseconds (R7, R215). -/
  delayColdboot : Nat
  /-- `PULSE0`, `PULSE1` (R8, R77). -/
  pulse0 : Symbol
  pulse1 : Symbol
  /-- `IOFLAG_CMD` (R8, R80). -/
  ioflagCmd : Byte
  /-- `IOFLAG_TX`; `none` when it is configured as "none" (R102, N8). -/
  ioflagTx : Option Byte
  /-- `IOFLAG_IDLE`, `IOFLAG_SLEEP` (R8, R79). -/
  ioflagIdle : Byte
  ioflagSleep : Byte
  /-- `CRC_INIT` (R8, R112). -/
  crcInit : Word16
  op : Opcodes
  p1 : P1Codes
  /-- `P2_ADDR` where it differs from the K4 formula: a finite table, so that any function of slot and block can be
  given as data (R82; log 13). -/
  p2Table : List ((SlotId × Nat) × Word16)
  /-- `COUNTER_ID` (R8, R50). -/
  counterId : SlotId
  /-- `INFO_RAW_LEN` (R8, R87). -/
  infoRawLen : Nat
  /-- `MAX_DATA_LEN` (R8, R81). -/
  maxDataLen : Nat
  st : StatusCodes
  slot : Slots
  /-- `MAX_ATTEMPTS` (R8, R166). -/
  maxAttempts : Nat
  /-- `NUM_FAILS_ANOMALY` (R8, R162). -/
  numFailsAnomaly : Word32
  /-- `HMAC_COVERS_CACHE` (R8, R155). -/
  hmacCoversCache : Bool
  /-- `MAX_PIN_LEN` (R8, R156). -/
  maxPinLen : Nat
  /-- `PA_MAGIC` (R8, R156). -/
  paMagic : Word32
  flag : FlagMasks
  method : Methods
  code : ResultCodes
  layout : Layout
  rom : RomSecrets
deriving DecidableEq, Repr

/-! ### The OPEN functions: no body, so every one of them is covered -/

/-- `Sha256` through the HASH port (R16), byte by byte; `sha256` below gives the 32-byte string. -/
opaque sha256Byte : Bytes → Fin 32 → Byte

/-- `Hmac256` through the HASH port (R16), byte by byte. -/
opaque hmac256Byte : Bytes → Bytes → Fin 32 → Byte

/-- The "fixed 3-byte constant" of `NonceMsg` (R53; OPEN), byte by byte. -/
opaque nonceConstByte : Fin nonceConstLen → Byte

/-- `GENDIG_FIXED(s)`, the fixed opcode and slot bytes of `GenDigMsg` (R54; OPEN). -/
opaque genDigFixed : SlotId → Bytes

/-- `GENDIG_PAD`, the number of zero bytes in `GenDigMsg` (R54; OPEN). -/
opaque genDigPad : Nat

/-- `GenDigCounterMsg(id, value, t)` (R54, R152; OPEN), of the counter id, the 4 value bytes and TempKey. -/
opaque genDigCounterMsg : SlotId → Bytes → Bytes → Bytes

/-- The tail of `TkChkMsg`: fixed header and serial number (R142; OPEN function of the serial). -/
opaque tkChkTail : Bytes → Bytes

/-- `CheckMacMsg(secret, t, od)` (R56, R143; OPEN). -/
opaque checkMacMsg : Bytes → Bytes → Bytes → Bytes

/-- The middle of `WriteMacMsg`: opcode, p1, p2 and zero padding (R146; OPEN function of the `p2` that names slot and
block). -/
opaque writeMacMid : Word16 → Bytes

/-- `MixMsg(pairing, start, keynum, h)` (R147; OPEN). -/
opaque mixMsg : Bytes → Bytes → SlotId → Bytes → Bytes

/-- `PIN_PURPOSE` (R160; OPEN). -/
opaque pinPurpose : Bytes

/-- `PinHashMsg(pairing, purpose, pin, otp_key)` (R160; OPEN). -/
opaque pinHashMsg : Bytes → Bytes → Bytes → Bytes → Bytes

/-- `RecordMacKey(pairing_secret, BOOT_SEED)` (R157; OPEN). -/
opaque recordMacKey : Bytes → Bytes → Bytes

/-- `CacheMask(hash_cache_secret, BOOT_SEED)`, 32 bytes (R168; OPEN), byte by byte. -/
opaque cacheMaskByte : Bytes → Bytes → Fin 32 → Byte

/-- The device's secrets as burned in (R18), byte by byte: which field, which byte. Not known to any proof. -/
opaque romByte : Nat → Nat → Byte

/-- The length of `device_serial`, which the source does not give (R18, N39). -/
opaque deviceSerialLen : Nat

/-! ### What the environment may choose, and the free values that answer when nothing is scripted -/

/-- One thing that WIRE lets CHIP hear: what BLOCK has just sent, or symbols of WIRE's own (R13, R74). -/
inductive WireMessage where
  | own
  | forged (symbols : List Symbol)
deriving DecidableEq, Repr, Inhabited

/-- WIRE's choice for one outbound message or low pulse (R74, R110): let it through, or let CHIP hear these messages
instead, in this order. So it can drop (no message), replace, delay, replay (`own` more than once) and insert, before and
after what BLOCK sent. -/
inductive OutMove where
  | pass
  | put (messages : List WireMessage)
deriving DecidableEq, Repr, Inhabited

/-- WIRE's choice for one burst the block asks for: let the chip's answer through, or inject any burst (R74, R103). -/
inductive InMove where
  | pass
  | inject (burst : List Symbol)
deriving DecidableEq, Repr, Inhabited

/-- The chip's watchdog at one command (R59, R214; U8, U11): quiet; about to expire, the chip answering with the watchdog
status, whether it had executed the command and whether TempKey was lost; expired, the chip falling asleep by itself,
whether it had executed the command and whether it still answers with that status. -/
inductive Watchdog where
  | quiet
  | expiring (executed tempKeyLost : Bool)
  | expired (executed answers : Bool)
deriving DecidableEq, Repr, Inhabited

/-- How one slot block may be read or written on the chip (R60, R67): in the clear; under TempKey, into which the key slot
named, if one is, must have been folded, as proof of knowledge of its content; not at all. -/
inductive Access where
  | clear
  | encrypted (key : Option SlotId)
  | never
deriving DecidableEq, Repr, Inhabited

/-- The access rule of one slot block, named by its 16-bit block address (R60; a parameter of the chip, U29), and
whether a pairing unlock is asked for first (R144). -/
structure AccessRule where
  addr : Word16
  read : Access
  write : Access
  needsPairing : Bool
deriving DecidableEq, Repr, Inhabited

/-- The transmit-ready poll hit its ceiling: `draw(Bool)` of R101 and R104 (U6). -/
opaque freeStall : Nat → Bool
/-- A junk symbol inside a group: `draw({0, 1})` of R100 (U2). -/
opaque freeJunk : Nat → Bool
/-- One byte of the ENTROPY port (R17). -/
opaque freeRand : Nat → Byte
/-- A random delay before it is bounded (R179, U33). -/
opaque freeDelay : Nat → Nat
/-- WIRE on an outbound message (R74, U5). -/
opaque freeOutMove : Nat → OutMove
/-- WIRE on a burst (R74, R103, U7). -/
opaque freeInMove : Nat → InMove
/-- A byte of the chip's own generator (R53), or of an unchecked `Info` reply (U16). -/
opaque freeChipRng : Nat → Byte
/-- The chip's watchdog at a command (R59, U11). -/
opaque freeWatchdog : Nat → Watchdog
/-- Any other two-way choice of the chip: still computing (R103), TempKey after a wake (U9), the self-test verdict. -/
opaque freeChipCoin : Nat → Bool
/-- The watchdog of an awake chip ran out since the last thing it heard (R59, R214, U11). -/
opaque freeLapse : Nat → Bool
/-- The chip's access rules for the blocks that the spec says nothing of (R60, R67, U29). -/
opaque chipPolicy : List AccessRule
/-- How the chip lets the `pin_hash` block be read, of which the spec says nothing (U29). -/
opaque pinHashRead : Access
/-- Whether the rule of a block asks for a pairing unlock (R144, U29), block by block. -/
opaque ruleNeedsPairing : Word16 → Bool
/-- A byte of a key slot of a provisioned chip whose content the spec does not give (R48): `KDF` and `pin_attempt`. -/
opaque chipKeyByte : SlotId → Nat → Byte
/-- `match_count` of a freshly provisioned chip, in units of `QUANT` (R55). -/
opaque chipQuanta : Nat
/-- What `RXBUF` holds when a read of more bytes than it has room for brings in more, byte by byte (R20, R102). -/
opaque rxOverflow : Bytes → Fin bufLen → Byte

/-! ### Defaults -/

/-- The record layout known for this family of devices (R154, K21). -/
def layoutK21 : Layout where
  magicValue := ⟨0, 4⟩
  pin := ⟨4, 32⟩
  pinLen := ⟨36, 4⟩
  delayAchieved := ⟨40, 4⟩
  delayRequired := ⟨44, 4⟩
  numFails := ⟨48, 4⟩
  attemptsLeft := ⟨52, 4⟩
  stateFlags := ⟨56, 4⟩
  privateState := ⟨60, 4⟩
  hmac := ⟨64, 32⟩
  changeFlags := ⟨96, 4⟩
  oldPin := ⟨100, 32⟩
  oldPinLen := ⟨132, 4⟩
  newPin := ⟨136, 32⟩
  newPinLen := ⟨168, 4⟩
  secret := ⟨172, 72⟩
  cachedMainPin := ⟨244, 32⟩

/-- Bytes `0 .. n - 1` of the secret field number `field`, as burned in. -/
def romField (field n : Nat) : Bytes := (List.range n).map (romByte field)

/-- The device's secrets (R18): every length as R18 gives it, no byte known. -/
def romSecrets : RomSecrets where
  pairingSecret := romField 0 pairingLen
  seSerial := romField 1 seSerialLen
  otpKey := romField 2 otpKeyLen
  hashCacheSecret := romField 3 hashCacheLen
  deviceSerial := romField 4 deviceSerialLen

/-- The values R7 states, and for the OPEN parameters the defaults of spec/93_implementation_defined.md K1 to K5,
K8, K10, K11, K14, K20, K21, K23. Where no default is listed there (method selectors, result codes other than
`E_OK = 0`, `MAX_DATA_LEN`) the value is the model's; log 3 lists them. -/
def defaults : Params where
  crcPoly := 0x8005
  retryMax := 100
  kdfIter := 8
  quant := 32
  lenInMax := 1024
  pinMethod := { setup := 0, attempt := 1, change := 2, getSecret := 3 }
  delayDispatch := 10
  delayColdboot := 50
  pulse0 := 0x7D
  pulse1 := 0x7F
  ioflagCmd := 0x77
  ioflagTx := some 0x88
  ioflagIdle := 0xBB
  ioflagSleep := 0xCC
  crcInit := 0x0000
  op := { read := 0x02, write := 0x12, nonce := 0x16, genDig := 0x15, checkMac := 0x28, counter := 0x24,
          selfTest := 0x77, lock := 0x17, info := 0x30, macGen := 0x08, keyedHash := 0x47 }
  p1 := { read32 := 0x82, write32 := 0x82, write32Enc := 0xC2, nonce := 0x00, genDigData := 0x02,
          genDigCounter := 0x04, checkMac := 0x01, macGen := 0x41, counterRead := 0x00, counterIncr := 0x01,
          selfTest := 0x3B, info := 0x00, keyedHashStart := 0x04, keyedHashEnd := 0xC2 }
  p2Table := []
  counterId := 0
  infoRawLen := 4
  maxDataLen := 248
  st := { miscompare := 0x01, parse := 0x03, eccFault := 0x05, selfTest := 0x07, exec := 0x0F, wake := 0x11,
          watchdog := 0xEE, comm := 0xFF }
  slot := { pairing := 1, kdf := 2, pinHash := 3, pinAttempt := 4, lastgood := 5, matchCount := 6, seed := 9,
            keyPlain := 0, numSlots := 16 }
  maxAttempts := 21
  numFailsAnomaly := 99
  hmacCoversCache := true
  maxPinLen := 32
  paMagic := 0x2EAF6312
  flag := { successful := 0x01, isBlank := 0x02, zeroSecret := 0x10, changeWalletPin := 0x01, changeSecret := 0x08 }
  method := { pinControl := 1, readSeSlot := 2, getRandomBytes := 3, isBricked := 4 }
  code := { ok := 0, seFailure := -1, badRequest := -2, hmacFail := -3, authFail := -4, oldAuthFail := -5,
            iAmBrick := -6 }
  layout := layoutK21
  rom := romSecrets

end Sys2Proof.Config
end

