-- ==== Sys2Proof/Machine/Bytes.lean ====
section
/-! DEFINITION. Byte strings and the byte order of multi-byte values: spec/00_scope.md R9, spec/20_memory.md R63. -/

namespace Sys2Proof.Machine

/-- `slice(B, i, n)`: the `n` bytes from index `i` (R9). -/
def slice (b : Bytes) (i n : Nat) : Bytes := (b.drop i).take n

/-- `b` with the bytes from index `i` on replaced by `v`, the length kept when `v` fits (the store `x[i] <- v` of R10). -/
def splice (b : Bytes) (i : Nat) (v : Bytes) : Bytes := b.take i ++ v ++ b.drop (i + v.length)

/-- `A xor B` on two byte strings of equal length (R9). -/
def xorBytes (a b : Bytes) : Bytes := List.zipWith (· ^^^ ·) a b

/-- The two bytes of a 16-bit value, low byte first (R63). -/
def u16le (v : Word16) : Bytes := [v.extractLsb' 0 8, v.extractLsb' 8 8]

/-- `u32le(v)` (R9). -/
def u32le (v : Word32) : Bytes := [v.extractLsb' 0 8, v.extractLsb' 8 8, v.extractLsb' 16 8, v.extractLsb' 24 8]

/-- The 16-bit value whose bytes are `lo`, then `hi`. -/
def word16 (lo hi : Byte) : Word16 := hi ++ lo

/-- The 32-bit value whose bytes are `b0` to `b3`, least significant first. -/
def word32 (b0 b1 b2 b3 : Byte) : Word32 := b3 ++ b2 ++ b1 ++ b0

/-- `le32(B)`, the inverse of `u32le` on a 4-byte string (R9). -/
def le32 (b : Bytes) : Word32 := word32 (b.getD 0 0) (b.getD 1 0) (b.getD 2 0) (b.getD 3 0)

/-- The OR over all bytes of `a xor b`: the accumulation `diff <- diff | (a[i] xor b[i])` of R141. -/
def diffOf (a b : Bytes) : Byte := (List.zipWith (· ^^^ ·) a b).foldl (· ||| ·) 0

/-- `ct_equal` on two byte strings of equal length, every byte visited (R141). -/
def ctEqualBytes (a b : Bytes) : Bool := decide (a.length = b.length) && decide (diffOf a b = 0)

/-- The all-zero test on secret data, by OR accumulation over all bytes (R231). -/
def allZero (b : Bytes) : Bool := decide (b.foldl (· ||| ·) 0 = 0)

end Sys2Proof.Machine
end

