-- ==== Sys2Proof/Syntax.lean ====
section
/-! DEFINITION. The operations of the block, one constructor per row of spec/opcode_table.json
(spec/30_encoding.md R76, R98), with the operands the rule of each row gives it. -/

namespace Sys2Proof

/-- The caller's choice of how a transaction leaves the line (R119, R121). -/
inductive Close where
  | idle
  | sleep
deriving DecidableEq, Repr

/-- What a transaction expects back (R119): a status reply, `n` payload bytes, or `n` raw bytes. -/
inductive Expect where
  | status
  | data (n : Nat)
  | raw (n : Nat)
deriving DecidableEq, Repr

/-- One operation of the block with its operands (R76). -/
inductive Instr where
  -- BitBus (spec/40_bitbus.md)
  | serialize (b : Byte)
  | deserialize (symbols : List Symbol) (maxLen : Nat)
  | send (bytes : Bytes)
  | receive (maxLen : Nat)
  | wake
  | idle
  | sleep
  -- FrameCodec (spec/41_framecodec.md)
  | crc16 (seed : Word16) (bytes : Bytes)
  | encodeCommand (opcode p1 : Byte) (p2 : Word16) (data : Bytes)
  | decodeResponse (raw : Bytes) (expectedLen : Nat)
  -- SeLink (spec/42_selink.md)
  | transact (opcode p1 : Byte) (p2 : Word16) (data : Bytes) (expect : Expect) (close : Close)
  | read (slot : SlotId) (block : Nat) (close : Close)
  | write (slot : SlotId) (block : Nat) (data : Bytes) (close : Close)
  | writeMac (slot : SlotId) (block : Nat) (data mac : Bytes) (close : Close)
  | nonce (numin : Bytes) (close : Close)
  | genDig (slot : SlotId) (close : Close)
  | genDigCounter (id : SlotId) (close : Close)
  | checkMac (keynum : SlotId) (body : Bytes) (close : Close)
  | macGen (keynum : SlotId) (close : Close)
  | counterRead (close : Close)
  | counterIncr (close : Close)
  | selfTest (close : Close)
  | lock (p1 : Byte) (p2 : Word16) (close : Close)
  | info (close : Close)
  | keyedHash (keynum : SlotId) (msg : Bytes) (close : Close)
  | keyedHashEnd (msg : Bytes) (close : Close)
  | chipReset
  -- SessionCrypto (spec/43_sessioncrypto.md)
  | pickNonce (numin : Bytes)
  | gendigSlot (slot : SlotId) (plaintext : Bytes)
  | ctEqual (a b : Bytes)
  | isCorrectTempkey (expected : Bytes)
  | checkmac (keynum : SlotId) (secret : Bytes)
  | pairUnlock
  | encryptedRead (slot authSlot : SlotId) (authSecret : Bytes) (n : Nat)
  | encryptedWrite (slot authSlot : SlotId) (authSecret data : Bytes)
  | mixin (keynum : SlotId) (start : Bytes)
  | stretch (start : Bytes) (iterations : Nat)
  | authReadSlot (slot : SlotId)
  | authReadCounter
  | addCounter (n : Nat)
  | gendigCounter (value : Word32)
  -- PinEngine (spec/44_pinengine.md)
  | setup (record : Bytes)
  | login (record : Bytes)
  | change (record : Bytes)
  | fetchSecret (record : Bytes)
  -- Dispatch (spec/45_dispatch.md)
  | seDispatch (method : Word32) (len : Nat) (arg2 : Word32)
  | cmdReadSeSlot (len : Nat) (arg2 : Word32)
  | cmdGetRandomBytes (len : Nat)
  | cmdIsBricked
deriving DecidableEq, Repr

end Sys2Proof
end

