-- ==== Sys2Proof/WellFormed.lean ====
section
/-! DEFINITION. When an operation's operands are in the range its rule gives (spec/10_state.md R44: a byte string of
the wrong length cannot arise below the dispatch boundary). Numbers given as `Nat` fit 32 bits, the width of the
widest number a caller passes (R14). -/

namespace Sys2Proof

/-- A number that fits 32 bits. -/
def fits32 (n : Nat) : Bool := decide (n < 2 ^ 32)

/-- A byte string whose length fits 32 bits. -/
def lenFits (b : Bytes) : Bool := fits32 b.length

/-- A byte string of exactly one 32-byte block. -/
def isBlock (b : Bytes) : Bool := decide (b.length = Config.blockLen)

/-- `status`, `data(n)` with `n >= 2`, `raw(n)` with `n >= 1` (R119). -/
def Expect.wf : Expect → Bool
  | .status => true
  | .data n => decide (2 ≤ n) && fits32 n
  | .raw n => decide (1 ≤ n) && fits32 n

/-- The operand ranges of each operation, from the **Operands** line of its rule. -/
def Instr.wf : Instr → Bool
  | .serialize _ => true
  | .deserialize symbols maxLen => lenFits symbols && fits32 maxLen
  | .send bytes => decide (bytes ≠ []) && lenFits bytes
  | .receive maxLen => decide (1 ≤ maxLen) && fits32 maxLen
  | .wake => true
  | .idle => true
  | .sleep => true
  | .crc16 _ bytes => lenFits bytes
  | .encodeCommand _ _ _ data => lenFits data
  | .decodeResponse raw expectedLen => lenFits raw && decide (1 ≤ expectedLen) && fits32 expectedLen
  | .transact _ _ _ data expect _ => lenFits data && expect.wf
  | .read _ block _ => fits32 block
  | .write _ block data _ => fits32 block && isBlock data
  | .writeMac _ block data mac _ => fits32 block && isBlock data && isBlock mac
  | .nonce numin _ => decide (numin.length = Config.numinLen)
  | .genDig _ _ => true
  | .genDigCounter _ _ => true
  | .checkMac _ body _ => decide (body.length = Config.checkMacBodyLen)
  | .macGen _ _ => true
  | .counterRead _ => true
  | .counterIncr _ => true
  | .selfTest _ => true
  | .lock _ _ _ => true
  | .info _ => true
  | .keyedHash _ msg _ => isBlock msg
  | .keyedHashEnd msg _ => isBlock msg
  | .chipReset => true
  | .pickNonce numin => decide (numin.length = Config.numinLen)
  | .gendigSlot _ plaintext => isBlock plaintext
  | .ctEqual a b => lenFits a && decide (a.length = b.length)
  | .isCorrectTempkey expected => isBlock expected
  | .checkmac _ secret => isBlock secret
  | .pairUnlock => true
  | .encryptedRead _ _ authSecret n => isBlock authSecret && decide (1 ≤ n) && fits32 n
  | .encryptedWrite _ _ authSecret data =>
      isBlock authSecret && decide (data ≠ []) && decide (data.length % Config.blockLen = 0) && lenFits data
  | .mixin _ start => isBlock start
  | .stretch start iterations => isBlock start && fits32 iterations
  | .authReadSlot _ => true
  | .authReadCounter => true
  | .addCounter n => decide (1 ≤ n) && fits32 n
  | .gendigCounter _ => true
  | .setup record => decide (record.length = Config.recordLen)
  | .login record => decide (record.length = Config.recordLen)
  | .change record => decide (record.length = Config.recordLen)
  | .fetchSecret record => decide (record.length = Config.recordLen)
  | .seDispatch _ len _ => fits32 len
  | .cmdReadSeSlot len _ => fits32 len
  | .cmdGetRandomBytes len => fits32 len
  | .cmdIsBricked => true

/-- A one-hot mask (R8). -/
def oneHot (m : Word32) : Bool := (List.range 32).any (fun i => decide (m = 1#32 <<< i))

/-- The constraints R8 puts on the parameters, `RETRY_MAX` within the 7 bits of `RETRY` (R20), and the lengths R18 gives the
secrets. -/
def Config.Params.wf (c : Config.Params) : Bool :=
  decide (c.pulse0 ≠ c.pulse1)
  && decide (([some c.ioflagCmd, some c.ioflagIdle, some c.ioflagSleep, c.ioflagTx] : List (Option Byte)).Nodup)
  && decide (c.retryMax < 2 ^ 7)
  && decide (1 ≤ c.infoRawLen)
  && decide (c.maxDataLen ≤ 248)
  && decide (([c.op.read, c.op.write, c.op.nonce, c.op.genDig, c.op.checkMac, c.op.counter, c.op.selfTest,
      c.op.lock, c.op.info] : List Byte).Nodup)
  && decide (([0, c.st.miscompare, c.st.parse, c.st.eccFault, c.st.selfTest, c.st.exec, c.st.wake, c.st.watchdog,
      c.st.comm] : List Byte).Nodup)
  && decide (([c.slot.pairing, c.slot.kdf, c.slot.pinHash, c.slot.pinAttempt, c.slot.lastgood, c.slot.matchCount,
      c.slot.seed, c.slot.keyPlain] : List SlotId).Nodup)
  && [c.slot.pairing, c.slot.kdf, c.slot.pinHash, c.slot.pinAttempt, c.slot.lastgood, c.slot.matchCount,
      c.slot.seed].all (fun s => decide (s.toNat < c.slot.numSlots))
  && decide (c.slot.numSlots ≤ 2 ^ 16)
  && decide (1 ≤ c.maxAttempts)
  && decide (([c.method.pinControl, c.method.readSeSlot, c.method.getRandomBytes, c.method.isBricked]
      : List Word32).Nodup)
  && decide (([c.code.ok, c.code.seFailure, c.code.badRequest, c.code.hmacFail, c.code.authFail, c.code.oldAuthFail,
      c.code.iAmBrick] : List Int).Nodup)
  && [c.flag.successful, c.flag.isBlank, c.flag.zeroSecret, c.flag.changeWalletPin, c.flag.changeSecret].all oneHot
  && decide (([c.flag.successful, c.flag.isBlank, c.flag.zeroSecret] : List Word32).Nodup ∧
      c.flag.changeWalletPin ≠ c.flag.changeSecret)
  && decide (c.maxPinLen ≤ c.layout.pin.size ∧ c.maxPinLen ≤ c.layout.oldPin.size ∧ c.maxPinLen ≤ c.layout.newPin.size)
  && decide (c.rom.pairingSecret.length = Config.pairingLen ∧ c.rom.seSerial.length = Config.seSerialLen ∧
      c.rom.otpKey.length = Config.otpKeyLen ∧ c.rom.hashCacheSecret.length = Config.hashCacheLen)

/-- The first-parameter bytes that R84 requires to differ: the two modes of `Counter`, the two zones of `GenDig`. -/
def Config.Params.modesDiffer (c : Config.Params) : Bool :=
  decide (c.p1.counterRead ≠ c.p1.counterIncr ∧ c.p1.genDigData ≠ c.p1.genDigCounter)

/-- The fields of a layout in the order of R154. -/
def Config.Layout.fields (l : Config.Layout) : List Config.FieldLoc :=
  [l.magicValue, l.pin, l.pinLen, l.delayAchieved, l.delayRequired, l.numFails, l.attemptsLeft, l.stateFlags,
   l.privateState, l.hmac, l.changeFlags, l.oldPin, l.oldPinLen, l.newPin, l.newPinLen, l.secret, l.cachedMainPin]

/-- R8 on the record layout: fields do not overlap, they fill 276 bytes, and `hmac` follows every field the block
writes except `cached_main_pin` (and `secret`, a per-call output area that the signature does not cover, R155). -/
def Config.Layout.wf (l : Config.Layout) : Bool :=
  decide (l.fields.Pairwise (fun a b => a.off + a.size ≤ b.off ∨ b.off + b.size ≤ a.off))
  && decide ((l.fields.map (fun f => f.size)).sum = Config.recordLen)
  && l.fields.all (fun f => decide (f.off + f.size ≤ Config.recordLen))
  && [l.delayAchieved, l.delayRequired, l.numFails, l.attemptsLeft, l.stateFlags, l.privateState].all
      (fun f => decide (f.off + f.size ≤ l.hmac.off ∧ f.size = 4))
  && [l.magicValue, l.pinLen, l.changeFlags, l.oldPinLen, l.newPinLen].all (fun f => decide (f.size = 4))
  && decide (l.hmac.size = Config.hmacLen ∧ l.cachedMainPin.size = Config.blockLen ∧ l.secret.size = Config.secretLen)

end Sys2Proof
end

