-- ==== Sys2Proof/Decode.lean ====
section
/-! DEFINITION. The words an operation call is written in, their decoder and their encoder. The block fetches no
instructions (spec/20_memory.md R72) and spec/30_encoding.md R95 gives a program as a list of calls; the words of a
call are the model's (log 2): a 16-bit head, low byte first, then the operands in the order the operation's rule lists
them. The head of a SeLink operation is the value `opcode << 8 | p1` that spec/opcode_table.json gives its row (R98);
the other heads are the model's. What goes over the line is not this but the frames of R80 to R87. -/

namespace Sys2Proof

open Sys2Proof.Machine

/-- Why a call's words are refused. -/
inductive DecodeRefusal where
  /-- The words end before the operands do. -/
  | truncated
  /-- The head names no operation. -/
  | unknownHead (head : Word16)
  /-- The close byte is neither IDLE nor SLEEP. -/
  | badClose (b : Byte)
  /-- The expectation byte is neither status, data nor raw. -/
  | badExpect (b : Byte)
  /-- The operands are outside the range the operation's rule gives (`Instr.wf`). -/
  | illFormed
deriving DecidableEq, Repr

/-! ### Heads -/

namespace Head
def serialize : Nat := 0xA000
def deserialize : Nat := 0xA001
def send : Nat := 0xA002
def receive : Nat := 0xA003
def wake : Nat := 0xA004
def idle : Nat := 0xA005
def sleep : Nat := 0xA006
def crc16 : Nat := 0xA100
def encodeCommand : Nat := 0xA101
def decodeResponse : Nat := 0xA102
def transact : Nat := 0xA200
def chipReset : Nat := 0xA201
/-- The rows of spec/opcode_table.json that have a `match` value. -/
def read : Nat := 0x0282
def write : Nat := 0x1282
def writeMac : Nat := 0x12C2
def nonce : Nat := 0x1600
def genDig : Nat := 0x1502
def genDigCounter : Nat := 0x1504
def checkMac : Nat := 0x2801
def macGen : Nat := 0x0841
def counterRead : Nat := 0x2400
def counterIncr : Nat := 0x2401
def selfTest : Nat := 0x773B
/-- `Lock`: mask 0xFF00, the low byte is the caller's `p1`. -/
def lock : Nat := 0x1700
def info : Nat := 0x3000
def keyedHash : Nat := 0x4704
def keyedHashEnd : Nat := 0x47C2
def pickNonce : Nat := 0xA300
def gendigSlot : Nat := 0xA301
def ctEqual : Nat := 0xA302
def isCorrectTempkey : Nat := 0xA303
def checkmac : Nat := 0xA304
def pairUnlock : Nat := 0xA305
def encryptedRead : Nat := 0xA306
def encryptedWrite : Nat := 0xA307
def mixin : Nat := 0xA308
def stretch : Nat := 0xA309
def authReadSlot : Nat := 0xA30A
def authReadCounter : Nat := 0xA30B
def addCounter : Nat := 0xA30C
def gendigCounter : Nat := 0xA30D
def setup : Nat := 0xA400
def login : Nat := 0xA401
def change : Nat := 0xA402
def fetchSecret : Nat := 0xA403
def seDispatch : Nat := 0xA500
def cmdReadSeSlot : Nat := 0xA501
def cmdGetRandomBytes : Nat := 0xA502
def cmdIsBricked : Nat := 0xA503
end Head

/-! ### Reading operands -/

/-- A reader of operands: what is left of the words, or why they are refused. -/
abbrev Reader := StateT Bytes (Except DecodeRefusal)

/-- One byte. -/
def getByte : Reader Byte
  | [] => .error .truncated
  | b :: r => .ok (b, r)

/-- Exactly `n` bytes. -/
def getFixed (n : Nat) : Reader Bytes := fun b =>
  if n ≤ b.length then .ok (b.take n, b.drop n) else .error .truncated

/-- A 16-bit value, low byte first. -/
def getWord16 : Reader Word16 := do
  let lo ← getByte
  let hi ← getByte
  pure (word16 lo hi)

/-- A 32-bit value, low byte first. -/
def getWord32 : Reader Word32 := do
  let b0 ← getByte
  let b1 ← getByte
  let b2 ← getByte
  let b3 ← getByte
  pure (word32 b0 b1 b2 b3)

/-- A natural number in 32 bits. -/
def getNat : Reader Nat := do
  let v ← getWord32
  pure v.toNat

/-- A byte string: its length in 32 bits, then its bytes. -/
def getBytes : Reader Bytes := do
  let n ← getNat
  getFixed n

/-- A close choice: 0 IDLE, 1 SLEEP. -/
def getClose : Reader Close := do
  let b ← getByte
  if b = 0 then pure .idle
  else if b = 1 then pure .sleep
  else throw (.badClose b)

/-- An expectation: 0 status, 1 data, 2 raw, the last two with their length. -/
def getExpect : Reader Expect := do
  let b ← getByte
  if b = 0 then pure .status
  else if b = 1 then do
    let n ← getNat
    pure (.data n)
  else if b = 2 then do
    let n ← getNat
    pure (.raw n)
  else throw (.badExpect b)

/-! ### The decoder -/

/-- The operands of the operation a head names. -/
def getOperands (h : Nat) : Reader Instr :=
  if h = Head.serialize then do return .serialize (← getByte)
  else if h = Head.deserialize then do return .deserialize (← getBytes) (← getNat)
  else if h = Head.send then do return .send (← getBytes)
  else if h = Head.receive then do return .receive (← getNat)
  else if h = Head.wake then pure .wake
  else if h = Head.idle then pure .idle
  else if h = Head.sleep then pure .sleep
  else if h = Head.crc16 then do return .crc16 (← getWord16) (← getBytes)
  else if h = Head.encodeCommand then do
    return .encodeCommand (← getByte) (← getByte) (← getWord16) (← getBytes)
  else if h = Head.decodeResponse then do return .decodeResponse (← getBytes) (← getNat)
  else if h = Head.transact then do
    return .transact (← getByte) (← getByte) (← getWord16) (← getBytes) (← getExpect) (← getClose)
  else if h = Head.chipReset then pure .chipReset
  else if h = Head.read then do return .read (← getWord16) (← getNat) (← getClose)
  else if h = Head.write then do
    return .write (← getWord16) (← getNat) (← getFixed Config.blockLen) (← getClose)
  else if h = Head.writeMac then do
    return .writeMac (← getWord16) (← getNat) (← getFixed Config.blockLen) (← getFixed Config.blockLen) (← getClose)
  else if h = Head.nonce then do return .nonce (← getFixed Config.numinLen) (← getClose)
  else if h = Head.genDig then do return .genDig (← getWord16) (← getClose)
  else if h = Head.genDigCounter then do return .genDigCounter (← getWord16) (← getClose)
  else if h = Head.checkMac then do
    return .checkMac (← getWord16) (← getFixed Config.checkMacBodyLen) (← getClose)
  else if h = Head.macGen then do return .macGen (← getWord16) (← getClose)
  else if h = Head.counterRead then do return .counterRead (← getClose)
  else if h = Head.counterIncr then do return .counterIncr (← getClose)
  else if h = Head.selfTest then do return .selfTest (← getClose)
  else if h / 256 = Head.lock / 256 then do return .lock (BitVec.ofNat 8 h) (← getWord16) (← getClose)
  else if h = Head.info then do return .info (← getClose)
  else if h = Head.keyedHash then do
    return .keyedHash (← getWord16) (← getFixed Config.blockLen) (← getClose)
  else if h = Head.keyedHashEnd then do return .keyedHashEnd (← getFixed Config.blockLen) (← getClose)
  else if h = Head.pickNonce then do return .pickNonce (← getFixed Config.numinLen)
  else if h = Head.gendigSlot then do return .gendigSlot (← getWord16) (← getFixed Config.blockLen)
  else if h = Head.ctEqual then do return .ctEqual (← getBytes) (← getBytes)
  else if h = Head.isCorrectTempkey then do return .isCorrectTempkey (← getFixed Config.blockLen)
  else if h = Head.checkmac then do return .checkmac (← getWord16) (← getFixed Config.blockLen)
  else if h = Head.pairUnlock then pure .pairUnlock
  else if h = Head.encryptedRead then do
    return .encryptedRead (← getWord16) (← getWord16) (← getFixed Config.blockLen) (← getNat)
  else if h = Head.encryptedWrite then do
    return .encryptedWrite (← getWord16) (← getWord16) (← getFixed Config.blockLen) (← getBytes)
  else if h = Head.mixin then do return .mixin (← getWord16) (← getFixed Config.blockLen)
  else if h = Head.stretch then do return .stretch (← getFixed Config.blockLen) (← getNat)
  else if h = Head.authReadSlot then do return .authReadSlot (← getWord16)
  else if h = Head.authReadCounter then pure .authReadCounter
  else if h = Head.addCounter then do return .addCounter (← getNat)
  else if h = Head.gendigCounter then do return .gendigCounter (← getWord32)
  else if h = Head.setup then do return .setup (← getFixed Config.recordLen)
  else if h = Head.login then do return .login (← getFixed Config.recordLen)
  else if h = Head.change then do return .change (← getFixed Config.recordLen)
  else if h = Head.fetchSecret then do return .fetchSecret (← getFixed Config.recordLen)
  else if h = Head.seDispatch then do return .seDispatch (← getWord32) (← getNat) (← getWord32)
  else if h = Head.cmdReadSeSlot then do return .cmdReadSeSlot (← getNat) (← getWord32)
  else if h = Head.cmdGetRandomBytes then do return .cmdGetRandomBytes (← getNat)
  else if h = Head.cmdIsBricked then pure .cmdIsBricked
  else throw (.unknownHead (BitVec.ofNat 16 h))

/-- The operation a call's words give, and the words after it. -/
def decodePrefix (words : Bytes) : Except DecodeRefusal (Instr × Bytes) :=
  match getWord16 words with
  | .error r => .error r
  | .ok (h, rest) =>
    match getOperands h.toNat rest with
    | .error r => .error r
    | .ok (i, rest') => if i.wf then .ok (i, rest') else .error .illFormed

/-- The operation a call's words give; words after its operands are padding. -/
def decode (words : Bytes) : Except DecodeRefusal Instr :=
  match decodePrefix words with
  | .error r => .error r
  | .ok (i, _) => .ok i

/-- The words of the instruction whose first `nbits` bits are `w`, numbered as spec/opcode_table.json numbers them,
with zeros above, out to more than the longest operation whose length is fixed. -/
def tableWords (nbits w : Nat) : Bytes :=
  (List.range ((nbits + 7) / 8)).map (fun k => BitVec.ofNat 8 (w / 2 ^ (8 * k))) ++ zeros 400

/-- The instruction the decoder reads from a word of spec/opcode_table.json. -/
def decodeTableWord (nbits w : Nat) : Option Instr :=
  match decode (tableWords nbits w) with
  | .error _ => none
  | .ok i => some i

/-! ### The encoder -/

/-- A head, low byte first. -/
def putHead (h : Nat) : Bytes := u16le (BitVec.ofNat 16 h)

/-- A natural number in 32 bits. -/
def putNat (n : Nat) : Bytes := u32le (BitVec.ofNat 32 n)

/-- A byte string after its length. -/
def putBytes (b : Bytes) : Bytes := putNat b.length ++ b

/-- A close choice. -/
def putClose : Close → Bytes
  | .idle => [0]
  | .sleep => [1]

/-- An expectation. -/
def putExpect : Expect → Bytes
  | .status => [0]
  | .data n => 1 :: putNat n
  | .raw n => 2 :: putNat n

/-- The head of an operation's call. -/
def headOf : Instr → Nat
  | .serialize _ => Head.serialize
  | .deserialize _ _ => Head.deserialize
  | .send _ => Head.send
  | .receive _ => Head.receive
  | .wake => Head.wake
  | .idle => Head.idle
  | .sleep => Head.sleep
  | .crc16 _ _ => Head.crc16
  | .encodeCommand _ _ _ _ => Head.encodeCommand
  | .decodeResponse _ _ => Head.decodeResponse
  | .transact _ _ _ _ _ _ => Head.transact
  | .read _ _ _ => Head.read
  | .write _ _ _ _ => Head.write
  | .writeMac _ _ _ _ _ => Head.writeMac
  | .nonce _ _ => Head.nonce
  | .genDig _ _ => Head.genDig
  | .genDigCounter _ _ => Head.genDigCounter
  | .checkMac _ _ _ => Head.checkMac
  | .macGen _ _ => Head.macGen
  | .counterRead _ => Head.counterRead
  | .counterIncr _ => Head.counterIncr
  | .selfTest _ => Head.selfTest
  | .lock p1 _ _ => Head.lock + p1.toNat
  | .info _ => Head.info
  | .keyedHash _ _ _ => Head.keyedHash
  | .keyedHashEnd _ _ => Head.keyedHashEnd
  | .chipReset => Head.chipReset
  | .pickNonce _ => Head.pickNonce
  | .gendigSlot _ _ => Head.gendigSlot
  | .ctEqual _ _ => Head.ctEqual
  | .isCorrectTempkey _ => Head.isCorrectTempkey
  | .checkmac _ _ => Head.checkmac
  | .pairUnlock => Head.pairUnlock
  | .encryptedRead _ _ _ _ => Head.encryptedRead
  | .encryptedWrite _ _ _ _ => Head.encryptedWrite
  | .mixin _ _ => Head.mixin
  | .stretch _ _ => Head.stretch
  | .authReadSlot _ => Head.authReadSlot
  | .authReadCounter => Head.authReadCounter
  | .addCounter _ => Head.addCounter
  | .gendigCounter _ => Head.gendigCounter
  | .setup _ => Head.setup
  | .login _ => Head.login
  | .change _ => Head.change
  | .fetchSecret _ => Head.fetchSecret
  | .seDispatch _ _ _ => Head.seDispatch
  | .cmdReadSeSlot _ _ => Head.cmdReadSeSlot
  | .cmdGetRandomBytes _ => Head.cmdGetRandomBytes
  | .cmdIsBricked => Head.cmdIsBricked

/-- The operand words of an operation's call. -/
def putOperands : Instr → Bytes
  | .serialize b => [b]
  | .deserialize symbols maxLen => putBytes symbols ++ putNat maxLen
  | .send bytes => putBytes bytes
  | .receive maxLen => putNat maxLen
  | .wake => []
  | .idle => []
  | .sleep => []
  | .crc16 seed bytes => u16le seed ++ putBytes bytes
  | .encodeCommand opcode p1 p2 data => [opcode] ++ [p1] ++ u16le p2 ++ putBytes data
  | .decodeResponse raw expectedLen => putBytes raw ++ putNat expectedLen
  | .transact opcode p1 p2 data expect close =>
      [opcode] ++ [p1] ++ u16le p2 ++ putBytes data ++ putExpect expect ++ putClose close
  | .read slot block close => u16le slot ++ putNat block ++ putClose close
  | .write slot block data close => u16le slot ++ putNat block ++ data ++ putClose close
  | .writeMac slot block data mac close => u16le slot ++ putNat block ++ data ++ mac ++ putClose close
  | .nonce numin close => numin ++ putClose close
  | .genDig slot close => u16le slot ++ putClose close
  | .genDigCounter id close => u16le id ++ putClose close
  | .checkMac keynum body close => u16le keynum ++ body ++ putClose close
  | .macGen keynum close => u16le keynum ++ putClose close
  | .counterRead close => putClose close
  | .counterIncr close => putClose close
  | .selfTest close => putClose close
  | .lock _ p2 close => u16le p2 ++ putClose close
  | .info close => putClose close
  | .keyedHash keynum msg close => u16le keynum ++ msg ++ putClose close
  | .keyedHashEnd msg close => msg ++ putClose close
  | .chipReset => []
  | .pickNonce numin => numin
  | .gendigSlot slot plaintext => u16le slot ++ plaintext
  | .ctEqual a b => putBytes a ++ putBytes b
  | .isCorrectTempkey expected => expected
  | .checkmac keynum secret => u16le keynum ++ secret
  | .pairUnlock => []
  | .encryptedRead slot authSlot authSecret n => u16le slot ++ u16le authSlot ++ authSecret ++ putNat n
  | .encryptedWrite slot authSlot authSecret data => u16le slot ++ u16le authSlot ++ authSecret ++ putBytes data
  | .mixin keynum start => u16le keynum ++ start
  | .stretch start iterations => start ++ putNat iterations
  | .authReadSlot slot => u16le slot
  | .authReadCounter => []
  | .addCounter n => putNat n
  | .gendigCounter value => u32le value
  | .setup record => record
  | .login record => record
  | .change record => record
  | .fetchSecret record => record
  | .seDispatch method len arg2 => u32le method ++ putNat len ++ u32le arg2
  | .cmdReadSeSlot len arg2 => putNat len ++ u32le arg2
  | .cmdGetRandomBytes len => putNat len
  | .cmdIsBricked => []

/-- The words of an operation's call. -/
def encode (i : Instr) : Bytes := putHead (headOf i) ++ putOperands i

end Sys2Proof
end

