-- ==== Sys2Proof/Machine/Memory.lean ====
section
/-! DEFINITION. Sparse memory as a list of cells in one canonical form (spec/20_memory.md R47, R48). -/

namespace Sys2Proof.Machine

/-- What an address that is not listed reads as (log 11). -/
def unlistedByte : Byte := 0

/-- The byte at an address. -/
def memByte : List Host.Cell → Nat → Byte
  | [], _ => unlistedByte
  | (b, v) :: m, a => if b = a then v else memByte m a

/-- Store one byte, keeping the addresses rising and no entry equal to what an unlisted address reads as. -/
def memSet : List Host.Cell → Nat → Byte → List Host.Cell
  | [], a, v => if v = unlistedByte then [] else [(a, v)]
  | (b, w) :: m, a, v =>
    if a < b then (if v = unlistedByte then (b, w) :: m else (a, v) :: (b, w) :: m)
    else if a = b then (if v = unlistedByte then m else (a, v) :: m)
    else (b, w) :: memSet m a v

/-- The canonical form: addresses strictly rising, no entry equal to what an unlisted address reads as. -/
def memWf (m : List Host.Cell) : Bool :=
  decide (m.Pairwise (fun x y => x.1 < y.1)) && m.all (fun x => decide (x.2 ≠ unlistedByte))

/-- The `n` bytes from an address on. -/
def memRead (m : List Host.Cell) (a n : Nat) : Bytes := (List.range n).map (fun i => memByte m (a + i))

/-- Store a byte string from an address on. -/
def memWrite (m : List Host.Cell) (a : Nat) : Bytes → List Host.Cell
  | [] => m
  | v :: vs => memWrite (memSet m a v) (a + 1) vs

end Sys2Proof.Machine
end

