-- ==== Sys2Proof/Machine/Provision.lean ====
section
/-! DEFINITION. Block addresses (spec/30_encoding.md R82), and the chip as it is provisioned to match the device
(spec/20_memory.md R48, R55, R67; spec/70_reset_and_hazards.md R220): what its slots hold and how they are protected. -/

namespace Sys2Proof.Machine

open Sys2Proof.Config (Params AccessRule)

/-- `P2_ADDR(slot, block)` (R82): the table where it has an entry, else the K4 formula (log 13). -/
def p2Addr (c : Params) (slot : SlotId) (block : Nat) : Word16 :=
  match c.p2Table.lookup (slot, block) with
  | some v => v
  | none => BitVec.ofNat 16 (block <<< 8 ||| slot.toNat <<< 3)

/-- Where the 32-byte block with a given block address lies in the list of cells (R64: an access is named by slot and
block, which the command carries as `P2_ADDR(slot, block)`; log 11). -/
def blockBase (p2 : Word16) : Nat := p2.toNat * Config.blockLen

/-- Block 0 of the `match_count` slot: the value twice, then zeros (R55, R166). -/
def matchCountBlock (mc : Word32) : Bytes := u32le mc ++ u32le mc ++ zeros 24

/-- A key slot's content that the spec does not give (R48; a free value). -/
def unknownKey (slot : SlotId) : Bytes := (List.range Config.blockLen).map (Config.chipKeyByte slot)

/-- Block 0 of a slot stored among the cells. -/
def provisionSlot (c : Params) (m : List Host.Cell) (slot : SlotId) (v : Bytes) : List Host.Cell :=
  memWrite m (blockBase (p2Addr c slot 0)) v

/-- What a freshly provisioned chip holds (R48, R220): the pairing secret, the two keys, a `match_count` that is a multiple
of `QUANT` (R55); `pin_hash`, `lastgood` and the seed are zero (log 12). -/
def provisionedSlots (c : Params) : List Host.Cell :=
  provisionSlot c (provisionSlot c (provisionSlot c (provisionSlot c [] c.slot.pairing c.rom.pairingSecret)
    c.slot.kdf (unknownKey c.slot.kdf)) c.slot.pinAttempt (unknownKey c.slot.pinAttempt))
    c.slot.matchCount (matchCountBlock (BitVec.ofNat 32 Config.chipQuanta * c.quant))

/-- The rule of one block. -/
def provisionRule (c : Params) (slot : SlotId) (block : Nat) (read write : Config.Access) : AccessRule where
  addr := p2Addr c slot block
  read := read
  write := write
  needsPairing := Config.ruleNeedsPairing (p2Addr c slot block)

/-- The rules under which the accesses of R52 are permitted (R67, R220): `pin_hash` is written under a proof of its own old
content; `match_count` and `lastgood` are read in the clear and written under a proof of `pin_hash`, which also protects the
seed both ways. Every other block is the chip's own affair (log 20). -/
def provisionedRules (c : Params) : List AccessRule :=
  let proof := Config.Access.encrypted (some c.slot.pinHash)
  [provisionRule c c.slot.pinHash 0 Config.pinHashRead proof, provisionRule c c.slot.matchCount 0 .clear proof,
   provisionRule c c.slot.lastgood 0 .clear proof, provisionRule c c.slot.seed 0 proof proof,
   provisionRule c c.slot.seed 1 proof proof, provisionRule c c.slot.seed 2 proof proof] ++ Config.chipPolicy

end Sys2Proof.Machine
end

