-- ==== Sys2Proof/Machine/State.lean ====
section
/-! DEFINITION. The machine's state as plain data: the registers of spec/10_state.md R20, the LINE port and WIRE
(R15, R38), the HOST's buffer and pending actions (R14, R51), CHIP behind the line (R37, spec/20_memory.md R47), the
draws of ENTROPY and TIMER (R17, R19), and the model's own control fields; the ways a step can stop; the state after a
cold reset (R40, spec/70_reset_and_hazards.md R215). -/

namespace Sys2Proof.Machine

/-! ### Outcomes of an operation -/

/-- Why the machine stops: a case to which the spec gives no meaning. -/
inductive Fault where
  /-- `counter0 + MAX_ATTEMPTS + 32` reached 2^32, against the precondition of R174 (U22: stuck). Raised by
  `goodLoginUpdates`. Safe: the model stops where the spec gives no meaning. -/
  | counterBudget
deriving DecidableEq, Repr

/-- Why a step has no meaning for what it was asked. -/
inductive Refusal where
  /-- The operation has no meaning in this model yet. Raised by `exec`'s arms alone. Safe. -/
  | notModelled (mnemonic : String)
  /-- A pending call's words are not an operation's. Raised by `step`. Safe. -/
  | illegalCall (why : DecodeRefusal)
  /-- `encode_command` or `transact` with more than `MAX_DATA_LEN` data bytes: R114 has a model refuse it. Raised by
  those two meanings. Safe. -/
  | dataTooLong
deriving DecidableEq, Repr

/-- The tag of a `BusTimeout`, for the model's bookkeeping only (R107). -/
inductive TimeoutTag where
  | tx
  | rx
deriving DecidableEq, Repr

/-- The error outcomes of R187, and the model's own `stop` for a run that reached a state without meaning (it is no
outcome of R187 and nothing catches it). -/
inductive Err where
  | busTimeout (tag : TimeoutTag)
  | shortRead
  | lengthMismatch
  | crcMismatch
  | retriesExhausted
  | chipError (code : Byte)
  | seFailure
  | badRequest
  | hmacFail
  | authFail
  | oldAuthFail
  | brick
  | stop (f : Fault)
deriving DecidableEq, Repr

/-- The result an operation returns on success (R11). -/
inductive Value where
  | unit
  | bytes (b : Bytes)
  | symbols (s : List Symbol)
  | word16 (w : Word16)
  | word32 (w : Word32)
  | flag (b : Bool)
  | code (c : Int)
deriving DecidableEq, Repr

/-- How the last operation ended (R11); `none` before any has. -/
inductive Ending where
  | none
  | success (v : Value)
  | error (e : Err)
deriving DecidableEq, Repr

/-! ### Draws -/

/-- A stream of draws (R10 `draw`, `Rand`): first the scripted answers, then one answer for good where there is one, else
the free values of Config; `taken` counts the draws since the script. -/
structure Draws (α : Type) where
  script : List α
  taken : Nat
  forever : Option α := none
deriving DecidableEq, Repr

/-! ### Registers of BLOCK (R20) -/

/-- The sequencer's position (R24). -/
inductive Phase where
  | ready
  | waking
  | sending
  | receiving
  | closing
deriving DecidableEq, Repr

/-- The line state the block last put the chip in (R25). -/
inductive LState where
  | asleep
  | awake
  | idled
deriving DecidableEq, Repr

/-- The register list of R20. A register that can hold no value has a mark beside it (`tkValid`, `digestHeld`,
`cacheHeld`, `recHeld`). -/
structure Regs where
  txbuf : Bytes
  rxbuf : Bytes
  crc : Word16
  tk : Bytes
  tkValid : Bool
  phase : Phase
  lstate : LState
  baudsel : Bool
  tof : Bool
  retry : Nat
  busCalls : Nat
  digest : Bytes
  digestHeld : Bool
  cache : Bytes
  cacheHeld : Bool
  bootSeed : Bytes
  record : Bytes
  recHeld : Bool
deriving DecidableEq, Repr

/-! ### LINE port and WIRE -/

/-- What WIRE sees the block do (R46, R213): a symbol sent or the line held low, and whether the halved rate was
selected. -/
inductive LineEvent where
  | sym (x : Symbol) (half : Bool)
  | low (half : Bool)
deriving DecidableEq, Repr

/-- The line: every event so far (R213), the symbols on their way to CHIP, the symbols that arrived and were not
consumed (R38, R109), and WIRE's choices (R74). -/
structure Wire where
  trace : List LineEvent
  inFlight : List Symbol
  arrived : List Symbol
  outMoves : Draws Config.OutMove
  inMoves : Draws Config.InMove
deriving DecidableEq, Repr

/-! ### HOST -/

/-- One action of the environment between operations: a call in the words of Decode; a call in which power is lost once
BLOCK has tried `n` symbols and low pulses (R71, R73); an edit of the call buffer (R13); symbols that WIRE puts on the line
outside a receive (R38); symbols that WIRE lets CHIP hear while BLOCK is silent (R13, R74); CHIP's watchdog running out
(R59, R214); a power cycle (R215). -/
inductive HostAction where
  | call (words : Bytes)
  | cut (words : Bytes) (n : Nat)
  | setBuf (buf : Bytes)
  | stray (symbols : List Symbol)
  | forge (symbols : List Symbol)
  | watchdog
  | coldReset
deriving DecidableEq, Repr

/-- HOST's buffer (R14, R51) and what it will do next. -/
structure HostSide where
  buf : Bytes
  pending : List HostAction
deriving DecidableEq, Repr

/-! ### CHIP -/

/-- The chip's power states (R214). -/
inductive Power where
  | asleep
  | awake
  | idled
deriving DecidableEq, Repr

/-- CHIP: the SE space of R47 (slots as cells in canonical form, TempKey, `counter0`) and what else the contract of
R53 to R60 makes it remember. -/
structure Chip where
  slots : List Host.Cell
  tempKey : Bytes
  tempKeyValid : Bool
  /-- The key slot whose content was folded into TempKey last, if TempKey came from such a `GenDig` (R54, R67). -/
  folded : Option SlotId
  counter0 : CounterValue
  power : Power
  /-- The response it holds, as the bytes it would send (R103); it repeats it at every prompt until the next command. -/
  reply : Option Bytes
  /-- A transmit prompt has been heard and not answered (R79). -/
  prompted : Bool
  /-- The key slot of a keyed hash that was started (R134). -/
  startedHash : Option SlotId
  /-- The pairing unlock (R144, R217). -/
  paired : Bool
  /-- The locks made (R132). -/
  locks : List (Byte × Word16)
  selfTestFailed : Bool
  policy : List Config.AccessRule
  serial : Bytes
  rng : Draws Byte
  watchdog : Draws Config.Watchdog
  lapse : Draws Bool
  coin : Draws Bool
deriving DecidableEq, Repr

/-! ### ENTROPY, TIMER, control -/

/-- The draws of ENTROPY (R17, R179) and TIMER (R101, R104), and those of junk symbols (R100). -/
structure Env where
  rand : Draws Byte
  junk : Draws Bool
  stall : Draws Bool
  delay : Draws Nat
deriving DecidableEq, Repr

/-- The model's own control fields: the boot actions of R215 have run; how the last operation ended; the mark that R41
asks for, of a run that read a register holding no value. -/
structure Ctl where
  booted : Bool
  ending : Ending
  unmeant : Bool := false
deriving DecidableEq, Repr

/-- The whole machine. -/
structure State where
  /-- The parameters (R39): carried here so that a statement about every state covers every value; never written. -/
  cfg : Config.Params
  reg : Regs
  wire : Wire
  host : HostSide
  chip : Chip
  env : Env
  ctl : Ctl
deriving DecidableEq, Repr

/-! ### Cold reset -/

/-- The "after cold reset" column of R40, given the draw for `BOOT_SEED`. "No value" is a clear mark beside zeros
(log 6). -/
def Regs.cold (bootSeed : Bytes) : Regs where
  txbuf := []
  rxbuf := []
  crc := 0
  tk := zeros Config.blockLen
  tkValid := false
  phase := .ready
  lstate := .asleep
  baudsel := false
  tof := false
  retry := 0
  busCalls := 0
  digest := zeros Config.blockLen
  digestHeld := false
  cache := zeros Config.blockLen
  cacheHeld := false
  bootSeed := bootSeed
  record := zeros Config.recordLen
  recHeld := false

/-- A draw stream with nothing scripted, from which `n` free values have been drawn. -/
def Draws.free {α : Type} (n : Nat) : Draws α := { script := [], taken := n }

/-- CHIP before the block first reaches it: asleep, provisioned to match the device (R220), never used (log 12). -/
def Chip.initial : Chip where
  slots := provisionedSlots Config.defaults
  tempKey := zeros Config.blockLen
  tempKeyValid := false
  folded := none
  counter0 := 0
  power := .asleep
  reply := none
  prompted := false
  startedHash := none
  paired := false
  locks := []
  selfTestFailed := false
  policy := provisionedRules Config.defaults
  serial := Config.defaults.rom.seSerial
  rng := Draws.free 0
  watchdog := Draws.free 0
  lapse := Draws.free 0
  coin := Draws.free 0

/-- The machine right after a cold reset: every register as R40 gives it, `BOOT_SEED` drawn from ENTROPY, nothing on
the line, no call pending, and the random delay and chip reset of R215 still to come (`booted = false`; log 9). -/
def State.reset : State where
  cfg := Config.defaults
  reg := Regs.cold ((List.range 32).map Config.freeRand)
  wire := { trace := [], inFlight := [], arrived := [], outMoves := Draws.free 0, inMoves := Draws.free 0 }
  host := { buf := [], pending := [] }
  chip := Chip.initial
  env := { rand := Draws.free 32, junk := Draws.free 0, stall := Draws.free 0, delay := Draws.free 0 }
  ctl := { booted := false, ending := .none }

end Sys2Proof.Machine
end

