-- ==== Sys2Proof/Machine/Ops.lean ====
section
/-! DEFINITION. The shared operations: how an operation runs, raises, catches and ends (spec/60_exceptions.md R199, R205 to
R208), draws (spec/00_scope.md R10), the registers and the rule on reading one that holds no value (spec/10_state.md R41),
the host's buffer (R51). -/

namespace Sys2Proof.Machine

/-! ### Running, raising, catching -/

/-- An operation in progress: it ends with a result or an error outcome, and in either case with the state as written
so far, nothing rolled back (R11, R205). -/
abbrev Op (α : Type) := EStateM Err State α

/-- `raise E` (R10, R205): the operation ends with `E`; registers keep the values written so far. -/
def raise {α : Type} (e : Err) : Op α := fun s => .error e s

/-- The whole state, read. -/
def getState : Op State := fun s => .ok s s

/-- A change of state that always succeeds. -/
def modifyState (f : State → State) : Op Unit := fun s => .ok () (f s)

/-- The parameters. -/
def getCfg : Op Config.Params := fun s => .ok s.cfg s

/-- A change of BLOCK's registers. -/
def modifyReg (f : Regs → Regs) : Op Unit := modifyState (fun s => { s with reg := f s.reg })

/-- `catch` (R10, R199): run `x`; where it raises, `handler` decides on the outcome. A `stop` of the model is no outcome
of R187 and passes. -/
def catching {α : Type} (x : Op α) (handler : Err → Op α) : Op α := fun s =>
  match x s with
  | .ok a s' => .ok a s'
  | .error (.stop f) s' => .error (.stop f) s'
  | .error e s' => handler e s'

/-- Run `x` and give its outcome as a value: the `outcome <- run body()` of R177. -/
def outcomeOf {α : Type} (x : Op α) : Op (Except Err α) :=
  catching (do let a ← x; pure (.ok a)) (fun e => pure (.error e))

/-- Record how an operation ended (R11). -/
def State.endWith (s : State) (e : Ending) : State := { s with ctl := { s.ctl with ending := e } }

/-- An operation of the BitBus, FrameCodec and SeLink layers run to its end: it always reaches a next state, with its
result or its error outcome recorded (R11). -/
def run {α : Type} (x : Op α) (v : α → Value) (s : State) : Host.Outcome State Fault Refusal :=
  .next (match x s with
    | .ok a s' => s'.endWith (.success (v a))
    | .error e s' => s'.endWith (.error e))

/-- An operation of the layers above, which may reach a state without meaning: then the machine stops (U22). -/
def runOrStop {α : Type} (x : Op α) (v : α → Value) (s : State) : Host.Outcome State Fault Refusal :=
  match x s with
  | .ok a s' => .next (s'.endWith (.success (v a)))
  | .error (.stop f) _ => .fault f
  | .error e s' => .next (s'.endWith (.error e))

/-- The result code of an outcome (R187, column "reaches the host as"). -/
def resultCode (c : Config.ResultCodes) : Except Err Unit → Int
  | .ok _ => c.ok
  | .error .badRequest => c.badRequest
  | .error .hmacFail => c.hmacFail
  | .error .authFail => c.authFail
  | .error .oldAuthFail => c.oldAuthFail
  | .error .brick => c.iAmBrick
  | .error (.busTimeout _) => c.seFailure
  | .error .shortRead => c.seFailure
  | .error .lengthMismatch => c.seFailure
  | .error .crcMismatch => c.seFailure
  | .error .retriesExhausted => c.seFailure
  | .error (.chipError _) => c.seFailure
  | .error .seFailure => c.seFailure
  | .error (.stop _) => c.seFailure

/-! ### Draws -/

/-- The next draw of a stream: the next scripted answer, or the one for good, or else the next free value. -/
def Draws.next {α : Type} (d : Draws α) (free : Nat → α) : α × Draws α :=
  match d.script with
  | x :: rest => (x, { d with script := rest })
  | [] =>
    (match d.forever with
      | some x => x
      | none => free d.taken, { d with taken := d.taken + 1 })

/-- `n` draws of a stream, in order. -/
def Draws.nextMany {α : Type} (free : Nat → α) : Nat → Draws α → List α × Draws α
  | 0, d => ([], d)
  | n + 1, d =>
    let (x, d') := d.next free
    let (xs, d'') := Draws.nextMany free n d'
    (x :: xs, d'')

/-- The transmit-ready poll hits its ceiling: `draw(Bool)` (R101, R104). -/
def drawStall : Op Bool := fun s =>
  let r := s.env.stall.next Config.freeStall
  .ok r.1 { s with env := { s.env with stall := r.2 } }

/-- The bit a junk symbol inside a group reads as: `draw({0, 1})` (R100). -/
def drawJunk : Op Bool := fun s =>
  let r := s.env.junk.next Config.freeJunk
  .ok r.1 { s with env := { s.env with junk := r.2 } }

/-- `Rand(n)` (R17). -/
def rand (n : Nat) : Op Bytes := fun s =>
  let r := Draws.nextMany Config.freeRand n s.env.rand
  .ok r.1 { s with env := { s.env with rand := r.2 } }

/-- `random_delay(bound)`: `draw(0 .. bound)` milliseconds, without effect in a model without time (R179, R240). The
answer is the delay drawn. -/
def randomDelay (bound : Nat) : Op Nat := fun s =>
  let r := s.env.delay.next Config.freeDelay
  .ok (r.1 % (bound + 1)) { s with env := { s.env with delay := r.2 } }

/-! ### Registers -/

/-- The run is marked as one that read a register holding no value (R41). -/
def State.markUnmeant (s : State) : State := { s with ctl := { s.ctl with unmeant := true } }

/-- Read a register that may hold no value: without one the operation faults with `SeFailure` and the run is marked (R41,
U1). -/
def readHeld (held : Regs → Bool) (value : Regs → Bytes) : Op Bytes := fun s =>
  if held s.reg then .ok (value s.reg) s else .error .seFailure s.markUnmeant

/-- Read `TK` (R41). -/
def readTk : Op Bytes := readHeld Regs.tkValid Regs.tk

/-- Read `DIGEST` (R41). -/
def readDigest : Op Bytes := readHeld Regs.digestHeld Regs.digest

/-- Read `CACHE` (R41). -/
def readCache : Op Bytes := readHeld Regs.cacheHeld Regs.cache

/-- Read `REC` (R41, U1). -/
def readRec : Op Bytes := readHeld Regs.recHeld Regs.record

/-- `reg.TK <- v; reg.TK_VALID <- 1` (R23). -/
def writeTk (v : Bytes) : Op Unit := modifyReg (fun r => { r with tk := v, tkValid := true })

/-- `reg.TK_VALID <- 0` (R23). -/
def clearTkValid : Op Unit := modifyReg (fun r => { r with tkValid := false })

/-- `reg.DIGEST <- v` (R30). -/
def writeDigest (v : Bytes) : Op Unit := modifyReg (fun r => { r with digest := v, digestHeld := true })

/-- `reg.CACHE <- v` (R31). -/
def writeCache (v : Bytes) : Op Unit := modifyReg (fun r => { r with cache := v, cacheHeld := true })

/-- `reg.REC <- v` (R33). -/
def writeRec (v : Bytes) : Op Unit := modifyReg (fun r => { r with record := v, recHeld := true })

/-- `reg.REC <- no value` (R180). -/
def releaseRec : Op Unit := modifyReg (fun r => { r with record := zeros Config.recordLen, recHeld := false })

/-- What `RXBUF` holds of the bytes read: all of them, where it has room; of more, a free value (R20, R102; log 24). -/
def rxHeld (b : Bytes) : Bytes := if b.length ≤ Config.bufLen then b else List.ofFn (Config.rxOverflow b)

/-- `pc <- target` (R10, R24). -/
def setPhase (p : Phase) : Op Unit := modifyReg (fun r => { r with phase := p })

/-! ### The host's buffer -/

/-- The `n` bytes of the host's buffer from index `i` on; a byte beyond the list reads 0x00 (R51; log 16). -/
def hostBytes (buf : Bytes) (i n : Nat) : Bytes := (List.range n).map (fun k => buf.getD (i + k) 0)

/-- Read `slice(buf, i, n)` (R51). -/
def hostRead (i n : Nat) : Op Bytes := fun s => .ok (hostBytes s.host.buf i n) s

/-- The host's buffer with its first bytes overwritten by `v`. -/
def hostOverwrite (buf v : Bytes) : Bytes := v ++ buf.drop v.length

/-- `buf[0 .. |v| - 1] <- v` (R51). -/
def hostWrite (v : Bytes) : Op Unit :=
  modifyState (fun s => { s with host := { s.host with buf := hostOverwrite s.host.buf v } })

end Sys2Proof.Machine
end

