-- ==== Sys2Proof/Machine/Frames.lean ====
section
/-! DEFINITION. The encodings on the line: symbols and bytes (spec/30_encoding.md R77, R78), the CRC (spec/41_framecodec.md
R111, R112), command frames and their parsing (R80 to R84, R97), response frames (R85, R86). -/

namespace Sys2Proof.Machine

open Sys2Proof.Config (Params)

/-- `sym(0) = PULSE0`, `sym(1) = PULSE1` (R78). -/
def symOf (c : Params) (bit : Bool) : Symbol := if bit then c.pulse1 else c.pulse0

/-- `serialize(byte)`: `PULSES_PER_BYTE` symbols, bit 0 first (R99). -/
def serializeByte (c : Params) (b : Byte) : List Symbol :=
  (List.range Config.pulsesPerByte).map (fun i => symOf c (b.getLsbD i))

/-- The symbols of a byte string, ascending index (R78, R101). -/
def serializeBytes (c : Params) (bs : Bytes) : List Symbol := bs.flatMap (serializeByte c)

/-- The two symbols that carry information (R77); every other one is junk. -/
def isPulse (c : Params) (x : Symbol) : Bool := decide (x = c.pulse0) || decide (x = c.pulse1)

/-- The byte whose bits are given, bit 0 first. -/
def byteOfBits : List Bool → Byte
  | [] => 0
  | b :: bs => (byteOfBits bs <<< 1) ||| (if b then 1 else 0)

/-- `crc16_bit(acc, d)` (R111). -/
def crcBit (poly acc : Word16) (d : Bool) : Word16 :=
  if d = acc.getLsbD 15 then acc <<< 1 else (acc <<< 1) ^^^ poly

/-- The accumulator after one byte, bit 0 first (R112). -/
def crcByte (poly acc : Word16) (b : Byte) : Word16 :=
  (List.range 8).foldl (fun a i => crcBit poly a (b.getLsbD i)) acc

/-- `crc16(seed, bytes)` (R112). -/
def crcBytes (poly seed : Word16) (bs : Bytes) : Word16 := bs.foldl (crcByte poly) seed

/-- The CRC of a frame's covered bytes, seeded with `CRC_INIT` (R80, R85). -/
def frameCrc (c : Params) (covered : Bytes) : Word16 := crcBytes c.crcPoly c.crcInit covered

/-- `[n + 7, opcode, p1, p2[7:0], p2[15:8]] ‖ data` (R114). -/
def commandBody (opcode p1 : Byte) (p2 : Word16) (data : Bytes) : Bytes :=
  BitVec.ofNat 8 (data.length + 7) :: opcode :: p1 :: (u16le p2 ++ data)

/-- The command frame (R80). -/
def commandFrame (c : Params) (opcode p1 : Byte) (p2 : Word16) (data : Bytes) : Bytes :=
  c.ioflagCmd :: (commandBody opcode p1 p2 data ++ u16le (frameCrc c (commandBody opcode p1 p2 data)))

/-- What a command frame carries (R97). -/
structure Command where
  opcode : Byte
  p1 : Byte
  p2 : Word16
  data : Bytes
deriving DecidableEq, Repr

/-- Parse an outbound command frame by the table of R80, as a chip does (R97): the flag, the length, the CRC must be
right. -/
def parseCommand (c : Params) : Bytes → Option Command
  | flag :: len :: opcode :: p1 :: lo :: hi :: rest =>
    let n := len.toNat - 7
    let covered := len :: opcode :: p1 :: lo :: hi :: rest.take n
    if flag = c.ioflagCmd ∧ 7 ≤ len.toNat ∧ rest.length = n + 2 ∧ rest.drop n = u16le (frameCrc c covered) then
      some { opcode := opcode, p1 := p1, p2 := word16 lo hi, data := rest.take n }
    else none
  | _ => none

/-- The response frame of a payload (R85). -/
def responseFrame (c : Params) (payload : Bytes) : Bytes :=
  (BitVec.ofNat 8 (payload.length + 3) :: payload) ++
    u16le (frameCrc c (BitVec.ofNat 8 (payload.length + 3) :: payload))

/-- `ST_OK` (R86, R193). -/
def stOk : Byte := 0

/-- The status reply (R86). -/
def statusFrame (c : Params) (st : Byte) : Bytes := responseFrame c [st]

end Sys2Proof.Machine
end

