-- ==== Sys2Proof/Machine/Operands.lean ====
section
/-! DEFINITION. The byte strings that enter a hash (the message layouts of spec/00_scope.md R8, with the structure that
spec/20_memory.md R53, R54 and spec/43_sessioncrypto.md R139 to R152 give them), the hash functions as byte strings
(spec/10_state.md R16), and the fields of the attempt record (spec/44_pinengine.md R154, R155). -/

namespace Sys2Proof.Machine

open Sys2Proof.Config (Params FieldLoc Layout)

/-- `Sha256(B)`: 32 bytes, a function of `B` and nothing else (R16). -/
def sha256 (b : Bytes) : Bytes := List.ofFn (Config.sha256Byte b)

/-- `Hmac256(K, B)`: 32 bytes (R16). -/
def hmac256 (k b : Bytes) : Bytes := List.ofFn (Config.hmac256Byte k b)

/-- `NONCE_CONST`, three bytes (R53). -/
def nonceConst : Bytes := List.ofFn Config.nonceConstByte

/-- `NonceMsg(rng, numin) = rng ‖ numin ‖ NONCE_CONST` (R53). -/
def nonceMsg (rng numin : Bytes) : Bytes := rng ++ numin ++ nonceConst

/-- `GenDigMsg(s, content, t) = content ‖ GENDIG_FIXED(s) ‖ zeros(GENDIG_PAD) ‖ t` (R54). -/
def genDigMsg (slot : SlotId) (content t : Bytes) : Bytes :=
  content ++ Config.genDigFixed slot ++ zeros Config.genDigPad ++ t

/-- `GenDigCounterMsg(id, value, t)` (R54, R152). -/
def genDigCounterMsg (id : SlotId) (value : Word32) (t : Bytes) : Bytes :=
  Config.genDigCounterMsg id (u32le value) t

/-- `TkChkMsg = pairing secret ‖ expected ‖ fixed header ‖ serial number` (R142). -/
def tkChkMsg (pairing expected serial : Bytes) : Bytes := pairing ++ expected ++ Config.tkChkTail serial

/-- `CheckMacMsg(secret, t, od)` (R143). -/
def checkMacMsg (secret t od : Bytes) : Bytes := Config.checkMacMsg secret t od

/-- `WriteMacMsg(d, slot, b, p)`: digest, opcode/p1/p2, zero padding, plaintext (R146); `p2` names slot and block. -/
def writeMacMsg (d : Bytes) (p2 : Word16) (p : Bytes) : Bytes := d ++ Config.writeMacMid p2 ++ p

/-- `CacheMask(hash_cache_secret, BOOT_SEED)`, 32 bytes (R168). -/
def cacheMask (hashCacheSecret bootSeed : Bytes) : Bytes := List.ofFn (Config.cacheMaskByte hashCacheSecret bootSeed)

/-- `Hmac256(RecordMacKey(pairing_secret, BOOT_SEED), covered)` (R157). -/
def recordMac (pairingSecret bootSeed covered : Bytes) : Bytes :=
  hmac256 (Config.recordMacKey pairingSecret bootSeed) covered

/-! ### The record -/

/-- The bytes of a record field. -/
def field (record : Bytes) (f : FieldLoc) : Bytes := slice record f.off f.size

/-- A record with one field overwritten. -/
def withField (record : Bytes) (f : FieldLoc) (v : Bytes) : Bytes := splice record f.off v

/-- A four-byte field as a number (R154: little-endian, unsigned). -/
def fieldWord (record : Bytes) (f : FieldLoc) : Word32 := le32 (field record f)

/-- A record with one four-byte field overwritten by a number. -/
def withFieldWord (record : Bytes) (f : FieldLoc) (v : Word32) : Bytes := withField record f (u32le v)

/-- `covered(rec)`: every byte before `hmac`, and `cached_main_pin` where `HMAC_COVERS_CACHE` is true (R155). -/
def covered (c : Params) (record : Bytes) : Bytes :=
  slice record 0 c.layout.hmac.off ++ (if c.hmacCoversCache then field record c.layout.cachedMainPin else [])

/-- The signature a record should carry (R157). -/
def signatureOf (c : Params) (bootSeed record : Bytes) : Bytes :=
  recordMac c.rom.pairingSecret bootSeed (covered c record)

end Sys2Proof.Machine
end

