-- ==== Sys2Proof/Machine/Flags.lean ====
section
/-! DEFINITION. The record's flag words (spec/10_state.md R34, R35) and the two reported numbers of the attempt budget
(spec/44_pinengine.md R162, R166). The block has no arithmetic condition codes (R36). -/

namespace Sys2Proof.Machine

open Sys2Proof.Config (Params)

/-- `flags & mask != 0` (R165, R170). -/
def hasFlag (flags mask : Word32) : Bool := decide (flags &&& mask ≠ 0)

/-- `flags | mask` (R172). -/
def setFlag (flags mask : Word32) : Word32 := flags ||| mask

/-- `flags & ~mask` (R171, R172). -/
def clearFlag (flags mask : Word32) : Word32 := flags &&& ~~~mask

/-- `PA_ZERO_SECRET` set or cleared by whether the secret is all zero (R172, R173). -/
def zeroSecretFlag (c : Params) (flags : Word32) (isZero : Bool) : Word32 :=
  if isZero then setFlag flags c.flag.zeroSecret else clearFlag flags c.flag.zeroSecret

/-- `change_flags` has neither bit set, or another bit set (R35, R170). -/
def badChangeFlags (c : Params) (cf : Word32) : Bool :=
  decide (cf = 0) || decide (cf &&& ~~~(c.flag.changeWalletPin ||| c.flag.changeSecret) ≠ 0)

/-- `attempts_left = match_count - counter0`, or 0 if exhausted (R162). -/
def attemptsLeft (c mc : Word32) : Word32 := if c < mc then mc - c else 0

/-- `num_fails = counter0 - lastgood`, or the anomaly constant (R162). -/
def numFails (p : Params) (c lg : Word32) : Word32 := if lg ≤ c then c - lg else p.numFailsAnomaly

/-- The precondition of R174: `c + MAX_ATTEMPTS + 32 < 2^32`. -/
def budgetFits (p : Params) (c : Word32) : Bool := decide (c.toNat + p.maxAttempts + p.quant.toNat < 2 ^ 32)

/-- `mc_new = (c + MAX_ATTEMPTS + 32) & ~31` (R166). -/
def newMatchCount (p : Params) (c : Word32) : Word32 :=
  (c + BitVec.ofNat 32 p.maxAttempts + p.quant) &&& ~~~(p.quant - 1)

/-- `bump = mc_new - MAX_ATTEMPTS - c` (R166). -/
def bumpOf (p : Params) (c : Word32) : Nat := (newMatchCount p c).toNat - p.maxAttempts - c.toNat

end Sys2Proof.Machine
end

