-- ==== Sys2Proof/Machine/Chip.lean ====
section
/-! DEFINITION. CHIP, the agent at the far end of the line, as the environment contract describes an honest one
(spec/20_memory.md R47 to R60, spec/30_encoding.md R79, R86, R97, spec/60_exceptions.md R193, R214). No operation of
BLOCK calls anything of this file: BLOCK reaches CHIP only through the LINE port (Machine/Ports.lean), where WIRE may
put anything in the place of what CHIP says or hears (R61, R74). -/

namespace Sys2Proof.Machine

open Sys2Proof.Config (Params Access AccessRule Watchdog)

/-! ### The SE space (R47) -/

/-- An address of the SE space (R47): block `b` of slot `s`, TempKey, a counter. -/
inductive SeAddr where
  | slot (s : SlotId) (b : Nat)
  | tempKey
  | counter (id : SlotId)
deriving DecidableEq, Repr

/-- `MemRead(addr, n)` (R47). -/
def Chip.memRead (c : Params) (ch : Chip) : SeAddr → Nat → Bytes
  | .slot s b, n => Machine.memRead ch.slots (blockBase (p2Addr c s b)) n
  | .tempKey, n => ch.tempKey.take n
  | .counter _, n => (u32le ch.counter0).take n

/-- The 32-byte block at a block address. -/
def Chip.blockAt (ch : Chip) (p2 : Word16) : Bytes := Machine.memRead ch.slots (blockBase p2) Config.blockLen

/-- Store a 32-byte block: the one store a command makes to the slots (R52, R60). -/
def Chip.storeBlock (ch : Chip) (p2 : Word16) (v : Bytes) : Chip :=
  { ch with slots := memWrite ch.slots (blockBase p2) v }

/-- `MemWrite(TEMPKEY, 32, v)` (R53, R54); no key slot's content is in it yet. -/
def Chip.setTempKey (ch : Chip) (v : Bytes) : Chip := { ch with tempKey := v, tempKeyValid := true, folded := none }

/-- TempKey is forgotten (R56, R59). -/
def Chip.dropTempKey (ch : Chip) : Chip := { ch with tempKeyValid := false }

/-- Block 0 of a key slot: what `GenDig`, `CheckMac`, `MacGen` and `KeyedHash` fold or key with (R52). -/
def Chip.keyOf (c : Params) (ch : Chip) (k : SlotId) : Bytes := ch.memRead c (.slot k 0) Config.blockLen

/-- `match_count` as the chip itself reads it (R55, R57). -/
def Chip.matchCount (c : Params) (ch : Chip) : CounterValue := le32 (ch.memRead c (.slot c.slot.matchCount 0) 4)

/-- `counter0` is at its ceiling: the chip refuses to let it exceed `match_count` (R57, R58). -/
def Chip.budgetSpent (c : Params) (ch : Chip) : Bool := decide (ch.matchCount c ≤ ch.counter0)

/-- The slot exists (R8 `NUM_SLOTS`). -/
def slotExists (c : Params) (s : SlotId) : Bool := decide (s.toNat < c.slot.numSlots)

/-- The access rule of a block; a block without one admits nothing (log 20). -/
def Chip.ruleAt (ch : Chip) (p2 : Word16) : AccessRule :=
  match ch.policy.find? (fun r => decide (r.addr = p2)) with
  | some r => r
  | none => { addr := p2, read := .never, write := .never, needsPairing := false }

/-- The pairing unlock that a rule may ask for is there (R144). -/
def Chip.pairingMet (ch : Chip) (r : AccessRule) : Bool := !r.needsPairing || ch.paired

/-- TempKey is valid and, where a key slot is asked for, a proof of knowledge of its content: the slot was folded into it
(R60, R67). -/
def Chip.proves (ch : Chip) (key : Option SlotId) : Bool :=
  ch.tempKeyValid && (decide (key = none) || decide (ch.folded = key))

/-! ### Draws of the chip -/

/-- `n` bytes of the chip's own generator (R53). -/
def Chip.drawBytes (ch : Chip) (n : Nat) : Bytes × Chip :=
  let r := Draws.nextMany Config.freeChipRng n ch.rng
  (r.1, { ch with rng := r.2 })

/-- A two-way choice of the chip: `true` is the unfavourable one (still computing, TempKey lost, test failed). -/
def Chip.drawCoin (ch : Chip) : Bool × Chip :=
  let r := ch.coin.next Config.freeChipCoin
  (r.1, { ch with coin := r.2 })

/-- The watchdog at a command (R59). -/
def Chip.drawWatchdog (ch : Chip) : Watchdog × Chip :=
  let r := ch.watchdog.next Config.freeWatchdog
  (r.1, { ch with watchdog := r.2 })

/-- Whether its watchdog ran out since the last thing it heard (R59, R214). -/
def Chip.drawLapse (ch : Chip) : Bool × Chip :=
  let r := ch.lapse.next Config.freeLapse
  (r.1, { ch with lapse := r.2 })

/-! ### Commands -/

/-- What the chip answers a command with: a payload, a status (R86), or bytes without an envelope (R87). -/
inductive Reply where
  | payload (p : Bytes)
  | status (st : Byte)
  | raw (b : Bytes)
deriving DecidableEq, Repr

/-- The bytes of a reply (R85 to R87). -/
def Reply.toBytes (c : Params) : Reply → Bytes
  | .payload p => responseFrame c p
  | .status st => statusFrame c st
  | .raw b => b

/-- `Read` (R60, R67). -/
def Chip.doRead (c : Params) (ch : Chip) (p2 : Word16) : Reply × Chip :=
  let r := ch.ruleAt p2
  if ch.pairingMet r then
    match r.read with
    | .clear => (.payload (ch.blockAt p2), ch)
    | .encrypted key =>
      if ch.proves key then (.payload (xorBytes (ch.blockAt p2) ch.tempKey), ch) else (.status c.st.exec, ch)
    | .never => (.status c.st.exec, ch)
  else (.status c.st.exec, ch)

/-- `Write` of 32 cleartext bytes (R60). -/
def Chip.doWrite (c : Params) (ch : Chip) (p2 : Word16) (data : Bytes) : Reply × Chip :=
  let r := ch.ruleAt p2
  if ch.pairingMet r ∧ r.write = .clear ∧ data.length = Config.blockLen then (.status stOk, ch.storeBlock p2 data)
  else (.status c.st.exec, ch)

/-- A write of this block under TempKey is admitted (R60, R67). -/
def Chip.writesUnder (ch : Chip) (p2 : Word16) : Bool :=
  ch.pairingMet (ch.ruleAt p2) && (match (ch.ruleAt p2).write with
    | .encrypted key => ch.proves key
    | .clear => false
    | .never => false)

/-- `Write` of 32 bytes under TempKey with a 32-byte MAC (R60, R67, R146). -/
def Chip.doWriteMac (c : Params) (ch : Chip) (p2 : Word16) (data : Bytes) : Reply × Chip :=
  if ch.writesUnder p2 ∧ data.length = 2 * Config.blockLen then
    let p := xorBytes (data.take Config.blockLen) ch.tempKey
    if data.drop Config.blockLen = sha256 (writeMacMsg ch.tempKey p2 p) then (.status stOk, ch.storeBlock p2 p)
    else (.status c.st.miscompare, ch)
  else (.status c.st.exec, ch)

/-- `Nonce` (R53). -/
def Chip.doNonce (c : Params) (ch : Chip) (numin : Bytes) : Reply × Chip :=
  if numin.length = Config.numinLen then
    let (rng, ch') := ch.drawBytes Config.blockLen
    (.payload rng, ch'.setTempKey (sha256 (nonceMsg rng numin)))
  else (.status c.st.parse, ch)

/-- `GenDig` over a data-zone slot (R54). -/
def Chip.doGenDig (c : Params) (ch : Chip) (slot : SlotId) : Reply × Chip :=
  if ch.tempKeyValid ∧ slotExists c slot then
    (.status stOk, { ch.setTempKey (sha256 (genDigMsg slot (ch.keyOf c slot) ch.tempKey)) with folded := some slot })
  else (.status c.st.exec, ch)

/-- `GenDig` over the counter (R54). -/
def Chip.doGenDigCounter (c : Params) (ch : Chip) (id : SlotId) : Reply × Chip :=
  if ch.tempKeyValid ∧ id = c.counterId then
    (.status stOk, ch.setTempKey (sha256 (genDigCounterMsg id ch.counter0 ch.tempKey)))
  else (.status c.st.exec, ch)

/-- `CheckMac` (R56): challenge(32) ‖ response(32) ‖ other(13); TempKey is consumed. A true one on the pairing slot is
the pairing unlock (R144); how long it lasts and what spends it is the model's choice (log 31), and so is the status that a
malformed command gets (log 33). -/
def Chip.doCheckMac (c : Params) (ch : Chip) (k : SlotId) (body : Bytes) : Reply × Chip :=
  if ch.tempKeyValid ∧ slotExists c k ∧ body.length = Config.checkMacBodyLen then
    let response := slice body Config.blockLen Config.blockLen
    let other := slice body (2 * Config.blockLen) Config.otherDataLen
    if response = sha256 (checkMacMsg (ch.keyOf c k) ch.tempKey other) then
      (.status stOk, { ch.dropTempKey with paired := ch.paired || decide (k = c.slot.pairing) })
    else (.status c.st.miscompare, ch.dropTempKey)
  else (.status c.st.exec, ch)

/-- MAC generation bound to a slot (R56); TempKey is consumed. -/
def Chip.doMacGen (c : Params) (ch : Chip) (k : SlotId) : Reply × Chip :=
  if ch.tempKeyValid ∧ slotExists c k then
    (.payload (sha256 (tkChkMsg (ch.keyOf c k) ch.tempKey ch.serial)), ch.dropTempKey)
  else (.status c.st.exec, ch)

/-- `Counter` in read mode (R57). -/
def Chip.doCounterRead (c : Params) (ch : Chip) (id : SlotId) : Reply × Chip :=
  if id = c.counterId then (.payload (u32le ch.counter0), ch) else (.status c.st.exec, ch)

/-- `Counter` in increment mode (R57): exactly one, and never past `match_count`. -/
def Chip.doCounterIncr (c : Params) (ch : Chip) (id : SlotId) : Reply × Chip :=
  if id = c.counterId ∧ ¬ ch.budgetSpent c then
    (.payload (u32le (ch.counter0 + 1)), { ch with counter0 := ch.counter0 + 1 })
  else (.status c.st.exec, ch)

/-- `SelfTest` (R131, R193): the verdict is the chip's. -/
def Chip.doSelfTest (c : Params) (ch : Chip) : Reply × Chip :=
  let (failed, ch') := ch.drawCoin
  (.status (if failed then c.st.selfTest else stOk), { ch' with selfTestFailed := failed })

/-- `Lock` (R132): irreversible. -/
def Chip.doLock (ch : Chip) (p1 : Byte) (p2 : Word16) : Reply × Chip :=
  (.status stOk, { ch with locks := (p1, p2) :: ch.locks })

/-- `Info` (R87): raw bytes of the chip's choice. -/
def Chip.doInfo (c : Params) (ch : Chip) : Reply × Chip :=
  let (b, ch') := ch.drawBytes c.infoRawLen
  (.raw b, ch')

/-- The first command of a keyed hash (R58, R134): with the `pin_attempt` key the chip first charges one attempt, and
refuses when the budget is spent. That it does so at this command and not at the second is the model's choice (log 32). -/
def Chip.doHashStart (c : Params) (ch : Chip) (k : SlotId) : Reply × Chip :=
  if slotExists c k then
    if k = c.slot.pinAttempt then
      if ch.budgetSpent c then (.status c.st.exec, ch)
      else (.status stOk, { ch with counter0 := ch.counter0 + 1, startedHash := some k })
    else (.status stOk, { ch with startedHash := some k })
  else (.status c.st.exec, ch)

/-- The second command of a keyed hash (R60, R134). That the key is what its slot holds by then, and that a message of another
length leaves the hash started, is the model's choice (log 32). -/
def Chip.doHashEnd (c : Params) (ch : Chip) (msg : Bytes) : Reply × Chip :=
  match ch.startedHash with
  | some k =>
    if msg.length = Config.blockLen then (.payload (hmac256 (ch.keyOf c k) msg), { ch with startedHash := none })
    else (.status c.st.parse, ch)
  | none => (.status c.st.exec, ch)

/-- One command executed, whole or not at all (R65): the opcode and `p1` select it (R84, R97). Which commands leave a started
keyed hash alone (log 32), which error status each refusal gets (log 33), that data on a command that takes none and a `p2`
other than the one R84 fixes are ignored, and that of commands with the same opcode and `p1` the first of R84's table is meant
(log 34), is the model's choice. After a failed self-test
every command but `SelfTest` is answered with that status (R193). -/
def Chip.perform (c : Params) (ch : Chip) (cmd : Command) : Reply × Chip :=
  if ch.selfTestFailed ∧ cmd.opcode ≠ c.op.selfTest then (.status c.st.selfTest, ch)
  else if cmd.opcode = c.op.read ∧ cmd.p1 = c.p1.read32 then ch.doRead c cmd.p2
  else if cmd.opcode = c.op.write ∧ cmd.p1 = c.p1.write32 then ch.doWrite c cmd.p2 cmd.data
  else if cmd.opcode = c.op.write ∧ cmd.p1 = c.p1.write32Enc then ch.doWriteMac c cmd.p2 cmd.data
  else if cmd.opcode = c.op.nonce ∧ cmd.p1 = c.p1.nonce then ch.doNonce c cmd.data
  else if cmd.opcode = c.op.genDig ∧ cmd.p1 = c.p1.genDigData then ch.doGenDig c cmd.p2
  else if cmd.opcode = c.op.genDig ∧ cmd.p1 = c.p1.genDigCounter then ch.doGenDigCounter c cmd.p2
  else if cmd.opcode = c.op.checkMac ∧ cmd.p1 = c.p1.checkMac then ch.doCheckMac c cmd.p2 cmd.data
  else if cmd.opcode = c.op.macGen ∧ cmd.p1 = c.p1.macGen then ch.doMacGen c cmd.p2
  else if cmd.opcode = c.op.counter ∧ cmd.p1 = c.p1.counterRead then ch.doCounterRead c cmd.p2
  else if cmd.opcode = c.op.counter ∧ cmd.p1 = c.p1.counterIncr then ch.doCounterIncr c cmd.p2
  else if cmd.opcode = c.op.selfTest ∧ cmd.p1 = c.p1.selfTest then ch.doSelfTest c
  else if cmd.opcode = c.op.lock then ch.doLock cmd.p1 cmd.p2
  else if cmd.opcode = c.op.info ∧ cmd.p1 = c.p1.info then ch.doInfo c
  else if cmd.opcode = c.op.keyedHash ∧ cmd.p1 = c.p1.keyedHashStart then ch.doHashStart c cmd.p2
  else if cmd.opcode = c.op.keyedHash ∧ cmd.p1 = c.p1.keyedHashEnd then ch.doHashEnd c cmd.data
  else (.status c.st.parse, ch)

/-- The chip holds a response and waits to be prompted. -/
def Chip.holdReply (ch : Chip) (b : Bytes) : Chip := { ch with reply := some b, prompted := false }

/-- The sleep token, the watchdog running out, a loss of power: watchdog stopped, TempKey, pairing unlock and started hash
forgotten (R59, R79, R214, R217; logs 31, 32). -/
def Chip.fallAsleep (ch : Chip) : Chip :=
  { ch.dropTempKey with power := .asleep, paired := false, reply := none, prompted := false, startedHash := none }

/-- A command arrives: the watchdog draw decides whether it is executed and answered; or answered with the watchdog status,
executed or not, TempKey lost or not; or executed or not by a chip that then falls asleep by itself, still answering with
that status or not (R59, R214, U8, U11). -/
def Chip.command (c : Params) (ch : Chip) (cmd : Command) : Chip :=
  let (w, ch1) := ch.drawWatchdog
  match w with
  | .quiet =>
    let (r, ch2) := ch1.perform c cmd
    ch2.holdReply (r.toBytes c)
  | .expiring executed lost =>
    let ch2 := if executed then (ch1.perform c cmd).2 else ch1
    let ch3 := if lost then ch2.dropTempKey else ch2
    ch3.holdReply (statusFrame c c.st.watchdog)
  | .expired executed answers =>
    let ch2 := (if executed then (ch1.perform c cmd).2 else ch1).fallAsleep
    if answers then ch2.holdReply (statusFrame c c.st.watchdog) else ch2

/-! ### Tokens, waking, answering -/

/-- The idle token: watchdog stopped, TempKey kept (R59, R79), a started hash kept (R134), the pairing unlock too (log 31). -/
def Chip.goIdle (ch : Chip) : Chip := { ch with power := .idled, reply := none, prompted := false }

/-- What a message does to a chip that is awake: a token (R79) or a command frame (R97). A frame that does not parse is
answered with the communication-error status (R193). -/
def Chip.hearAwake (c : Params) (ch : Chip) (msg : Bytes) : Chip :=
  if some msg = c.ioflagTx.map (fun t => [t]) then { ch with prompted := true }
  else if msg = [c.ioflagIdle] then ch.goIdle
  else if msg = [c.ioflagSleep] then ch.fallAsleep
  else match parseCommand c msg with
    | some cmd => ch.command c cmd
    | none => if msg.head? = some c.ioflagCmd then ch.holdReply (statusFrame c c.st.comm) else ch

/-- What a message does to the chip: nothing unless it is awake, its watchdog not run out meanwhile (R59, R214). -/
def Chip.hear (c : Params) (ch : Chip) (msg : Bytes) : Chip :=
  match ch.power with
  | .awake =>
    let (lapsed, ch1) := ch.drawLapse
    if lapsed then ch1.fallAsleep else ch1.hearAwake c msg
  | .asleep => ch
  | .idled => ch

/-- The low pulse (R104, R214): an idled chip keeps TempKey; whether one that is awake does is open (U9), unless its
watchdog ran out meanwhile. Directly after it the chip's response is the after-wake status (R193). -/
def Chip.wakeUp (c : Params) (ch : Chip) : Chip :=
  match ch.power with
  | .awake =>
    let (lapsed, ch1) := ch.drawLapse
    let (lost, ch2) := ch1.drawCoin
    let ch3 := if lapsed then ch2.fallAsleep else if lost then ch2.dropTempKey else ch2
    { ch3.holdReply (statusFrame c c.st.wake) with power := .awake }
  | .asleep => { ch.holdReply (statusFrame c c.st.wake) with power := .awake }
  | .idled => { ch.holdReply (statusFrame c c.st.wake) with power := .awake }

/-- What the chip puts on the line when the block listens (R103): its response if it was prompted (or no prompt is
configured), nothing while it is still computing; a chip that fell asleep by itself gives at most the watchdog status it
was about to give (R59). -/
def Chip.answer (c : Params) (ch : Chip) : Bytes × Chip :=
  match ch.power with
  | .awake =>
    if ch.prompted ∨ c.ioflagTx = none then
      let (busy, ch1) := ch.drawCoin
      let ch2 := { ch1 with prompted := false }
      if busy then ([], ch2) else (ch2.reply.getD [], ch2)
    else ([], ch)
  | .asleep => (ch.reply.getD [], { ch with reply := none })
  | .idled => ([], ch)

/-- What the chip makes of the symbols that reach it: whole groups of `PULSES_PER_BYTE` pulses, bit 0 first (R78); a message
with a junk symbol or a part of a group in it is nothing to it (log 17). -/
def cleanBytes (c : Params) : Nat → List Symbol → Option Bytes
  | 0, syms => if syms = [] then some [] else none
  | n + 1, syms =>
    if syms = [] then some []
    else if syms.length < Config.pulsesPerByte then none
    else if (syms.take Config.pulsesPerByte).all (isPulse c) then
      match cleanBytes c n (syms.drop Config.pulsesPerByte) with
      | some rest => some (byteOfBits ((syms.take Config.pulsesPerByte).map (fun x => decide (x = c.pulse1))) :: rest)
      | none => none
    else none

/-- The chip hears a burst of symbols. -/
def Chip.hearSymbols (c : Params) (ch : Chip) (syms : List Symbol) : Chip :=
  match cleanBytes c syms.length syms with
  | some msg => ch.hear c msg
  | none => ch

end Sys2Proof.Machine
end

