-- ==== Sys2Proof/Machine/Ports.lean ====
section
/-! DEFINITION. The LINE port (spec/10_state.md R15): what BLOCK can do on the wire, and the agents at its other end. Each
message goes through WIRE, which passes it to CHIP or puts other symbols in its place; each burst is what WIRE injects
or what CHIP answers (spec/20_memory.md R74, spec/40_bitbus.md R103). BLOCK sees nothing of CHIP but bursts. -/

namespace Sys2Proof.Machine

open Sys2Proof.Config (OutMove InMove)

/-- `LineTx(s)` (R10): the symbol is on the line, at the rate `BAUDSEL` selects. -/
def lineTx (x : Symbol) : Op Unit := modifyState (fun s =>
  { s with wire := { s.wire with trace := s.wire.trace ++ [.sym x s.reg.baudsel], inFlight := s.wire.inFlight ++ [x] } })

/-- CHIP after a message of BLOCK's, which does `own` to it, as WIRE moves: it hears that, or the messages WIRE lets it hear
instead (R74, R110). -/
def Chip.moved (c : Config.Params) (ch : Chip) (own : Chip → Chip) : OutMove → Chip
  | .pass => own ch
  | .put messages => messages.foldl (fun d m => match m with
    | .own => own d
    | .forged symbols => d.hearSymbols c symbols) ch

/-- What is in flight reaches CHIP, as far as WIRE lets it (R74, R110). -/
def State.deliver (s : State) : State :=
  let r := s.wire.outMoves.next Config.freeOutMove
  { s with
    wire := { s.wire with inFlight := [], outMoves := r.2 }
    chip := s.chip.moved s.cfg (fun d => d.hearSymbols s.cfg s.wire.inFlight) r.1 }

/-- The line held low for `WAKE_LOW`, then released (R104); WIRE may keep it from CHIP, or drive the line meanwhile
(R110). -/
def lineLow : Op Unit := modifyState (fun s =>
  let r := s.wire.outMoves.next Config.freeOutMove
  { s with
    wire := { s.wire with trace := s.wire.trace ++ [.low s.reg.baudsel], outMoves := r.2 }
    chip := s.chip.moved s.cfg (fun d => d.wakeUp s.cfg) r.1 })

/-- `LineRxBurst()` (R103): the burst WIRE injects, or the symbols of CHIP's answer. -/
def lineRxBurst : Op (List Symbol) := fun s =>
  let r := s.wire.inMoves.next Config.freeInMove
  let s1 := { s with wire := { s.wire with inMoves := r.2 } }
  match r.1 with
  | .inject burst => .ok burst s1
  | .pass =>
    let a := s1.chip.answer s1.cfg
    .ok (serializeBytes s1.cfg a.1) { s1 with chip := a.2 }

/-- Throw away what arrived and was not consumed (R109). -/
def discardArrived : Op Unit := modifyState (fun s => { s with wire := { s.wire with arrived := [] } })

end Sys2Proof.Machine
end

