-- ==== Sys2Proof/Machine/BitBus.lean ====
section
/-! DEFINITION. The BitBus operations: spec/40_bitbus.md R99 to R110. -/

namespace Sys2Proof.Machine

open Sys2Proof.Config (Params)

/-- The bit of a symbol inside a group: a pulse code's bit, or a draw for junk (R100). -/
def symbolBit (c : Params) (x : Symbol) : Op Bool :=
  if x = c.pulse1 then pure true
  else if x = c.pulse0 then pure false
  else drawJunk

/-- The bits of a group, in line order (R100). -/
def groupBits (c : Params) : List Symbol → Op (List Bool)
  | [] => pure []
  | x :: xs => do
    let b ← symbolBit c x
    let bs ← groupBits c xs
    pure (b :: bs)

/-- `n` whole groups of 8 symbols, each a byte with bit 0 first (R100). -/
def readGroups (c : Params) : Nat → List Symbol → Op Bytes
  | 0, _ => pure []
  | n + 1, syms => do
    let bits ← groupBits c (syms.take Config.pulsesPerByte)
    let rest ← readGroups c n (syms.drop Config.pulsesPerByte)
    pure (byteOfBits bits :: rest)

/-- The burst without its leading junk (R100). -/
def skipJunk (c : Params) (syms : List Symbol) : List Symbol := syms.dropWhile (fun x => !isPulse c x)

/-- How many whole groups a burst without leading junk gives, at most `maxLen` (R100). -/
def groupCount (maxLen : Nat) (syms : List Symbol) : Nat := min maxLen (syms.length / Config.pulsesPerByte)

/-- `deserialize(symbols, max_len)` (R100): leading junk skipped, then whole groups up to `max_len`, the rest dropped. -/
def deserialize (symbols : List Symbol) (maxLen : Nat) : Op Bytes := do
  let c ← getCfg
  let syms := skipJunk c symbols
  readGroups c (groupCount maxLen syms) syms

/-- The symbols of a message one by one, each after the transmit-ready draw (R101). -/
def sendSymbols : List Symbol → Op Unit
  | [] => pure ()
  | x :: xs => do
    let stalled ← drawStall
    if stalled then raise (.busTimeout .tx)
    else do
      lineTx x
      sendSymbols xs

/-- `send(bytes)` (R101). Whatever went out before a `BusTimeout` reaches the far end as well. -/
def send (bytes : Bytes) : Op Unit := fun s =>
  match sendSymbols (serializeBytes s.cfg bytes) s with
  | .ok () s' => .ok () s'.deliver
  | .error e s' => .error e s'.deliver

/-- The transmit prompt, unless it is configured as "none" (R79, R102). -/
def sendPrompt : Op Unit := do
  let c ← getCfg
  match c.ioflagTx with
  | some t => send [t]
  | none => pure ()

/-- `receive(max_len)` (R102). -/
def receive (maxLen : Nat) : Op Bytes := do
  modifyReg (fun r => { r with tof := false })
  discardArrived
  sendPrompt
  let burst ← lineRxBurst
  modifyReg (fun r => { r with tof := true })
  if burst = [] then raise (.busTimeout .rx)
  else do
    let b ← deserialize burst maxLen
    modifyReg (fun r => { r with rxbuf := rxHeld b })
    pure b

/-- `wake()` (R104). -/
def wake : Op Unit := do
  modifyReg (fun r => { r with baudsel := true })
  let stalled ← drawStall
  if stalled then do
    modifyReg (fun r => { r with baudsel := false })
    raise (.busTimeout .tx)
  else do
    lineLow
    modifyReg (fun r => { r with baudsel := false })
    discardArrived
    modifyReg (fun r => { r with lstate := .awake })

/-- `idle()` (R105). -/
def idle : Op Unit := do
  let c ← getCfg
  send [c.ioflagIdle]
  modifyReg (fun r => { r with lstate := .idled })

/-- `sleep()` (R106): `TK_VALID` is cleared before the token, so an error cannot leave it set. -/
def sleep : Op Unit := do
  clearTkValid
  let c ← getCfg
  send [c.ioflagSleep]
  modifyReg (fun r => { r with lstate := .asleep })

/-! ### Meanings -/

/-- `serialize` (R99). -/
def execSerialize (b : Byte) (s : State) : Host.Outcome State Fault Refusal :=
  run (do let c ← getCfg; pure (serializeByte c b)) .symbols s

/-- `deserialize` (R100). -/
def execDeserialize (symbols : List Symbol) (maxLen : Nat) (s : State) : Host.Outcome State Fault Refusal :=
  run (deserialize symbols maxLen) .bytes s

/-- `send` (R101). -/
def execSend (bytes : Bytes) (s : State) : Host.Outcome State Fault Refusal :=
  run (send bytes) (fun _ => .unit) s

/-- `receive` (R102). -/
def execReceive (maxLen : Nat) (s : State) : Host.Outcome State Fault Refusal :=
  run (receive maxLen) .bytes s

/-- `wake` (R104). -/
def execWake (s : State) : Host.Outcome State Fault Refusal := run wake (fun _ => .unit) s

/-- `idle` (R105). -/
def execIdle (s : State) : Host.Outcome State Fault Refusal := run idle (fun _ => .unit) s

/-- `sleep` (R106). -/
def execSleep (s : State) : Host.Outcome State Fault Refusal := run sleep (fun _ => .unit) s

end Sys2Proof.Machine
end

