-- ==== Sys2Proof/Machine/FrameCodec.lean ====
section
/-! DEFINITION. The FrameCodec operations: spec/41_framecodec.md R111 to R118. -/

namespace Sys2Proof.Machine

/-- `crc16(seed, bytes)` (R112): the result is also what the accumulator ends as. -/
def crc16 (seed : Word16) (bytes : Bytes) : Op Word16 := do
  let c ← getCfg
  let v := crcBytes c.crcPoly seed bytes
  modifyReg (fun r => { r with crc := v })
  pure v

/-- `encode_command(opcode, p1, p2, data)` (R114). It checks no bound: that the block's own sequences send their frames even
where `MAX_DATA_LEN` is set below the data they carry is the model's choice (log 35). -/
def encodeCommand (opcode p1 : Byte) (p2 : Word16) (data : Bytes) : Op Bytes := do
  let c ← getCfg
  let body := commandBody opcode p1 p2 data
  let v ← crc16 c.crcInit body
  let frame := c.ioflagCmd :: (body ++ u16le v)
  modifyReg (fun r => { r with txbuf := frame })
  pure frame

/-- `decode_response(raw, expected_len)` (R115): the checks in the order given, the first that fires decides (R203). -/
def decodeResponse (raw : Bytes) (expectedLen : Nat) : Op Bytes :=
  if raw.length < Config.errReplyLen then raise .shortRead
  else
    let count := (raw.getD 0 0).toNat
    if count ≠ expectedLen + 3 then
      if count = Config.errReplyLen ∧ raw.getD 1 0 ≠ stOk then raise (.chipError (raw.getD 1 0))
      else raise .lengthMismatch
    else if raw.length < count then raise .shortRead
    else do
      let c ← getCfg
      let v ← crc16 c.crcInit (slice raw 0 (count - 2))
      if slice raw (count - 2) 2 ≠ u16le v then raise .crcMismatch
      else pure (slice raw 1 (count - 3))

/-! ### Meanings -/

/-- `crc16` (R112). -/
def execCrc16 (seed : Word16) (bytes : Bytes) (s : State) : Host.Outcome State Fault Refusal :=
  run (crc16 seed bytes) .word16 s

/-- `encode_command` (R114): a model refuses more than `MAX_DATA_LEN` data bytes. -/
def execEncodeCommand (opcode p1 : Byte) (p2 : Word16) (data : Bytes) (s : State) :
    Host.Outcome State Fault Refusal :=
  if data.length ≤ s.cfg.maxDataLen then run (encodeCommand opcode p1 p2 data) .bytes s
  else .refused .dataTooLong

/-- `decode_response` (R115). -/
def execDecodeResponse (raw : Bytes) (expectedLen : Nat) (s : State) : Host.Outcome State Fault Refusal :=
  run (decodeResponse raw expectedLen) .bytes s

end Sys2Proof.Machine
end

