-- ==== Sys2Proof/Machine/SeLink.lean ====
section
/-! DEFINITION. SeLink, the command sequencer and the opcodes: spec/42_selink.md R119 to R137. -/

namespace Sys2Proof.Machine

/-! ### The sequencer -/

/-- `want`: the bytes asked of `receive` (R119). -/
def Expect.want : Expect → Nat
  | .raw n => n
  | .status => Config.errReplyLen
  | .data n => n + 3

/-- The outcomes of `decode_response` that the retry loop catches (R119, R120). -/
def retriedDecode : Err → Bool
  | .shortRead => true
  | .lengthMismatch => true
  | .crcMismatch => true
  | _ => false

/-- The outcome of `receive` that the retry loop catches: `BusTimeout`, whatever its tag (R107, R120). -/
def retriedReceive : Err → Bool
  | .busTimeout _ => true
  | _ => false

/-- Run a step of an attempt: `none` where it raised an outcome the retry loop catches. -/
def unlessRetried {α : Type} (retried : Err → Bool) (x : Op α) : Op (Option α) :=
  catching (do let a ← x; pure (some a)) (fun e => if retried e then pure none else raise e)

/-- One receive attempt (R119): `none` is a failure that is retried. -/
def receiveAttempt (expect : Expect) : Op (Option Bytes) := do
  modifyReg (fun r => { r with retry := r.retry + 1 })
  let got ← unlessRetried retriedReceive (receive (Expect.want expect))
  match got with
  | none => pure none
  | some r =>
    match expect with
    | .raw n => if r.length < n then pure none else pure (some r)
    | .status => unlessRetried retriedDecode (decodeResponse r (Expect.want expect - 3))
    | .data _ => unlessRetried retriedDecode (decodeResponse r (Expect.want expect - 3))

/-- The retry loop with so many attempts left (R119, R120): only the receive is repeated. -/
def receiveLoop (expect : Expect) : Nat → Op Bytes
  | 0 => raise .retriesExhausted
  | n + 1 => do
    let got ← receiveAttempt expect
    match got with
    | some p => pure p
    | none => receiveLoop expect n

/-- The close token the caller chose (R119, R121). -/
def closeLine : Close → Op Unit
  | .idle => idle
  | .sleep => sleep

/-- The sequence of `transact` (R119), without the return of `PHASE` to `READY` on a raise. -/
def transactBody (opcode p1 : Byte) (p2 : Word16) (data : Bytes) (expect : Expect) (close : Close) : Op Bytes := do
  modifyReg (fun r => { r with busCalls := r.busCalls + 1, retry := 0 })
  setPhase .waking
  wake
  setPhase .sending
  let frame ← encodeCommand opcode p1 p2 data
  send frame
  setPhase .receiving
  let c ← getCfg
  let p ← receiveLoop expect c.retryMax
  if expect = .status ∧ p.getD 0 0 ≠ stOk then raise (.chipError (p.getD 0 0))
  else do
    setPhase .closing
    closeLine close
    setPhase .ready
    pure p

/-- `transact(opcode, p1, p2, data, expect, close)` (R119): on every raise `PHASE` is `READY` first. -/
def transact (opcode p1 : Byte) (p2 : Word16) (data : Bytes) (expect : Expect) (close : Close) : Op Bytes :=
  catching (transactBody opcode p1 p2 data expect close) (fun e => do setPhase .ready; raise e)

/-! ### One operation per opcode (R84) -/

/-- `Read(slot, block, close)` (R123). -/
def read (slot : SlotId) (block : Nat) (close : Close) : Op Bytes := do
  let c ← getCfg
  transact c.op.read c.p1.read32 (p2Addr c slot block) [] (.data Config.blockLen) close

/-- `Write(slot, block, data, absent, close)` (R124). -/
def write (slot : SlotId) (block : Nat) (data : Bytes) (close : Close) : Op Unit := do
  let c ← getCfg
  let _ ← transact c.op.write c.p1.write32 (p2Addr c slot block) data .status close

/-- `Write(slot, block, data, mac, close)` (R124). -/
def writeMac (slot : SlotId) (block : Nat) (data mac : Bytes) (close : Close) : Op Unit := do
  let c ← getCfg
  let _ ← transact c.op.write c.p1.write32Enc (p2Addr c slot block) (data ++ mac) .status close

/-- `Nonce(numin, close)` (R125). -/
def nonce (numin : Bytes) (close : Close) : Op Bytes := do
  let c ← getCfg
  transact c.op.nonce c.p1.nonce 0 numin (.data Config.blockLen) close

/-- `GenDig(DATA, slot, close)` (R126). -/
def genDig (slot : SlotId) (close : Close) : Op Unit := do
  let c ← getCfg
  let _ ← transact c.op.genDig c.p1.genDigData slot [] .status close

/-- `GenDig(COUNTER, id, close)` (R126). -/
def genDigCounter (id : SlotId) (close : Close) : Op Unit := do
  let c ← getCfg
  let _ ← transact c.op.genDig c.p1.genDigCounter id [] .status close

/-- `CheckMac(keynum, body, close)` (R127). -/
def checkMac (keynum : SlotId) (body : Bytes) (close : Close) : Op Unit := do
  let c ← getCfg
  let _ ← transact c.op.checkMac c.p1.checkMac keynum body .status close

/-- `MacGen(keynum, close)` (R128). -/
def macGen (keynum : SlotId) (close : Close) : Op Bytes := do
  let c ← getCfg
  transact c.op.macGen c.p1.macGen keynum [] (.data Config.blockLen) close

/-- `CounterRead(close)` (R129). -/
def counterRead (close : Close) : Op Word32 := do
  let c ← getCfg
  let p ← transact c.op.counter c.p1.counterRead c.counterId [] (.data 4) close
  pure (le32 p)

/-- `CounterIncr(close)` (R130). -/
def counterIncr (close : Close) : Op Word32 := do
  let c ← getCfg
  let p ← transact c.op.counter c.p1.counterIncr c.counterId [] (.data 4) close
  pure (le32 p)

/-- `SelfTest(close)` (R131). -/
def selfTest (close : Close) : Op Unit := do
  let c ← getCfg
  let _ ← transact c.op.selfTest c.p1.selfTest 0 [] .status close

/-- `Lock(p1, p2, close)` (R132). -/
def lock (p1 : Byte) (p2 : Word16) (close : Close) : Op Unit := do
  let c ← getCfg
  let _ ← transact c.op.lock p1 p2 [] .status close

/-- `Info(close)` (R133): the reply is taken raw (R87, R118). -/
def info (close : Close) : Op Bytes := do
  let c ← getCfg
  transact c.op.info c.p1.info 0 [] (.raw c.infoRawLen) close

/-- The first command of a keyed hash (R134): it closes with IDLE so that the chip keeps the started hash. -/
def keyedHashStart (keynum : SlotId) : Op Unit := do
  let c ← getCfg
  let _ ← transact c.op.keyedHash c.p1.keyedHashStart keynum [] .status .idle

/-- The second command of a keyed hash (R134). -/
def keyedHashEnd (msg : Bytes) (close : Close) : Op Bytes := do
  let c ← getCfg
  transact c.op.keyedHash c.p1.keyedHashEnd 32 msg (.data Config.blockLen) close

/-- `KeyedHash(keynum, msg, close)` (R134). -/
def keyedHash (keynum : SlotId) (msg : Bytes) (close : Close) : Op Bytes := do
  keyedHashStart keynum
  keyedHashEnd msg close

/-! ### Reset -/

/-- Run an operation and swallow its `BusTimeout` (R135). -/
def swallowTimeout (x : Op Unit) : Op Unit :=
  catching x (fun e => match e with
    | .busTimeout _ => pure ()
    | e => raise e)

/-- The register part of a chip reset: the "after chip reset" column of R40. -/
def Regs.afterChipReset (r : Regs) : Regs :=
  { r with
    tk := zeros Config.blockLen, tkValid := false
    digest := zeros Config.blockLen, digestHeld := false
    cache := zeros Config.blockLen, cacheHeld := false
    txbuf := [], rxbuf := [], retry := 0, tof := false, phase := .ready }

/-- `chip_reset()` (R135, R217). -/
def chipReset : Op Unit := do
  swallowTimeout wake
  swallowTimeout sleep
  modifyReg Regs.afterChipReset

/-! ### Meanings -/

/-- `transact` (R119); more than `MAX_DATA_LEN` data bytes are refused as `encode_command` refuses them (R114). -/
def execTransact (opcode p1 : Byte) (p2 : Word16) (data : Bytes) (expect : Expect) (close : Close) (s : State) :
    Host.Outcome State Fault Refusal :=
  if data.length ≤ s.cfg.maxDataLen then run (transact opcode p1 p2 data expect close) .bytes s
  else .refused .dataTooLong

/-- `Read` (R123). -/
def execRead (slot : SlotId) (block : Nat) (close : Close) (s : State) : Host.Outcome State Fault Refusal :=
  run (read slot block close) .bytes s

/-- `Write` in the clear (R124). -/
def execWrite (slot : SlotId) (block : Nat) (data : Bytes) (close : Close) (s : State) :
    Host.Outcome State Fault Refusal :=
  run (write slot block data close) (fun _ => .unit) s

/-- `Write` with a MAC (R124). -/
def execWriteMac (slot : SlotId) (block : Nat) (data mac : Bytes) (close : Close) (s : State) :
    Host.Outcome State Fault Refusal :=
  run (writeMac slot block data mac close) (fun _ => .unit) s

/-- `Nonce` (R125). -/
def execNonce (numin : Bytes) (close : Close) (s : State) : Host.Outcome State Fault Refusal :=
  run (nonce numin close) .bytes s

/-- `GenDig` over a data-zone slot (R126). -/
def execGenDig (slot : SlotId) (close : Close) (s : State) : Host.Outcome State Fault Refusal :=
  run (genDig slot close) (fun _ => .unit) s

/-- `GenDig` over a counter (R126). -/
def execGenDigCounter (id : SlotId) (close : Close) (s : State) : Host.Outcome State Fault Refusal :=
  run (genDigCounter id close) (fun _ => .unit) s

/-- `CheckMac` (R127). -/
def execCheckMac (keynum : SlotId) (body : Bytes) (close : Close) (s : State) : Host.Outcome State Fault Refusal :=
  run (checkMac keynum body close) (fun _ => .unit) s

/-- `MacGen` (R128). -/
def execMacGen (keynum : SlotId) (close : Close) (s : State) : Host.Outcome State Fault Refusal :=
  run (macGen keynum close) .bytes s

/-- `CounterRead` (R129). -/
def execCounterRead (close : Close) (s : State) : Host.Outcome State Fault Refusal :=
  run (counterRead close) .word32 s

/-- `CounterIncr` (R130). -/
def execCounterIncr (close : Close) (s : State) : Host.Outcome State Fault Refusal :=
  run (counterIncr close) .word32 s

/-- `SelfTest` (R131). -/
def execSelfTest (close : Close) (s : State) : Host.Outcome State Fault Refusal :=
  run (selfTest close) (fun _ => .unit) s

/-- `Lock` (R132). -/
def execLock (p1 : Byte) (p2 : Word16) (close : Close) (s : State) : Host.Outcome State Fault Refusal :=
  run (lock p1 p2 close) (fun _ => .unit) s

/-- `Info` (R133). -/
def execInfo (close : Close) (s : State) : Host.Outcome State Fault Refusal := run (info close) .bytes s

/-- `KeyedHash`, both commands (R134). -/
def execKeyedHash (keynum : SlotId) (msg : Bytes) (close : Close) (s : State) : Host.Outcome State Fault Refusal :=
  run (keyedHash keynum msg close) .bytes s

/-- The second command of `KeyedHash` (R134). -/
def execKeyedHashEnd (msg : Bytes) (close : Close) (s : State) : Host.Outcome State Fault Refusal :=
  run (keyedHashEnd msg close) .bytes s

/-- `chip_reset` (R135). -/
def execChipReset (s : State) : Host.Outcome State Fault Refusal := run chipReset (fun _ => .unit) s

end Sys2Proof.Machine
end

