-- ==== Sys2Proof/Machine/SessionCrypto.lean ====
section
/-! DEFINITION. SessionCrypto, the authenticated-session operations: spec/43_sessioncrypto.md R138 to R153. -/

namespace Sys2Proof.Machine

/-- `call X(...)` of this layer (R138, R194): every error outcome of the operation called is caught, `TK_VALID` is
cleared, and `SeFailure`, which carries no information, is raised in its place. -/
def seCall {α : Type} (x : Op α) : Op α := catching x (fun _ => do clearTkValid; raise .seFailure)

/-- `pick_nonce(numin)` (R139). -/
def pickNonce (numin : Bytes) : Op Bytes := do
  let rng ← seCall (nonce numin .idle)
  writeTk (sha256 (nonceMsg rng numin))
  readTk

/-- A `pick_nonce` with fresh host randomness, `pick_nonce(Rand(20))` (R140, R143, R152). -/
def freshNonce : Op Bytes := do
  let numin ← rand Config.numinLen
  seCall (pickNonce numin)

/-- `gendig_slot(slot, plaintext)` (R140). -/
def gendigSlot (slot : SlotId) (plaintext : Bytes) : Op Bytes := do
  let t ← freshNonce
  seCall (genDig slot .idle)
  writeTk (sha256 (genDigMsg slot plaintext t))
  readTk

/-- `gendig_counter(value)` (R152). -/
def gendigCounter (value : Word32) : Op Bytes := do
  let t ← freshNonce
  let c ← getCfg
  seCall (genDigCounter c.counterId .idle)
  writeTk (sha256 (genDigCounterMsg c.counterId value t))
  readTk

/-- `ct_equal(a, b)` (R141): no bus traffic, no register written. -/
def ctEqual (a b : Bytes) : Op Bool := pure (ctEqualBytes a b)

/-- The MAC that proves the chip's TempKey to be `expected` (R142): `want`. -/
def tempkeyMac (c : Config.Params) (expected : Bytes) : Bytes :=
  sha256 (tkChkMsg c.rom.pairingSecret expected c.rom.seSerial)

/-- `is_correct_tempkey(expected)` (R142): a wrong MAC is the result `false`, not an error. -/
def isCorrectTempkey (expected : Bytes) : Op Bool := do
  clearTkValid
  let c ← getCfg
  let resp ← seCall (macGen c.slot.pairing .idle)
  ctEqual resp (tempkeyMac c expected)

/-- The 77-byte body of `CheckMac`: challenge of zeros, response, other data (R143). -/
def checkMacBody (resp od : Bytes) : Bytes := zeros Config.blockLen ++ resp ++ od

/-- `checkmac(keynum, secret)` (R143). -/
def checkmac (keynum : SlotId) (secret : Bytes) : Op Unit := do
  let t ← freshNonce
  let od ← rand Config.otherDataLen
  clearTkValid
  seCall (checkMac keynum (checkMacBody (sha256 (checkMacMsg secret t od)) od) .idle)

/-- `pair_unlock()` (R144). -/
def pairUnlock : Op Unit := do
  let c ← getCfg
  seCall (checkmac c.slot.pairing c.rom.pairingSecret)

/-- The check at the end of an authenticated read (R149 to R151): `SeFailure` where it is false. -/
def requireTempkey (d : Bytes) : Op Unit := do
  let ok ← seCall (isCorrectTempkey d)
  if ok then pure ()
  else do
    clearTkValid
    raise .seFailure

/-- Blocks `b`, `b + 1`, … of an encrypted read, so many of them (R145). -/
def readBlocks (slot authSlot : SlotId) (authSecret : Bytes) : Nat → Nat → Op Bytes
  | _, 0 => pure []
  | b, k + 1 => do
    seCall pairUnlock
    let d ← seCall (gendigSlot authSlot authSecret)
    let c ← seCall (read slot b .idle)
    clearTkValid
    let rest ← readBlocks slot authSlot authSecret (b + 1) k
    pure (xorBytes c d ++ rest)

/-- How many 32-byte blocks `n` bytes take: `ceil(n / 32)` (R145). -/
def blocksFor (n : Nat) : Nat := (n + (Config.blockLen - 1)) / Config.blockLen

/-- `encrypted_read(slot, auth_slot, auth_secret, n)` (R145). -/
def encryptedRead (slot authSlot : SlotId) (authSecret : Bytes) (n : Nat) : Op Bytes := do
  let out ← readBlocks slot authSlot authSecret 0 (blocksFor n)
  pure (out.take n)

/-- Blocks `b`, `b + 1`, … of an encrypted write, so many of them, taken from `data` (R146). -/
def writeBlocks (slot authSlot : SlotId) (authSecret : Bytes) : Nat → Nat → Bytes → Op Unit
  | _, 0, _ => pure ()
  | b, k + 1, data => do
    let p := data.take Config.blockLen
    seCall pairUnlock
    let d ← seCall (gendigSlot authSlot authSecret)
    let c ← getCfg
    let m := sha256 (writeMacMsg d (p2Addr c slot b) p)
    clearTkValid
    seCall (writeMac slot b (xorBytes p d) m .idle)
    writeBlocks slot authSlot authSecret (b + 1) k (data.drop Config.blockLen)

/-- `encrypted_write(slot, auth_slot, auth_secret, data)` (R146): `data` of `32k` bytes, not atomic across blocks. -/
def encryptedWrite (slot authSlot : SlotId) (authSecret data : Bytes) : Op Unit :=
  writeBlocks slot authSlot authSecret 0 (data.length / Config.blockLen) data

/-- `mixin(keynum, start)` (R147). -/
def mixin (keynum : SlotId) (start : Bytes) : Op Bytes := do
  seCall pairUnlock
  let c ← getCfg
  if keynum = c.slot.keyPlain then
    pure (sha256 (Config.mixMsg c.rom.pairingSecret start keynum (zeros Config.blockLen)))
  else do
    let h ← seCall (keyedHash keynum start .idle)
    pure (sha256 (Config.mixMsg c.rom.pairingSecret start keynum h))

/-- `stretch(start, iterations)` (R148). -/
def stretch : Bytes → Nat → Op Bytes
  | v, 0 => pure v
  | v, n + 1 => do
    seCall pairUnlock
    let c ← getCfg
    let v' ← seCall (keyedHash c.slot.kdf v .idle)
    stretch v' n

/-- `auth_read_slot(slot)` (R149). -/
def authReadSlot (slot : SlotId) : Op Bytes := do
  seCall pairUnlock
  let v ← seCall (read slot 0 .idle)
  let d ← seCall (gendigSlot slot v)
  requireTempkey d
  pure v

/-- `auth_read_counter()` (R150). -/
def authReadCounter : Op Word32 := do
  seCall pairUnlock
  let v ← seCall (counterRead .idle)
  let d ← seCall (gendigCounter v)
  requireTempkey d
  pure v

/-- `n` `CounterIncr` transactions, one unit each; the last value (R151, R232). -/
def incrLoop : Nat → Word32 → Op Word32
  | 0, v => pure v
  | n + 1, _ => do
    let v ← seCall (counterIncr .idle)
    incrLoop n v

/-- `add_counter(n)` (R151), `n >= 1`. -/
def addCounter (n : Nat) : Op Word32 := do
  seCall pairUnlock
  let v ← incrLoop n 0
  let d ← seCall (gendigCounter v)
  requireTempkey d
  pure v

/-! ### Meanings -/

/-- `pick_nonce` (R139). -/
def execPickNonce (numin : Bytes) (s : State) : Host.Outcome State Fault Refusal :=
  runOrStop (pickNonce numin) .bytes s

/-- `gendig_slot` (R140). -/
def execGendigSlot (slot : SlotId) (plaintext : Bytes) (s : State) : Host.Outcome State Fault Refusal :=
  runOrStop (gendigSlot slot plaintext) .bytes s

/-- `ct_equal` (R141). -/
def execCtEqual (a b : Bytes) (s : State) : Host.Outcome State Fault Refusal := run (ctEqual a b) .flag s

/-- `is_correct_tempkey` (R142). -/
def execIsCorrectTempkey (expected : Bytes) (s : State) : Host.Outcome State Fault Refusal :=
  runOrStop (isCorrectTempkey expected) .flag s

/-- `checkmac` (R143). -/
def execCheckmac (keynum : SlotId) (secret : Bytes) (s : State) : Host.Outcome State Fault Refusal :=
  runOrStop (checkmac keynum secret) (fun _ => .unit) s

/-- `pair_unlock` (R144). -/
def execPairUnlock (s : State) : Host.Outcome State Fault Refusal := runOrStop pairUnlock (fun _ => .unit) s

/-- `encrypted_read` (R145). -/
def execEncryptedRead (slot authSlot : SlotId) (authSecret : Bytes) (n : Nat) (s : State) :
    Host.Outcome State Fault Refusal :=
  runOrStop (encryptedRead slot authSlot authSecret n) .bytes s

/-- `encrypted_write` (R146). -/
def execEncryptedWrite (slot authSlot : SlotId) (authSecret data : Bytes) (s : State) :
    Host.Outcome State Fault Refusal :=
  runOrStop (encryptedWrite slot authSlot authSecret data) (fun _ => .unit) s

/-- `mixin` (R147). -/
def execMixin (keynum : SlotId) (start : Bytes) (s : State) : Host.Outcome State Fault Refusal :=
  runOrStop (mixin keynum start) .bytes s

/-- `stretch` (R148). -/
def execStretch (start : Bytes) (iterations : Nat) (s : State) : Host.Outcome State Fault Refusal :=
  runOrStop (stretch start iterations) .bytes s

/-- `auth_read_slot` (R149). -/
def execAuthReadSlot (slot : SlotId) (s : State) : Host.Outcome State Fault Refusal :=
  runOrStop (authReadSlot slot) .bytes s

/-- `auth_read_counter` (R150). -/
def execAuthReadCounter (s : State) : Host.Outcome State Fault Refusal := runOrStop authReadCounter .word32 s

/-- `add_counter` (R151). -/
def execAddCounter (n : Nat) (s : State) : Host.Outcome State Fault Refusal := runOrStop (addCounter n) .word32 s

/-- `gendig_counter` (R152). -/
def execGendigCounter (value : Word32) (s : State) : Host.Outcome State Fault Refusal :=
  runOrStop (gendigCounter value) .bytes s

end Sys2Proof.Machine
end

