-- ==== Sys2Proof/Machine/PinEngine.lean ====
section
/-! DEFINITION. PinEngine, the attempt record and the PIN state machine: spec/44_pinengine.md R154 to R176. `rec` of the
spec is `reg.REC`. -/

namespace Sys2Proof.Machine

open Sys2Proof.Config (Params FieldLoc Layout)

/-! ### The record in `REC` -/

/-- A field of `REC`, as bytes. -/
def recField (f : Layout → FieldLoc) : Op Bytes := do
  let c ← getCfg
  let r ← readRec
  pure (field r (f c.layout))

/-- A four-byte field of `REC`, as a number. -/
def recWord (f : Layout → FieldLoc) : Op Word32 := do
  let b ← recField f
  pure (le32 b)

/-- Write a field of `REC`. -/
def setRecField (f : Layout → FieldLoc) (v : Bytes) : Op Unit := do
  let c ← getCfg
  let r ← readRec
  writeRec (withField r (f c.layout) v)

/-- Write a four-byte field of `REC`. -/
def setRecWord (f : Layout → FieldLoc) (v : Word32) : Op Unit := setRecField f (u32le v)

/-- `validate(rec)` (R156): magic, then the three lengths, unsigned, on every call. -/
def validate : Op Unit := do
  let c ← getCfg
  let magic ← recWord Layout.magicValue
  let pinLen ← recWord Layout.pinLen
  let oldPinLen ← recWord Layout.oldPinLen
  let newPinLen ← recWord Layout.newPinLen
  if magic ≠ c.paMagic then raise .badRequest
  else if c.maxPinLen < pinLen.toNat then raise .badRequest
  else if c.maxPinLen < oldPinLen.toNat then raise .badRequest
  else if c.maxPinLen < newPinLen.toNat then raise .badRequest
  else pure ()

/-- The signature `REC` should carry (R157). -/
def recSignature : Op Bytes := do
  let s ← getState
  let r ← readRec
  pure (signatureOf s.cfg s.reg.bootSeed r)

/-- `sign(rec)` (R157). -/
def sign : Op Unit := do
  let m ← recSignature
  setRecField Layout.hmac m

/-- `verify(rec)` (R158). -/
def verify : Op Unit := do
  let m ← recSignature
  let h ← recField Layout.hmac
  let ok ← ctEqual h m
  if ok then pure () else raise .hmacFail

/-! ### Hashing a PIN -/

/-- `pin_hash(pin)` (R160): two passes of SHA-256, no bus, no register. -/
def pinHash (c : Params) (pin : Bytes) : Bytes :=
  sha256 (sha256 (Config.pinHashMsg c.rom.pairingSecret Config.pinPurpose pin c.rom.otpKey))

/-- `pin_hash_attempt(pin)` (R161): the chip charges one attempt at the second mix-in. -/
def pinHashAttempt (pin : Bytes) : Op Bytes := do
  let c ← getCfg
  let s ← stretch (pinHash c pin) c.kdfIter
  let m1 ← mixin c.slot.keyPlain s
  mixin c.slot.pinAttempt m1

/-! ### Counters -/

/-- `read_counters()` (R162). -/
def readCounters : Op Unit := do
  let p ← getCfg
  let c ← authReadCounter
  let mcb ← authReadSlot p.slot.matchCount
  let lgb ← authReadSlot p.slot.lastgood
  setRecWord Layout.attemptsLeft (attemptsLeft c (le32 (slice mcb 0 4)))
  setRecWord Layout.numFails (numFails p c (le32 (slice lgb 0 4)))

/-- Block 0 of the `lastgood` slot (R55, R166). -/
def lastgoodBlock (v : Word32) : Bytes := u32le v ++ zeros 28

/-- `good_login_updates(d)` (R166): `match_count`, then the increments, then `lastgood`, in this order (R226). Where the
precondition of R174 fails the run is stuck (U22). -/
def goodLoginUpdates (d : Bytes) : Op Unit := do
  let p ← getCfg
  let c ← authReadCounter
  if budgetFits p c then do
    encryptedWrite p.slot.matchCount p.slot.pinHash d (matchCountBlock (newMatchCount p c))
    let c2 ← addCounter (bumpOf p c)
    encryptedWrite p.slot.lastgood p.slot.pinHash d (lastgoodBlock c2)
  else raise (.stop .counterBudget)

/-- `detect_blank()` (R164): every failure of the `checkmac` reads as "not blank". -/
def detectBlank : Op Bool := do
  pairUnlock
  let p ← getCfg
  catching (do checkmac p.slot.pinHash (zeros Config.blockLen); pure true)
    (fun e => if e = .seFailure then pure false else raise e)

/-! ### The cache -/

/-- `digest` under the mask, or zeros for the all-zero digest (R168); the same function unmasks (R169). -/
def maskDigest (c : Params) (bootSeed digest : Bytes) : Bytes :=
  if allZero digest then zeros Config.blockLen else xorBytes digest (cacheMask c.rom.hashCacheSecret bootSeed)

/-- `cache_save()` (R168). -/
def cacheSave : Op Unit := do
  let s ← getState
  let d ← readDigest
  writeCache (maskDigest s.cfg s.reg.bootSeed d)
  let v ← readCache
  setRecField Layout.cachedMainPin v

/-- `cache_restore(rec)` (R169). -/
def cacheRestore : Op Bytes := do
  let s ← getState
  let v ← recField Layout.cachedMainPin
  writeCache v
  let k ← readCache
  writeDigest (maskDigest s.cfg s.reg.bootSeed k)
  readDigest

/-! ### The four operations -/

/-- Zero every block-written field and draw the nonce (R163). -/
def clearRecord : Op Unit := do
  setRecWord Layout.stateFlags 0
  setRecWord Layout.numFails 0
  setRecWord Layout.attemptsLeft 0
  setRecWord Layout.delayAchieved 0
  setRecWord Layout.delayRequired 0
  let n ← rand 4
  setRecWord Layout.privateState (le32 n)
  setRecField Layout.hmac (zeros Config.hmacLen)
  setRecField Layout.cachedMainPin (zeros Config.blockLen)

/-- A `pair_unlock` whose failure is `Brick`: the warm-up of R163 and the test of R183 (R198). -/
def unlockOrBrick : Op Unit := catching pairUnlock (fun e => if e = .seFailure then raise .brick else raise e)

/-- `setup(rec)` (R163). -/
def setup : Op Unit := do
  validate
  clearRecord
  unlockOrBrick
  readCounters
  let blank ← detectBlank
  if blank then do
    let c ← getCfg
    setRecWord Layout.stateFlags (setFlag c.flag.successful c.flag.isBlank)
    writeDigest (zeros Config.blockLen)
    cacheSave
  else pure ()
  sign

/-- `login_failed(rec)` (R167): the counters are read again, the record is signed, nothing is written to the chip. -/
def loginFailed : Op Unit := do
  readCounters
  sign
  raise .authFail

/-- The test of a PIN digest against the `pin_hash` slot (R165, R170). -/
def testDigest (d : Bytes) : Op Bool := do
  let c ← getCfg
  pairUnlock
  let t ← gendigSlot c.slot.pinHash d
  isCorrectTempkey t

/-- The login of a blank record: success with no bus traffic, whatever the PIN (R165). -/
def loginBlank : Op Unit := do
  writeDigest (zeros Config.blockLen)
  cacheSave
  sign

/-- The login of a personalised record (R165). -/
def loginPin (pinLen : Word32) : Op Unit := do
  let c ← getCfg
  let pin ← recField Layout.pin
  let d ← pinHashAttempt (pin.take pinLen.toNat)
  let ok ← testDigest d
  if ok then do
    goodLoginUpdates d
    writeDigest d
    cacheSave
    let z ← encryptedRead c.slot.seed c.slot.pinHash d Config.secretLen
    setRecWord Layout.stateFlags (if allZero z then setFlag c.flag.successful c.flag.zeroSecret else c.flag.successful)
    setRecWord Layout.numFails 0
    setRecWord Layout.attemptsLeft (BitVec.ofNat 32 c.maxAttempts)
    sign
  else loginFailed

/-- `login(rec)` (R165). -/
def login : Op Unit := do
  validate
  verify
  let c ← getCfg
  let flags ← recWord Layout.stateFlags
  if hasFlag flags c.flag.isBlank then
    if hasFlag flags c.flag.successful then loginBlank else raise .badRequest
  else if hasFlag flags c.flag.successful then raise .badRequest
  else do
    let pinLen ← recWord Layout.pinLen
    if pinLen = 0 then raise .badRequest else loginPin pinLen

/-- `change_secret(rec, old_d)` (R172): the stored value is masked with the OTP key, but an all-zero secret is stored as
zeros; three blocks, the last padded with 24 zeros. -/
def changeSecret (oldD : Bytes) : Op Unit := do
  let c ← getCfg
  let s ← recField Layout.secret
  let flags ← recWord Layout.stateFlags
  setRecWord Layout.stateFlags (zeroSecretFlag c flags (allZero s))
  let w := if allZero s then zeros Config.secretLen else xorBytes s c.rom.otpKey
  encryptedWrite c.slot.seed c.slot.pinHash oldD (w ++ zeros 24)

/-- `change_pin(rec, old_d)` (R171). -/
def changePin (oldD : Bytes) : Op Unit := do
  let c ← getCfg
  let newPin ← recField Layout.newPin
  let newPinLen ← recWord Layout.newPinLen
  let newD ← pinHashAttempt (newPin.take newPinLen.toNat)
  encryptedWrite c.slot.pinHash c.slot.pinHash oldD newD
  goodLoginUpdates newD
  writeDigest newD
  cacheSave
  let flags ← recWord Layout.stateFlags
  setRecWord Layout.stateFlags (clearFlag flags c.flag.isBlank)
  setRecWord Layout.numFails 0
  setRecWord Layout.attemptsLeft (BitVec.ofNat 32 c.maxAttempts)

/-- The old PIN digest of a PIN change, verified (R170). -/
def oldDigest (blank : Bool) (oldPinLen : Word32) : Op Bytes :=
  if blank then pure (zeros Config.blockLen)
  else do
    let oldPin ← recField Layout.oldPin
    let d ← pinHashAttempt (oldPin.take oldPinLen.toNat)
    let ok ← testDigest d
    if ok then pure d
    else do
      sign
      raise .oldAuthFail

/-- The digest a change is keyed by: the verified old PIN's for a PIN change, the cached one otherwise (R170). -/
def changeDigest (cf flags : Word32) : Op Bytes := do
  let c ← getCfg
  if hasFlag cf c.flag.changeWalletPin then do
    let newPinLen ← recWord Layout.newPinLen
    let oldPinLen ← recWord Layout.oldPinLen
    let blank := hasFlag flags c.flag.isBlank
    if newPinLen = 0 then raise .badRequest
    else if blank ∧ oldPinLen ≠ 0 then raise .badRequest
    else if ¬ blank ∧ oldPinLen = 0 then raise .badRequest
    else oldDigest blank oldPinLen
  else cacheRestore

/-- `change(rec)` (R170): the secret first, the PIN second, both keyed by the old digest. -/
def change : Op Unit := do
  validate
  verify
  let c ← getCfg
  let flags ← recWord Layout.stateFlags
  let cf ← recWord Layout.changeFlags
  if ¬ hasFlag flags c.flag.successful then raise .badRequest
  else if badChangeFlags c cf then raise .badRequest
  else do
    let oldD ← changeDigest cf flags
    writeDigest oldD
    if hasFlag cf c.flag.changeSecret then changeSecret oldD else pure ()
    if hasFlag cf c.flag.changeWalletPin then changePin oldD else pure ()
    sign

/-- `fetch_secret(rec)` (R173). -/
def fetchSecret : Op Unit := do
  validate
  verify
  let c ← getCfg
  let flags ← recWord Layout.stateFlags
  if hasFlag flags c.flag.successful then do
    let d ← cacheRestore
    let raw ← encryptedRead c.slot.seed c.slot.pinHash d Config.secretLen
    setRecField Layout.secret (if allZero raw then zeros Config.secretLen else xorBytes raw c.rom.otpKey)
    setRecWord Layout.stateFlags (zeroSecretFlag c flags (allZero raw))
    sign
  else raise .badRequest

/-! ### Meanings: the operation on the record given, which is left in `REC` (log 14) -/

/-- `setup` (R163). -/
def execSetup (record : Bytes) (s : State) : Host.Outcome State Fault Refusal :=
  runOrStop (do writeRec record; setup) (fun _ => .unit) s

/-- `login` (R165). -/
def execLogin (record : Bytes) (s : State) : Host.Outcome State Fault Refusal :=
  runOrStop (do writeRec record; login) (fun _ => .unit) s

/-- `change` (R170). -/
def execChange (record : Bytes) (s : State) : Host.Outcome State Fault Refusal :=
  runOrStop (do writeRec record; change) (fun _ => .unit) s

/-- `fetch_secret` (R173). -/
def execFetchSecret (record : Bytes) (s : State) : Host.Outcome State Fault Refusal :=
  runOrStop (do writeRec record; fetchSecret) (fun _ => .unit) s

end Sys2Proof.Machine
end

