-- ==== Sys2Proof/Machine/Boundary.lean ====
section
/-! DEFINITION. The dispatch boundary: spec/45_dispatch.md R177 to R186. -/

namespace Sys2Proof.Machine

/-- Which PIN operation a sub-method code names (R180). -/
def pinOperation (c : Config.Params) (arg2 : Word32) : Op Unit :=
  if arg2 = c.pinMethod.setup then setup
  else if arg2 = c.pinMethod.attempt then login
  else if arg2 = c.pinMethod.change then change
  else if arg2 = c.pinMethod.getSecret then fetchSecret
  else raise .badRequest

/-- The outcomes after which the record goes back to the host (R176, R180). -/
def returnsRecord : Except Err Unit → Bool
  | .ok _ => true
  | .error .authFail => true
  | .error .oldAuthFail => true
  | .error _ => false

/-- Propagate an outcome that was caught (R180). -/
def propagate : Except Err Unit → Op Unit
  | .ok _ => pure ()
  | .error e => raise e

/-- `arg2` is one of the sub-method codes: not "`arg2 > 3`" with the codes of R7 (R180). -/
def isPinMethod (c : Config.Params) (arg2 : Word32) : Bool :=
  decide (arg2 = c.pinMethod.setup) || decide (arg2 = c.pinMethod.attempt) || decide (arg2 = c.pinMethod.change)
    || decide (arg2 = c.pinMethod.getSecret)

/-- `pin_control(buf, len, arg2)` (R180). -/
def pinControl (len : Nat) (arg2 : Word32) : Op Unit := do
  let c ← getCfg
  if ¬ isPinMethod c arg2 then raise .badRequest
  else if len < Config.recordLen then raise .badRequest
  else do
    let r ← hostRead 0 Config.recordLen
    writeRec r
    let outcome ← outcomeOf (pinOperation c arg2)
    if returnsRecord outcome then do
      let r' ← readRec
      hostWrite r'
    else pure ()
    releaseRec
    propagate outcome

/-- `read_se_slot(buf, len, arg2)` (R181); a SeLink error becomes `SeFailure`. -/
def readSeSlot (len : Nat) (arg2 : Word32) : Op Unit := do
  let c ← getCfg
  if c.slot.numSlots ≤ arg2.toNat then raise .badRequest
  else if len < Config.blockLen then raise .badRequest
  else do
    pairUnlock
    let v ← seCall (read (arg2.setWidth 16) 0 .idle)
    hostWrite v

/-- `get_random_bytes(buf, len)` (R182). -/
def getRandomBytes (len : Nat) : Op Unit :=
  if len = 0 then pure ()
  else do
    let v ← rand len
    hostWrite v

/-- `is_bricked()` (R183). -/
def isBricked : Op Unit := unlockOrBrick

/-- `body()` of `se_dispatch` (R177): the range check before anything else, then the delay, then the routing. -/
def dispatchBody (method : Word32) (len : Nat) (arg2 : Word32) : Op Unit := do
  let c ← getCfg
  if c.lenInMax < len then raise .badRequest
  else do
    let _ ← randomDelay c.delayDispatch
    if method = c.method.pinControl then pinControl len arg2
    else if method = c.method.readSeSlot then readSeSlot len arg2
    else if method = c.method.getRandomBytes then getRandomBytes len
    else if method = c.method.isBricked then isBricked
    else raise .badRequest

/-- `se_dispatch(method, buf, len, arg2)` (R177): every outcome becomes a result code; `REC` holds no value on exit, and the
chip is always reset, last (R184). -/
def seDispatch (method : Word32) (len : Nat) (arg2 : Word32) : Op Int := do
  let outcome ← outcomeOf (dispatchBody method len arg2)
  releaseRec
  chipReset
  let c ← getCfg
  pure (resultCode c.code outcome)

/-! ### Meanings -/

/-- `se_dispatch` (R177). -/
def execSeDispatch (method : Word32) (len : Nat) (arg2 : Word32) (s : State) : Host.Outcome State Fault Refusal :=
  runOrStop (seDispatch method len arg2) .code s

/-- `CMD_READ_SE_SLOT` (R181). -/
def execCmdReadSeSlot (len : Nat) (arg2 : Word32) (s : State) : Host.Outcome State Fault Refusal :=
  runOrStop (readSeSlot len arg2) (fun _ => .unit) s

/-- `CMD_GET_RANDOM_BYTES` (R182). -/
def execCmdGetRandomBytes (len : Nat) (s : State) : Host.Outcome State Fault Refusal :=
  run (getRandomBytes len) (fun _ => .unit) s

/-- `CMD_IS_BRICKED` (R183). -/
def execCmdIsBricked (s : State) : Host.Outcome State Fault Refusal := runOrStop isBricked (fun _ => .unit) s

end Sys2Proof.Machine
end

