-- ==== Sys2Proof/Machine/Boot.lean ====
section
/-! DEFINITION. Cold reset and boot (spec/70_reset_and_hazards.md R215 to R218), and the actions of the environment
between operations (spec/10_state.md R13, R14, R38). -/

namespace Sys2Proof.Machine

/-- What comes between a cold reset and the first call: the random delay, then one chip reset (R215). -/
def boot : Op Unit := do
  let c ← getCfg
  let _ ← randomDelay c.delayColdboot
  chipReset

/-- The boot actions run to their end; the block then waits for a call (R215). -/
def bootStep (s : State) : State :=
  match boot s with
  | .ok _ s' => { s' with ctl := { s'.ctl with booted := true, ending := .none } }
  | .error _ s' => { s' with ctl := { s'.ctl with booted := true, ending := .none } }

/-- What a cold reset of the block does to the chip (R218): slots and `counter0` persist; a chip that lost power with
the block has lost TempKey, one that kept power has it. -/
def Chip.blockPowerCycled (ch : Chip) : Chip :=
  let (lost, ch1) := ch.drawCoin
  if lost then ch1.fallAsleep else ch1

/-- Cold reset (R215): every register as R40 says, `BOOT_SEED` drawn afresh, the boot actions still to come. -/
def State.coldReset (s : State) : State :=
  let seed := Draws.nextMany Config.freeRand 32 s.env.rand
  { s with
    reg := Regs.cold seed.1
    wire := { s.wire with inFlight := [], arrived := [] }
    chip := s.chip.blockPowerCycled
    env := { s.env with rand := seed.2 }
    ctl := { s.ctl with booted := false, ending := .none } }

/-- The line as it is when power will be lost once `n` more symbols and low pulses have been tried: from then on nothing
goes out (R71, R101). -/
def State.dyingAfter (s : State) (n : Nat) : State :=
  { s with env := { s.env with stall :=
    { script := (Draws.nextMany Config.freeStall n s.env.stall).1, taken := s.env.stall.taken, forever := some true } } }

/-- The transmit-ready draws once power is back: those of `s`, the first `n` taken. -/
def State.lineOf (t s : State) (n : Nat) : State :=
  { t with env := { t.env with stall := (Draws.nextMany Config.freeStall n s.env.stall).2 } }

/-- HOST rewrites its buffer between calls (R14, R51). -/
def State.setHostBuf (s : State) (buf : Bytes) : State := { s with host := { s.host with buf := buf } }

/-- WIRE puts symbols on the line outside a receive: they arrive and wait (R38, R109). -/
def State.strayArrives (s : State) (symbols : List Symbol) : State :=
  { s with wire := { s.wire with arrived := s.wire.arrived ++ symbols } }

/-- WIRE lets CHIP hear symbols while BLOCK is silent (R13, R74). -/
def State.forged (s : State) (symbols : List Symbol) : State := { s with chip := s.chip.hearSymbols s.cfg symbols }

/-- CHIP's watchdog runs out while BLOCK is silent: an awake chip falls asleep by itself; one that is idled has its watchdog
stopped (R59, R214). -/
def State.watchdogExpired (s : State) : State :=
  { s with chip := if s.chip.power = .awake then s.chip.fallAsleep else s.chip }

/-- The environment's next actions. -/
def State.withPending (s : State) (p : List HostAction) : State := { s with host := { s.host with pending := p } }

/-- The machine booted and about to run the call of the words given, before whatever was pending (log 9). -/
def State.aboutToCall (s : State) (words : Bytes) : State :=
  { s.withPending (.call words :: s.host.pending) with ctl := { s.ctl with booted := true } }

end Sys2Proof.Machine
end

