-- ==== Sys2Proof/Machine/Dispatch.lean ====
section
/-! DEFINITION. Which meaning each operation has, one arm each. -/

namespace Sys2Proof.Machine

def exec (i : Instr) (s : State) : Host.Outcome State Fault Refusal :=
  match i with
  | .serialize b => Sys2Proof.Machine.execSerialize b s
  | .deserialize symbols maxLen => Sys2Proof.Machine.execDeserialize symbols maxLen s
  | .send bytes => Sys2Proof.Machine.execSend bytes s
  | .receive maxLen => Sys2Proof.Machine.execReceive maxLen s
  | .wake => Sys2Proof.Machine.execWake s
  | .idle => Sys2Proof.Machine.execIdle s
  | .sleep => Sys2Proof.Machine.execSleep s
  | .crc16 seed bytes => Sys2Proof.Machine.execCrc16 seed bytes s
  | .encodeCommand opcode p1 p2 data => Sys2Proof.Machine.execEncodeCommand opcode p1 p2 data s
  | .decodeResponse raw expectedLen => Sys2Proof.Machine.execDecodeResponse raw expectedLen s
  | .transact opcode p1 p2 data expect close => Sys2Proof.Machine.execTransact opcode p1 p2 data expect close s
  | .read slot block close => Sys2Proof.Machine.execRead slot block close s
  | .write slot block data close => Sys2Proof.Machine.execWrite slot block data close s
  | .writeMac slot block data mac close => Sys2Proof.Machine.execWriteMac slot block data mac close s
  | .nonce numin close => Sys2Proof.Machine.execNonce numin close s
  | .genDig slot close => Sys2Proof.Machine.execGenDig slot close s
  | .genDigCounter id close => Sys2Proof.Machine.execGenDigCounter id close s
  | .checkMac keynum body close => Sys2Proof.Machine.execCheckMac keynum body close s
  | .macGen keynum close => Sys2Proof.Machine.execMacGen keynum close s
  | .counterRead close => Sys2Proof.Machine.execCounterRead close s
  | .counterIncr close => Sys2Proof.Machine.execCounterIncr close s
  | .selfTest close => Sys2Proof.Machine.execSelfTest close s
  | .lock p1 p2 close => Sys2Proof.Machine.execLock p1 p2 close s
  | .info close => Sys2Proof.Machine.execInfo close s
  | .keyedHash keynum msg close => Sys2Proof.Machine.execKeyedHash keynum msg close s
  | .keyedHashEnd msg close => Sys2Proof.Machine.execKeyedHashEnd msg close s
  | .chipReset => Sys2Proof.Machine.execChipReset s
  | .pickNonce numin => Sys2Proof.Machine.execPickNonce numin s
  | .gendigSlot slot plaintext => Sys2Proof.Machine.execGendigSlot slot plaintext s
  | .ctEqual a b => Sys2Proof.Machine.execCtEqual a b s
  | .isCorrectTempkey expected => Sys2Proof.Machine.execIsCorrectTempkey expected s
  | .checkmac keynum secret => Sys2Proof.Machine.execCheckmac keynum secret s
  | .pairUnlock => Sys2Proof.Machine.execPairUnlock s
  | .encryptedRead slot authSlot authSecret n => Sys2Proof.Machine.execEncryptedRead slot authSlot authSecret n s
  | .encryptedWrite slot authSlot authSecret data => Sys2Proof.Machine.execEncryptedWrite slot authSlot authSecret data s
  | .mixin keynum start => Sys2Proof.Machine.execMixin keynum start s
  | .stretch start iterations => Sys2Proof.Machine.execStretch start iterations s
  | .authReadSlot slot => Sys2Proof.Machine.execAuthReadSlot slot s
  | .authReadCounter => Sys2Proof.Machine.execAuthReadCounter s
  | .addCounter n => Sys2Proof.Machine.execAddCounter n s
  | .gendigCounter value => Sys2Proof.Machine.execGendigCounter value s
  | .setup record => Sys2Proof.Machine.execSetup record s
  | .login record => Sys2Proof.Machine.execLogin record s
  | .change record => Sys2Proof.Machine.execChange record s
  | .fetchSecret record => Sys2Proof.Machine.execFetchSecret record s
  | .seDispatch method len arg2 => Sys2Proof.Machine.execSeDispatch method len arg2 s
  | .cmdReadSeSlot len arg2 => Sys2Proof.Machine.execCmdReadSeSlot len arg2 s
  | .cmdGetRandomBytes len => Sys2Proof.Machine.execCmdGetRandomBytes len s
  | .cmdIsBricked => Sys2Proof.Machine.execCmdIsBricked s

end Sys2Proof.Machine
end

