-- ==== Sys2Proof/Machine/Actions.lean ====
section
/-! DEFINITION. What one pending action of the environment does (spec/10_state.md R13, R14, R38; spec/30_encoding.md R95;
log 1). -/

namespace Sys2Proof.Machine

/-- A call in its words. -/
def call (words : Bytes) (s : State) : Host.Outcome State Fault Refusal :=
  match decode words with
  | .ok i => exec i s
  | .error r => .refused (.illegalCall r)

/-- Power is lost in a call once `n` symbols and low pulses have been tried (R71, R73). What BLOCK holds after that is lost,
and nothing of it reaches CHIP, so the call runs on a line that is dead from there on, and a cold reset follows. -/
def callCut (words : Bytes) (n : Nat) (s : State) : Host.Outcome State Fault Refusal :=
  match call words (s.dyingAfter n) with
  | .next t => .next (t.lineOf s n).coldReset
  | .fault f => .fault f
  | .refused r => .refused r

/-- One action of the environment. -/
def act (a : HostAction) (s : State) : Host.Outcome State Fault Refusal :=
  match a with
  | .call words => call words s
  | .cut words n => callCut words n s
  | .setBuf buf => .next (s.setHostBuf buf)
  | .stray symbols => .next (s.strayArrives symbols)
  | .forge symbols => .next (s.forged symbols)
  | .watchdog => .next s.watchdogExpired
  | .coldReset => .next s.coldReset

end Sys2Proof.Machine
end

