-- ==== Sys2Proof/Machine/Step.lean ====
section
/-! DEFINITION. One step of the machine: after a cold reset the boot actions (spec/70_reset_and_hazards.md R215), then one
pending action of the environment at a time, an operation call being one step (spec/10_state.md R14, spec/30_encoding.md
R95; log 1). -/

namespace Sys2Proof.Machine

/-- One step. -/
def step (s : State) : Host.Outcome State Fault Refusal :=
  if s.ctl.booted then
    match s.host.pending with
    | [] => .next s
    | a :: rest => act a (s.withPending rest)
  else .next (bootStep s)

/-- The state with an instruction's words where the next step takes them from. -/
def State.withFetchWord (s : State) (nbits w : Nat) : State := s.aboutToCall (tableWords nbits w)

end Sys2Proof.Machine
end

