-- ==== Sys2Proof/Safety.lean ====
section
/-! DEFINITION. The terms statements about the block are made in: what the block itself holds and shows, apart from the
chip and from WIRE's moves (`Face`); what the environment grants a run (a transmitter that never hits its ceiling, the
bursts that will be heard); one command on the line and what it leaves (`Exchange`); the states of a record
(spec/44_pinengine.md R159); the invariant of the machine. -/

namespace Sys2Proof.Machine

open Sys2Proof.Config (Params OutMove InMove)

/-! ### Draws ahead -/

/-- The next `n` draws of a stream. -/
def Draws.ahead {α : Type} (free : Nat → α) (n : Nat) (d : Draws α) : List α := (Draws.nextMany free n d).1

/-- The stream once those are taken. -/
def Draws.after {α : Type} (free : Nat → α) (n : Nat) (d : Draws α) : Draws α := (Draws.nextMany free n d).2

/-! ### The block's own face -/

/-- Everything of a state but the chip and WIRE's moves on outbound messages: what the block holds and shows, HOST, and
the draws the block itself takes. -/
structure Face where
  cfg : Params
  reg : Regs
  trace : List LineEvent
  inFlight : List Symbol
  arrived : List Symbol
  inMoves : Draws InMove
  host : HostSide
  env : Env
  ctl : Ctl
deriving DecidableEq, Repr

/-- The face of a state. -/
def State.face (s : State) : Face where
  cfg := s.cfg
  reg := s.reg
  trace := s.wire.trace
  inFlight := s.wire.inFlight
  arrived := s.wire.arrived
  inMoves := s.wire.inMoves
  host := s.host
  env := s.env
  ctl := s.ctl

/-- The next `n` transmit-ready draws are all "ready": an honest, working line (R101). -/
def Face.quiet (f : Face) (n : Nat) : Prop := f.env.stall.ahead Config.freeStall n = List.replicate n false

/-- The next `n` transmit-ready draws are "ready" and the one after hits the ceiling (R101). -/
def Face.stallsAfter (f : Face) (n : Nat) : Prop :=
  f.env.stall.ahead Config.freeStall (n + 1) = List.replicate n false ++ [true]

/-- The next bursts the block will hear, whoever puts them on the line (R103). -/
def Face.hears (f : Face) (bursts : List (List Symbol)) : Prop :=
  f.inMoves.ahead Config.freeInMove bursts.length = bursts.map InMove.inject

/-- The next `n` bytes of the ENTROPY port (R17). -/
def Face.randoms (f : Face) (n : Nat) : Bytes := f.env.rand.ahead Config.freeRand n

/-- `n` transmit-ready draws are taken. -/
def Face.transmitted (f : Face) (n : Nat) : Face :=
  { f with env := { f.env with stall := f.env.stall.after Config.freeStall n } }

/-- `n` bursts are heard. -/
def Face.heard (f : Face) (n : Nat) : Face := { f with inMoves := f.inMoves.after Config.freeInMove n }

/-- `n` random bytes are drawn. -/
def Face.drew (f : Face) (n : Nat) : Face :=
  { f with env := { f.env with rand := f.env.rand.after Config.freeRand n } }

/-- A random delay is drawn (R179). -/
def Face.delayed (f : Face) : Face :=
  { f with env := { f.env with delay := (f.env.delay.next Config.freeDelay).2 } }

/-- How the last operation ended. -/
def Face.ended (f : Face) (e : Ending) : Face := { f with ctl := { f.ctl with ending := e } }

/-- Registers replaced. -/
def Face.withRegs (f : Face) (r : Regs) : Face := { f with reg := r }

/-- A low pulse at the halved rate was seen on the line (R104). -/
def Face.pulsed (f : Face) : Face := { f with trace := f.trace ++ [.low true] }

/-- Symbols at a rate were seen on the line, and are in flight no more (R101). -/
def Face.sentAt (f : Face) (half : Bool) (symbols : List Symbol) : Face :=
  { f with trace := f.trace ++ symbols.map (fun x => .sym x half), inFlight := [] }

/-- The same at the normal rate. -/
def Face.sent (f : Face) (symbols : List Symbol) : Face := f.sentAt false symbols

/-! ### Symbols read -/

/-- The junk symbols of a list. -/
def junkIn (c : Params) (symbols : List Symbol) : Nat := symbols.countP (fun x => !isPulse c x)

/-- The bit that symbol `j` of whole groups reads as: the one its pulse code stands for, or, for a junk symbol, the next
junk draw after those of the junk symbols before it (R100). -/
def readBit (c : Params) (junk : Draws Bool) (symbols : List Symbol) (j : Nat) : Bool :=
  if symbols[j]? = some c.pulse1 then true
  else if symbols[j]? = some c.pulse0 then false
  else ((junk.after Config.freeJunk (junkIn c (symbols.take j))).next Config.freeJunk).1

/-! ### One command on the line -/

/-- The prompt that opens a receive: one byte, or nothing where it is configured as "none" (R79, R102). -/
def promptBytes (c : Params) : Bytes := c.ioflagTx.toList

/-- The token that closes a transaction (R79, R121). -/
def closeToken (c : Params) : Close → Byte
  | .idle => c.ioflagIdle
  | .sleep => c.ioflagSleep

/-- The line state a close token leaves (R105, R106). -/
def closedLine : Close → LState
  | .idle => .idled
  | .sleep => .asleep

/-- A transaction that completes: the command, what is expected, how it is closed (R119), the byte strings heard at the
failed receive attempts, and the payload heard at the last. -/
structure Exchange where
  opcode : Byte
  p1 : Byte
  p2 : Word16
  data : Bytes
  expect : Expect
  close : Close
  failed : List Bytes
  payload : Bytes
deriving DecidableEq, Repr

/-- The bytes of the reply that carries the payload (R85 to R87). -/
def Exchange.reply (c : Params) (x : Exchange) : Bytes :=
  match x.expect with
  | .raw _ => x.payload
  | .status => responseFrame c x.payload
  | .data _ => responseFrame c x.payload

/-- The byte strings heard, attempt by attempt. -/
def Exchange.replies (c : Params) (x : Exchange) : List Bytes := x.failed ++ [x.reply c]

/-- The bursts heard: the symbols of those byte strings (R78). -/
def Exchange.bursts (c : Params) (x : Exchange) : List (List Symbol) := (x.replies c).map (serializeBytes c)

/-- Received bytes that the retry loop takes for a failed attempt when a frame with `n` payload bytes is expected: too
short, a count byte that is neither the expected one nor a status reply's with an error, or a wrong CRC (R115, R120). -/
def spoiled (c : Params) (n : Nat) (raw : Bytes) : Prop :=
  raw.length < 4
  ∨ (raw.getD 0 0).toNat ≠ n + 3 ∧ ¬ ((raw.getD 0 0).toNat = 4 ∧ raw.getD 1 0 ≠ 0)
  ∨ (raw.getD 0 0).toNat = n + 3 ∧ raw.length < n + 3
  ∨ (raw.getD 0 0).toNat = n + 3 ∧ slice raw (n + 1) 2 ≠ u16le (frameCrc c (slice raw 0 (n + 1)))

/-- What a receive attempt counts as failed under each expectation (R119, R120). -/
def expectFails (c : Params) : Expect → Bytes → Prop
  | .status, raw => spoiled c 1 raw
  | .data n, raw => spoiled c n raw
  | .raw n, raw => raw.length < n

/-- The payload has the length expected, and a status payload is `ST_OK` (R119). -/
def expectAccepts : Expect → Bytes → Prop
  | .status, p => p = [0]
  | .data n, p => p.length = n ∧ 2 ≤ n ∧ n ≤ 252
  | .raw n, p => p.length = n ∧ 1 ≤ n

/-- The exchange is one that R119 completes: every failed attempt fails and fits what `receive` was asked for, there is
an attempt left for the last, and its payload is accepted. -/
def Exchange.completes (c : Params) (x : Exchange) : Prop :=
  x.failed.length < c.retryMax ∧ expectAccepts x.expect x.payload
  ∧ ∀ raw ∈ x.failed, raw.length ≤ Expect.want x.expect ∧ expectFails c x.expect raw

/-- The command frame of an exchange (R80). -/
def Exchange.frame (c : Params) (x : Exchange) : Bytes := commandFrame c x.opcode x.p1 x.p2 x.data

/-- How many receive attempts an exchange takes (R120). -/
def Exchange.attempts (x : Exchange) : Nat := x.failed.length + 1

/-- Every symbol an exchange puts on the line, the low pulse apart: the command frame once, a prompt for every receive
attempt, the close token (R119, R120). -/
def Exchange.symbols (c : Params) (x : Exchange) : List Symbol :=
  serializeBytes c (x.frame c ++ (List.replicate x.attempts (promptBytes c)).flatten ++ [closeToken c x.close])

/-- How many transmit-ready draws an exchange takes: one for the low pulse, one for every symbol (R101, R104). -/
def Exchange.cost (c : Params) (x : Exchange) : Nat := 1 + (x.symbols c).length

/-- What the CRC accumulator ends as: the reply's CRC, or the command's where the reply is raw (R22, R118). -/
def Exchange.crc (c : Params) (x : Exchange) : Word16 :=
  match x.expect with
  | .raw _ => frameCrc c (commandBody x.opcode x.p1 x.p2 x.data)
  | .status => frameCrc c (BitVec.ofNat 8 (x.payload.length + 3) :: x.payload)
  | .data _ => frameCrc c (BitVec.ofNat 8 (x.payload.length + 3) :: x.payload)

/-- The registers after an exchange (R119, R136): every one it writes. -/
def Exchange.regs (c : Params) (x : Exchange) (r : Regs) : Regs :=
  { r with
    txbuf := x.frame c
    rxbuf := rxHeld (x.reply c)
    crc := x.crc c
    tkValid := r.tkValid && decide (x.close = .idle)
    phase := .ready
    lstate := closedLine x.close
    baudsel := false
    tof := true
    retry := x.attempts
    busCalls := r.busCalls + 1 }

/-- The face after an exchange: the registers, the line, the draws taken, and nothing else. -/
def Face.exchange (f : Face) (x : Exchange) : Face :=
  { ((f.pulsed.sent (x.symbols f.cfg)).transmitted (x.cost f.cfg)).heard x.attempts with
    reg := x.regs f.cfg f.reg
    arrived := [] }

/-- The face after exchanges one after the other. -/
def Face.exchanges (f : Face) (xs : List Exchange) : Face := xs.foldl Face.exchange f

/-! ### Attempts that stall -/

/-- A receive attempt that fails (R107, R120): a prompt after which the symbols of a byte string are heard, or a prompt that
stalls after so many symbols. -/
inductive FailedAttempt where
  | heard (raw : Bytes)
  | stalled (n : Nat)
deriving DecidableEq, Repr

/-- The attempt fails: what is heard counts as a failure, or the stall comes before the prompt's last symbol. -/
def FailedAttempt.fails (c : Params) (e : Expect) : FailedAttempt → Prop
  | .heard raw => raw.length ≤ Expect.want e ∧ expectFails c e raw
  | .stalled n => n < 8 * (promptBytes c).length

/-- The transmit-ready draws of the attempt, `true` where the poll hits its ceiling (R101). -/
def FailedAttempt.stalls (c : Params) : FailedAttempt → List Bool
  | .heard _ => List.replicate (8 * (promptBytes c).length) false
  | .stalled n => List.replicate n false ++ [true]

/-- The symbols of the prompt that went out. -/
def FailedAttempt.symbols (c : Params) : FailedAttempt → List Symbol
  | .heard _ => serializeBytes c (promptBytes c)
  | .stalled n => (serializeBytes c (promptBytes c)).take n

/-- The bursts the attempt asks for: none where its prompt stalled. -/
def FailedAttempt.bursts (c : Params) : FailedAttempt → List (List Symbol)
  | .heard raw => [serializeBytes c raw]
  | .stalled _ => []

/-- `TOF` after the attempts: whether the last one listened (R27, R102). -/
def tofAfter (tof : Bool) : List FailedAttempt → Bool
  | [] => tof
  | .heard _ :: rest => tofAfter true rest
  | .stalled _ :: rest => tofAfter false rest

/-- The next transmit-ready draws are these (R101). -/
def Face.stallsAs (f : Face) (draws : List Bool) : Prop := f.env.stall.ahead Config.freeStall draws.length = draws

/-- The transmit-ready draws up to the end of those attempts: one for the low pulse, one for every symbol of a command with
`n` data bytes, then the attempts'. -/
def attemptStalls (c : Params) (n : Nat) (failed : List FailedAttempt) : List Bool :=
  List.replicate (1 + 8 * (n + 8)) false ++ failed.flatMap (FailedAttempt.stalls c)

/-- The transmit-ready draws of an exchange after those attempts. -/
def Exchange.stalls (c : Params) (x : Exchange) (failed : List FailedAttempt) : List Bool :=
  attemptStalls c x.data.length failed ++ List.replicate (8 * (promptBytes c).length + 8) false

/-- The face after an exchange with those failed attempts: as after one whose failed attempts were all heard, but for the
prompts that stalled (R119, R120). -/
def Face.exchangeAfter (f : Face) (x : Exchange) (failed : List FailedAttempt) : Face :=
  { ((f.pulsed.sent (serializeBytes f.cfg (x.frame f.cfg) ++ failed.flatMap (FailedAttempt.symbols f.cfg)
      ++ serializeBytes f.cfg (promptBytes f.cfg ++ [closeToken f.cfg x.close]))).transmitted
      (x.stalls f.cfg failed).length).heard ((failed.flatMap (FailedAttempt.bursts f.cfg)).length + 1) with
    reg := { x.regs f.cfg f.reg with retry := failed.length + 1 }
    arrived := [] }

/-- The environment lets these exchanges complete: a line that never stalls for as long as they take, and the bursts of
their replies in order. -/
def Face.grants (f : Face) (xs : List Exchange) : Prop :=
  f.quiet ((xs.map (fun x => x.cost f.cfg)).sum) ∧ f.hears (xs.flatMap (fun x => x.bursts f.cfg))
  ∧ ∀ x ∈ xs, x.completes f.cfg

/-! ### The exchanges of each command (R84), each answered at the first attempt and closed with IDLE -/

/-- `Read` answered with a block (R123). -/
def xRead (c : Params) (slot : SlotId) (block : Nat) (reply : Bytes) : Exchange :=
  ⟨c.op.read, c.p1.read32, p2Addr c slot block, [], .data 32, .idle, [], reply⟩

/-- `Write` with a MAC, accepted (R124). -/
def xWriteMac (c : Params) (slot : SlotId) (block : Nat) (data mac : Bytes) : Exchange :=
  ⟨c.op.write, c.p1.write32Enc, p2Addr c slot block, data ++ mac, .status, .idle, [], [0]⟩

/-- `Nonce` answered with the chip's random bytes (R125). -/
def xNonce (c : Params) (numin rng : Bytes) : Exchange :=
  ⟨c.op.nonce, c.p1.nonce, 0, numin, .data 32, .idle, [], rng⟩

/-- `GenDig` over a slot, accepted (R126). -/
def xGenDig (c : Params) (slot : SlotId) : Exchange :=
  ⟨c.op.genDig, c.p1.genDigData, slot, [], .status, .idle, [], [0]⟩

/-- `GenDig` over the counter, accepted (R126). -/
def xGenDigCounter (c : Params) : Exchange :=
  ⟨c.op.genDig, c.p1.genDigCounter, c.counterId, [], .status, .idle, [], [0]⟩

/-- `CheckMac`, accepted (R127). -/
def xCheckMac (c : Params) (keynum : SlotId) (body : Bytes) : Exchange :=
  ⟨c.op.checkMac, c.p1.checkMac, keynum, body, .status, .idle, [], [0]⟩

/-- `MacGen` bound to the pairing slot, answered with a MAC (R128). -/
def xMacGen (c : Params) (mac : Bytes) : Exchange :=
  ⟨c.op.macGen, c.p1.macGen, c.slot.pairing, [], .data 32, .idle, [], mac⟩

/-- `CounterRead` answered with a value (R129). -/
def xCounterRead (c : Params) (v : Word32) : Exchange :=
  ⟨c.op.counter, c.p1.counterRead, c.counterId, [], .data 4, .idle, [], u32le v⟩

/-- `CounterIncr` answered with the value after it (R130). -/
def xCounterIncr (c : Params) (v : Word32) : Exchange :=
  ⟨c.op.counter, c.p1.counterIncr, c.counterId, [], .data 4, .idle, [], u32le v⟩

/-- The two commands of a keyed hash, the second answered with the hash (R134). -/
def xKeyedHash (c : Params) (keynum : SlotId) (msg h : Bytes) : List Exchange :=
  [⟨c.op.keyedHash, c.p1.keyedHashStart, keynum, [], .status, .idle, [], [0]⟩,
   ⟨c.op.keyedHash, c.p1.keyedHashEnd, 32, msg, .data 32, .idle, [], h⟩]

/-! ### The exchanges of the session operations (R139 to R152) -/

/-- The random bytes one `checkmac` draws: `Rand(20)` and `Rand(13)` (R143). -/
def checkmacDraws : Nat := Config.numinLen + Config.otherDataLen

/-- `checkmac(keynum, secret)` with its draws, answered with random bytes and accepted (R143). -/
def xCheckmac (c : Params) (keynum : SlotId) (secret numin od rng : Bytes) : List Exchange :=
  [xNonce c numin rng,
   xCheckMac c keynum (checkMacBody (sha256 (checkMacMsg secret (sha256 (nonceMsg rng numin)) od)) od)]

/-- `pair_unlock()` with its 33 draws (R144). -/
def xPair (c : Params) (draws rng : Bytes) : List Exchange :=
  xCheckmac c c.slot.pairing c.rom.pairingSecret (slice draws 0 20) (slice draws 20 13) rng

/-- What `TK` is after `gendig_slot` (R140). -/
def gendigDigest (slot : SlotId) (plaintext numin rng : Bytes) : Bytes :=
  sha256 (genDigMsg slot plaintext (sha256 (nonceMsg rng numin)))

/-- `gendig_slot` (R140). -/
def xGendigSlot (c : Params) (slot : SlotId) (numin rng : Bytes) : List Exchange :=
  [xNonce c numin rng, xGenDig c slot]

/-- What `TK` is after `gendig_counter` (R152). -/
def gendigCounterDigest (c : Params) (value : Word32) (numin rng : Bytes) : Bytes :=
  sha256 (genDigCounterMsg c.counterId value (sha256 (nonceMsg rng numin)))

/-- `gendig_counter` (R152). -/
def xGendigCounter (c : Params) (numin rng : Bytes) : List Exchange := [xNonce c numin rng, xGenDigCounter c]

/-- What a session operation leaves: its exchanges on the line, the random bytes it drew, and its own copy of TempKey
with its mark (R23, R153). -/
def Face.session (f : Face) (xs : List Exchange) (draws : Nat) (tk : Bytes) (tkValid : Bool) : Face :=
  let g := (f.exchanges xs).drew draws
  g.withRegs { g.reg with tk := tk, tkValid := tkValid }

/-- The replies of one block of an encrypted read: two of the chip's random strings, and the block as it crossed the
line (R145). -/
structure ReadReply where
  pairRng : Bytes
  gendigRng : Bytes
  block : Bytes
deriving DecidableEq, Repr

/-- The random bytes one block of an encrypted access draws: those of `pair_unlock` and of `gendig_slot`. -/
def roundDraws : Nat := checkmacDraws + Config.numinLen

/-- The digest of one block of an encrypted access, from the draws of its round (R140, R145, R146). -/
def roundDigest (authSlot : SlotId) (authSecret draws gendigRng : Bytes) : Bytes :=
  gendigDigest authSlot authSecret (slice draws 33 20) gendigRng

/-- The exchanges of an encrypted read from block `b` on (R145). -/
def xEncryptedRead (c : Params) (slot authSlot : SlotId) : Nat → Bytes → List ReadReply → List Exchange
  | _, _, [] => []
  | b, draws, r :: rs =>
    xPair c draws r.pairRng ++ xGendigSlot c authSlot (slice draws 33 20) r.gendigRng ++ [xRead c slot b r.block]
      ++ xEncryptedRead c slot authSlot (b + 1) (draws.drop roundDraws) rs

/-- The bytes an encrypted read gives: each block under its own digest (R145). -/
def encryptedReadBytes (authSlot : SlotId) (authSecret : Bytes) : Bytes → List ReadReply → Bytes
  | _, [] => []
  | draws, r :: rs =>
    xorBytes r.block (roundDigest authSlot authSecret draws r.gendigRng)
      ++ encryptedReadBytes authSlot authSecret (draws.drop roundDraws) rs

/-- The replies of one block of an encrypted write: two of the chip's random strings (R146). -/
structure WriteReply where
  pairRng : Bytes
  gendigRng : Bytes
deriving DecidableEq, Repr

/-- The write of one block under a digest, with its MAC (R146). -/
def xWriteBlock (c : Params) (slot : SlotId) (b : Nat) (d p : Bytes) : Exchange :=
  xWriteMac c slot b (xorBytes p d) (sha256 (writeMacMsg d (p2Addr c slot b) p))

/-- The exchanges of an encrypted write from block `b` on (R146). -/
def xEncryptedWrite (c : Params) (slot authSlot : SlotId) (authSecret : Bytes) :
    Nat → Bytes → Bytes → List WriteReply → List Exchange
  | _, _, _, [] => []
  | b, data, draws, r :: rs =>
    xPair c draws r.pairRng ++ xGendigSlot c authSlot (slice draws 33 20) r.gendigRng
      ++ [xWriteBlock c slot b (roundDigest authSlot authSecret draws r.gendigRng) (data.take 32)]
      ++ xEncryptedWrite c slot authSlot authSecret (b + 1) (data.drop 32) (draws.drop roundDraws) rs

/-- The replies of one iteration of `stretch`: the chip's random string and the hash (R148). -/
structure StretchReply where
  pairRng : Bytes
  hash : Bytes
deriving DecidableEq, Repr

/-- The exchanges of `stretch` (R148). -/
def xStretch (c : Params) : Bytes → Bytes → List StretchReply → List Exchange
  | _, _, [] => []
  | v, draws, r :: rs =>
    xPair c draws r.pairRng ++ xKeyedHash c c.slot.kdf v r.hash ++ xStretch c r.hash (draws.drop checkmacDraws) rs

/-- What `stretch` gives: the last hash (R148). -/
def stretchResult : Bytes → List StretchReply → Bytes
  | v, [] => v
  | _, r :: rs => stretchResult r.hash rs

/-- The exchanges of `auth_read_slot` when the check passes (R149): pairing, the read, the fold, the MAC expected. -/
def xAuthReadSlot (c : Params) (slot : SlotId) (draws pairRng v gendigRng : Bytes) : List Exchange :=
  xPair c draws pairRng ++ [xRead c slot 0 v] ++ xGendigSlot c slot (slice draws 33 20) gendigRng
    ++ [xMacGen c (tempkeyMac c (roundDigest slot v draws gendigRng))]

/-- The exchanges of the check of a counter value when it passes (R150, R151). -/
def xCounterCheck (c : Params) (v : Word32) (numin gendigRng : Bytes) : List Exchange :=
  xGendigCounter c numin gendigRng ++ [xMacGen c (tempkeyMac c (gendigCounterDigest c v numin gendigRng))]

/-- The exchanges of `auth_read_counter` when the check passes (R150). -/
def xAuthReadCounter (c : Params) (v : Word32) (draws pairRng gendigRng : Bytes) : List Exchange :=
  xPair c draws pairRng ++ [xCounterRead c v] ++ xCounterCheck c v (slice draws 33 20) gendigRng

/-- The exchanges of `add_counter(n)` when the check passes: as many increments as there are values answered (R151). -/
def xAddCounter (c : Params) (values : List Word32) (last : Word32) (draws pairRng gendigRng : Bytes) : List Exchange :=
  xPair c draws pairRng ++ values.map (xCounterIncr c) ++ [xCounterIncr c last]
    ++ xCounterCheck c last (slice draws 33 20) gendigRng

/-- The exchanges of an authenticated read with another answer to the command for its MAC (R149 to R151). -/
def withMac (c : Params) (xs : List Exchange) (mac : Bytes) : List Exchange := xs.dropLast ++ [xMacGen c mac]

/-! ### Records (R154 to R159) -/

/-- The record passes `validate` (R156). -/
def recordValid (c : Params) (r : Bytes) : Prop :=
  fieldWord r c.layout.magicValue = c.paMagic ∧ (fieldWord r c.layout.pinLen).toNat ≤ c.maxPinLen
  ∧ (fieldWord r c.layout.oldPinLen).toNat ≤ c.maxPinLen ∧ (fieldWord r c.layout.newPinLen).toNat ≤ c.maxPinLen

/-- The record passes `verify` (R158). -/
def recordVerifies (c : Params) (bootSeed r : Bytes) : Prop := field r c.layout.hmac = signatureOf c bootSeed r

/-- The record's flag word (R34). -/
def recordFlags (c : Params) (r : Bytes) : Word32 := fieldWord r c.layout.stateFlags

/-- The three states of R159. -/
inductive PinState where
  | unauthenticated
  | attemptPrepared
  | authenticated
deriving DecidableEq, Repr

/-- The state of a record (R159): a function of the record the host holds. -/
def pinState (c : Params) (bootSeed r : Bytes) : PinState :=
  if field r c.layout.hmac = signatureOf c bootSeed r then
    if hasFlag (recordFlags c r) c.flag.successful then .authenticated else .attemptPrepared
  else .unauthenticated

/-- The record, signed (R157). -/
def signedRecord (c : Params) (bootSeed r : Bytes) : Bytes := withField r c.layout.hmac (signatureOf c bootSeed r)

/-- What the PinEngine holds (R30, R31, R33): the record, the session digest and its masked copy, each with its mark. -/
structure Held where
  record : Bytes
  recHeld : Bool
  digest : Bytes
  digestHeld : Bool
  cache : Bytes
  cacheHeld : Bool
deriving DecidableEq, Repr

/-- What the PinEngine holds in a face. -/
def Face.held (f : Face) : Held :=
  ⟨f.reg.record, f.reg.recHeld, f.reg.digest, f.reg.digestHeld, f.reg.cache, f.reg.cacheHeld⟩

/-- The face with other things held. -/
def Face.withHeld (f : Face) (h : Held) : Face :=
  f.withRegs { f.reg with
    record := h.record, recHeld := h.recHeld, digest := h.digest, digestHeld := h.digestHeld
    cache := h.cache, cacheHeld := h.cacheHeld }

/-- Another record held. -/
def Held.withRecord (h : Held) (record : Bytes) : Held := { h with record := record, recHeld := true }

/-- A digest held, and its masked copy, in `CACHE` and in the record's field (R168). -/
def Held.caching (c : Params) (bootSeed : Bytes) (h : Held) (digest : Bytes) : Held :=
  { record := withField h.record c.layout.cachedMainPin (maskDigest c bootSeed digest), recHeld := true
    digest := digest, digestHeld := true
    cache := maskDigest c bootSeed digest, cacheHeld := true }

/-- The record signed, as the last step of every operation that returns it (R157). -/
def Held.signed (c : Params) (bootSeed : Bytes) (h : Held) : Held :=
  h.withRecord (signedRecord c bootSeed h.record)

/-- What a PinEngine operation leaves: its exchanges, its draws, what it holds. -/
def Face.pin (f : Face) (xs : List Exchange) (draws : Nat) (tk : Bytes) (tkValid : Bool) (h : Held) : Face :=
  (f.session xs draws tk tkValid).withHeld h

/-! ### The exchanges of the PinEngine -/

/-- The replies of `pin_hash_attempt`: those of `stretch`, of the plain mix-in, of the attempt mix-in (R161). -/
structure AttemptReply where
  stretches : List StretchReply
  plainRng : Bytes
  keyRng : Bytes
  hash : Bytes
deriving DecidableEq, Repr

/-- The value after the plain mix-in (R161). -/
def plainMix (c : Params) (pin : Bytes) (r : AttemptReply) : Bytes :=
  sha256 (Config.mixMsg c.rom.pairingSecret (stretchResult (pinHash c pin) r.stretches) c.slot.keyPlain (zeros 32))

/-- What `pin_hash_attempt` gives (R161). -/
def attemptDigest (c : Params) (pin : Bytes) (r : AttemptReply) : Bytes :=
  sha256 (Config.mixMsg c.rom.pairingSecret (plainMix c pin r) c.slot.pinAttempt r.hash)

/-- How many random bytes `pin_hash_attempt` draws: a pairing for every iteration and for each mix-in (R161). -/
def attemptDraws (r : AttemptReply) : Nat := checkmacDraws * r.stretches.length + checkmacDraws + checkmacDraws

/-- The exchanges of `pin_hash_attempt` (R161). -/
def xPinAttempt (c : Params) (pin draws : Bytes) (r : AttemptReply) : List Exchange :=
  xStretch c (pinHash c pin) draws r.stretches
    ++ xPair c (draws.drop (checkmacDraws * r.stretches.length)) r.plainRng
    ++ (xPair c (draws.drop (checkmacDraws * r.stretches.length + checkmacDraws)) r.keyRng
      ++ xKeyedHash c c.slot.pinAttempt (plainMix c pin r) r.hash)

/-- The exchanges of the test of a digest against `pin_hash`, answered with a MAC (R165, R170). -/
def xTestDigest (c : Params) (draws pairRng gendigRng mac : Bytes) : List Exchange :=
  xPair c draws pairRng ++ xGendigSlot c c.slot.pinHash (slice draws 33 20) gendigRng ++ [xMacGen c mac]

/-- The MAC that makes the test pass (R142, R165). -/
def testMac (c : Params) (d draws gendigRng : Bytes) : Bytes :=
  tempkeyMac c (roundDigest c.slot.pinHash d draws gendigRng)

/-- The replies of `good_login_updates` (R166). -/
structure UpdateReply where
  readPair : Bytes
  readGendig : Bytes
  matchWrite : WriteReply
  increments : List Word32
  addPair : Bytes
  addGendig : Bytes
  lastWrite : WriteReply
deriving DecidableEq, Repr

/-- The random bytes `good_login_updates` draws: four rounds. -/
def updateDraws : Nat := 4 * roundDraws

/-- The exchanges of `good_login_updates(d)` with the counter at `v` and ending at `last` (R166). -/
def xUpdates (c : Params) (d : Bytes) (v last : Word32) (draws : Bytes) (r : UpdateReply) : List Exchange :=
  xAuthReadCounter c v draws r.readPair r.readGendig
    ++ xEncryptedWrite c c.slot.matchCount c.slot.pinHash d 0 (matchCountBlock (newMatchCount c v))
      (draws.drop roundDraws) [r.matchWrite]
    ++ xAddCounter c r.increments last (draws.drop (2 * roundDraws)) r.addPair r.addGendig
    ++ xEncryptedWrite c c.slot.lastgood c.slot.pinHash d 0 (lastgoodBlock last)
      (draws.drop (3 * roundDraws)) [r.lastWrite]

/-- The replies of `read_counters` (R162). -/
structure CountersReply where
  counterPair : Bytes
  counter : Word32
  counterGendig : Bytes
  matchPair : Bytes
  matchBlock : Bytes
  matchGendig : Bytes
  lastPair : Bytes
  lastBlock : Bytes
  lastGendig : Bytes
deriving DecidableEq, Repr

/-- The exchanges of `read_counters` (R162). -/
def xReadCounters (c : Params) (draws : Bytes) (r : CountersReply) : List Exchange :=
  xAuthReadCounter c r.counter draws r.counterPair r.counterGendig
    ++ xAuthReadSlot c c.slot.matchCount (draws.drop roundDraws) r.matchPair r.matchBlock r.matchGendig
    ++ xAuthReadSlot c c.slot.lastgood (draws.drop (2 * roundDraws)) r.lastPair r.lastBlock r.lastGendig

/-- The record with the two reported numbers (R162). -/
def withCounters (c : Params) (record : Bytes) (r : CountersReply) : Bytes :=
  withFieldWord
    (withFieldWord record c.layout.attemptsLeft (attemptsLeft r.counter (le32 (r.matchBlock.take 4))))
    c.layout.numFails (numFails c r.counter (le32 (r.lastBlock.take 4)))

/-- The exchanges of `detect_blank()` on a blank chip: `CheckMac` accepts the all-zero key (R164). -/
def xDetectBlank (c : Params) (draws pairRng checkRng : Bytes) : List Exchange :=
  xPair c draws pairRng ++ xCheckmac c c.slot.pinHash (zeros 32) (slice draws 33 20) (slice draws 53 13) checkRng

/-! ### Whole PIN operations -/

/-- The record once `setup` has zeroed every field the block writes and stored its nonce (R163). -/
def clearedRecord (c : Params) (record nonce : Bytes) : Bytes :=
  let l := c.layout
  withField (withField (withFieldWord (withFieldWord (withFieldWord (withFieldWord (withFieldWord (withFieldWord record
    l.stateFlags 0) l.numFails 0) l.attemptsLeft 0) l.delayAchieved 0) l.delayRequired 0) l.privateState (le32 nonce))
    l.hmac (zeros 32)) l.cachedMainPin (zeros 32)

/-- The replies of a `setup` of a blank chip (R163). -/
structure SetupReply where
  warmRng : Bytes
  counters : CountersReply
  blankPair : Bytes
  blankRng : Bytes
deriving DecidableEq, Repr

/-- The random bytes that `setup` draws: the nonce, the warm-up, the counters, the detection (R163). -/
def setupDraws : Nat := 4 + 33 + 159 + 66

/-- The exchanges of `setup` of a blank chip (R163). -/
def xSetup (c : Params) (draws : Bytes) (r : SetupReply) : List Exchange :=
  xPair c (draws.drop 4) r.warmRng ++ (xReadCounters c (draws.drop 37) r.counters
    ++ xDetectBlank c (draws.drop 196) r.blankPair r.blankRng)

/-- What `setup` of a blank chip leaves held (R163): the record cleared, its counters read, marked blank and
authenticated, the zero digest cached, signed. -/
def heldSetup (c : Params) (bootSeed draws : Bytes) (h : Held) (r : SetupReply) : Held :=
  ((h.withRecord (withFieldWord (withCounters c (clearedRecord c h.record (draws.take 4)) r.counters)
    c.layout.stateFlags (setFlag c.flag.successful c.flag.isBlank))).caching c bootSeed (zeros 32)).signed c bootSeed

/-- The exchanges of `setup` up to the `CheckMac` that asks whether the chip is blank (R163, R164). -/
def xSetupStart (c : Params) (draws : Bytes) (r : SetupReply) : List Exchange :=
  xPair c (draws.drop 4) r.warmRng ++ (xReadCounters c (draws.drop 37) r.counters
    ++ (xPair c (draws.drop 196) r.blankPair ++ [xNonce c (slice draws 229 20) r.blankRng]))

/-- The frame of that `CheckMac`, with the all-zero secret (R143, R164). -/
def blankFrame (c : Params) (draws : Bytes) (r : SetupReply) : Bytes :=
  commandFrame c c.op.checkMac c.p1.checkMac c.slot.pinHash (checkMacBody
    (sha256 (checkMacMsg (zeros 32) (sha256 (nonceMsg r.blankRng (slice draws 229 20))) (slice draws 249 13)))
    (slice draws 249 13))

/-- What `setup` of a personalised chip leaves held (R163): the record cleared, its counters read, signed; the digest and
the cache as before. -/
def heldSetupPersonal (c : Params) (bootSeed draws : Bytes) (h : Held) (r : SetupReply) : Held :=
  (h.withRecord (withCounters c (clearedRecord c h.record (draws.take 4)) r.counters)).signed c bootSeed

/-- The PIN of a record: `slice(rec.pin, 0, rec.pin_len)` (R165). -/
def recordPin (c : Params) (r : Bytes) : Bytes := (field r c.layout.pin).take (fieldWord r c.layout.pinLen).toNat

/-- The replies of a login that succeeds (R165). -/
structure LoginReply where
  attempt : AttemptReply
  testPair : Bytes
  testGendig : Bytes
  counter : Word32
  lastCounter : Word32
  updates : UpdateReply
  seed : List ReadReply
deriving DecidableEq, Repr

/-- The random bytes a login that succeeds draws (R165). -/
def loginDraws (r : LoginReply) : Nat := attemptDraws r.attempt + (53 + (212 + 159))

/-- The exchanges of a login that succeeds (R165): the attempt, the test of its digest, the updates, the secret. -/
def xLogin (c : Params) (pin draws : Bytes) (r : LoginReply) : List Exchange :=
  let d := attemptDigest c pin r.attempt
  let k := attemptDraws r.attempt
  xPinAttempt c pin draws r.attempt
    ++ (xTestDigest c (draws.drop k) r.testPair r.testGendig (testMac c d (draws.drop k) r.testGendig)
    ++ (xUpdates c d r.counter r.lastCounter (draws.drop (k + 53)) r.updates
    ++ xEncryptedRead c c.slot.seed c.slot.pinHash 0 (draws.drop (k + 53 + 212)) r.seed))

/-- The secret as it stands in the chip, read at the end of a login (R165). -/
def loginSecret (c : Params) (pin draws : Bytes) (r : LoginReply) : Bytes :=
  (encryptedReadBytes c.slot.pinHash (attemptDigest c pin r.attempt) (draws.drop (attemptDraws r.attempt + 53 + 212))
    r.seed).take 72

/-- The record of a login that succeeded: authenticated, whether the secret is zero, no failures, all attempts (R165). -/
def loginRecord (c : Params) (record : Bytes) (secretIsZero : Bool) : Bytes :=
  withFieldWord (withFieldWord (withFieldWord record c.layout.stateFlags
    (if secretIsZero then setFlag c.flag.successful c.flag.zeroSecret else c.flag.successful))
    c.layout.numFails 0) c.layout.attemptsLeft (BitVec.ofNat 32 c.maxAttempts)

/-- What a login that succeeds leaves held (R165): the digest cached, the record updated and signed. -/
def heldLogin (c : Params) (bootSeed pin draws : Bytes) (h : Held) (r : LoginReply) : Held :=
  let h' := h.caching c bootSeed (attemptDigest c pin r.attempt)
  (h'.withRecord (loginRecord c h'.record (allZero (loginSecret c pin draws r)))).signed c bootSeed

/-- The replies of a login whose PIN the chip does not confirm (R165, R167). -/
structure WrongReply where
  attempt : AttemptReply
  testPair : Bytes
  testGendig : Bytes
  mac : Bytes
  counters : CountersReply
deriving DecidableEq, Repr

/-- The random bytes such a login draws. -/
def wrongDraws (r : WrongReply) : Nat := attemptDraws r.attempt + (53 + 159)

/-- The exchanges of such a login (R165, R167): the attempt, the test of its digest, the counters read again. -/
def xLoginWrong (c : Params) (pin draws : Bytes) (r : WrongReply) : List Exchange :=
  let k := attemptDraws r.attempt
  xPinAttempt c pin draws r.attempt ++ (xTestDigest c (draws.drop k) r.testPair r.testGendig r.mac
    ++ xReadCounters c (draws.drop (k + 53)) r.counters)

/-- What such a login leaves held (R167): the record with its counters read again, signed. -/
def heldLoginWrong (c : Params) (bootSeed : Bytes) (h : Held) (r : WrongReply) : Held :=
  (h.withRecord (withCounters c h.record r.counters)).signed c bootSeed

/-- The cached digest of a record, unmasked (R169). -/
def cachedDigest (c : Params) (bootSeed r : Bytes) : Bytes := maskDigest c bootSeed (field r c.layout.cachedMainPin)

/-- A record's cached digest brought back into `DIGEST` and `CACHE` (R169). -/
def Held.restored (c : Params) (bootSeed : Bytes) (h : Held) : Held :=
  { h with
    cache := field h.record c.layout.cachedMainPin, cacheHeld := true
    digest := cachedDigest c bootSeed h.record, digestHeld := true }

/-- A secret as it is stored, or a stored one as it is given: masked with the OTP key unless it is all zero (R172,
R173). -/
def maskSecret (c : Params) (s : Bytes) : Bytes := if allZero s then zeros 72 else xorBytes s c.rom.otpKey

/-- What `fetch_secret` leaves held when the chip's seed slot reads `raw` (R173). -/
def heldFetch (c : Params) (bootSeed : Bytes) (h : Held) (raw : Bytes) : Held :=
  let h' := h.restored c bootSeed
  (h'.withRecord (withFieldWord (withField h'.record c.layout.secret (maskSecret c raw)) c.layout.stateFlags
    (zeroSecretFlag c (recordFlags c h.record) (allZero raw)))).signed c bootSeed

/-- What a change of the secret alone leaves held (R170, R172). -/
def heldChangeSecret (c : Params) (bootSeed : Bytes) (h : Held) : Held :=
  let h' := h.restored c bootSeed
  (h'.withRecord (withFieldWord h'.record c.layout.stateFlags
    (zeroSecretFlag c (recordFlags c h.record) (allZero (field h.record c.layout.secret))))).signed c bootSeed

/-- The replies of the check of the old PIN, in a change of PIN (R170). -/
structure OldReply where
  attempt : AttemptReply
  testPair : Bytes
  testGendig : Bytes
deriving DecidableEq, Repr

/-- The random bytes that check draws; none where the record is blank (R170). -/
def oldDraws : Option OldReply → Nat
  | none => 0
  | some r => attemptDraws r.attempt + 53

/-- The exchanges of that check when the chip confirms the old PIN (R170). -/
def xOld (c : Params) (oldPin draws : Bytes) : Option OldReply → List Exchange
  | none => []
  | some r =>
    xPinAttempt c oldPin draws r.attempt
      ++ xTestDigest c (draws.drop (attemptDraws r.attempt)) r.testPair r.testGendig
        (testMac c (attemptDigest c oldPin r.attempt) (draws.drop (attemptDraws r.attempt)) r.testGendig)

/-- The digest a change of PIN is keyed by: zeros where the record is blank (R170). -/
def oldDigestOf (c : Params) (oldPin : Bytes) : Option OldReply → Bytes
  | none => zeros 32
  | some r => attemptDigest c oldPin r.attempt

/-- The replies of a change of PIN; those of the secret's three blocks where the secret changes too (R170, R171). -/
structure ChangeReply where
  old : Option OldReply
  secret : List WriteReply
  attempt : AttemptReply
  pinWrite : WriteReply
  counter : Word32
  lastCounter : Word32
  updates : UpdateReply
deriving DecidableEq, Repr

/-- The random bytes a change of PIN draws. -/
def changeDraws (r : ChangeReply) : Nat :=
  oldDraws r.old + (53 * r.secret.length + (attemptDraws r.attempt + (53 + 212)))

/-- The old PIN of a record (R170). -/
def recordOldPin (c : Params) (r : Bytes) : Bytes := (field r c.layout.oldPin).take (fieldWord r c.layout.oldPinLen).toNat

/-- The new PIN of a record (R171). -/
def recordNewPin (c : Params) (r : Bytes) : Bytes := (field r c.layout.newPin).take (fieldWord r c.layout.newPinLen).toNat

/-- The record once the secret's part of a change is done (R172). -/
def secretChanged (c : Params) (record : Bytes) (changes : Bool) : Bytes :=
  if changes then withFieldWord record c.layout.stateFlags
    (zeroSecretFlag c (recordFlags c record) (allZero (field record c.layout.secret)))
  else record

/-- The new PIN's digest (R171). -/
def newDigestOf (c : Params) (record : Bytes) (r : ChangeReply) : Bytes :=
  attemptDigest c (recordNewPin c (secretChanged c record (decide (r.secret ≠ [])))) r.attempt

/-- The exchanges of a change of PIN (R170, R171): the old PIN checked, the secret's blocks where it changes, the new
digest, its write, the updates. -/
def xChange (c : Params) (record draws : Bytes) (r : ChangeReply) : List Exchange :=
  let d := oldDigestOf c (recordOldPin c record) r.old
  let n := newDigestOf c record r
  let k := oldDraws r.old + 53 * r.secret.length
  xOld c (recordOldPin c record) draws r.old
    ++ (xEncryptedWrite c c.slot.seed c.slot.pinHash d 0 (maskSecret c (field record c.layout.secret) ++ zeros 24)
      (draws.drop (oldDraws r.old)) r.secret
    ++ (xPinAttempt c (recordNewPin c (secretChanged c record (decide (r.secret ≠ [])))) (draws.drop k) r.attempt
    ++ (xEncryptedWrite c c.slot.pinHash c.slot.pinHash d 0 n (draws.drop (k + attemptDraws r.attempt)) [r.pinWrite]
    ++ xUpdates c n r.counter r.lastCounter (draws.drop (k + attemptDraws r.attempt + 53)) r.updates)))

/-- The exchanges of a check of the old PIN that the chip does not confirm: its MAC is another (R170). -/
def xOldWrong (c : Params) (oldPin draws : Bytes) (r : OldReply) (mac : Bytes) : List Exchange :=
  xPinAttempt c oldPin draws r.attempt ++ xTestDigest c (draws.drop (attemptDraws r.attempt)) r.testPair r.testGendig mac

/-- What a change of PIN leaves held (R171, R176): the new digest cached, the record no longer blank, no failures, all
attempts, signed. -/
def heldChange (c : Params) (bootSeed : Bytes) (h : Held) (r : ChangeReply) : Held :=
  let h' := (h.withRecord (secretChanged c h.record (decide (r.secret ≠ [])))).caching c bootSeed (newDigestOf c h.record r)
  (h'.withRecord (withFieldWord (withFieldWord (withFieldWord h'.record c.layout.stateFlags
    (clearFlag (recordFlags c h'.record) c.flag.isBlank)) c.layout.numFails 0) c.layout.attemptsLeft
    (BitVec.ofNat 32 c.maxAttempts))).signed c bootSeed

/-! ### Resetting the chip -/

/-- What a chip reset leaves on a working line: a low pulse and a sleep token on the line, and the registers of R40's
column "after chip reset" (R135, R217). -/
def Face.chipReset (f : Face) : Face :=
  { (f.pulsed.sent (serializeBytes f.cfg [f.cfg.ioflagSleep])).transmitted 9 with
    reg := { f.reg.afterChipReset with lstate := .asleep, baudsel := false }
    arrived := [] }

/-- How every dispatched call is left on a working line: `REC` holds no value, and a chip reset is the last thing that
happens (R177, R184). -/
def Face.dispatched (f : Face) : Face :=
  ({ f with reg := { f.reg with record := zeros 276, recHeld := false } } : Face).chipReset

/-! ### The chip under an honest WIRE -/

/-- WIRE let every outbound message and low pulse through between two states. -/
def passedAll (s t : State) : Prop :=
  ∃ n, s.wire.outMoves.ahead Config.freeOutMove n = List.replicate n OutMove.pass
    ∧ t.wire.outMoves = s.wire.outMoves.after Config.freeOutMove n

/-- The opcodes of the commands that store nothing in a slot (R52, R60). -/
def plainOps (c : Params) : List Byte :=
  [c.op.read, c.op.nonce, c.op.genDig, c.op.checkMac, c.op.macGen, c.op.counter, c.op.selfTest, c.op.lock, c.op.info,
   c.op.keyedHash]

/-- The addresses of the 32-byte block that a block address names (R47, R64). -/
def inBlock (p2 : Word16) (a : Nat) : Prop := blockBase p2 ≤ a ∧ a < blockBase p2 + Config.blockLen

/-- Block 0 of the slots that a good login's updates store to (R166). -/
def inUpdates (c : Params) (a : Nat) : Prop :=
  inBlock (p2Addr c c.slot.matchCount 0) a ∨ inBlock (p2Addr c c.slot.lastgood 0) a

/-- The blocks that a change stores to: those, the PIN's and the three of the secret (R171, R172). -/
def inChange (c : Params) (a : Nat) : Prop :=
  inUpdates c a ∨ inBlock (p2Addr c c.slot.pinHash 0) a ∨ ∃ b < 3, inBlock (p2Addr c c.slot.seed b) a

/-- The addresses of the SE space that an operation's own commands may store to: the block its operands or the parameters
name, by the same `p2Addr` its meaning sends (R52, R60, R82). -/
def storesTo (c : Params) (i : Instr) (a : Nat) : Prop :=
  match i with
  | .write slot block _ _ => inBlock (p2Addr c slot block) a
  | .writeMac slot block _ _ _ => inBlock (p2Addr c slot block) a
  | .transact opcode _ p2 _ _ _ => opcode = c.op.write ∧ inBlock p2 a
  | .send bytes => ∃ n cmd, parseCommand c (bytes.take n) = some cmd ∧ cmd.opcode = c.op.write ∧ inBlock cmd.p2 a
  | .encryptedWrite slot _ _ data => ∃ b < data.length / Config.blockLen, inBlock (p2Addr c slot b) a
  | .login _ => inUpdates c a
  | .change _ => inChange c a
  | .seDispatch method _ arg2 => method = c.method.pinControl
      ∧ (arg2 = c.pinMethod.attempt ∧ inUpdates c a ∨ arg2 = c.pinMethod.change ∧ inChange c a)
  | .serialize _ | .deserialize _ _ | .receive _ | .wake | .idle | .sleep | .crc16 _ _ | .encodeCommand _ _ _ _
  | .decodeResponse _ _ | .read _ _ _ | .nonce _ _ | .genDig _ _ | .genDigCounter _ _ | .checkMac _ _ _ | .macGen _ _
  | .counterRead _ | .counterIncr _ | .selfTest _ | .lock _ _ _ | .info _ | .keyedHash _ _ _ | .keyedHashEnd _ _
  | .chipReset | .pickNonce _ | .gendigSlot _ _ | .ctEqual _ _ | .isCorrectTempkey _ | .checkmac _ _ | .pairUnlock
  | .encryptedRead _ _ _ _ | .mixin _ _ | .stretch _ _ | .authReadSlot _ | .authReadCounter | .addCounter _
  | .gendigCounter _ | .setup _ | .fetchSecret _ | .cmdReadSeSlot _ _ | .cmdGetRandomBytes _ | .cmdIsBricked => False

/-! ### The chip served by an honest WIRE -/

/-- WIRE lets the next `n` outbound messages and low pulses through, and the chip's next answer (R74). -/
def State.wirePasses (s : State) (n : Nat) : Prop :=
  s.wire.outMoves.ahead Config.freeOutMove n = List.replicate n OutMove.pass
  ∧ s.wire.inMoves.ahead Config.freeInMove 1 = [InMove.pass]

/-- The chip as a command finds it after a low pulse, its watchdog asked (R59, R104). -/
def Chip.readied (c : Params) (ch : Chip) : Chip := (ch.wakeUp c).drawLapse.2.drawWatchdog.2

/-- What the chip answers a command of a transaction with, and what it is then (R53 to R60). -/
def Chip.served (c : Params) (ch : Chip) (cmd : Command) : Reply × Chip := (ch.readied c).perform c cmd

/-- One transaction of `n` data bytes that nothing disturbs: the line never stalls, WIRE lets all four messages through
(three where no prompt is configured), the chip is not awake before it, its watchdog is quiet and does not run out in the
course of it, and its answer to `cmd` is ready at the first prompt. -/
def State.undisturbed (s : State) (n : Nat) (cmd : Command) : Prop :=
  s.face.quiet (1 + 8 * (n + 8 + (promptBytes s.cfg).length + 1)) ∧ s.wirePasses (3 + (promptBytes s.cfg).length)
  ∧ s.wire.inFlight = [] ∧ s.chip.power ≠ .awake ∧ s.chip.drawWatchdog.1 = .quiet
  ∧ s.chip.lapse.ahead Config.freeLapse (2 + (promptBytes s.cfg).length)
    = List.replicate (2 + (promptBytes s.cfg).length) false
  ∧ (s.chip.served s.cfg cmd).2.drawCoin.1 = false

/-! ### The dispatch boundary -/

/-- The operations of SessionCrypto that use the line (R138). -/
def sessionOperation : Instr → Bool
  | .pickNonce _ | .gendigSlot _ _ | .isCorrectTempkey _ | .checkmac _ _ | .pairUnlock | .encryptedRead _ _ _ _
  | .encryptedWrite _ _ _ _ | .mixin _ _ | .stretch _ _ | .authReadSlot _ | .authReadCounter | .addCounter _
  | .gendigCounter _ => true
  | _ => false

/-- The result code an ended operation reaches the host as (R187). -/
def codeOf (c : Config.ResultCodes) : Ending → Int
  | .none => c.ok
  | .success _ => c.ok
  | .error e => resultCode c (.error e)

/-- The endings after which the record goes back to the host (R176). -/
def givesRecordBack : Ending → Bool
  | .none => false
  | .success _ => true
  | .error e => decide (e = .authFail ∨ e = .oldAuthFail)

/-- A random delay drawn (R179). -/
def State.delayed (s : State) : State :=
  { s with env := { s.env with delay := (s.env.delay.next Config.freeDelay).2 } }

/-- `REC` without a value (R180, R184; log 26). -/
def Regs.released (r : Regs) : Regs := { r with record := zeros 276, recHeld := false }

/-- A state whose `REC` holds no value. -/
def State.released (s : State) : State := { s with reg := s.reg.released }

/-- The record handed back to the host's buffer where the ending says so, and released (R180). -/
def State.handedBack (t : State) : State :=
  { t.released with
    host := if givesRecordBack t.ctl.ending then { t.host with buf := hostOverwrite t.host.buf t.reg.record } else t.host }

/-- The PIN operation that a sub-method code names, on a record (R180). -/
def pinInstr (c : Params) (arg2 : Word32) (record : Bytes) : Instr :=
  if arg2 = c.pinMethod.setup then .setup record
  else if arg2 = c.pinMethod.attempt then .login record
  else if arg2 = c.pinMethod.change then .change record
  else .fetchSecret record

/-! ### Where the budget is renewed (R165, R166, R170, R171) -/

/-- `login` up to the updates of a good login: the record taken and checked, the attempt, the test of its digest (R165). -/
def loginToUpdates (record : Bytes) : Op Bool := do
  writeRec record
  validate
  verify
  let c ← getCfg
  let flags ← recWord Config.Layout.stateFlags
  if hasFlag flags c.flag.isBlank ∨ hasFlag flags c.flag.successful then raise .badRequest
  else do
    let pinLen ← recWord Config.Layout.pinLen
    if pinLen = 0 then raise .badRequest
    else do
      let pin ← recField Config.Layout.pin
      let d ← pinHashAttempt (pin.take pinLen.toNat)
      testDigest d

/-- `change_pin` up to the updates of a good login: the new digest and its write under the old one (R171). -/
def newPinToUpdates (oldD : Bytes) : Op Unit := do
  let c ← getCfg
  let newPin ← recField Config.Layout.newPin
  let newPinLen ← recWord Config.Layout.newPinLen
  let newD ← pinHashAttempt (newPin.take newPinLen.toNat)
  encryptedWrite c.slot.pinHash c.slot.pinHash oldD newD

/-- `change` of a PIN up to the updates of a good login: the record taken and checked, the old digest, the secret's blocks
where it changes, the new digest and its write (R170, R171). -/
def changeToUpdates (record : Bytes) : Op Unit := do
  writeRec record
  validate
  verify
  let c ← getCfg
  let flags ← recWord Config.Layout.stateFlags
  let cf ← recWord Config.Layout.changeFlags
  if ¬ hasFlag flags c.flag.successful ∨ badChangeFlags c cf ∨ ¬ hasFlag cf c.flag.changeWalletPin then raise .badRequest
  else do
    let oldD ← changeDigest cf flags
    writeDigest oldD
    if hasFlag cf c.flag.changeSecret then changeSecret oldD else pure ()
    newPinToUpdates oldD

/-- From `s`, the run of the operation comes to the updates of a good login in the state `u`: `login` whose PIN the chip
confirms, `change` of a PIN, and `se_dispatch` of those on the record in the host's buffer, its delay drawn. -/
def comesToUpdates (s u : State) : Instr → Prop
  | .login record => loginToUpdates record s = .ok true u
  | .change record => changeToUpdates record s = .ok () u
  | .seDispatch method len arg2 =>
      method = s.cfg.method.pinControl ∧ 276 ≤ len ∧ len ≤ s.cfg.lenInMax ∧ arg2 ≠ s.cfg.pinMethod.setup
      ∧ (arg2 = s.cfg.pinMethod.attempt ∧ loginToUpdates (hostBytes s.host.buf 0 276) s.delayed = .ok true u
        ∨ arg2 ≠ s.cfg.pinMethod.attempt ∧ arg2 = s.cfg.pinMethod.change
          ∧ changeToUpdates (hostBytes s.host.buf 0 276) s.delayed = .ok () u)
  | _ => False

/-- The authenticated counter read that the updates begin with gives, from `u`, a value against R174's precondition. -/
def readsOverspent (u : State) : Prop :=
  ∃ v t, exec .authReadCounter u = .next t ∧ t.ctl.ending = .success (.word32 v)
    ∧ 2 ^ 32 ≤ v.toNat + u.cfg.maxAttempts + u.cfg.quant.toNat

/-- The host's buffer with its first bytes overwritten. -/
def Face.withBuf (f : Face) (v : Bytes) : Face := { f with host := { f.host with buf := hostOverwrite f.host.buf v } }

/-! ### The invariant -/

/-- The parameters are as R8 and R84 constrain them and the record layout is sound; the SE space is in canonical form; the
registers have their widths (R20, R21); no transaction is in progress between operations
(R24), nothing is in flight, and the normal rate is selected (R26); `RETRY` is within its bound (R28). -/
def State.inv (s : State) : Bool :=
  s.cfg.wf && s.cfg.modesDiffer && s.cfg.layout.wf && memWf s.chip.slots
  && decide (s.reg.tk.length = 32 ∧ s.reg.digest.length = 32 ∧ s.reg.cache.length = 32 ∧ s.reg.bootSeed.length = 32
      ∧ s.reg.record.length = 276 ∧ s.reg.txbuf.length ≤ 256 ∧ s.reg.rxbuf.length ≤ 256)
  && decide (s.reg.phase = .ready ∧ s.reg.baudsel = false ∧ s.reg.retry ≤ s.cfg.retryMax ∧ s.wire.inFlight = [])

end Sys2Proof.Machine
end

