-- ==== Sys2Proof/Certificates/Slice0/Obligations.lean ====
section
/-! DEFINITION. The statements for the provers. Each formalises what its docstring names of spec/; where a statement rests
on a choice of the model it says so and names the log entry. `t.face` is everything the block holds and shows
(Safety.lean); a statement that gives it whole is a result and a frame at once. -/

open Sys2Proof Sys2Proof.Machine

/-! ### Words and steps -/

/-- The words of a call and the decoder agree, every operand of every operation included, and the decoder leaves exactly
the words that follow (log 2: the words are the model's; the heads of the rows with a value are R98's). -/
def Obligations.DecodeEncode : Prop :=
  ∀ (i : Instr) (rest : Bytes), i.wf = true → decodePrefix (encode i ++ rest) = .ok (i, rest)

/-- Words of spec/opcode_table.json's rows written out: a low byte `p1`, a high byte `opcode`, zero operands (R98, K3,
K4; log 2). -/
def Obligations.DecodedWords : Prop :=
  decodeTableWord 16 0x0282 = some (.read 0 0 .idle)
  ∧ decodeTableWord 16 0x1504 = some (.genDigCounter 0 .idle)
  ∧ decodeTableWord 16 0x2401 = some (.counterIncr .idle)
  ∧ decodeTableWord 16 0x175A = some (.lock 0x5A 0 .idle)
  ∧ decodeTableWord 16 0x1600 = some (.nonce (zeros 20) .idle)
  ∧ decode [0x41, 0x08, 0x01, 0x00, 0x01] = .ok (.macGen 1 .sleep)
  ∧ decode [0x01, 0x15] = .error (.unknownHead 0x1501)

/-- A step runs the operation that the next pending call's words decode to, and refuses by name words that are no
operation's (R13, R95). Between calls HOST rewrites its buffer (R14, R51), WIRE puts symbols on the line outside a receive
(R38) or lets CHIP hear symbols of its own (R74), and the watchdog of an awake chip runs out (R214); with nothing pending the
block waits (R215). A call in which power is lost after `n` symbols and low pulses runs on a line that is dead from there on
and ends in a cold reset (R71, R73). The queue of actions is the model's (log 1; the cut: log 27). -/
def Obligations.StepRunsDecoded : Prop :=
  ∀ (s : State) (rest : List HostAction), s.ctl.booted = true →
    (∀ words i, s.host.pending = .call words :: rest → decode words = .ok i → step s = exec i (s.withPending rest))
    ∧ (∀ words r, s.host.pending = .call words :: rest → decode words = .error r → step s = .refused (.illegalCall r))
    ∧ (s.host.pending = [] → step s = .next s)
    ∧ (∀ b, s.host.pending = .setBuf b :: rest → step s = .next { s with host := { buf := b, pending := rest } })
    ∧ (∀ xs, s.host.pending = .stray xs :: rest →
        step s = .next { s with
          host := { s.host with pending := rest }
          wire := { s.wire with arrived := s.wire.arrived ++ xs } })
    ∧ (∀ xs, s.host.pending = .forge xs :: rest →
        step s = .next { s with host := { s.host with pending := rest }, chip := s.chip.hearSymbols s.cfg xs })
    ∧ (s.host.pending = .watchdog :: rest →
        step s = .next { s with
          host := { s.host with pending := rest }
          chip := if s.chip.power = .awake then s.chip.fallAsleep else s.chip })
    ∧ (∀ words n i t, s.host.pending = .cut words n :: rest → decode words = .ok i →
        exec i ((s.withPending rest).dyingAfter n) = .next t →
        step s = .next (t.lineOf (s.withPending rest) n).coldReset)

/-- A power cycle (R215, R218, R40's column "after cold reset"): every register as listed, `BOOT_SEED` drawn afresh from
ENTROPY; the chip's slots, `counter0` and locks persist; the boot actions are to come. -/
def Obligations.ColdReset : Prop :=
  ∀ (s : State) (rest : List HostAction), s.ctl.booted = true → s.host.pending = .coldReset :: rest →
    ∃ t, step s = .next t
      ∧ t.reg.txbuf = [] ∧ t.reg.rxbuf = [] ∧ t.reg.tkValid = false ∧ t.reg.phase = .ready ∧ t.reg.lstate = .asleep
      ∧ t.reg.baudsel = false ∧ t.reg.tof = false ∧ t.reg.retry = 0 ∧ t.reg.busCalls = 0 ∧ t.reg.digestHeld = false
      ∧ t.reg.cacheHeld = false ∧ t.reg.recHeld = false ∧ t.reg.bootSeed = s.face.randoms 32
      ∧ t.env.rand = s.env.rand.after Config.freeRand 32
      ∧ t.chip.slots = s.chip.slots ∧ t.chip.counter0 = s.chip.counter0 ∧ t.chip.locks = s.chip.locks
      ∧ (t.chip.tempKeyValid = true → s.chip.tempKeyValid = true)
      ∧ t.cfg = s.cfg ∧ t.host = { s.host with pending := rest } ∧ t.wire.inFlight = [] ∧ t.wire.arrived = []
      ∧ t.wire.trace = s.wire.trace ∧ t.ctl.booted = false

/-- The first step after a cold reset, on a working line: the random delay is drawn, then one chip reset; the block then
waits for a call (R215). -/
def Obligations.BootStep : Prop :=
  ∀ (s : State), s.ctl.booted = false → s.face.quiet 9 →
    ∃ t, step s = .next t ∧ t.face = { s.face.delayed.chipReset with ctl := { s.ctl with booted := true, ending := .none } }

/-- The machine after reset holds what R40's column "after cold reset" lists: the two buffers empty, `TK`, `DIGEST`,
`CACHE` and `REC` without a value, the sequencer at `READY`, the line asleep at the normal rate, the counts 0,
`BOOT_SEED` 32 bytes of ENTROPY, and the boot actions of R215 to come. -/
def Obligations.ResetValues : Prop :=
  State.reset.reg.txbuf = [] ∧ State.reset.reg.rxbuf = [] ∧ State.reset.reg.tkValid = false
  ∧ State.reset.reg.phase = .ready ∧ State.reset.reg.lstate = .asleep ∧ State.reset.reg.baudsel = false
  ∧ State.reset.reg.tof = false ∧ State.reset.reg.retry = 0 ∧ State.reset.reg.busCalls = 0
  ∧ State.reset.reg.digestHeld = false ∧ State.reset.reg.cacheHeld = false ∧ State.reset.reg.recHeld = false
  ∧ State.reset.reg.bootSeed = (List.range 32).map Config.freeRand ∧ State.reset.ctl.booted = false

/-- The invariant of every step holds after reset. -/
def Obligations.ResetInvariant : Prop := State.reset.inv = true

/-- Every step keeps the invariant, from every state that has it: the cells of the slots in canonical form; `TK`, `DIGEST`, `CACHE`
and `BOOT_SEED` of 32 bytes, `REC` of 276, the buffers of at most 256 (R20, R21); `PHASE` at `READY` between operations
(R24); `BAUDSEL` 0 (R26); `RETRY` at most `RETRY_MAX` (R28); nothing in flight; parameters as R8 and R84 constrain
them. -/
def Obligations.StepKeepsInvariant : Prop :=
  ∀ (s t : State), s.inv = true → step s = .next t → t.inv = true

/-- Every operation, from every state, comes to an end (R11, R241): a next state in which it has ended with a result or
with one of the error outcomes of R187; or it stops (U22), exactly where its own run comes to the updates of a good login and
the authenticated counter read that these begin with gives, from the state the run is in by then, a value against R174's
precondition: so only `login` and `change`, called directly or through `se_dispatch`; or it is refused, and then it was
offered more data than `MAX_DATA_LEN` (R114). -/
def Obligations.OperationEnds : Prop :=
  ∀ (i : Instr) (s : State),
    ((∃ t, exec i s = .next t
      ∧ ((∃ v, t.ctl.ending = .success v) ∨ ∃ e, t.ctl.ending = .error e ∧ ∀ f, e ≠ .stop f))
    ∨ exec i s = .fault .counterBudget
    ∨ (exec i s = .refused .dataTooLong
      ∧ ∃ opcode p1 p2 data, s.cfg.maxDataLen < data.length
          ∧ (i = .encodeCommand opcode p1 p2 data ∨ ∃ expect close, i = .transact opcode p1 p2 data expect close)))
    ∧ (exec i s = .fault .counterBudget ↔ ∃ u, comesToUpdates s u i ∧ readsOverspent u)

/-- What no operation writes: the parameters (R39), `BOOT_SEED` (R32, R42: cold reset only), the environment's pending
actions, the booted mark; and the mark of R41: no operation, from any state, reads a register that holds no value (U1). -/
def Obligations.ParametersKept : Prop :=
  ∀ (i : Instr) (s t : State), exec i s = .next t →
    t.cfg = s.cfg ∧ t.reg.bootSeed = s.reg.bootSeed ∧ t.host.pending = s.host.pending ∧ t.ctl.booted = s.ctl.booted
    ∧ t.ctl.unmeant = s.ctl.unmeant

/-- What the chip keeps through every operation, whatever WIRE does: `counter0` never decreases (R50, R57), a lock is
never undone (R132), its serial number stays. That its access rules stay too, `Lock` included, is the model's choice: the
form of the rules (log 20) and a lock that forbids nothing (log 21). -/
def Obligations.ChipKept : Prop :=
  ∀ (i : Instr) (s t : State), exec i s = .next t →
    s.chip.counter0.toNat ≤ t.chip.counter0.toNat ∧ (∃ new, t.chip.locks = new ++ s.chip.locks)
    ∧ t.chip.policy = s.chip.policy ∧ t.chip.serial = s.chip.serial
    ∧ (memWf s.chip.slots = true → memWf t.chip.slots = true)

/-- The frame of the slots, for every operation: where WIRE lets all messages through, every byte of a slot outside the
blocks that the operation's own commands name reads as before; no byte changes for the forms that store nothing (R52, R60).
TempKey and `counter0` are not spoken of here. Which cells a block takes is the model's choice (log 11).
`op.write` is taken to differ from the two opcodes that R8 leaves free to coincide with others. -/
def Obligations.MemoryFrame : Prop :=
  ∀ (i : Instr) (s t : State), s.inv = true → s.cfg.op.write ≠ s.cfg.op.macGen → s.cfg.op.write ≠ s.cfg.op.keyedHash →
    exec i s = .next t → passedAll s t →
    ∀ a, ¬ storesTo s.cfg i a → memByte t.chip.slots a = memByte s.chip.slots a

/-! ### BitBus -/

/-- `serialize`: eight symbols, bit 0 first; nothing written; no two bytes alike while the pulse codes differ (R99). -/
def Obligations.Serialize : Prop :=
  ∀ (b : Byte) (s : State), exec (.serialize b) s = .next (s.endWith (.success (.symbols
    [symOf s.cfg (b.getLsbD 0), symOf s.cfg (b.getLsbD 1), symOf s.cfg (b.getLsbD 2), symOf s.cfg (b.getLsbD 3),
     symOf s.cfg (b.getLsbD 4), symOf s.cfg (b.getLsbD 5), symOf s.cfg (b.getLsbD 6), symOf s.cfg (b.getLsbD 7)])))
    ∧ (s.cfg.pulse0 ≠ s.cfg.pulse1 → ∀ b', exec (.serialize b') s = exec (.serialize b) s → b' = b)

/-- The round trip law R108: junk before, a partial group after, no draw taken and nothing written; and with room for
fewer bytes than there are, the first ones. -/
def Obligations.DeserializeRoundTrip : Prop :=
  ∀ (s : State) (j t : List Symbol) (bs : Bytes) (n : Nat), s.cfg.pulse0 ≠ s.cfg.pulse1 →
    (∀ x ∈ j, isPulse s.cfg x = false) → t.length < 8 →
    exec (.deserialize (j ++ serializeBytes s.cfg bs ++ t) n) s = .next (s.endWith (.success (.bytes (bs.take n))))

/-- `deserialize` on every list of symbols (R100): as many bytes as there are whole groups after the leading junk, at most
`max_len`, bit 0 first; a junk symbol inside a group reads as one drawn bit, the other bits as their pulse codes say; one
draw is taken for every such symbol, and nothing else changes. -/
def Obligations.DeserializeAnswers : Prop :=
  ∀ (s : State) (symbols : List Symbol) (n : Nat),
    let body := symbols.dropWhile (fun x => !isPulse s.cfg x)
    let m := min n (body.length / 8)
    exec (.deserialize symbols n) s = .next (({ s with env := { s.env with
        junk := s.env.junk.after Config.freeJunk (junkIn s.cfg (body.take (8 * m))) } } : State).endWith
      (.success (.bytes ((List.range m).map (fun k =>
        byteOfBits ((List.range 8).map (fun i => readBit s.cfg s.env.junk body (8 * k + i))))))))

/-- `send` (R101): the symbols of the bytes, in order, each after one transmit-ready draw; where a draw hits the ceiling,
`BusTimeout(tx)` with the symbols before it on the line. Nothing else of the block changes. -/
def Obligations.Send : Prop :=
  ∀ (s : State) (bs : Bytes),
    (s.face.quiet (8 * bs.length) → ∃ t, exec (.send bs) s = .next t
      ∧ t.face = ((s.face.sentAt s.reg.baudsel (serializeBytes s.cfg bs)).transmitted (8 * bs.length)).ended
        (.success .unit))
    ∧ (∀ n, n < 8 * bs.length → s.face.stallsAfter n → ∃ t, exec (.send bs) s = .next t
      ∧ t.face = ((s.face.sentAt s.reg.baudsel ((serializeBytes s.cfg bs).take n)).transmitted (n + 1)).ended
        (.error (.busTimeout .tx)))

/-- `receive` (R102, R107, R109): pending input thrown away and the prompt on the line, or `BusTimeout(tx)` with `TOF` 0
where the prompt stalls; then `TOF` 1; of a burst that is not empty, what `deserialize` makes of it, in `RXBUF`; of
silence, `BusTimeout(rx)` with `RXBUF` as before. What `RXBUF` holds of more bytes than it has room for is log 24's. -/
def Obligations.Receive : Prop :=
  ∀ (s : State) (maxLen : Nat), s.wire.inFlight = [] →
    (∀ n, n < 8 * (promptBytes s.cfg).length → s.face.stallsAfter n → ∃ t, exec (.receive maxLen) s = .next t
      ∧ t.face = ({ (s.face.sentAt s.reg.baudsel ((serializeBytes s.cfg (promptBytes s.cfg)).take n)).transmitted (n + 1) with
          arrived := [], reg := { s.reg with tof := false } } : Face).ended (.error (.busTimeout .tx)))
    ∧ (s.face.quiet (8 * (promptBytes s.cfg).length) →
      let listened := { ((s.face.sentAt s.reg.baudsel (serializeBytes s.cfg (promptBytes s.cfg))).transmitted
        (8 * (promptBytes s.cfg).length)).heard 1 with arrived := [] }
      (∀ burst, burst ≠ [] → s.face.hears [burst] → ∃ t bs d,
        exec (.deserialize burst maxLen) s = .next (({ s with env := { s.env with junk := d } } : State).endWith
          (.success (.bytes bs)))
        ∧ exec (.receive maxLen) s = .next t
        ∧ t.face = ({ listened with
            env := { listened.env with junk := d }, reg := { s.reg with tof := true, rxbuf := rxHeld bs } } : Face).ended
          (.success (.bytes bs)))
      ∧ (s.face.hears [[]] → ∃ t, exec (.receive maxLen) s = .next t
          ∧ t.face = (listened.withRegs { s.reg with tof := true }).ended (.error (.busTimeout .rx))))

/-- `wake`, `idle` and `sleep` (R104 to R106): on a working line a low pulse at the halved rate, with pending input thrown
away, and the two tokens, with `LSTATE` to match; on one that stalls `BusTimeout(tx)`, `LSTATE` unchanged. `BAUDSEL` is 0
after `wake` and `TK_VALID` 0 after `sleep` in both cases. -/
def Obligations.WakeIdleSleep : Prop :=
  ∀ (s : State),
    ((s.face.quiet 1 → ∃ t, exec .wake s = .next t
        ∧ t.face = ({ s.face.pulsed.transmitted 1 with
            reg := { s.reg with baudsel := false, lstate := .awake }, arrived := [] }).ended (.success .unit))
      ∧ (s.face.stallsAfter 0 → ∃ t, exec .wake s = .next t
        ∧ t.face = ((s.face.transmitted 1).withRegs { s.reg with baudsel := false }).ended (.error (.busTimeout .tx))))
    ∧ ((s.face.quiet 8 → ∃ t, exec .idle s = .next t
        ∧ t.face = (((s.face.sentAt s.reg.baudsel (serializeBytes s.cfg [s.cfg.ioflagIdle])).transmitted 8).withRegs
          { s.reg with lstate := .idled }).ended (.success .unit))
      ∧ (∀ n, n < 8 → s.face.stallsAfter n → ∃ t, exec .idle s = .next t
        ∧ t.face = ((s.face.sentAt s.reg.baudsel ((serializeBytes s.cfg [s.cfg.ioflagIdle]).take n)).transmitted
          (n + 1)).ended (.error (.busTimeout .tx))))
    ∧ ((s.face.quiet 8 → ∃ t, exec .sleep s = .next t
        ∧ t.face = (((s.face.sentAt s.reg.baudsel (serializeBytes s.cfg [s.cfg.ioflagSleep])).transmitted 8).withRegs
          { s.reg with tkValid := false, lstate := .asleep }).ended (.success .unit))
      ∧ (∀ n, n < 8 → s.face.stallsAfter n → ∃ t, exec .sleep s = .next t
        ∧ t.face = (((s.face.sentAt s.reg.baudsel ((serializeBytes s.cfg [s.cfg.ioflagSleep]).take n)).transmitted
          (n + 1)).withRegs { s.reg with tkValid := false }).ended (.error (.busTimeout .tx))))

/-! ### FrameCodec -/

/-- The accumulator (R111 to R113): one step, bit by bit; a byte is eight steps, bit 0 first; a byte string is its bytes in
order, from the seed; the result is what `CRC` then holds and nothing else is written; over `A ‖ B` it is the CRC of `B`
seeded with that of `A`. -/
def Obligations.Crc16 : Prop :=
  (∀ (poly acc : Word16) (d : Bool),
    crcBit poly acc d = if d ≠ acc.getLsbD 15 then (acc <<< 1) ^^^ poly else acc <<< 1)
  ∧ ∀ (s : State),
    let byte := fun (acc : Word16) (b : Byte) =>
      (List.range 8).foldl (fun acc i => crcBit s.cfg.crcPoly acc (b.getLsbD i)) acc
    let holds := fun (bytes : Bytes) (seed v : Word16) =>
      exec (.crc16 seed bytes) s = .next (({ s with reg := { s.reg with crc := v } } : State).endWith (.success (.word16 v)))
    (∀ seed, holds [] seed seed) ∧ (∀ seed b, holds [b] seed (byte seed b))
    ∧ (∀ seed bytes, holds bytes seed (bytes.foldl byte seed))
    ∧ ∀ seed v (a b : Bytes), holds a seed v → exec (.crc16 seed (a ++ b)) s = exec (.crc16 v b) s

/-- `encode_command` (R114): `TXBUF` is the frame, `CRC` its CRC, nothing else is written; more than `MAX_DATA_LEN` data
bytes are refused by name, by `encode_command` and by `transact`. -/
def Obligations.EncodeCommand : Prop :=
  ∀ (s : State) (opcode p1 : Byte) (p2 : Word16) (data : Bytes),
    (data.length ≤ s.cfg.maxDataLen → ∃ body c frame,
      body = BitVec.ofNat 8 (data.length + 7) :: opcode :: p1 :: p2.extractLsb' 0 8 :: p2.extractLsb' 8 8 :: data
      ∧ c = crcBytes s.cfg.crcPoly s.cfg.crcInit body
      ∧ frame = s.cfg.ioflagCmd :: (body ++ [c.extractLsb' 0 8, c.extractLsb' 8 8]) ∧ frame.length = data.length + 8
      ∧ exec (.encodeCommand opcode p1 p2 data) s
        = .next (({ s with reg := { s.reg with txbuf := frame, crc := c } } : State).endWith (.success (.bytes frame))))
    ∧ (s.cfg.maxDataLen < data.length → exec (.encodeCommand opcode p1 p2 data) s = .refused .dataTooLong
        ∧ ∀ expect close, exec (.transact opcode p1 p2 data expect close) s = .refused .dataTooLong)

/-- The round trip law R117, both ways: a frame of `encode_command` is parsed to what went into it and carries its CRC;
`decode_response` of the frame of a payload gives the payload. -/
def Obligations.FrameRoundTrip : Prop :=
  ∀ (s : State),
    (∀ (opcode p1 : Byte) (p2 : Word16) (data : Bytes), data.length ≤ s.cfg.maxDataLen → s.cfg.maxDataLen ≤ 248 →
      ∃ t frame, exec (.encodeCommand opcode p1 p2 data) s = .next t ∧ t.ctl.ending = .success (.bytes frame)
        ∧ parseCommand s.cfg frame = some { opcode := opcode, p1 := p1, p2 := p2, data := data }
        ∧ slice frame (data.length + 6) 2 = u16le (crcBytes s.cfg.crcPoly s.cfg.crcInit (slice frame 1 (data.length + 5))))
    ∧ (∀ (p : Bytes), 1 ≤ p.length → p.length ≤ 252 →
      ∃ c, c = crcBytes s.cfg.crcPoly s.cfg.crcInit (BitVec.ofNat 8 (p.length + 3) :: p)
        ∧ exec (.decodeResponse ((BitVec.ofNat 8 (p.length + 3) :: p) ++ u16le c) p.length) s
          = .next (({ s with reg := { s.reg with crc := c } } : State).endWith (.success (.bytes p))))

/-- `decode_response` (R115): its checks in their order, the first that fires deciding; what passes them all is the
payload. Only the CRC check writes a register, the accumulator. -/
def Obligations.DecodeResponse : Prop :=
  ∀ (s : State) (raw : Bytes) (n : Nat),
    let count := (raw.getD 0 0).toNat
    let crc := crcBytes s.cfg.crcPoly s.cfg.crcInit (slice raw 0 (n + 1))
    let summed : State := { s with reg := { s.reg with crc := crc } }
    (raw.length < 4 → exec (.decodeResponse raw n) s = .next (s.endWith (.error .shortRead)))
    ∧ (4 ≤ raw.length → count ≠ n + 3 →
      (count = 4 ∧ raw.getD 1 0 ≠ 0 →
        exec (.decodeResponse raw n) s = .next (s.endWith (.error (.chipError (raw.getD 1 0)))))
      ∧ (¬ (count = 4 ∧ raw.getD 1 0 ≠ 0) →
        exec (.decodeResponse raw n) s = .next (s.endWith (.error .lengthMismatch))))
    ∧ (4 ≤ raw.length → count = n + 3 →
      (raw.length < n + 3 → exec (.decodeResponse raw n) s = .next (s.endWith (.error .shortRead)))
      ∧ (n + 3 ≤ raw.length → slice raw (n + 1) 2 ≠ u16le crc →
        exec (.decodeResponse raw n) s = .next (summed.endWith (.error .crcMismatch)))
      ∧ (n + 3 ≤ raw.length → slice raw (n + 1) 2 = u16le crc →
        exec (.decodeResponse raw n) s = .next (summed.endWith (.success (.bytes (slice raw 1 n))))))

/-! ### SeLink -/

/-- A transaction that completes (R119, R120): the command sent once, a prompt for every receive attempt, the failed
attempts skipped, the close token sent; the payload is the result; `RETRY` is the number of attempts used, `BUSCALLS` one
more, `PHASE` back at `READY`; nothing else of the block changes. A failed attempt heard the symbols of whole bytes, or its
prompt stalled after some symbols, which `receive` reports as `BusTimeout(tx)` and the loop retries (R107, R199). -/
def Obligations.TransactCompletes : Prop :=
  ∀ (s : State) (x : Exchange), s.cfg.pulse0 ≠ s.cfg.pulse1 → x.data.length ≤ s.cfg.maxDataLen →
    (s.face.grants [x] → ∃ t, exec (.transact x.opcode x.p1 x.p2 x.data x.expect x.close) s = .next t
      ∧ t.face = (s.face.exchange x).ended (.success (.bytes x.payload)))
    ∧ ∀ (failed : List FailedAttempt), failed.length < s.cfg.retryMax → expectAccepts x.expect x.payload →
      (∀ a ∈ failed, a.fails s.cfg x.expect) → s.face.stallsAs (x.stalls s.cfg failed) →
      s.face.hears (failed.flatMap (FailedAttempt.bursts s.cfg) ++ [serializeBytes s.cfg (x.reply s.cfg)]) →
      ∃ t, exec (.transact x.opcode x.p1 x.p2 x.data x.expect x.close) s = .next t
        ∧ t.face = (s.face.exchangeAfter x failed).ended (.success (.bytes x.payload))

/-- A transaction that does not complete. `RETRY_MAX` failed attempts end with `RetriesExhausted` and no further attempt
(R120): the command was sent once, a prompt for each attempt, no close token; a prompt that stalls is such a failed attempt,
not the end of the transaction (R107, R199). A line that stalls at the low pulse, in the command or in the close token ends it
with `BusTimeout`, not retried (R119 to R121). In every case `PHASE` is `READY` and `BUSCALLS` one more. -/
def Obligations.TransactExhausted : Prop :=
  (∀ (s : State) (opcode p1 : Byte) (p2 : Word16) (data : Bytes) (expect : Expect) (close : Close) (failed : List Bytes),
    s.cfg.pulse0 ≠ s.cfg.pulse1 → data.length ≤ s.cfg.maxDataLen → failed.length = s.cfg.retryMax →
    (∀ raw ∈ failed, raw.length ≤ Expect.want expect ∧ expectFails s.cfg expect raw) →
    s.face.quiet (1 + 8 * (data.length + 8) + 8 * (failed.length * (promptBytes s.cfg).length)) →
    s.face.hears (failed.map (serializeBytes s.cfg)) →
    ∃ t rx crc, exec (.transact opcode p1 p2 data expect close) s = .next t
      ∧ t.ctl.ending = .error .retriesExhausted
      ∧ t.reg = { s.reg with
          busCalls := s.reg.busCalls + 1, retry := s.cfg.retryMax, phase := .ready, lstate := .awake, baudsel := false
          txbuf := commandFrame s.cfg opcode p1 p2 data, rxbuf := rx, crc := crc
          tof := s.reg.tof || decide (s.cfg.retryMax ≠ 0) }
      ∧ t.wire.trace = s.wire.trace ++ [.low true] ++ (serializeBytes s.cfg (commandFrame s.cfg opcode p1 p2 data
          ++ (List.replicate failed.length (promptBytes s.cfg)).flatten)).map (fun y => .sym y false)
      ∧ t.cfg = s.cfg ∧ t.host = s.host ∧ t.env.rand = s.env.rand)
  ∧ (∀ (s : State) (opcode p1 : Byte) (p2 : Word16) (data : Bytes) (expect : Expect) (close : Close)
      (failed : List FailedAttempt),
    s.cfg.pulse0 ≠ s.cfg.pulse1 → data.length ≤ s.cfg.maxDataLen → failed.length = s.cfg.retryMax →
    (∀ a ∈ failed, a.fails s.cfg expect) → s.face.stallsAs (attemptStalls s.cfg data.length failed) →
    s.face.hears (failed.flatMap (FailedAttempt.bursts s.cfg)) →
    let frame := commandFrame s.cfg opcode p1 p2 data
    ∃ t rx crc, exec (.transact opcode p1 p2 data expect close) s = .next t
      ∧ t.face = ({ ((s.face.pulsed.sent (serializeBytes s.cfg frame
          ++ failed.flatMap (FailedAttempt.symbols s.cfg))).transmitted
            (attemptStalls s.cfg data.length failed).length).heard (failed.flatMap (FailedAttempt.bursts s.cfg)).length with
        arrived := []
        reg := { s.reg with
          busCalls := s.reg.busCalls + 1, retry := s.cfg.retryMax, phase := .ready, lstate := .awake, baudsel := false
          txbuf := frame, rxbuf := rx, crc := crc, tof := tofAfter s.reg.tof failed } } : Face).ended
        (.error .retriesExhausted))
  ∧ (∀ (s : State) (opcode p1 : Byte) (p2 : Word16) (data : Bytes) (expect : Expect) (close : Close),
    data.length ≤ s.cfg.maxDataLen →
    let frame := commandFrame s.cfg opcode p1 p2 data
    let begun := { s.reg with busCalls := s.reg.busCalls + 1, retry := 0, phase := .ready, baudsel := false }
    (s.face.stallsAfter 0 → ∃ t, exec (.transact opcode p1 p2 data expect close) s = .next t
      ∧ t.face = ((s.face.transmitted 1).withRegs begun).ended (.error (.busTimeout .tx)))
    ∧ (∀ n, n < 8 * (data.length + 8) → s.face.stallsAfter (1 + n) →
      ∃ t, exec (.transact opcode p1 p2 data expect close) s = .next t
        ∧ t.face = ({ (s.face.pulsed.sent ((serializeBytes s.cfg frame).take n)).transmitted (1 + n + 1) with
            arrived := []
            reg := { begun with lstate := .awake, txbuf := frame, crc := frameCrc s.cfg (commandBody opcode p1 p2 data) } }
            : Face).ended (.error (.busTimeout .tx))))
  ∧ (∀ (s : State) (x : Exchange) (n : Nat), s.cfg.pulse0 ≠ s.cfg.pulse1 → x.data.length ≤ s.cfg.maxDataLen →
    x.completes s.cfg → s.face.hears (x.bursts s.cfg) → n < 8 → s.face.stallsAfter (x.cost s.cfg - 8 + n) →
    ∃ t, exec (.transact x.opcode x.p1 x.p2 x.data x.expect x.close) s = .next t
      ∧ t.face = ({ ((s.face.pulsed.sent ((x.symbols s.cfg).take ((x.symbols s.cfg).length - 8 + n))).transmitted
            (x.cost s.cfg - 8 + n + 1)).heard x.attempts with
          arrived := [], reg := { x.regs s.cfg s.reg with lstate := .awake } } : Face).ended (.error (.busTimeout .tx)))

/-- A status reply with an error code is `ChipError(code)`, whatever attempts failed before it, and is not retried
(R120(e), R122): no prompt after it and no close token; `PHASE` is `READY`. -/
def Obligations.TransactChipError : Prop :=
  ∀ (s : State) (opcode p1 : Byte) (p2 : Word16) (data : Bytes) (expect : Expect) (close : Close) (failed : List Bytes)
    (code : Byte), s.cfg.pulse0 ≠ s.cfg.pulse1 → data.length ≤ s.cfg.maxDataLen → failed.length < s.cfg.retryMax →
    code ≠ 0 → (expect = .status ∨ ∃ n, expect = .data n ∧ 2 ≤ n) →
    (∀ raw ∈ failed, raw.length ≤ Expect.want expect ∧ expectFails s.cfg expect raw) →
    s.face.quiet (1 + 8 * (data.length + 8) + 8 * ((failed.length + 1) * (promptBytes s.cfg).length)) →
    s.face.hears ((failed ++ [statusFrame s.cfg code]).map (serializeBytes s.cfg)) →
    ∃ t rx crc, exec (.transact opcode p1 p2 data expect close) s = .next t
      ∧ t.ctl.ending = .error (.chipError code)
      ∧ t.reg = { s.reg with
          busCalls := s.reg.busCalls + 1, retry := failed.length + 1, phase := .ready, lstate := .awake, baudsel := false
          txbuf := commandFrame s.cfg opcode p1 p2 data, rxbuf := rx, crc := crc, tof := true }
      ∧ t.wire.trace = s.wire.trace ++ [.low true] ++ (serializeBytes s.cfg (commandFrame s.cfg opcode p1 p2 data
          ++ (List.replicate (failed.length + 1) (promptBytes s.cfg)).flatten)).map (fun y => .sym y false)
      ∧ t.cfg = s.cfg ∧ t.host = s.host ∧ t.env.rand = s.env.rand

/-- The commands answered with bytes, closed either way, after any failed attempts: `Read`, `Nonce`, `MacGen`, the second
command of a keyed hash, `Info` (R123, R125, R128, R133, R134). That they are sent where `MAX_DATA_LEN` is set below the data
they carry is log 35's. -/
def Obligations.DataCommands : Prop :=
  ∀ (s : State) (close : Close) (failed : List Bytes) (p : Bytes), s.cfg.pulse0 ≠ s.cfg.pulse1 →
    (∀ slot block, let x : Exchange := ⟨s.cfg.op.read, s.cfg.p1.read32, p2Addr s.cfg slot block, [], .data 32, close, failed, p⟩
      s.face.grants [x] → ∃ t, exec (.read slot block close) s = .next t
        ∧ t.face = (s.face.exchange x).ended (.success (.bytes p)))
    ∧ (∀ numin, let x : Exchange := ⟨s.cfg.op.nonce, s.cfg.p1.nonce, 0, numin, .data 32, close, failed, p⟩
      s.face.grants [x] → ∃ t, exec (.nonce numin close) s = .next t
        ∧ t.face = (s.face.exchange x).ended (.success (.bytes p)))
    ∧ (∀ keynum, let x : Exchange := ⟨s.cfg.op.macGen, s.cfg.p1.macGen, keynum, [], .data 32, close, failed, p⟩
      s.face.grants [x] → ∃ t, exec (.macGen keynum close) s = .next t
        ∧ t.face = (s.face.exchange x).ended (.success (.bytes p)))
    ∧ (∀ msg, let x : Exchange := ⟨s.cfg.op.keyedHash, s.cfg.p1.keyedHashEnd, 32, msg, .data 32, close, failed, p⟩
      s.face.grants [x] → ∃ t, exec (.keyedHashEnd msg close) s = .next t
        ∧ t.face = (s.face.exchange x).ended (.success (.bytes p)))
    ∧ (let x : Exchange := ⟨s.cfg.op.info, s.cfg.p1.info, 0, [], .raw s.cfg.infoRawLen, close, failed, p⟩;
      s.face.grants [x] → ∃ t, exec (.info close) s = .next t
        ∧ t.face = (s.face.exchange x).ended (.success (.bytes p)))

/-- The commands answered with a status, closed either way, after any failed attempts: `Write` without and with a MAC,
`GenDig` in both zones, `CheckMac`, `SelfTest`, `Lock` (R124, R126, R127, R131, R132). That they are sent where `MAX_DATA_LEN`
is set below the data they carry is log 35's. -/
def Obligations.StatusCommands : Prop :=
  ∀ (s : State) (close : Close) (failed : List Bytes), s.cfg.pulse0 ≠ s.cfg.pulse1 →
    (∀ slot block data,
      let x : Exchange := ⟨s.cfg.op.write, s.cfg.p1.write32, p2Addr s.cfg slot block, data, .status, close, failed, [0]⟩
      s.face.grants [x] → ∃ t, exec (.write slot block data close) s = .next t
        ∧ t.face = (s.face.exchange x).ended (.success .unit))
    ∧ (∀ slot block data mac,
      let x : Exchange := ⟨s.cfg.op.write, s.cfg.p1.write32Enc, p2Addr s.cfg slot block, data ++ mac, .status, close, failed,
        [0]⟩
      s.face.grants [x] → ∃ t, exec (.writeMac slot block data mac close) s = .next t
        ∧ t.face = (s.face.exchange x).ended (.success .unit))
    ∧ (∀ slot, let x : Exchange := ⟨s.cfg.op.genDig, s.cfg.p1.genDigData, slot, [], .status, close, failed, [0]⟩
      s.face.grants [x] → ∃ t, exec (.genDig slot close) s = .next t
        ∧ t.face = (s.face.exchange x).ended (.success .unit))
    ∧ (∀ id, let x : Exchange := ⟨s.cfg.op.genDig, s.cfg.p1.genDigCounter, id, [], .status, close, failed, [0]⟩
      s.face.grants [x] → ∃ t, exec (.genDigCounter id close) s = .next t
        ∧ t.face = (s.face.exchange x).ended (.success .unit))
    ∧ (∀ keynum body, let x : Exchange := ⟨s.cfg.op.checkMac, s.cfg.p1.checkMac, keynum, body, .status, close, failed, [0]⟩
      s.face.grants [x] → ∃ t, exec (.checkMac keynum body close) s = .next t
        ∧ t.face = (s.face.exchange x).ended (.success .unit))
    ∧ (let x : Exchange := ⟨s.cfg.op.selfTest, s.cfg.p1.selfTest, 0, [], .status, close, failed, [0]⟩;
      s.face.grants [x] → ∃ t, exec (.selfTest close) s = .next t
        ∧ t.face = (s.face.exchange x).ended (.success .unit))
    ∧ (∀ p1 p2, let x : Exchange := ⟨s.cfg.op.lock, p1, p2, [], .status, close, failed, [0]⟩
      s.face.grants [x] → ∃ t, exec (.lock p1 p2 close) s = .next t
        ∧ t.face = (s.face.exchange x).ended (.success .unit))

/-- `CounterRead` and `CounterIncr` give the number whose four bytes were answered, low byte first (R129, R130). -/
def Obligations.CounterCommands : Prop :=
  ∀ (s : State) (close : Close) (failed : List Bytes) (v : Word32), s.cfg.pulse0 ≠ s.cfg.pulse1 →
    (let x : Exchange := ⟨s.cfg.op.counter, s.cfg.p1.counterRead, s.cfg.counterId, [], .data 4, close, failed, u32le v⟩;
      s.face.grants [x] → ∃ t, exec (.counterRead close) s = .next t
        ∧ t.face = (s.face.exchange x).ended (.success (.word32 v)))
    ∧ (let x : Exchange := ⟨s.cfg.op.counter, s.cfg.p1.counterIncr, s.cfg.counterId, [], .data 4, close, failed, u32le v⟩;
      s.face.grants [x] → ∃ t, exec (.counterIncr close) s = .next t
        ∧ t.face = (s.face.exchange x).ended (.success (.word32 v)))

/-- `KeyedHash`: two transactions, the first closed with IDLE and answered with a status, the second carrying the message
and answered with the hash (R134). -/
def Obligations.KeyedHash : Prop :=
  ∀ (s : State) (keynum : SlotId) (msg h : Bytes) (close : Close) (failed failed' : List Bytes),
    s.cfg.pulse0 ≠ s.cfg.pulse1 →
    let x : Exchange := ⟨s.cfg.op.keyedHash, s.cfg.p1.keyedHashStart, keynum, [], .status, .idle, failed, [0]⟩
    let y : Exchange := ⟨s.cfg.op.keyedHash, s.cfg.p1.keyedHashEnd, 32, msg, .data 32, close, failed', h⟩
    s.face.grants [x, y] → ∃ t, exec (.keyedHash keynum msg close) s = .next t
      ∧ t.face = (s.face.exchanges [x, y]).ended (.success (.bytes h))

/-- `chip_reset` cannot fail (R135): on any line, from any state, it ends with the registers of R40's column "after chip
reset"; `BOOT_SEED`, `BUSCALLS` and `REC` are kept (R136, R217). On a working line a low pulse and the sleep token went
out and `LSTATE` is `ASLEEP`. -/
def Obligations.ChipReset : Prop :=
  ∀ (s : State), ∃ t l, exec .chipReset s = .next t ∧ t.ctl.ending = .success .unit
    ∧ t.reg = { s.reg with
        txbuf := [], rxbuf := [], tk := zeros 32, tkValid := false, phase := .ready, lstate := l, baudsel := false
        tof := false, retry := 0, digest := zeros 32, digestHeld := false, cache := zeros 32, cacheHeld := false }
    ∧ t.cfg = s.cfg ∧ t.host = s.host ∧ t.env.rand = s.env.rand
    ∧ (s.face.quiet 9 → l = .asleep ∧ t.wire.trace = s.wire.trace ++ [.low true]
        ++ (serializeBytes s.cfg [s.cfg.ioflagSleep]).map (fun y => .sym y false))

/-! ### SessionCrypto -/

/-- `pick_nonce` (R139): the host's copy of TempKey is the hash of the nonce message over what the chip answered. -/
def Obligations.PickNonce : Prop :=
  ∀ (s : State) (numin rng : Bytes), s.cfg.pulse0 ≠ s.cfg.pulse1 → s.face.grants [xNonce s.cfg numin rng] →
    ∃ t, exec (.pickNonce numin) s = .next t
      ∧ t.face = (s.face.session [xNonce s.cfg numin rng] 0 (sha256 (nonceMsg rng numin)) true).ended
        (.success (.bytes (sha256 (nonceMsg rng numin))))

/-- `gendig_slot` and `gendig_counter` (R140, R152): a fresh nonce of 20 random bytes, then the fold; the result is the
digest, which is also what `TK` is. -/
def Obligations.Gendig : Prop :=
  ∀ (s : State) (rng : Bytes), s.cfg.pulse0 ≠ s.cfg.pulse1 →
    (∀ slot plaintext, s.face.grants (xGendigSlot s.cfg slot (s.face.randoms 20) rng) →
      ∃ t, exec (.gendigSlot slot plaintext) s = .next t
        ∧ t.face = (s.face.session (xGendigSlot s.cfg slot (s.face.randoms 20) rng) 20
            (gendigDigest slot plaintext (s.face.randoms 20) rng) true).ended
          (.success (.bytes (gendigDigest slot plaintext (s.face.randoms 20) rng))))
    ∧ (∀ v, s.face.grants (xGendigCounter s.cfg (s.face.randoms 20) rng) →
      ∃ t, exec (.gendigCounter v) s = .next t
        ∧ t.face = (s.face.session (xGendigCounter s.cfg (s.face.randoms 20) rng) 20
            (gendigCounterDigest s.cfg v (s.face.randoms 20) rng) true).ended
          (.success (.bytes (gendigCounterDigest s.cfg v (s.face.randoms 20) rng))))

/-- `ct_equal` is equality, without bus traffic and without a register written (R141). -/
def Obligations.CtEqual : Prop :=
  ∀ (s : State) (a b : Bytes), a.length = b.length →
    ∃ v, exec (.ctEqual a b) s = .next (s.endWith (.success (.flag v))) ∧ (v = true ↔ a = b)

/-- `is_correct_tempkey` (R142): true exactly when the 32 bytes received are the expected MAC; a wrong MAC is no error;
`TK_VALID` ends 0. -/
def Obligations.IsCorrectTempkey : Prop :=
  ∀ (s : State) (expected mac : Bytes), s.cfg.pulse0 ≠ s.cfg.pulse1 → s.face.grants [xMacGen s.cfg mac] →
    ∃ t v, exec (.isCorrectTempkey expected) s = .next t
      ∧ t.face = (s.face.session [xMacGen s.cfg mac] 0 s.reg.tk false).ended (.success (.flag v))
      ∧ (v = true ↔ mac = sha256 (tkChkMsg s.cfg.rom.pairingSecret expected s.cfg.rom.seSerial))

/-- `checkmac` and `pair_unlock` (R143, R144): 20 random bytes for the nonce, 13 of other data, then `CheckMac` with a body
of 32 zeros, the response and the other data; `TK_VALID` ends 0. -/
def Obligations.Checkmac : Prop :=
  ∀ (s : State) (rng : Bytes), s.cfg.pulse0 ≠ s.cfg.pulse1 →
    (∀ keynum secret, let xs := xCheckmac s.cfg keynum secret ((s.face.randoms 33).take 20) ((s.face.randoms 33).drop 20) rng
      s.face.grants xs → ∃ t, exec (.checkmac keynum secret) s = .next t
        ∧ t.face = (s.face.session xs 33 (sha256 (nonceMsg rng ((s.face.randoms 33).take 20))) false).ended
          (.success .unit))
    ∧ (let xs := xCheckmac s.cfg s.cfg.slot.pairing s.cfg.rom.pairingSecret ((s.face.randoms 33).take 20)
          ((s.face.randoms 33).drop 20) rng;
      s.face.grants xs → ∃ t, exec .pairUnlock s = .next t
        ∧ t.face = (s.face.session xs 33 (sha256 (nonceMsg rng ((s.face.randoms 33).take 20))) false).ended
          (.success .unit))

/-- `encrypted_read` (R145): a pairing, a fold and a read for every block, each block XORed with its own digest, the bytes
beyond `n` dropped; `TK_VALID` ends 0, so what `TK` holds can no longer be read (R41). -/
def Obligations.EncryptedRead : Prop :=
  ∀ (s : State) (slot authSlot : SlotId) (secret : Bytes) (n : Nat) (rs : List ReadReply), s.cfg.pulse0 ≠ s.cfg.pulse1 →
    1 ≤ n → rs.length = blocksFor n →
    let draws := s.face.randoms (53 * rs.length)
    let xs := xEncryptedRead s.cfg slot authSlot 0 draws rs
    s.face.grants xs → ∃ t tk, exec (.encryptedRead slot authSlot secret n) s = .next t
      ∧ t.face = (s.face.session xs (53 * rs.length) tk false).ended
        (.success (.bytes ((encryptedReadBytes authSlot secret draws rs).take n)))

/-- `encrypted_write` (R146): for every block a pairing, a fold and a `Write` of the block under its digest with its MAC;
`TK_VALID` ends 0. -/
def Obligations.EncryptedWrite : Prop :=
  ∀ (s : State) (slot authSlot : SlotId) (secret data : Bytes) (rs : List WriteReply), s.cfg.pulse0 ≠ s.cfg.pulse1 →
    data ≠ [] → data.length = 32 * rs.length →
    let draws := s.face.randoms (53 * rs.length)
    let xs := xEncryptedWrite s.cfg slot authSlot secret 0 data draws rs
    s.face.grants xs → ∃ t tk, exec (.encryptedWrite slot authSlot secret data) s = .next t
      ∧ t.face = (s.face.session xs (53 * rs.length) tk false).ended (.success .unit)

/-- `mixin` (R147): with the plain key a hash over zeros and no keyed hash sent; with a key slot a hash over the chip's
answer; in both with the pairing secret. -/
def Obligations.Mixin : Prop :=
  ∀ (s : State) (start rng : Bytes), s.cfg.pulse0 ≠ s.cfg.pulse1 →
    (let xs := xPair s.cfg (s.face.randoms 33) rng;
      s.face.grants xs → ∃ t tk, exec (.mixin s.cfg.slot.keyPlain start) s = .next t
        ∧ t.face = (s.face.session xs 33 tk false).ended (.success (.bytes
          (sha256 (Config.mixMsg s.cfg.rom.pairingSecret start s.cfg.slot.keyPlain (zeros 32))))))
    ∧ (∀ keynum h, keynum ≠ s.cfg.slot.keyPlain →
      let xs := xPair s.cfg (s.face.randoms 33) rng ++ xKeyedHash s.cfg keynum start h
      s.face.grants xs → ∃ t tk, exec (.mixin keynum start) s = .next t
        ∧ t.face = (s.face.session xs 33 tk false).ended (.success (.bytes
          (sha256 (Config.mixMsg s.cfg.rom.pairingSecret start keynum h)))))

/-- `stretch` (R148): a pairing and a keyed hash on the KDF slot for every iteration, the message of each the answer of the
one before; no iteration gives the start value back with no traffic, nothing else of the block changed. -/
def Obligations.Stretch : Prop :=
  ∀ (s : State) (start : Bytes) (rs : List StretchReply), s.cfg.pulse0 ≠ s.cfg.pulse1 →
    let xs := xStretch s.cfg start (s.face.randoms (33 * rs.length)) rs
    s.face.grants xs → ∃ t tk, exec (.stretch start rs.length) s = .next t ∧ (rs = [] → tk = s.reg.tk)
      ∧ t.face = (s.face.session xs (33 * rs.length) tk (s.reg.tkValid && decide (rs = []))).ended
        (.success (.bytes (stretchResult start rs)))

/-- `auth_read_slot` and `auth_read_counter` (R149, R150): the value read where the MAC received is the one its digest calls
for, `SeFailure` where it is any other; `TK_VALID` ends 0 in both. -/
def Obligations.AuthReads : Prop :=
  ∀ (s : State) (pairRng gendigRng : Bytes), s.cfg.pulse0 ≠ s.cfg.pulse1 →
    (∀ slot v, let xs := xAuthReadSlot s.cfg slot (s.face.randoms 53) pairRng v gendigRng
      s.face.grants xs → ∃ t tk, exec (.authReadSlot slot) s = .next t
        ∧ t.face = (s.face.session xs 53 tk false).ended (.success (.bytes v)))
    ∧ (∀ v, let xs := xAuthReadCounter s.cfg v (s.face.randoms 53) pairRng gendigRng
      s.face.grants xs → ∃ t tk, exec .authReadCounter s = .next t
        ∧ t.face = (s.face.session xs 53 tk false).ended (.success (.word32 v)))
    ∧ (∀ slot v mac, let ys := withMac s.cfg (xAuthReadSlot s.cfg slot (s.face.randoms 53) pairRng v gendigRng) mac
      mac ≠ tempkeyMac s.cfg (roundDigest slot v (s.face.randoms 53) gendigRng) →
      s.face.grants ys → ∃ t tk, exec (.authReadSlot slot) s = .next t
        ∧ t.face = (s.face.session ys 53 tk false).ended (.error .seFailure))
    ∧ (∀ v mac, let ys := withMac s.cfg (xAuthReadCounter s.cfg v (s.face.randoms 53) pairRng gendigRng) mac
      mac ≠ tempkeyMac s.cfg (gendigCounterDigest s.cfg v (slice (s.face.randoms 53) 33 20) gendigRng) →
      s.face.grants ys → ∃ t tk, exec .authReadCounter s = .next t
        ∧ t.face = (s.face.session ys 53 tk false).ended (.error .seFailure))

/-- `add_counter(n)` (R151, R232): `n` single increments, the last value checked and returned where the MAC received is the
one its digest calls for, `SeFailure` where it is any other, the increments made; `TK_VALID` ends 0 in both. -/
def Obligations.AddCounter : Prop :=
  ∀ (s : State) (values : List Word32) (last : Word32) (pairRng gendigRng : Bytes), s.cfg.pulse0 ≠ s.cfg.pulse1 →
    let xs := xAddCounter s.cfg values last (s.face.randoms 53) pairRng gendigRng
    (s.face.grants xs → ∃ t tk, exec (.addCounter (values.length + 1)) s = .next t
      ∧ t.face = (s.face.session xs 53 tk false).ended (.success (.word32 last)))
    ∧ ∀ mac, mac ≠ tempkeyMac s.cfg (gendigCounterDigest s.cfg last (slice (s.face.randoms 53) 33 20) gendigRng) →
      s.face.grants (withMac s.cfg xs mac) → ∃ t tk, exec (.addCounter (values.length + 1)) s = .next t
        ∧ t.face = (s.face.session (withMac s.cfg xs mac) 53 tk false).ended (.error .seFailure)

/-- Every operation of SessionCrypto, from every state and whatever the line does, comes to an end in one of two ways: a
result, or `SeFailure` with `TK_VALID` 0 (R138, R194, R241). -/
def Obligations.SessionEnds : Prop :=
  ∀ (i : Instr) (s : State), sessionOperation i = true → ∃ t, exec i s = .next t
    ∧ ((∃ v, t.ctl.ending = .success v) ∨ t.ctl.ending = .error .seFailure ∧ t.reg.tkValid = false)

/-! ### PinEngine -/

/-- The arithmetic of the budget (R174), with its examples. -/
def Obligations.Budget : Prop :=
  (∀ (p : Config.Params) (c : Word32), p.quant = 32 → c.toNat + p.maxAttempts + 32 < 2 ^ 32 →
    newMatchCount p c = (c + BitVec.ofNat 32 p.maxAttempts + 32#32) &&& ~~~31#32
    ∧ bumpOf p c = (newMatchCount p c).toNat - p.maxAttempts - c.toNat
    ∧ (newMatchCount p c).toNat % 32 = 0
    ∧ c.toNat + p.maxAttempts < (newMatchCount p c).toNat ∧ (newMatchCount p c).toNat ≤ c.toNat + p.maxAttempts + 32
    ∧ 1 ≤ bumpOf p c ∧ bumpOf p c ≤ 32 ∧ (newMatchCount p c).toNat - (c.toNat + bumpOf p c) = p.maxAttempts)
  ∧ ∀ (p : Config.Params), p.quant = 32 → p.maxAttempts = 21 →
    (newMatchCount p 10 = 32 ∧ bumpOf p 10 = 1) ∧ (newMatchCount p 11 = 64 ∧ bumpOf p 11 = 32)
    ∧ (newMatchCount p 12 = 64 ∧ bumpOf p 12 = 31) ∧ newMatchCount p 13 = 64 ∧ bumpOf p 13 = 30

/-- What is rejected before any bus traffic (R156, R158, R165, R170, R173, R176): a structurally bad record by all four
operations; a record that does not verify by the three that need one; flags that forbid the operation. The record stays
as it was given, and nothing else of the block changes, `BUSCALLS` included. -/
def Obligations.RecordRefused : Prop :=
  ∀ (s : State) (r : Bytes),
    let kept := ({ s with reg := { s.reg with record := r, recHeld := true } } : State)
    (¬ recordValid s.cfg r → ∀ i ∈ [Instr.setup r, .login r, .change r, .fetchSecret r],
      exec i s = .next (kept.endWith (.error .badRequest)))
    ∧ (recordValid s.cfg r → ¬ recordVerifies s.cfg s.reg.bootSeed r →
      ∀ i ∈ [Instr.login r, .change r, .fetchSecret r], exec i s = .next (kept.endWith (.error .hmacFail)))
    ∧ (recordValid s.cfg r → recordVerifies s.cfg s.reg.bootSeed r →
      (hasFlag (recordFlags s.cfg r) s.cfg.flag.successful = false →
        ∀ i ∈ [Instr.change r, .fetchSecret r], exec i s = .next (kept.endWith (.error .badRequest)))
      ∧ (hasFlag (recordFlags s.cfg r) s.cfg.flag.successful = true →
          badChangeFlags s.cfg (fieldWord r s.cfg.layout.changeFlags) = true →
          exec (.change r) s = .next (kept.endWith (.error .badRequest)))
      ∧ (hasFlag (recordFlags s.cfg r) s.cfg.flag.successful = true →
          badChangeFlags s.cfg (fieldWord r s.cfg.layout.changeFlags) = false →
          hasFlag (fieldWord r s.cfg.layout.changeFlags) s.cfg.flag.changeWalletPin = true →
          (fieldWord r s.cfg.layout.newPinLen = 0
            ∨ hasFlag (recordFlags s.cfg r) s.cfg.flag.isBlank ≠ decide (fieldWord r s.cfg.layout.oldPinLen = 0)) →
          exec (.change r) s = .next (kept.endWith (.error .badRequest)))
      ∧ (hasFlag (recordFlags s.cfg r) s.cfg.flag.isBlank ≠ hasFlag (recordFlags s.cfg r) s.cfg.flag.successful →
          exec (.login r) s = .next (kept.endWith (.error .badRequest)))
      ∧ (hasFlag (recordFlags s.cfg r) s.cfg.flag.isBlank = false →
          hasFlag (recordFlags s.cfg r) s.cfg.flag.successful = false → fieldWord r s.cfg.layout.pinLen = 0 →
          exec (.login r) s = .next (kept.endWith (.error .badRequest))))

/-- `setup` of a blank chip (R162 to R164): the record cleared, its counters read, marked successful and blank, the zero
digest cached, signed; `TK_VALID` ends 0. And of a chip whose warm-up `pair_unlock` fails, on any line: `Brick`, with what
that left and the record cleared, its nonce drawn (R163, R198). -/
def Obligations.SetupBlank : Prop :=
  (∀ (s : State) (record : Bytes) (r : SetupReply), s.cfg.pulse0 ≠ s.cfg.pulse1 → recordValid s.cfg record →
    let draws := s.face.randoms setupDraws
    s.face.grants (xSetup s.cfg draws r) → ∃ t tk, exec (.setup record) s = .next t
      ∧ t.face = (s.face.pin (xSetup s.cfg draws r) setupDraws tk false
        (heldSetup s.cfg s.reg.bootSeed draws (s.face.held.withRecord record) r)).ended (.success .unit))
  ∧ ∀ (s : State) (record : Bytes), recordValid s.cfg record →
    let cleared : State := { s with
      env := { s.env with rand := s.env.rand.after Config.freeRand 4 }
      reg := { s.reg with record := clearedRecord s.cfg record (s.face.randoms 4), recHeld := true } }
    ∀ t, exec .pairUnlock cleared = .next t → t.ctl.ending = .error .seFailure →
      exec (.setup record) s = .next (t.endWith (.error .brick))

/-- `setup` of a personalised chip (R162 to R164): the `CheckMac` with the all-zero secret is answered with an error status,
which reads as "not blank"; the record cleared, its counters read, no flag set, signed; the digest and the cache as
before; 24 transactions begun; `TK_VALID` ends 0. -/
def Obligations.SetupPersonal : Prop :=
  ∀ (s : State) (record : Bytes) (r : SetupReply) (code : Byte), s.cfg.pulse0 ≠ s.cfg.pulse1 → recordValid s.cfg record →
    code ≠ 0 → 0 < s.cfg.retryMax →
    let draws := s.face.randoms setupDraws
    let xs := xSetupStart s.cfg draws r
    let g := s.face.exchanges xs
    s.face.grants xs → g.quiet (1 + 8 * (77 + 8) + 8 * (promptBytes s.cfg).length) →
    g.hears [serializeBytes s.cfg (statusFrame s.cfg code)] → ∃ t, exec (.setup record) s = .next t
      ∧ t.ctl.ending = .success .unit
      ∧ t.face.held = heldSetupPersonal s.cfg s.reg.bootSeed draws (s.face.held.withRecord record) r
      ∧ t.reg.tkValid = false ∧ t.reg.busCalls = s.reg.busCalls + 24 ∧ t.reg.retry = 1 ∧ t.reg.phase = .ready
      ∧ t.wire.trace = g.trace ++ [.low true]
        ++ (serializeBytes s.cfg (blankFrame s.cfg draws r ++ promptBytes s.cfg)).map (fun y => .sym y false)
      ∧ t.cfg = s.cfg ∧ t.host = s.host ∧ t.reg.bootSeed = s.reg.bootSeed
      ∧ t.env.rand = s.env.rand.after Config.freeRand setupDraws

/-- `login` of a blank record succeeds whatever the PIN, with no bus traffic (R165): the zero digest cached, the record
signed, nothing else changed. -/
def Obligations.LoginBlank : Prop :=
  ∀ (s : State) (record : Bytes), recordValid s.cfg record → recordVerifies s.cfg s.reg.bootSeed record →
    hasFlag (recordFlags s.cfg record) s.cfg.flag.isBlank = true →
    hasFlag (recordFlags s.cfg record) s.cfg.flag.successful = true →
    ∃ t, exec (.login record) s = .next t
      ∧ t.face = (s.face.withHeld (((s.face.held.withRecord record).caching s.cfg s.reg.bootSeed (zeros 32)).signed s.cfg
        s.reg.bootSeed)).ended (.success .unit)

/-- `login` with the right PIN (R161, R165, R166): the attempt, the test of its digest, `match_count` before the increments
before `lastgood`, the secret read; the digest cached, the record authenticated with a full budget, signed. -/
def Obligations.LoginSucceeds : Prop :=
  ∀ (s : State) (record : Bytes) (r : LoginReply), s.cfg.pulse0 ≠ s.cfg.pulse1 → recordValid s.cfg record →
    recordVerifies s.cfg s.reg.bootSeed record →
    hasFlag (recordFlags s.cfg record) s.cfg.flag.isBlank = false →
    hasFlag (recordFlags s.cfg record) s.cfg.flag.successful = false → fieldWord record s.cfg.layout.pinLen ≠ 0 →
    s.cfg.kdfIter = r.attempt.stretches.length → s.cfg.slot.pinAttempt ≠ s.cfg.slot.keyPlain →
    budgetFits s.cfg r.counter = true → bumpOf s.cfg r.counter = r.updates.increments.length + 1 → r.seed.length = 3 →
    let draws := s.face.randoms (loginDraws r)
    let pin := recordPin s.cfg record
    s.face.grants (xLogin s.cfg pin draws r) → ∃ t tk, exec (.login record) s = .next t
      ∧ t.face = (s.face.pin (xLogin s.cfg pin draws r) (loginDraws r) tk false
        (heldLogin s.cfg s.reg.bootSeed pin draws (s.face.held.withRecord record) r)).ended (.success .unit)

/-- `login` with a PIN the chip does not confirm (R165, R167): the counters read again, the record signed, `AuthFail`;
nothing is written to the chip and the flags stay. -/
def Obligations.LoginWrongPin : Prop :=
  ∀ (s : State) (record : Bytes) (r : WrongReply), s.cfg.pulse0 ≠ s.cfg.pulse1 → recordValid s.cfg record →
    recordVerifies s.cfg s.reg.bootSeed record →
    hasFlag (recordFlags s.cfg record) s.cfg.flag.isBlank = false →
    hasFlag (recordFlags s.cfg record) s.cfg.flag.successful = false → fieldWord record s.cfg.layout.pinLen ≠ 0 →
    s.cfg.kdfIter = r.attempt.stretches.length → s.cfg.slot.pinAttempt ≠ s.cfg.slot.keyPlain →
    let draws := s.face.randoms (wrongDraws r)
    let pin := recordPin s.cfg record
    r.mac ≠ testMac s.cfg (attemptDigest s.cfg pin r.attempt) (draws.drop (attemptDraws r.attempt)) r.testGendig →
    s.face.grants (xLoginWrong s.cfg pin draws r) → ∃ t tk, exec (.login record) s = .next t
      ∧ t.face = (s.face.pin (xLoginWrong s.cfg pin draws r) (wrongDraws r) tk false
        (heldLoginWrong s.cfg s.reg.bootSeed (s.face.held.withRecord record) r)).ended (.error .authFail)

/-- `change` of the secret alone (R169, R170, R172): keyed by the cached digest; the stored value masked with the OTP key
unless it is all zero, in three blocks; the zero-secret flag set to match; the record signed. -/
def Obligations.ChangeSecret : Prop :=
  ∀ (s : State) (record : Bytes) (rs : List WriteReply), s.cfg.wf = true → s.cfg.layout.wf = true → record.length = 276 →
    recordValid s.cfg record → recordVerifies s.cfg s.reg.bootSeed record →
    hasFlag (recordFlags s.cfg record) s.cfg.flag.successful = true →
    badChangeFlags s.cfg (fieldWord record s.cfg.layout.changeFlags) = false →
    hasFlag (fieldWord record s.cfg.layout.changeFlags) s.cfg.flag.changeWalletPin = false → rs.length = 3 →
    let draws := s.face.randoms 159
    let xs := xEncryptedWrite s.cfg s.cfg.slot.seed s.cfg.slot.pinHash (cachedDigest s.cfg s.reg.bootSeed record) 0
      (maskSecret s.cfg (field record s.cfg.layout.secret) ++ zeros 24) draws rs
    s.face.grants xs → ∃ t tk, exec (.change record) s = .next t
      ∧ t.face = (s.face.pin xs 159 tk false
        (heldChangeSecret s.cfg s.reg.bootSeed (s.face.held.withRecord record))).ended (.success .unit)

/-- `change` of the PIN, of a blank record or of one whose old PIN the chip confirms, with the secret or without (R170,
R171): the secret first, the PIN second, both keyed by the old digest; then the updates keyed by the new one; the new
digest cached, the record no longer blank, its budget full, signed. Where the chip does not confirm the old PIN:
`OldAuthFail`, the record signed again and otherwise as it was, no write sent to the chip (R170, R197). -/
def Obligations.ChangePin : Prop :=
  (∀ (s : State) (record : Bytes) (r : ChangeReply), s.cfg.wf = true → s.cfg.layout.wf = true → record.length = 276 →
    recordValid s.cfg record → recordVerifies s.cfg s.reg.bootSeed record →
    hasFlag (recordFlags s.cfg record) s.cfg.flag.successful = true →
    badChangeFlags s.cfg (fieldWord record s.cfg.layout.changeFlags) = false →
    hasFlag (fieldWord record s.cfg.layout.changeFlags) s.cfg.flag.changeWalletPin = true →
    fieldWord record s.cfg.layout.newPinLen ≠ 0 →
    (fieldWord record s.cfg.layout.oldPinLen = 0 ↔ r.old = none) →
    hasFlag (recordFlags s.cfg record) s.cfg.flag.isBlank = decide (r.old = none) →
    r.secret.length = (if hasFlag (fieldWord record s.cfg.layout.changeFlags) s.cfg.flag.changeSecret then 3 else 0) →
    (∀ o, r.old = some o → s.cfg.kdfIter = o.attempt.stretches.length) →
    s.cfg.kdfIter = r.attempt.stretches.length → s.cfg.slot.pinAttempt ≠ s.cfg.slot.keyPlain →
    budgetFits s.cfg r.counter = true → bumpOf s.cfg r.counter = r.updates.increments.length + 1 →
    let draws := s.face.randoms (changeDraws r)
    s.face.grants (xChange s.cfg record draws r) → ∃ t tk, exec (.change record) s = .next t
      ∧ t.face = (s.face.pin (xChange s.cfg record draws r) (changeDraws r) tk false
        (heldChange s.cfg s.reg.bootSeed (s.face.held.withRecord record) r)).ended (.success .unit))
  ∧ ∀ (s : State) (record : Bytes) (r : OldReply) (mac : Bytes), s.cfg.pulse0 ≠ s.cfg.pulse1 →
    recordValid s.cfg record → recordVerifies s.cfg s.reg.bootSeed record →
    hasFlag (recordFlags s.cfg record) s.cfg.flag.successful = true →
    badChangeFlags s.cfg (fieldWord record s.cfg.layout.changeFlags) = false →
    hasFlag (fieldWord record s.cfg.layout.changeFlags) s.cfg.flag.changeWalletPin = true →
    fieldWord record s.cfg.layout.newPinLen ≠ 0 → fieldWord record s.cfg.layout.oldPinLen ≠ 0 →
    hasFlag (recordFlags s.cfg record) s.cfg.flag.isBlank = false →
    s.cfg.kdfIter = r.attempt.stretches.length → s.cfg.slot.pinAttempt ≠ s.cfg.slot.keyPlain →
    let n := attemptDraws r.attempt + 53
    let draws := s.face.randoms n
    let pin := recordOldPin s.cfg record
    mac ≠ testMac s.cfg (attemptDigest s.cfg pin r.attempt) (draws.drop (attemptDraws r.attempt)) r.testGendig →
    s.face.grants (xOldWrong s.cfg pin draws r mac) → ∃ t tk, exec (.change record) s = .next t
      ∧ t.face = (s.face.pin (xOldWrong s.cfg pin draws r mac) n tk false
        ((s.face.held.withRecord record).signed s.cfg s.reg.bootSeed)).ended (.error .oldAuthFail)

/-- `fetch_secret` (R169, R173): the three blocks of the seed slot read under the cached digest; the secret unmasked unless
it is all zero, the flag set to match, the record signed. -/
def Obligations.FetchSecret : Prop :=
  ∀ (s : State) (record : Bytes) (rs : List ReadReply), s.cfg.pulse0 ≠ s.cfg.pulse1 → recordValid s.cfg record →
    recordVerifies s.cfg s.reg.bootSeed record → hasFlag (recordFlags s.cfg record) s.cfg.flag.successful = true →
    rs.length = 3 →
    let draws := s.face.randoms 159
    let xs := xEncryptedRead s.cfg s.cfg.slot.seed s.cfg.slot.pinHash 0 draws rs
    s.face.grants xs → ∃ t tk, exec (.fetchSecret record) s = .next t
      ∧ t.face = (s.face.pin xs 159 tk false (heldFetch s.cfg s.reg.bootSeed (s.face.held.withRecord record)
        ((encryptedReadBytes s.cfg.slot.pinHash (cachedDigest s.cfg s.reg.bootSeed record) draws rs).take 72))).ended
        (.success .unit)

/-! ### The dispatch boundary -/

/-- What `se_dispatch` refuses, from every state and on every line (R91, R178, R180, R181, R185): a length over
`LEN_IN_MAX`, with no delay drawn; after the delay, a method that is none of the four, a sub-method that is none of the
four, a buffer too short, a slot out of range. The code is `E_BAD_REQUEST`; `BUSCALLS` and the host's side are unchanged;
`REC` holds no value and the chip is reset on exit (R184). What stands in a released `REC`, which the clause on a quiet line
gives with the rest of the face, is log 26's. -/
def Obligations.DispatchRefuses : Prop :=
  ∀ (s : State) (method arg2 : Word32) (len : Nat), s.cfg.wf = true →
    let refusedFrom := fun f : Face => ∃ t, exec (.seDispatch method len arg2) s = .next t
      ∧ t.ctl.ending = .success (.code s.cfg.code.badRequest) ∧ t.reg.busCalls = s.reg.busCalls ∧ t.host = s.host ∧ t.reg.recHeld = false
      ∧ t.env.delay = f.env.delay ∧ t.env.rand = s.env.rand
      ∧ (s.face.quiet 9 → t.face = f.dispatched.ended (.success (.code s.cfg.code.badRequest)))
    (s.cfg.lenInMax < len → refusedFrom s.face)
    ∧ (len ≤ s.cfg.lenInMax →
        (method ≠ s.cfg.method.pinControl ∧ method ≠ s.cfg.method.readSeSlot ∧ method ≠ s.cfg.method.getRandomBytes
          ∧ method ≠ s.cfg.method.isBricked
        ∨ method = s.cfg.method.pinControl ∧ (isPinMethod s.cfg arg2 = false ∨ len < 276)
        ∨ method = s.cfg.method.readSeSlot ∧ (s.cfg.slot.numSlots ≤ arg2.toNat ∨ len < 32)) →
      refusedFrom s.face.delayed)

/-- `se_dispatch` of a PIN operation (R177, R180, R184, R187): after the delay it is that operation on the first 276 bytes
of the host's buffer; the record goes back where the ending says so and is released; the chip is reset, last; the code
tells the ending. Bytes of the host's buffer beyond its end are log 16's, what stands in a released `REC` is log 26's. And
what `se_dispatch` of any method leaves, from every state and on every line: a result code, and the registers of a chip
reset, `REC` without a value (R40, R177, R184). -/
def Obligations.DispatchPinControl : Prop :=
  (∀ (s : State) (len : Nat) (arg2 : Word32), s.cfg.wf = true → len ≤ s.cfg.lenInMax → 276 ≤ len →
    isPinMethod s.cfg arg2 = true →
    let i := pinInstr s.cfg arg2 (hostBytes s.host.buf 0 276)
    ∀ t, exec i s.delayed = .next t →
      ∃ u, exec .chipReset t.handedBack = .next u
        ∧ exec (.seDispatch s.cfg.method.pinControl len arg2) s
          = .next (u.endWith (.success (.code (codeOf s.cfg.code t.ctl.ending)))))
  ∧ ∀ (s t : State) (method arg2 : Word32) (len : Nat), exec (.seDispatch method len arg2) s = .next t →
    (∃ v, t.ctl.ending = .success (.code v)) ∧ t.reg.recHeld = false ∧ t.reg.tkValid = false ∧ t.reg.digestHeld = false
    ∧ t.reg.cacheHeld = false ∧ t.reg.txbuf = [] ∧ t.reg.rxbuf = [] ∧ t.reg.phase = .ready ∧ t.reg.baudsel = false
    ∧ t.reg.tof = false ∧ t.reg.retry = 0 ∧ t.reg.bootSeed = s.reg.bootSeed

/-- Random bytes (R182): `len` bytes of ENTROPY over the first bytes of the host's buffer, none for `len = 0`; no bus
traffic. That bytes beyond its end extend the buffer is the model's choice (log 16). Through `se_dispatch`, after the delay
and with the chip reset on exit, with the code `E_OK` (R177, R184); what stands in the released `REC` is log 26's. -/
def Obligations.RandomBytes : Prop :=
  ∀ (s : State) (len : Nat),
    (∃ t, exec (.cmdGetRandomBytes len) s = .next t
      ∧ t.face = ((s.face.drew len).withBuf (s.face.randoms len)).ended (.success .unit)
      ∧ t.chip = s.chip ∧ t.wire = s.wire)
    ∧ (s.cfg.wf = true → len ≤ s.cfg.lenInMax → s.face.quiet 9 → ∀ arg2,
      ∃ t, exec (.seDispatch s.cfg.method.getRandomBytes len arg2) s = .next t
        ∧ t.face = ((s.face.delayed.drew len).withBuf (s.face.randoms len)).dispatched.ended
          (.success (.code s.cfg.code.ok)))

/-- `read_se_slot` (R181): a pairing, a read of block 0 in the clear, the 32 bytes into the host's buffer, which they extend
where it is shorter (log 16); a slot out of range or a short buffer is `BadRequest` with nothing written. Through
`se_dispatch`, on every line, however it ends: after the delay, `REC` released, the chip reset, last; the code tells the
ending (R177, R184, R187). What stands in the released `REC` is log 26's. -/
def Obligations.ReadSeSlot : Prop :=
  ∀ (s : State) (len : Nat) (arg2 : Word32),
    (s.cfg.slot.numSlots ≤ arg2.toNat ∨ len < 32 →
      exec (.cmdReadSeSlot len arg2) s = .next (s.endWith (.error .badRequest)))
    ∧ (s.cfg.pulse0 ≠ s.cfg.pulse1 → arg2.toNat < s.cfg.slot.numSlots → 32 ≤ len → ∀ rng v,
      let xs := xPair s.cfg (s.face.randoms 33) rng ++ [xRead s.cfg (arg2.setWidth 16) 0 v]
      s.face.grants xs → ∃ t tk, exec (.cmdReadSeSlot len arg2) s = .next t
        ∧ t.face = ((s.face.session xs 33 tk false).withBuf v).ended (.success .unit))
    ∧ (s.cfg.wf = true → len ≤ s.cfg.lenInMax → ∃ t u, exec (.cmdReadSeSlot len arg2) s.delayed = .next t
      ∧ exec .chipReset t.released = .next u
      ∧ exec (.seDispatch s.cfg.method.readSeSlot len arg2) s
        = .next (u.endWith (.success (.code (codeOf s.cfg.code t.ctl.ending)))))

/-- `is_bricked` (R183, R198): it is `pair_unlock` with its `SeFailure` turned into `Brick`, from every state and on every
line, the host's buffer untouched; so it succeeds when the pairing is accepted. Through `se_dispatch`, on every line,
however it ends: after the delay, `REC` released, the chip reset, last; the code tells the ending (R177, R184, R187). What
stands in the released `REC` is log 26's. -/
def Obligations.IsBricked : Prop :=
  ∀ (s : State),
    (∃ t, exec .pairUnlock s = .next t ∧ t.host = s.host
      ∧ (t.ctl.ending = .success .unit ∧ exec .cmdIsBricked s = .next t
        ∨ t.ctl.ending = .error .seFailure ∧ t.reg.tkValid = false
          ∧ exec .cmdIsBricked s = .next (t.endWith (.error .brick))))
    ∧ (s.cfg.pulse0 ≠ s.cfg.pulse1 → ∀ rng, let xs := xPair s.cfg (s.face.randoms 33) rng
      s.face.grants xs → ∃ t tk, exec .cmdIsBricked s = .next t
        ∧ t.face = (s.face.session xs 33 tk false).ended (.success .unit))
    ∧ (s.cfg.wf = true → ∀ len arg2, len ≤ s.cfg.lenInMax → ∃ t u, exec .cmdIsBricked s.delayed = .next t
      ∧ exec .chipReset t.released = .next u
      ∧ exec (.seDispatch s.cfg.method.isBricked len arg2) s
        = .next (u.endWith (.success (.code (codeOf s.cfg.code t.ctl.ending)))))

/-! ### An honest chip behind an honest WIRE -/

/-- `Write` behind an honest WIRE (R52, R60, R124). Where the chip's rule admits it, the block that the operands name holds
the 32 bytes, for a `Write` with a MAC the 32 bytes XOR TempKey; every other byte of a slot and `counter0` are as before. A
`Write` with a MAC that is not the one its plaintext calls for is refused with the miscompare status (R193), one that the
rule does not admit with an error status, and nothing is stored. The form of the rules is the model's (log 20), the place of
a block among the cells too (log 11). -/
def Obligations.HonestWrite : Prop :=
  ∀ (s : State) (slot : SlotId) (block : Nat) (data : Bytes) (close : Close), s.cfg.wf = true → 0 < s.cfg.retryMax →
    memWf s.chip.slots = true → data.length = 32 → s.chip.selfTestFailed = false →
    let p2 := p2Addr s.cfg slot block
    let rule := s.chip.ruleAt p2
    let stored := fun (i : Instr) (v : Bytes) => ∃ t, exec i s = .next t ∧ t.ctl.ending = .success .unit
      ∧ t.chip.memRead s.cfg (.slot slot block) 32 = v
      ∧ (∀ a, ¬ inBlock p2 a → memByte t.chip.slots a = memByte s.chip.slots a) ∧ t.chip.counter0 = s.chip.counter0
    let refused := fun (i : Instr) (code : Byte) => ∃ t, exec i s = .next t ∧ t.ctl.ending = .error (.chipError code)
      ∧ t.chip.slots = s.chip.slots ∧ t.chip.counter0 = s.chip.counter0
    (s.undisturbed 32 ⟨s.cfg.op.write, s.cfg.p1.write32, p2, data⟩ →
      (s.chip.pairingMet rule = true → rule.write = .clear → stored (.write slot block data close) data)
      ∧ (¬ (s.chip.pairingMet rule = true ∧ rule.write = .clear) → ∃ code, refused (.write slot block data close) code))
    ∧ ∀ mac, mac.length = 32 → s.cfg.p1.write32Enc ≠ s.cfg.p1.write32 → s.chip.tempKey.length = 32 →
      s.undisturbed 64 ⟨s.cfg.op.write, s.cfg.p1.write32Enc, p2, data ++ mac⟩ →
      let i := Instr.writeMac slot block data mac close
      let plain := xorBytes data s.chip.tempKey
      (s.chip.writesUnder p2 = true → mac = sha256 (writeMacMsg s.chip.tempKey p2 plain) → stored i plain)
      ∧ (s.chip.writesUnder p2 = true → mac ≠ sha256 (writeMacMsg s.chip.tempKey p2 plain) →
        refused i s.cfg.st.miscompare)
      ∧ (s.chip.writesUnder p2 = false → ∃ code, refused i code)

/-- After `pick_nonce` the host's copy and the chip's TempKey are the same 32 bytes, both valid (R53, R139). -/
def Obligations.HonestNonce : Prop :=
  ∀ (s : State) (numin : Bytes), s.cfg.wf = true → 0 < s.cfg.retryMax →
    numin.length = 20 → s.chip.selfTestFailed = false →
    s.undisturbed 20 ⟨s.cfg.op.nonce, s.cfg.p1.nonce, 0, numin⟩ →
    ∃ t, exec (.pickNonce numin) s = .next t ∧ t.ctl.ending = .success (.bytes t.reg.tk)
      ∧ t.reg.tk = t.chip.tempKey ∧ t.reg.tkValid = true ∧ t.chip.tempKeyValid = true
      ∧ t.chip.slots = s.chip.slots ∧ t.chip.counter0 = s.chip.counter0

/-- What counts against the budget of an honest chip behind an honest WIRE. `CounterIncr` adds one to `counter0` and gives the
new value while it is below `match_count`; at `match_count` it leaves it and is refused (R57, R130). The first command of a
keyed hash on `pin_attempt` adds one as well, the keyed hash going on with its second command; at `match_count` the whole
keyed hash ends in the refusal, `counter0` unchanged (R58, R134); that the first command is the one that is charged or refused
is the model's choice (log 32). The refusal's code is the one for a counter at its limit (R193). No byte of a slot changes. -/
def Obligations.HonestIncrement : Prop :=
  ∀ (s : State) (close : Close), s.cfg.wf = true → 0 < s.cfg.retryMax → s.chip.selfTestFailed = false →
    let refused := fun (i : Instr) => ∃ t, exec i s = .next t ∧ t.ctl.ending = .error (.chipError s.cfg.st.exec)
      ∧ t.chip.counter0 = s.chip.counter0 ∧ t.chip.slots = s.chip.slots
    (s.cfg.op.counter ≠ s.cfg.op.macGen → s.cfg.p1.counterRead ≠ s.cfg.p1.counterIncr →
      s.undisturbed 0 ⟨s.cfg.op.counter, s.cfg.p1.counterIncr, s.cfg.counterId, []⟩ →
      (s.chip.budgetSpent s.cfg = false →
        ∃ t, exec (.counterIncr close) s = .next t ∧ t.ctl.ending = .success (.word32 (s.chip.counter0 + 1))
          ∧ t.chip.counter0 = s.chip.counter0 + 1 ∧ t.chip.slots = s.chip.slots)
      ∧ (s.chip.budgetSpent s.cfg = true → refused (.counterIncr close)))
    ∧ (s.cfg.op.keyedHash ∉ [s.cfg.op.read, s.cfg.op.write, s.cfg.op.nonce, s.cfg.op.genDig, s.cfg.op.checkMac,
        s.cfg.op.macGen, s.cfg.op.counter, s.cfg.op.selfTest, s.cfg.op.lock, s.cfg.op.info] →
      s.undisturbed 0 ⟨s.cfg.op.keyedHash, s.cfg.p1.keyedHashStart, s.cfg.slot.pinAttempt, []⟩ →
      (s.chip.budgetSpent s.cfg = false →
        ∃ t, exec (.transact s.cfg.op.keyedHash s.cfg.p1.keyedHashStart s.cfg.slot.pinAttempt [] .status .idle) s = .next t
          ∧ t.ctl.ending = .success (.bytes [0])
          ∧ t.chip.counter0 = s.chip.counter0 + 1 ∧ t.chip.slots = s.chip.slots
          ∧ ∀ msg, exec (.keyedHash s.cfg.slot.pinAttempt msg close) s = exec (.keyedHashEnd msg close) t)
      ∧ (s.chip.budgetSpent s.cfg = true → ∀ msg, refused (.keyedHash s.cfg.slot.pinAttempt msg close)))
end

