-- ==== Sys2Proof/Laws/Op.lean ====
section
/-! SUPPORT. How the pieces of an operation run, one equation each, and the two ways one is said to end: `Goes` (a result,
and a face) and `Fails` (an error outcome, and a face). -/

namespace Sys2Proof.Machine

/-! ### Pieces -/

@[simp] theorem pure_run {α : Type} (a : α) (s : State) : (pure a : Op α) s = .ok a s := rfl

@[simp] theorem bind_run {α β : Type} (x : Op α) (f : α → Op β) (s : State) :
    (x >>= f) s = match x s with
      | .ok a s' => f a s'
      | .error e s' => .error e s' := by
  simp only [bind, EStateM.bind]
  cases x s <;> rfl

@[simp] theorem raise_run {α : Type} (e : Err) (s : State) : (raise e : Op α) s = .error e s := rfl

@[simp] theorem getCfg_run (s : State) : getCfg s = .ok s.cfg s := rfl

@[simp] theorem getState_run (s : State) : getState s = .ok s s := rfl

@[simp] theorem modifyState_run (f : State → State) (s : State) : modifyState f s = .ok () (f s) := rfl

@[simp] theorem modifyReg_run (f : Regs → Regs) (s : State) :
    modifyReg f s = .ok () { s with reg := f s.reg } := rfl

/-- Reading a register that holds a value (R41). -/
theorem readHeld_held {held : Regs → Bool} {value : Regs → Bytes} {s : State} (h : held s.reg = true) :
    readHeld held value s = .ok (value s.reg) s := by simp only [readHeld, if_pos h]

/-- Reading one that holds none (R41, U1). -/
theorem readHeld_none {held : Regs → Bool} {value : Regs → Bytes} {s : State} (h : held s.reg = false) :
    readHeld held value s = .error .seFailure s.markUnmeant := by simp only [readHeld, h, Bool.false_eq_true, if_false]

theorem catching_ok {α : Type} {x : Op α} {h : Err → Op α} {s s' : State} {a : α} (hx : x s = .ok a s') :
    catching x h s = .ok a s' := by simp only [catching, hx]

theorem catching_stop {α : Type} {x : Op α} {h : Err → Op α} {s s' : State} {f : Fault}
    (hx : x s = .error (.stop f) s') : catching x h s = .error (.stop f) s' := by simp only [catching, hx]

theorem catching_error {α : Type} {x : Op α} {h : Err → Op α} {s s' : State} {e : Err} (hx : x s = .error e s')
    (he : ∀ f, e ≠ .stop f) : catching x h s = h e s' := by
  cases e with
  | stop f => exact absurd rfl (he f)
  | _ => simp only [catching, hx]

/-! ### Reaching a face -/

/-- `x` ends with the result `a` in a state with the face `f`. -/
def Goes {α : Type} (x : Op α) (s : State) (a : α) (f : Face) : Prop := ∃ t, x s = .ok a t ∧ t.face = f

/-- `x` ends with the error outcome `e` in a state with the face `f`. -/
def Fails {α : Type} (x : Op α) (s : State) (e : Err) (f : Face) : Prop := ∃ t, x s = .error e t ∧ t.face = f

theorem goes_pure {α : Type} (a : α) (s : State) : Goes (pure a) s a s.face := ⟨s, rfl, rfl⟩

theorem goes_bind {α β : Type} {x : Op α} {k : α → Op β} {s : State} {a : α} {b : β} {f g : Face}
    (hx : Goes x s a f) (hk : ∀ t, t.face = f → Goes (k a) t b g) : Goes (x >>= k) s b g := by
  obtain ⟨t, ht, hf⟩ := hx
  obtain ⟨u, hu, hg⟩ := hk t hf
  exact ⟨u, by rw [bind_run, ht]; exact hu, hg⟩

/-- What an operation has still to do, and the face of the state it is in by then. -/
def Reaches {α : Type} (x : Op α) (s : State) (rest : Op α) (f : Face) : Prop := ∃ t, x s = rest t ∧ t.face = f

theorem reaches_self {α : Type} (x : Op α) {s : State} {f : Face} (h : s.face = f) : Reaches x s x f := ⟨s, rfl, h⟩

theorem reaches_bind {α β : Type} {x : Op α} {k : α → Op β} {rest : Op β} {s : State} {a : α} {f g : Face}
    (hx : Goes x s a f) (hk : ∀ t, t.face = f → Reaches (k a) t rest g) : Reaches (x >>= k) s rest g := by
  obtain ⟨t, h, ht⟩ := hx
  obtain ⟨u, h', hu⟩ := hk t ht
  exact ⟨u, by rw [bind_run, h]; exact h', hu⟩

theorem goes_reached {α : Type} {x rest : Op α} {s : State} {a : α} {f g : Face} (hx : Reaches x s rest f)
    (hk : ∀ t, t.face = f → Goes rest t a g) : Goes x s a g := by
  obtain ⟨t, h, ht⟩ := hx
  obtain ⟨u, h', hu⟩ := hk t ht
  exact ⟨u, h.trans h', hu⟩

theorem fails_reached {α : Type} {x rest : Op α} {s : State} {e : Err} {f g : Face} (hx : Reaches x s rest f)
    (hk : ∀ t, t.face = f → Fails rest t e g) : Fails x s e g := by
  obtain ⟨t, h, ht⟩ := hx
  obtain ⟨u, h', hu⟩ := hk t ht
  exact ⟨u, h.trans h', hu⟩

theorem goes_face_eq {α : Type} {x : Op α} {s : State} {a : α} {f g : Face} (h : f = g) (hx : Goes x s a f) :
    Goes x s a g := h ▸ hx

theorem fails_face_eq {α : Type} {x : Op α} {s : State} {e : Err} {f g : Face} (h : f = g) (hx : Fails x s e f) :
    Fails x s e g := h ▸ hx

theorem fails_bind {α β : Type} {x : Op α} {k : α → Op β} {s : State} {e : Err} {f : Face}
    (hx : Fails x s e f) : Fails (x >>= k) s e f := by
  obtain ⟨t, ht, hf⟩ := hx
  exact ⟨t, by rw [bind_run, ht], hf⟩

theorem fails_after {α β : Type} {x : Op α} {k : α → Op β} {s : State} {a : α} {e : Err} {f g : Face}
    (hx : Goes x s a f) (hk : ∀ t, t.face = f → Fails (k a) t e g) : Fails (x >>= k) s e g := by
  obtain ⟨t, ht, hf⟩ := hx
  obtain ⟨u, hu, hg⟩ := hk t hf
  exact ⟨u, by rw [bind_run, ht]; exact hu, hg⟩

theorem goes_catching {α : Type} {x : Op α} {h : Err → Op α} {s : State} {a : α} {f : Face} (hx : Goes x s a f) :
    Goes (catching x h) s a f := by
  obtain ⟨t, ht, hf⟩ := hx
  exact ⟨t, catching_ok ht, hf⟩

theorem goes_caught {α : Type} {x : Op α} {h : Err → Op α} {s : State} {e : Err} {a : α} {f g : Face}
    (hx : Fails x s e f) (he : ∀ w, e ≠ .stop w) (hh : ∀ t, t.face = f → Goes (h e) t a g) :
    Goes (catching x h) s a g := by
  obtain ⟨t, ht, hf⟩ := hx
  obtain ⟨u, hu, hg⟩ := hh t hf
  exact ⟨u, by rw [catching_error ht he]; exact hu, hg⟩

theorem fails_caught {α : Type} {x : Op α} {h : Err → Op α} {s : State} {e e' : Err} {f g : Face}
    (hx : Fails x s e f) (he : ∀ w, e ≠ .stop w) (hh : ∀ t, t.face = f → Fails (h e) t e' g) :
    Fails (catching x h) s e' g := by
  obtain ⟨t, ht, hf⟩ := hx
  obtain ⟨u, hu, hg⟩ := hh t hf
  exact ⟨u, by rw [catching_error ht he]; exact hu, hg⟩

theorem goes_cfg (s : State) : Goes getCfg s s.face.cfg s.face := ⟨s, rfl, rfl⟩

theorem goes_modifyReg (m : Regs → Regs) (s : State) : Goes (modifyReg m) s () (s.face.withRegs (m s.face.reg)) :=
  ⟨{ s with reg := m s.reg }, rfl, rfl⟩

theorem fails_raise {α : Type} (e : Err) (s : State) : Fails (raise e : Op α) s e s.face := ⟨s, rfl, rfl⟩

/-- An operation that reaches a result is a next state with that ending. -/
theorem run_of_goes {α : Type} {x : Op α} {v : α → Value} {s : State} {a : α} {f : Face} (h : Goes x s a f) :
    ∃ t, run x v s = .next t ∧ t.face = f.ended (.success (v a)) := by
  obtain ⟨t, ht, rfl⟩ := h
  exact ⟨t.endWith (.success (v a)), by simp only [run, ht], rfl⟩

theorem run_of_fails {α : Type} {x : Op α} {v : α → Value} {s : State} {e : Err} {f : Face} (h : Fails x s e f) :
    ∃ t, run x v s = .next t ∧ t.face = f.ended (.error e) := by
  obtain ⟨t, ht, rfl⟩ := h
  exact ⟨t.endWith (.error e), by simp only [run, ht], rfl⟩

theorem runOrStop_of_goes {α : Type} {x : Op α} {v : α → Value} {s : State} {a : α} {f : Face} (h : Goes x s a f) :
    ∃ t, runOrStop x v s = .next t ∧ t.face = f.ended (.success (v a)) := by
  obtain ⟨t, ht, rfl⟩ := h
  exact ⟨t.endWith (.success (v a)), by simp only [runOrStop, ht], rfl⟩

theorem runOrStop_of_fails {α : Type} {x : Op α} {v : α → Value} {s : State} {e : Err} {f : Face}
    (h : Fails x s e f) (he : ∀ w, e ≠ .stop w) :
    ∃ t, runOrStop x v s = .next t ∧ t.face = f.ended (.error e) := by
  obtain ⟨t, ht, rfl⟩ := h
  refine ⟨t.endWith (.error e), ?_, rfl⟩
  cases e with
  | stop f => exact absurd rfl (he f)
  | _ => simp only [runOrStop, ht]

/-! ### Keeping a property -/

/-- Whatever way `x` ends, it ends in a state that `x` relates to the one it began in. -/
def Relates {α : Type} (R : State → State → Prop) (x : Op α) : Prop :=
  ∀ s, (∀ a t, x s = .ok a t → R s t) ∧ (∀ e t, x s = .error e t → R s t)

theorem relates_pure {α : Type} {R : State → State → Prop} (hr : ∀ s, R s s) (a : α) : Relates R (pure a : Op α) :=
  fun s => ⟨fun _ _ h => (by cases h; exact hr s), fun _ _ h => (by cases h)⟩

theorem relates_raise {α : Type} {R : State → State → Prop} (hr : ∀ s, R s s) (e : Err) :
    Relates R (raise e : Op α) :=
  fun s => ⟨fun _ _ h => (by cases h), fun _ _ h => by cases h; exact hr s⟩

theorem relates_bind {α β : Type} {R : State → State → Prop} (ht : ∀ s t u, R s t → R t u → R s u) {x : Op α}
    {k : α → Op β} (hx : Relates R x) (hk : ∀ a, Relates R (k a)) : Relates R (x >>= k) := by
  intro s
  rw [bind_run]
  cases hxs : x s with
  | ok a t =>
    exact ⟨fun b u h => ht s t u ((hx s).1 a t hxs) ((hk a t).1 b u h),
      fun e u h => ht s t u ((hx s).1 a t hxs) ((hk a t).2 e u h)⟩
  | error e t =>
    exact ⟨fun _ _ h => (by cases h), fun _ _ h => by cases h; exact (hx s).2 e t hxs⟩

theorem relates_catching {α : Type} {R : State → State → Prop} (ht : ∀ s t u, R s t → R t u → R s u) {x : Op α}
    {h : Err → Op α} (hx : Relates R x) (hh : ∀ e, Relates R (h e)) : Relates R (catching x h) := by
  intro s
  cases hxs : x s with
  | ok a t =>
    rw [catching_ok hxs]
    exact ⟨fun _ _ h => (by cases h; exact (hx s).1 a t hxs), fun _ _ h => by cases h⟩
  | error e t =>
    by_cases he : ∃ f, e = .stop f
    · obtain ⟨f, rfl⟩ := he
      rw [catching_stop hxs]
      exact ⟨fun _ _ h => (by cases h), fun _ _ h => by cases h; exact (hx s).2 _ t hxs⟩
    · rw [catching_error hxs (fun f hf => he ⟨f, hf⟩)]
      exact ⟨fun a u h => ht s t u ((hx s).2 e t hxs) ((hh e t).1 a u h),
        fun e' u h => ht s t u ((hx s).2 e t hxs) ((hh e t).2 e' u h)⟩

theorem relates_modify {R : State → State → Prop} {f : State → State} (hf : ∀ s, R s (f s)) :
    Relates R (modifyState f) :=
  fun s => ⟨fun _ _ h => (by cases h; exact hf s), fun _ _ h => (by cases h)⟩

theorem relates_read {α : Type} {R : State → State → Prop} (hr : ∀ s, R s s) (f : State → α) :
    Relates R (fun s => .ok (f s) s : Op α) :=
  fun s => ⟨fun _ _ h => (by cases h; exact hr s), fun _ _ h => (by cases h)⟩

/-! ### Which error outcomes an operation can end in -/

/-- `x` raises no error outcome outside `E`. -/
def Raises {α : Type} (E : Err → Prop) (x : Op α) : Prop := ∀ s e t, x s = .error e t → E e

theorem raises_pure {α : Type} {E : Err → Prop} (a : α) : Raises E (pure a : Op α) := fun _ _ _ h => by cases h

theorem raises_raise {α : Type} {E : Err → Prop} {e : Err} (he : E e) : Raises E (raise e : Op α) :=
  fun _ _ _ h => by cases h; exact he

theorem raises_bind {α β : Type} {E : Err → Prop} {x : Op α} {k : α → Op β} (hx : Raises E x)
    (hk : ∀ a, Raises E (k a)) : Raises E (x >>= k) := by
  intro s e u h
  rw [bind_run] at h
  cases hxs : x s with
  | ok a t => rw [hxs] at h; exact hk a t e u h
  | error e' t => rw [hxs] at h; cases h; exact hx s _ _ hxs

theorem raises_catching {α : Type} {E E' : Err → Prop} {x : Op α} {h : Err → Op α} (hx : Raises E' x)
    (hs : ∀ f, E' (.stop f) → E (.stop f)) (hh : ∀ e, (∀ f, e ≠ .stop f) → E' e → Raises E (h e)) :
    Raises E (catching x h) := by
  intro s e u hu
  cases hxs : x s with
  | ok a t => rw [catching_ok hxs] at hu; cases hu
  | error e' t =>
    by_cases he : ∃ f, e' = .stop f
    · obtain ⟨f, rfl⟩ := he
      rw [catching_stop hxs] at hu
      cases hu
      exact hs f (hx s _ _ hxs)
    · have hne : ∀ f, e' ≠ .stop f := fun f hf => he ⟨f, hf⟩
      rw [catching_error hxs hne] at hu
      exact hh e' hne (hx s _ _ hxs) t e u hu

theorem raises_weaken {α : Type} {E E' : Err → Prop} {x : Op α} (hx : Raises E x) (h : ∀ e, E e → E' e) :
    Raises E' x := fun s e t he => h e (hx s e t he)

end Sys2Proof.Machine
end

