-- ==== Sys2Proof/Laws/Hoare.lean ====
section
/-! SUPPORT. What an operation guarantees of the state it ends in, whichever way it ends, and what every operation above the
sequencer keeps if a transaction keeps it. -/

namespace Sys2Proof.Machine

/-- From a state with `P`, `x` ends with a result and a state that `Q` admits, or an error outcome and a state that `E`
admits. -/
def Triple {α : Type} (P : State → Prop) (x : Op α) (Q : α → State → Prop) (E : Err → State → Prop) : Prop :=
  ∀ s, P s → (∀ a t, x s = .ok a t → Q a t) ∧ (∀ e t, x s = .error e t → E e t)

section rules
variable {α β : Type} {P P' : State → Prop} {E E' : Err → State → Prop}

theorem triple_pure {a : α} {Q : α → State → Prop} (h : ∀ s, P s → Q a s) : Triple P (pure a) Q E :=
  fun s hs => ⟨fun _ _ e => (by cases e; exact h s hs), fun _ _ e => by cases e⟩

theorem triple_raise {e : Err} {Q : α → State → Prop} (h : ∀ s, P s → E e s) : Triple P (raise e : Op α) Q E :=
  fun s hs => ⟨fun _ _ e => (by cases e), fun _ _ e => by cases e; exact h s hs⟩

theorem triple_bind {x : Op α} {k : α → Op β} {Q : α → State → Prop} {Q' : β → State → Prop} (hx : Triple P x Q E)
    (hk : ∀ a, Triple (Q a) (k a) Q' E) : Triple P (x >>= k) Q' E := by
  intro s hs
  rw [bind_run]
  cases hxs : x s with
  | ok a t => exact hk a t ((hx s hs).1 a t hxs)
  | error e t => exact ⟨fun _ _ h => (by cases h), fun _ _ h => by cases h; exact (hx s hs).2 e t hxs⟩

theorem triple_run {x : Op α} {Q : α → State → Prop} (f : State → α) (g : State → State) (hx : ∀ s, x s = .ok (f s) (g s))
    (h : ∀ s, P s → Q (f s) (g s)) : Triple P x Q E :=
  fun s hs => ⟨fun _ _ e => (by rw [hx] at e; cases e; exact h s hs), fun _ _ e => by rw [hx] at e; cases e⟩

theorem triple_modifyReg {f : Regs → Regs} {Q : Unit → State → Prop} (h : ∀ s, P s → Q () { s with reg := f s.reg }) :
    Triple P (modifyReg f) Q E := triple_run (fun _ => ()) _ (fun _ => rfl) h

theorem triple_getCfg {Q : Config.Params → State → Prop} (h : ∀ s, P s → Q s.cfg s) : Triple P getCfg Q E :=
  triple_run _ _ (fun _ => rfl) h

theorem triple_ite {p : Prop} [Decidable p] {x y : Op α} {Q : α → State → Prop} (hx : p → Triple P x Q E)
    (hy : ¬ p → Triple P y Q E) : Triple P (if p then x else y) Q E := by
  split
  · exact hx ‹_›
  · exact hy ‹_›

theorem triple_conseq {x : Op α} {Q Q' : α → State → Prop} (hx : Triple P x Q E) (hP : ∀ s, P' s → P s)
    (hQ : ∀ a s, Q a s → Q' a s) (hE : ∀ e s, E e s → E' e s) : Triple P' x Q' E' :=
  fun s hs => ⟨fun a t h => hQ a t ((hx s (hP s hs)).1 a t h), fun e t h => hE e t ((hx s (hP s hs)).2 e t h)⟩

/-- What held of the state before an operation that the precondition fixes. -/
theorem triple_pre {x : Op α} {Q : α → State → Prop} (h : ∀ s, P s → Triple (· = s) x Q E) : Triple P x Q E :=
  fun s hs => h s hs s rfl

theorem triple_catching {x : Op α} {h : Err → Op α} {Q : α → State → Prop} (hx : Triple P x Q E')
    (hs : ∀ f s, E' (.stop f) s → E (.stop f) s)
    (hh : ∀ e, (∀ f, e ≠ .stop f) → Triple (E' e) (h e) Q E) : Triple P (catching x h) Q E := by
  intro s hs'
  cases hxs : x s with
  | ok a t =>
    rw [catching_ok hxs]
    exact ⟨fun _ _ e => (by cases e; exact (hx s hs').1 a t hxs), fun _ _ e => by cases e⟩
  | error e t =>
    by_cases he : ∃ f, e = .stop f
    · obtain ⟨f, rfl⟩ := he
      rw [catching_stop hxs]
      exact ⟨fun _ _ e => (by cases e), fun _ _ e => by cases e; exact hs f t ((hx s hs').2 _ t hxs)⟩
    · have hne : ∀ f, e ≠ .stop f := fun f hf => he ⟨f, hf⟩
      rw [catching_error hxs hne]
      exact hh e hne t ((hx s hs').2 e t hxs)

end rules

/-- The payload of an accepted transaction has the length expected. -/
def Expect.long (e : Expect) (p : Bytes) : Prop := ∀ n, e = .data n → p.length = n

/-- Every command admitted. -/
def AnyCommand (_ : Config.Params) (_ : Byte) (_ : Word16) : Prop := True

/-- A property that the transactions `A` admits keep, those of `plainOps` among them, and every write of a register that
the operations above the sequencer make; `W` says whether widths matter to it. -/
structure Keeps (W : Prop) (A : Config.Params → Byte → Word16 → Prop) (J : State → Prop) : Prop where
  plain : ∀ s o q, J s → o ∈ plainOps s.cfg → A s.cfg o q
  wide : W → ∀ s, J s → s.cfg.wf = true ∧ s.cfg.layout.wf = true ∧ s.reg.record.length = 276
  transact : ∀ o p q d e c, (W → d.length ≤ 248) →
    Triple (fun s => J s ∧ A s.cfg o q) (transact o p q d e c) (fun r t => J t ∧ Expect.long e r)
      (fun x t => J t ∧ ∀ f, x ≠ .stop f)
  env : ∀ s (e : Env), J s → J { s with env := e }
  tk : ∀ s v, (W → v.length = 32) → J s → J { s with reg := { s.reg with tk := v, tkValid := true } }
  clear : ∀ s, J s → J { s with reg := { s.reg with tkValid := false } }
  digest : ∀ s v, (W → v.length = 32) → J s → J { s with reg := { s.reg with digest := v, digestHeld := true } }
  cache : ∀ s v, (W → v.length = 32) → J s → J { s with reg := { s.reg with cache := v, cacheHeld := true } }
  record : ∀ s v, (W → v.length = 276) → J s → J { s with reg := { s.reg with record := v, recHeld := true } }

variable {W : Prop} {A : Config.Params → Byte → Word16 → Prop} {J : State → Prop}

/-- How an operation of the session layer ends in error: `SeFailure`, TempKey's copy without a value (R138, R153). -/
def SessionFail (J : State → Prop) (e : Err) (t : State) : Prop := J t ∧ e = .seFailure ∧ t.reg.tkValid = false

/-- How one of the sequencer's operations ends in error: not in a stop. -/
def LinkFail (J : State → Prop) (e : Err) (t : State) : Prop := J t ∧ ∀ f, e ≠ .stop f

theorem triple_cfg_transact {α : Type} (hJ : Keeps W A J) (o p : Config.Params → Byte) (q : Config.Params → Word16)
    (d : Bytes)
    (e : Config.Params → Expect) (c : Close) (f : Bytes → α) (hA : ∀ s, J s → A s.cfg (o s.cfg) (q s.cfg))
    (h : W → d.length ≤ 248) :
    Triple J (do
      let x ← getCfg
      let r ← transact (o x) (p x) (q x) d (e x) c
      pure (f r)) (fun _ t => J t) (LinkFail J) := by
  refine triple_bind (Q := fun x s => J s ∧ x = s.cfg) (triple_getCfg (fun s hs => ⟨hs, rfl⟩)) (fun x => ?_)
  refine triple_pre (fun s hs => ?_)
  have ht := hJ.transact (o x) (p x) (q x) d (e x) c h
  refine triple_conseq (triple_bind ht (fun r => triple_pure (Q := fun _ t => J t) (fun t ht => ht.1))) (fun t ht => ?_)
    (fun _ _ h => h) (fun _ _ h => h)
  rw [ht, hs.2]; exact ⟨hs.1, hA s hs.1⟩

/-- A command of `plainOps`. -/
theorem triple_plain_transact {α : Type} (hJ : Keeps W A J) (o p : Config.Params → Byte) (q : Config.Params → Word16)
    (d : Bytes)
    (e : Config.Params → Expect) (c : Close) (f : Bytes → α) (ho : ∀ x, o x ∈ plainOps x)
    (h : W → d.length ≤ 248) :
    Triple J (do
      let x ← getCfg
      let r ← transact (o x) (p x) (q x) d (e x) c
      pure (f r)) (fun _ t => J t) (LinkFail J) :=
  triple_cfg_transact hJ o p q d e c f (fun s hs => hJ.plain s _ _ hs (ho _)) h

theorem triple_data_transact (hJ : Keeps W A J) (o p : Config.Params → Byte) (q : Config.Params → Word16) (d : Bytes)
    (n : Nat) (c : Close) (ho : ∀ x, o x ∈ plainOps x) (h : W → d.length ≤ 248) :
    Triple J (do
      let x ← getCfg
      transact (o x) (p x) (q x) d (.data n) c) (fun r t => J t ∧ r.length = n) (LinkFail J) := by
  refine triple_bind (Q := fun x s => J s ∧ x = s.cfg) (triple_getCfg (fun s hs => ⟨hs, rfl⟩)) (fun x => ?_)
  refine triple_pre (fun s hs => ?_)
  exact triple_conseq (hJ.transact (o x) (p x) (q x) _ _ _ h)
    (fun t ht => by rw [ht, hs.2]; exact ⟨hs.1, hJ.plain s _ _ hs.1 (ho _)⟩)
    (fun _ _ h => ⟨h.1, h.2 n rfl⟩) (fun _ _ h => h)

theorem triple_nonce (hJ : Keeps W A J) (n : Bytes) (c : Close) (h : W → n.length ≤ 248) :
    Triple J (nonce n c) (fun r t => J t ∧ r.length = 32) (LinkFail J) :=
  triple_data_transact hJ _ _ (fun _ => 0) n 32 c (by simp [plainOps]) h
theorem triple_read (hJ : Keeps W A J) (sl : SlotId) (b : Nat) (c : Close) :
    Triple J (read sl b c) (fun r t => J t ∧ r.length = 32) (LinkFail J) :=
  triple_data_transact hJ _ _ _ [] 32 c (by simp [plainOps]) (fun _ => Nat.zero_le _)
theorem triple_macGen (hJ : Keeps W A J) (k : SlotId) (c : Close) :
    Triple J (macGen k c) (fun r t => J t ∧ r.length = 32) (LinkFail J) :=
  triple_data_transact hJ _ _ (fun _ => k) [] 32 c (by simp [plainOps]) (fun _ => Nat.zero_le _)
theorem triple_keyedHashEnd (hJ : Keeps W A J) (m : Bytes) (c : Close) (h : W → m.length ≤ 248) :
    Triple J (keyedHashEnd m c) (fun r t => J t ∧ r.length = 32) (LinkFail J) :=
  triple_data_transact hJ _ _ (fun _ => 32) m 32 c (by simp [plainOps]) h
theorem triple_info (hJ : Keeps W A J) (c : Close) :
    Triple J (info c) (fun _ t => J t) (LinkFail J) := by
  refine triple_bind (Q := fun x s => J s ∧ x = s.cfg) (triple_getCfg (fun s hs => ⟨hs, rfl⟩)) (fun x => ?_)
  refine triple_pre (fun s hs => ?_)
  refine triple_conseq (hJ.transact _ _ _ _ _ _ (fun _ => Nat.zero_le _))
    (fun t ht => by rw [ht, hs.2]; exact ⟨hs.1, hJ.plain s _ _ hs.1 (by simp [plainOps])⟩) (fun _ _ h => h.1) (fun _ _ h => h)

theorem triple_counterRead (hJ : Keeps W A J) (c : Close) : Triple J (counterRead c) (fun _ t => J t) (LinkFail J) :=
  triple_plain_transact hJ _ _ _ [] (fun _ => .data 4) c le32 (by simp [plainOps]) (fun _ => Nat.zero_le _)
theorem triple_counterIncr (hJ : Keeps W A J) (c : Close) : Triple J (counterIncr c) (fun _ t => J t) (LinkFail J) :=
  triple_plain_transact hJ _ _ _ [] (fun _ => .data 4) c le32 (by simp [plainOps]) (fun _ => Nat.zero_le _)
theorem triple_write (hJ : Keeps W A J) (sl : SlotId) (b : Nat) (d : Bytes) (c : Close) (h : W → d.length ≤ 248)
    (hA : ∀ s, J s → A s.cfg s.cfg.op.write (p2Addr s.cfg sl b)) :
    Triple J (write sl b d c) (fun _ t => J t) (LinkFail J) :=
  triple_cfg_transact hJ _ _ _ d (fun _ => .status) c (fun _ => ()) hA h
theorem triple_writeMac (hJ : Keeps W A J) (sl : SlotId) (b : Nat) (d m : Bytes) (c : Close)
    (h : W → (d ++ m).length ≤ 248) (hA : ∀ s, J s → A s.cfg s.cfg.op.write (p2Addr s.cfg sl b)) :
    Triple J (writeMac sl b d m c) (fun _ t => J t) (LinkFail J) :=
  triple_cfg_transact hJ _ _ _ (d ++ m) (fun _ => .status) c (fun _ => ()) hA h
theorem triple_genDig (hJ : Keeps W A J) (sl : SlotId) (c : Close) : Triple J (genDig sl c) (fun _ t => J t) (LinkFail J) :=
  triple_plain_transact hJ _ _ (fun _ => sl) [] (fun _ => .status) c (fun _ => ()) (by simp [plainOps]) (fun _ => Nat.zero_le _)
theorem triple_genDigCounter (hJ : Keeps W A J) (sl : SlotId) (c : Close) :
    Triple J (genDigCounter sl c) (fun _ t => J t) (LinkFail J) :=
  triple_plain_transact hJ _ _ (fun _ => sl) [] (fun _ => .status) c (fun _ => ()) (by simp [plainOps]) (fun _ => Nat.zero_le _)
theorem triple_checkMac (hJ : Keeps W A J) (k : SlotId) (b : Bytes) (c : Close) (h : W → b.length ≤ 248) :
    Triple J (checkMac k b c) (fun _ t => J t) (LinkFail J) :=
  triple_plain_transact hJ _ _ (fun _ => k) b (fun _ => .status) c (fun _ => ()) (by simp [plainOps]) h
theorem triple_selfTest (hJ : Keeps W A J) (c : Close) : Triple J (selfTest c) (fun _ t => J t) (LinkFail J) :=
  triple_plain_transact hJ _ _ (fun _ => 0) [] (fun _ => .status) c (fun _ => ()) (by simp [plainOps]) (fun _ => Nat.zero_le _)
theorem triple_lock (hJ : Keeps W A J) (p : Byte) (q : Word16) (c : Close) :
    Triple J (lock p q c) (fun _ t => J t) (LinkFail J) :=
  triple_plain_transact hJ _ (fun _ => p) (fun _ => q) [] (fun _ => .status) c (fun _ => ())
    (by simp [plainOps]) (fun _ => Nat.zero_le _)
theorem triple_keyedHash (hJ : Keeps W A J) (k : SlotId) (m : Bytes) (c : Close) (h : W → m.length ≤ 248) :
    Triple J (keyedHash k m c) (fun r t => J t ∧ r.length = 32) (LinkFail J) :=
  triple_bind (triple_plain_transact hJ _ _ (fun _ => k) [] (fun _ => .status) .idle (fun _ => ())
    (by simp [plainOps]) (fun _ => Nat.zero_le _)) (fun _ => triple_keyedHashEnd hJ m c h)

/-! ### Sessions -/

theorem triple_seCall {α : Type} (hJ : Keeps W A J) {x : Op α} {Q : α → State → Prop} {E : Err → State → Prop}
    (hx : Triple J x Q E) (hE : ∀ e t, E e t → LinkFail J e t) : Triple J (seCall x) Q (SessionFail J) := by
  refine triple_catching hx (fun f s h => absurd rfl ((hE _ _ h).2 f)) (fun e _ => ?_)
  refine triple_bind (Q := fun _ t => J t ∧ t.reg.tkValid = false) (triple_modifyReg (fun s hs => ⟨hJ.clear s (hE _ _ hs).1, rfl⟩))
    (fun _ => triple_raise (fun s hs => ⟨hs.1, rfl, hs.2⟩))

theorem link_of_session (e : Err) (t : State) (h : SessionFail J e t) : LinkFail J e t :=
  ⟨h.1, fun f hf => by rw [h.2.1] at hf; cases hf⟩

theorem triple_seLink {α : Type} (hJ : Keeps W A J) {x : Op α} {Q : α → State → Prop} (hx : Triple J x Q (LinkFail J)) :
    Triple J (seCall x) Q (SessionFail J) := triple_seCall hJ hx (fun _ _ h => h)

theorem triple_seSession {α : Type} (hJ : Keeps W A J) {x : Op α} {Q : α → State → Prop} (hx : Triple J x Q (SessionFail J)) :
    Triple J (seCall x) Q (SessionFail J) := triple_seCall hJ hx link_of_session

theorem triple_rand (hJ : Keeps W A J) {E : Err → State → Prop} (n : Nat) :
    Triple J (rand n) (fun r t => J t ∧ r.length = n) E :=
  triple_run _ _ (fun _ => rfl) (fun s hs => ⟨hJ.env s _ hs, by
    generalize s.env.rand = d
    clear hs
    induction n generalizing d with
    | zero => rfl
    | succ n ih => simp only [Draws.nextMany, List.length_cons, ih]⟩)

theorem triple_clear (hJ : Keeps W A J) {E : Err → State → Prop} : Triple J clearTkValid (fun _ t => J t) E :=
  triple_modifyReg (fun s hs => hJ.clear s hs)

/-- Writing TempKey's copy and reading it back. -/
theorem triple_setTk (hJ : Keeps W A J) (v : Bytes) (hv : v.length = 32) {E : Err → State → Prop} :
    Triple J (do writeTk v; readTk) (fun r t => J t ∧ r.length = 32) E :=
  triple_run (fun _ => v) (fun s => { s with reg := { s.reg with tk := v, tkValid := true } }) (fun _ => rfl)
    (fun s hs => ⟨hJ.tk s v (fun _ => hv) hs, hv⟩)

theorem len_sha (b : Bytes) : (sha256 b).length = 32 := List.length_ofFn ..

theorem triple_pickNonce (hJ : Keeps W A J) (n : Bytes) (h : W → n.length ≤ 248) :
    Triple J (pickNonce n) (fun r t => J t ∧ r.length = 32) (SessionFail J) :=
  triple_bind (Q := fun _ t => J t) (triple_conseq (triple_seLink hJ (triple_nonce hJ n .idle h)) (fun _ h => h)
    (fun _ _ h => h.1) (fun _ _ h => h)) (fun _ => triple_setTk hJ _ (len_sha _))

theorem triple_freshNonce (hJ : Keeps W A J) : Triple J freshNonce (fun r t => J t ∧ r.length = 32) (SessionFail J) :=
  triple_bind (triple_rand hJ 20) (fun r => triple_pre (fun s hs =>
    triple_conseq (triple_seSession hJ (triple_pickNonce hJ r (fun _ => by rw [hs.2]; omega)))
      (fun t ht => by rw [ht]; exact hs.1) (fun _ _ h => h) (fun _ _ h => h)))

theorem triple_gendigSlot (hJ : Keeps W A J) (sl : SlotId) (p : Bytes) :
    Triple J (gendigSlot sl p) (fun r t => J t ∧ r.length = 32) (SessionFail J) :=
  triple_bind (Q := fun _ t => J t) (triple_conseq (triple_freshNonce hJ) (fun _ h => h) (fun _ _ h => h.1) (fun _ _ h => h))
    (fun _ => triple_bind (triple_seLink hJ (triple_genDig hJ sl .idle)) (fun _ => triple_setTk hJ _ (len_sha _)))

theorem triple_gendigCounter (hJ : Keeps W A J) (v : Word32) :
    Triple J (gendigCounter v) (fun r t => J t ∧ r.length = 32) (SessionFail J) :=
  triple_bind (Q := fun _ t => J t) (triple_conseq (triple_freshNonce hJ) (fun _ h => h) (fun _ _ h => h.1) (fun _ _ h => h))
    (fun _ => triple_bind (Q := fun _ t => J t) (triple_getCfg (fun _ h => h)) (fun _ =>
      triple_bind (triple_seLink hJ (triple_genDigCounter hJ _ .idle)) (fun _ => triple_setTk hJ _ (len_sha _))))

theorem triple_isCorrectTempkey (hJ : Keeps W A J) (d : Bytes) :
    Triple J (isCorrectTempkey d) (fun _ t => J t) (SessionFail J) :=
  triple_bind (triple_clear hJ) (fun _ => triple_bind (Q := fun _ t => J t) (triple_getCfg (fun _ h => h)) (fun _ =>
    triple_bind (triple_seLink hJ (triple_macGen hJ _ .idle)) (fun _ => triple_pure (fun _ h => h.1))))

theorem triple_checkmac (hJ : Keeps W A J) (k : SlotId) (b : Bytes) :
    Triple J (checkmac k b) (fun _ t => J t) (SessionFail J) :=
  triple_bind (Q := fun _ t => J t) (triple_conseq (triple_freshNonce hJ) (fun _ h => h) (fun _ _ h => h.1) (fun _ _ h => h))
    (fun _ => triple_bind (triple_rand hJ 13) (fun od => triple_pre (fun s hs => triple_conseq
      (P := J) (Q := fun _ t => J t) (E := SessionFail J)
      (triple_bind (triple_clear hJ) (fun _ => triple_seLink hJ (triple_checkMac hJ _ _ .idle (fun _ => by
        simp only [checkMacBody, List.length_append, zeros, List.length_replicate, Config.blockLen, len_sha, hs.2]; omega))))
      (fun t ht => by rw [ht]; exact hs.1) (fun _ _ h => h) (fun _ _ h => h))))

theorem triple_pairUnlock (hJ : Keeps W A J) : Triple J pairUnlock (fun _ t => J t) (SessionFail J) :=
  triple_bind (Q := fun _ t => J t) (triple_getCfg (fun _ h => h)) (fun _ => triple_seSession hJ (triple_checkmac hJ _ _))

theorem triple_requireTempkey (hJ : Keeps W A J) (d : Bytes) : Triple J (requireTempkey d) (fun _ t => J t) (SessionFail J) :=
  triple_bind (triple_seSession hJ (triple_isCorrectTempkey hJ d)) (fun _ => triple_ite (fun _ => triple_pure (fun _ h => h))
    (fun _ => triple_bind (Q := fun _ t => J t ∧ t.reg.tkValid = false) (triple_modifyReg (fun s hs => ⟨hJ.clear s hs, rfl⟩))
      (fun _ => triple_raise (fun _ h => ⟨h.1, rfl, h.2⟩))))

theorem triple_weak {α : Type} {x : Op α} {P : α → Prop} {E : Err → State → Prop}
    (h : Triple J x (fun a t => J t ∧ P a) E) : Triple J x (fun _ t => J t) E :=
  triple_conseq h (fun _ h => h) (fun _ _ h => h.1) (fun _ _ h => h)

theorem triple_readBlocks (hJ : Keeps W A J) (sl a : SlotId) (k : Bytes) (b n : Nat) :
    Triple J (readBlocks sl a k b n) (fun _ t => J t) (SessionFail J) := by
  induction n generalizing b with
  | zero => exact triple_pure (fun _ h => h)
  | succ n ih =>
    exact triple_bind (triple_seSession hJ (triple_pairUnlock hJ)) (fun _ =>
      triple_bind (triple_weak (triple_seSession hJ (triple_gendigSlot hJ _ _))) (fun _ =>
      triple_bind (triple_weak (triple_seLink hJ (triple_read hJ _ _ _))) (fun _ =>
      triple_bind (triple_clear hJ) (fun _ => triple_bind (ih (b + 1)) (fun _ => triple_pure (fun _ h => h))))))

theorem triple_encryptedRead (hJ : Keeps W A J) (sl a : SlotId) (k : Bytes) (n : Nat) :
    Triple J (encryptedRead sl a k n) (fun _ t => J t) (SessionFail J) :=
  triple_bind (triple_readBlocks hJ _ _ _ _ _) (fun _ => triple_pure (fun _ h => h))

theorem triple_writeBlocks (hJ : Keeps W A J) (sl a : SlotId) (k : Bytes) (b n : Nat) (d : Bytes)
    (hA : ∀ s i, J s → b ≤ i → i < b + n → A s.cfg s.cfg.op.write (p2Addr s.cfg sl i)) :
    Triple J (writeBlocks sl a k b n d) (fun _ t => J t) (SessionFail J) := by
  induction n generalizing b d with
  | zero => exact triple_pure (fun _ h => h)
  | succ n ih =>
    refine triple_bind (triple_seSession hJ (triple_pairUnlock hJ)) (fun _ =>
      triple_bind (triple_weak (triple_seSession hJ (triple_gendigSlot hJ _ _))) (fun _ =>
      triple_bind (Q := fun _ t => J t) (triple_getCfg (fun _ h => h)) (fun _ =>
      triple_bind (triple_clear hJ) (fun _ =>
      triple_bind (triple_seLink hJ (triple_writeMac hJ _ _ _ _ _ (fun _ => ?_) (fun s hs => hA s b hs (by omega) (by omega))))
        (fun _ => ih _ _ (fun s i hs h1 h2 => hA s i hs (by omega) (by omega)))))))
    simp only [List.length_append, len_sha, xorBytes, List.length_zipWith, List.length_take, Config.blockLen]
    omega

theorem triple_encryptedWrite (hJ : Keeps W A J) (sl a : SlotId) (k d : Bytes)
    (hA : ∀ s i, J s → i < d.length / 32 → A s.cfg s.cfg.op.write (p2Addr s.cfg sl i)) :
    Triple J (encryptedWrite sl a k d) (fun _ t => J t) (SessionFail J) :=
  triple_writeBlocks hJ _ _ _ _ _ _ (fun s i hs _ h => hA s i hs (by rwa [Nat.zero_add] at h))

theorem triple_mixin (hJ : Keeps W A J) (k : SlotId) (b : Bytes) (h : W → b.length ≤ 248) :
    Triple J (mixin k b) (fun r t => J t ∧ r.length = 32) (SessionFail J) :=
  triple_bind (triple_seSession hJ (triple_pairUnlock hJ)) (fun _ =>
    triple_bind (Q := fun _ t => J t) (triple_getCfg (fun _ h => h)) (fun _ => triple_ite
      (fun _ => triple_pure (fun _ h => ⟨h, len_sha _⟩)) (fun _ =>
      triple_bind (triple_seLink hJ (triple_keyedHash hJ _ _ _ h)) (fun _ => triple_pure (fun _ h => ⟨h.1, len_sha _⟩)))))

theorem triple_stretch (hJ : Keeps W A J) (v : Bytes) (n : Nat) (h : W → v.length ≤ 248) :
    Triple J (stretch v n) (fun r t => J t ∧ (W → r.length ≤ 248)) (SessionFail J) := by
  induction n generalizing v with
  | zero => exact triple_pure (fun _ hs => ⟨hs, h⟩)
  | succ n ih =>
    refine triple_bind (triple_seSession hJ (triple_pairUnlock hJ)) (fun _ =>
      triple_bind (Q := fun _ t => J t) (triple_getCfg (fun _ h => h)) (fun _ =>
      triple_bind (triple_seLink hJ (triple_keyedHash hJ _ _ _ h)) (fun r => triple_pre (fun s hs =>
        triple_conseq (ih r (fun _ => by rw [hs.2]; omega)) (fun t ht => by rw [ht]; exact hs.1) (fun _ _ h => h)
          (fun _ _ h => h)))))

theorem triple_authReadSlot (hJ : Keeps W A J) (sl : SlotId) :
    Triple J (authReadSlot sl) (fun _ t => J t) (SessionFail J) :=
  triple_bind (triple_seSession hJ (triple_pairUnlock hJ)) (fun _ =>
    triple_bind (triple_weak (triple_seLink hJ (triple_read hJ _ _ _))) (fun _ =>
    triple_bind (triple_weak (triple_seSession hJ (triple_gendigSlot hJ _ _))) (fun _ =>
    triple_bind (triple_requireTempkey hJ _) (fun _ => triple_pure (fun _ h => h)))))

theorem triple_authReadCounter (hJ : Keeps W A J) : Triple J authReadCounter (fun _ t => J t) (SessionFail J) :=
  triple_bind (triple_seSession hJ (triple_pairUnlock hJ)) (fun _ =>
    triple_bind (triple_seLink hJ (triple_counterRead hJ _)) (fun _ =>
    triple_bind (triple_weak (triple_seSession hJ (triple_gendigCounter hJ _))) (fun _ =>
    triple_bind (triple_requireTempkey hJ _) (fun _ => triple_pure (fun _ h => h)))))

theorem triple_incrLoop (hJ : Keeps W A J) (n : Nat) (v : Word32) :
    Triple J (incrLoop n v) (fun _ t => J t) (SessionFail J) := by
  induction n generalizing v with
  | zero => exact triple_pure (fun _ h => h)
  | succ n ih => exact triple_bind (triple_seLink hJ (triple_counterIncr hJ _)) (fun v => ih v)

theorem triple_addCounter (hJ : Keeps W A J) (n : Nat) : Triple J (addCounter n) (fun _ t => J t) (SessionFail J) :=
  triple_bind (triple_seSession hJ (triple_pairUnlock hJ)) (fun _ =>
    triple_bind (triple_incrLoop hJ _ _) (fun _ =>
    triple_bind (triple_weak (triple_seSession hJ (triple_gendigCounter hJ _))) (fun _ =>
    triple_bind (triple_requireTempkey hJ _) (fun _ => triple_pure (fun _ h => h)))))

end Sys2Proof.Machine
end

