-- ==== Sys2Proof/Laws/HoarePin.lean ====
section
/-! SUPPORT. What the PinEngine's operations keep, and the one stop they can end in (spec/44_pinengine.md R163 to R174,
spec/10_state.md R41). -/

namespace Sys2Proof.Machine

open Sys2Proof.Config (Params FieldLoc Layout)

/-- A property kept as `Keeps` says, which holds only where `REC` holds a record. -/
structure KeepsRec (W : Prop) (A : Params → Byte → Word16 → Prop) (J : State → Prop) : Prop extends Keeps W A J where
  held : ∀ s, J s → s.reg.recHeld = true

variable {W : Prop} {A : Params → Byte → Word16 → Prop} {J : State → Prop}

/-- How a PinEngine operation ends in error: in a stop only if `B`. -/
def PinFail (B : Prop) (J : State → Prop) (e : Err) (t : State) : Prop := J t ∧ ∀ f, e = .stop f → B

/-- A counter read gave a value whose update does not fit its 32 bits, from a state with `J` (R174). -/
def Overspent (J : State → Prop) : Prop :=
  ∃ s u v w, J s ∧ J u ∧ authReadCounter u = .ok v w ∧ budgetFits s.cfg v = false

variable {B : Prop}

theorem pin_of_session (e : Err) (t : State) (h : SessionFail J e t) : PinFail B J e t :=
  ⟨h.1, fun _ hf => nomatch h.2.1.symm.trans hf⟩

theorem triple_session {α : Type} {x : Op α} {Q : α → State → Prop} (h : Triple J x Q (SessionFail J)) :
    Triple J x Q (PinFail B J) := triple_conseq h (fun _ h => h) (fun _ _ h => h) pin_of_session

theorem triple_pinRaise {α : Type} {Q : α → State → Prop} {e : Err} (he : ∀ f, e ≠ .stop f) :
    Triple J (raise e : Op α) Q (PinFail B J) := triple_raise (fun _ h => ⟨h, fun f hf => absurd hf (he f)⟩)

/-- Writes to the blocks that `P` names are admitted. -/
def Stores (A : Params → Byte → Word16 → Prop) (J : State → Prop) (P : Params → SlotId → Nat → Prop) : Prop :=
  ∀ s t sl i, J s → J t → P s.cfg sl i → A t.cfg t.cfg.op.write (p2Addr t.cfg sl i)

/-- The blocks that the updates of a good login store to (R166). -/
def updateBlocks (c : Params) (sl : SlotId) (i : Nat) : Prop := (sl = c.slot.matchCount ∨ sl = c.slot.lastgood) ∧ i = 0

/-- The blocks that a change stores to (R171, R172). -/
def changeBlocks (c : Params) (sl : SlotId) (i : Nat) : Prop :=
  updateBlocks c sl i ∨ sl = c.slot.pinHash ∧ i = 0 ∨ sl = c.slot.seed ∧ (i < 3 ∨ 72 < c.rom.otpKey.length)

theorem stores_updates (h : Stores A J changeBlocks) : Stores A J updateBlocks :=
  fun s t sl i hs ht hp => h s t sl i hs ht (.inl hp)

/-- A result, and that it was `x` that gave it, from a state with the property. -/
theorem triple_gave {α : Type} {P : State → Prop} {x : Op α} {Q : α → State → Prop} {E : Err → State → Prop}
    (h : Triple P x Q E) : Triple P x (fun a t => Q a t ∧ ∃ u w, P u ∧ x u = .ok a w) E :=
  fun s hs => ⟨fun a t ht => ⟨(h s hs).1 a t ht, s, t, hs, ht⟩, (h s hs).2⟩

/-- The parameters, read: those of a state with the property. -/
theorem triple_params {E : Err → State → Prop} : Triple J getCfg (fun p t => J t ∧ ∃ s, J s ∧ p = s.cfg) E :=
  triple_getCfg (fun s hs => ⟨hs, s, hs, rfl⟩)

/-- A premise that the state does not enter, set aside. -/
theorem triple_fact {α : Type} {P : Prop} {x : Op α} {Q : α → State → Prop} {E : Err → State → Prop}
    (h : P → Triple J x Q E) : Triple (fun t => J t ∧ P) x Q E := fun s hs => h hs.2 s hs.1

theorem triple_ok {P : State → Prop} {α : Type} {Q : α → State → Prop} {E : Err → State → Prop} {a : α}
    (h : ∀ s, P s → Q a s) :
    Triple P (pure a) Q E := triple_pure h

theorem triple_cfgW (hJ : KeepsRec W A J) {E : Err → State → Prop} :
    Triple J getCfg (fun c t => J t ∧ (W → c.wf = true ∧ c.layout.wf = true)) E :=
  triple_getCfg (fun s hs => ⟨hs, fun w => ⟨(hJ.wide w s hs).1, (hJ.wide w s hs).2.1⟩⟩)

theorem slice_len (b : Bytes) (i n : Nat) (h : i + n ≤ b.length) : (slice b i n).length = n := by
  unfold slice
  rw [List.length_take, List.length_drop]
  omega

theorem splice_keeps (b : Bytes) (i : Nat) (v : Bytes) (h : i + v.length ≤ b.length) : (splice b i v).length = b.length := by
  unfold splice
  rw [List.length_append, List.length_append, List.length_take, List.length_drop]
  omega

/-! ### The record's fields -/

theorem readRec_held (s : State) (h : s.reg.recHeld = true) : readRec s = .ok s.reg.record s := by
  exact readHeld_held h

/-- Reading a field: its bytes, and their number where widths matter. -/
theorem triple_recField (hJ : KeepsRec W A J) {E : Err → State → Prop} (f : Layout → FieldLoc) (n : Nat)
    (hf : ∀ l : Layout, l.wf = true → (f l).off + (f l).size ≤ 276 ∧ (f l).size = n) :
    Triple J (recField f) (fun r t => J t ∧ (W → r.length = n)) E := by
  intro s hs
  have h : recField f s = .ok (field s.reg.record (f s.cfg.layout)) s := by
    simp only [recField, bind_run, getCfg_run, readRec_held s (hJ.held s hs), pure_run]
  rw [h]
  refine ⟨fun _ _ e => ?_, fun _ _ e => by cases e⟩
  cases e
  refine ⟨hs, fun w => ?_⟩
  obtain ⟨-, hl, hr⟩ := hJ.wide w s hs
  obtain ⟨h1, h2⟩ := hf _ hl
  rw [field, slice_len _ _ _ (by omega), h2]

theorem triple_recFieldAny (hJ : KeepsRec W A J) {E : Err → State → Prop} (f : Layout → FieldLoc) :
    Triple J (recField f) (fun _ t => J t) E := by
  intro s hs
  have h : recField f s = .ok (field s.reg.record (f s.cfg.layout)) s := by
    simp only [recField, bind_run, getCfg_run, readRec_held s (hJ.held s hs), pure_run]
  rw [h]
  exact ⟨fun _ _ e => (by cases e; exact hs), fun _ _ e => by cases e⟩

theorem triple_recWord (hJ : KeepsRec W A J) {E : Err → State → Prop} (f : Layout → FieldLoc) :
    Triple J (recWord f) (fun _ t => J t) E :=
  triple_bind (triple_recFieldAny hJ f) (fun _ => triple_pure (fun _ h => h))

/-- Writing a field where it lies in the record. -/
theorem triple_setRecField (hJ : KeepsRec W A J) {E : Err → State → Prop} (f : Layout → FieldLoc) (v : Bytes)
    (hf : W → ∀ l : Layout, l.wf = true → (f l).off + v.length ≤ 276) :
    Triple J (setRecField f v) (fun _ t => J t) E := by
  intro s hs
  have h : setRecField f v s = .ok () { s with reg := { s.reg with
      record := withField s.reg.record (f s.cfg.layout) v, recHeld := true } } := by
    simp only [setRecField, bind_run, getCfg_run, readRec_held s (hJ.held s hs), writeRec, modifyReg_run]
  rw [h]
  refine ⟨fun _ _ e => ?_, fun _ _ e => by cases e⟩
  cases e
  refine hJ.record s _ (fun w => ?_) hs
  obtain ⟨-, hl, hr⟩ := hJ.wide w s hs
  rw [withField, splice_keeps _ _ _ (by rw [hr]; exact hf w _ hl), hr]

/-- What a sound layout says of the fields the block writes. -/
theorem layout_words {l : Layout} (h : l.wf = true) :
    l.stateFlags.off + 4 ≤ 276 ∧ l.numFails.off + 4 ≤ 276 ∧ l.attemptsLeft.off + 4 ≤ 276 ∧ l.delayAchieved.off + 4 ≤ 276
      ∧ l.delayRequired.off + 4 ≤ 276 ∧ l.privateState.off + 4 ≤ 276 ∧ l.hmac.off + 32 ≤ 276
      ∧ l.cachedMainPin.off + 32 ≤ 276 ∧ l.secret.off + 72 ≤ 276 ∧ l.hmac.size = 32 ∧ l.cachedMainPin.size = 32
      ∧ l.secret.size = 72 := by
  unfold Layout.wf at h
  rw [Bool.and_eq_true, Bool.and_eq_true, Bool.and_eq_true, Bool.and_eq_true, Bool.and_eq_true] at h
  obtain ⟨⟨⟨⟨⟨-, -⟩, h2⟩, h3⟩, -⟩, h5⟩ := h
  have h2 : ∀ f ∈ l.fields, f.off + f.size ≤ 276 := fun f hf => of_decide_eq_true (List.all_eq_true.mp h2 f hf)
  have h3 : ∀ f ∈ [l.delayAchieved, l.delayRequired, l.numFails, l.attemptsLeft, l.stateFlags, l.privateState],
      f.off + f.size ≤ l.hmac.off ∧ f.size = 4 := fun f hf => of_decide_eq_true (List.all_eq_true.mp h3 f hf)
  have h5 : l.hmac.size = 32 ∧ l.cachedMainPin.size = 32 ∧ l.secret.size = 72 := of_decide_eq_true h5
  simp only [Layout.fields, List.mem_cons, List.not_mem_nil, or_false, forall_eq_or_imp, forall_eq] at h2 h3
  omega

theorem u32le_length' (v : Word32) : (u32le v).length = 4 := rfl

theorem triple_setFlags (hJ : KeepsRec W A J) {E : Err → State → Prop} (v : Word32) :
    Triple J (setRecWord Layout.stateFlags v) (fun _ t => J t) E :=
  triple_setRecField hJ _ _ (fun _ _ h => (layout_words h).1)
theorem triple_setNumFails (hJ : KeepsRec W A J) {E : Err → State → Prop} (v : Word32) :
    Triple J (setRecWord Layout.numFails v) (fun _ t => J t) E :=
  triple_setRecField hJ _ _ (fun _ _ h => (layout_words h).2.1)
theorem triple_setAttempts (hJ : KeepsRec W A J) {E : Err → State → Prop} (v : Word32) :
    Triple J (setRecWord Layout.attemptsLeft v) (fun _ t => J t) E :=
  triple_setRecField hJ _ _ (fun _ _ h => (layout_words h).2.2.1)
theorem triple_setHmac (hJ : KeepsRec W A J) {E : Err → State → Prop} (v : Bytes) (hv : v.length = 32) :
    Triple J (setRecField Layout.hmac v) (fun _ t => J t) E :=
  triple_setRecField hJ _ _ (fun _ _ h => by rw [hv]; exact (layout_words h).2.2.2.2.2.2.1)
theorem triple_setCached (hJ : KeepsRec W A J) {E : Err → State → Prop} (v : Bytes) (hv : W → v.length = 32) :
    Triple J (setRecField Layout.cachedMainPin v) (fun _ t => J t) E :=
  triple_setRecField hJ _ _ (fun w _ h => by rw [hv w]; exact (layout_words h).2.2.2.2.2.2.2.1)

/-! ### The pieces -/

theorem triple_validate (hJ : KeepsRec W A J) : Triple J validate (fun _ t => J t) (PinFail B J) :=
  triple_bind (Q := fun _ t => J t) (triple_getCfg (fun _ h => h)) (fun _ => triple_bind (triple_recWord hJ _) (fun _ =>
    triple_bind (triple_recWord hJ _) (fun _ => triple_bind (triple_recWord hJ _) (fun _ =>
    triple_bind (triple_recWord hJ _) (fun _ =>
    triple_ite (fun _ => triple_pinRaise (by simp)) (fun _ => triple_ite (fun _ => triple_pinRaise (by simp)) (fun _ =>
    triple_ite (fun _ => triple_pinRaise (by simp)) (fun _ => triple_ite (fun _ => triple_pinRaise (by simp)) (fun _ =>
      triple_pure (fun _ h => h))))))))))

theorem triple_recSignature (hJ : KeepsRec W A J) {E : Err → State → Prop} :
    Triple J recSignature (fun r t => J t ∧ r.length = 32) E := by
  intro s hs
  have h : recSignature s = .ok (signatureOf s.cfg s.reg.bootSeed s.reg.record) s := by
    simp only [recSignature, bind_run, getState_run, readRec_held s (hJ.held s hs), pure_run]
  rw [h]
  exact ⟨fun _ _ e => (by cases e; exact ⟨hs, List.length_ofFn ..⟩), fun _ _ e => by cases e⟩

theorem triple_sign (hJ : KeepsRec W A J) {E : Err → State → Prop} : Triple J sign (fun _ t => J t) E :=
  triple_bind (triple_recSignature hJ) (fun m => triple_pre (fun s hs => triple_conseq (triple_setHmac hJ m hs.2)
    (fun t ht => by rw [ht]; exact hs.1) (fun _ _ h => h) (fun _ _ h => h)))

theorem triple_verify (hJ : KeepsRec W A J) : Triple J verify (fun _ t => J t) (PinFail B J) :=
  triple_bind (Q := fun _ t => J t) (triple_weak (triple_recSignature hJ)) (fun _ => triple_bind (triple_recFieldAny hJ _)
    (fun _ => triple_bind (Q := fun _ t => J t) (triple_pure (fun _ h => h)) (fun _ =>
    triple_ite (fun _ => triple_pure (fun _ h => h)) (fun _ => triple_pinRaise (by simp)))))

theorem triple_pinHashAttempt (hJ : KeepsRec W A J) (p : Bytes) :
    Triple J (pinHashAttempt p) (fun r t => J t ∧ r.length = 32) (SessionFail J) :=
  triple_bind (Q := fun _ t => J t) (triple_getCfg (fun _ h => h)) (fun c =>
    triple_bind (triple_stretch hJ.toKeeps _ _ (fun _ => by unfold pinHash; rw [len_sha]; omega)) (fun v =>
    triple_pre (fun s hs => triple_conseq (P := J)
      (triple_bind (triple_mixin hJ.toKeeps c.slot.keyPlain v hs.2) (fun m => triple_pre (fun s' hs' =>
        triple_conseq (triple_mixin hJ.toKeeps c.slot.pinAttempt m (fun _ => by rw [hs'.2]; omega))
          (fun t ht => by rw [ht]; exact hs'.1) (fun _ _ h => h) (fun _ _ h => h))))
      (fun t ht => by rw [ht]; exact hs.1) (fun _ _ h => h) (fun _ _ h => h))))

theorem triple_readCounters (hJ : KeepsRec W A J) : Triple J readCounters (fun _ t => J t) (SessionFail J) :=
  triple_bind (Q := fun _ t => J t) (triple_getCfg (fun _ h => h)) (fun _ =>
    triple_bind (triple_authReadCounter hJ.toKeeps) (fun _ => triple_bind (triple_authReadSlot hJ.toKeeps _) (fun _ =>
    triple_bind (triple_authReadSlot hJ.toKeeps _) (fun _ => triple_bind (triple_setAttempts hJ _) (fun _ =>
    triple_setNumFails hJ _)))))

theorem triple_goodLoginUpdates (hJ : KeepsRec W A J) (hS : Stores A J updateBlocks) (hB : Overspent J → B) (d : Bytes) :
    Triple J (goodLoginUpdates d) (fun _ t => J t) (PinFail B J) :=
  triple_bind triple_params (fun p => triple_fact (fun ⟨s, hs, hp⟩ =>
    triple_bind (triple_gave (triple_session (triple_authReadCounter hJ.toKeeps))) (fun v => triple_fact (fun ⟨u, w, hu, hv⟩ =>
      triple_ite (fun _ =>
      triple_bind (triple_session (triple_encryptedWrite hJ.toKeeps _ _ _ _ (fun t i ht hi => by
        rw [hp]; exact hS s t _ i hs ht ⟨.inl rfl, by simpa [matchCountBlock, u32le, zeros] using hi⟩))) (fun _ =>
      triple_bind (triple_session (triple_addCounter hJ.toKeeps _)) (fun _ =>
      triple_session (triple_encryptedWrite hJ.toKeeps _ _ _ _ (fun t i ht hi => by
        rw [hp]; exact hS s t _ i hs ht ⟨.inr rfl, by simpa [lastgoodBlock, u32le, zeros] using hi⟩)))))
      (fun hb => triple_raise (fun _ h => ⟨h, fun _ _ => hB ⟨s, u, v, w, hs, hu, hv, by rw [← hp]; simpa using hb⟩⟩))))))

theorem triple_detectBlank (hJ : KeepsRec W A J) : Triple J detectBlank (fun _ t => J t) (SessionFail J) :=
  triple_bind (triple_pairUnlock hJ.toKeeps) (fun _ => triple_bind (Q := fun _ t => J t) (triple_getCfg (fun _ h => h))
    (fun _ => triple_catching (triple_bind (triple_checkmac hJ.toKeeps _ _) (fun _ => triple_pure (fun _ h => h)))
      (fun f s h => (by cases h.2.1)) (fun e _ => triple_ite (fun _ => triple_pure (fun _ h => h.1))
        (fun _ => triple_raise (fun _ h => h)))))

theorem maskDigest_length (c : Params) (b d : Bytes) (h : d.length = 32) : (maskDigest c b d).length = 32 := by
  unfold maskDigest
  split
  · simp [zeros, Config.blockLen]
  · simp [xorBytes, cacheMask, h]

theorem triple_cacheSaved (hJ : KeepsRec W A J) (d : Bytes) (hd : W → d.length = 32) {E : Err → State → Prop} :
    Triple J (do writeDigest d; cacheSave) (fun _ t => J t) E := by
  intro s hs
  have hr := hJ.held s hs
  have h : (do writeDigest d; cacheSave : Op Unit) s = .ok () { s with reg := { s.reg with
      digest := d, digestHeld := true, cache := maskDigest s.cfg s.reg.bootSeed d, cacheHeld := true
      record := withField s.reg.record s.cfg.layout.cachedMainPin (maskDigest s.cfg s.reg.bootSeed d), recHeld := true } } := by
    simp only [bind_run, writeDigest, modifyReg_run, cacheSave, getState_run, readDigest, if_true, writeCache, readCache,
      setRecField, getCfg_run, readRec, readHeld, hr, writeRec]
  rw [h]
  refine ⟨fun _ _ e => ?_, fun _ _ e => by cases e⟩
  cases e
  have hm : W → (maskDigest s.cfg s.reg.bootSeed d).length = 32 := fun w => maskDigest_length _ _ _ (hd w)
  refine hJ.record { s with reg := { s.reg with
      digest := d, digestHeld := true, cache := maskDigest s.cfg s.reg.bootSeed d, cacheHeld := true } } _ (fun w => ?_)
    (hJ.cache { s with reg := { s.reg with digest := d, digestHeld := true } } _ hm (hJ.digest s d hd hs))
  obtain ⟨-, hl, hr⟩ := hJ.wide w s hs
  rw [withField, splice_keeps _ _ _ (by rw [hr, hm w]; exact (layout_words hl).2.2.2.2.2.2.2.1), hr]

theorem triple_cacheRestore (hJ : KeepsRec W A J) {E : Err → State → Prop} :
    Triple J cacheRestore (fun r t => J t ∧ (W → r.length = 32)) E := by
  intro s hs
  have hr := hJ.held s hs
  have h : cacheRestore s = .ok (maskDigest s.cfg s.reg.bootSeed (field s.reg.record s.cfg.layout.cachedMainPin))
      { s with reg := { s.reg with
        cache := field s.reg.record s.cfg.layout.cachedMainPin, cacheHeld := true
        digest := maskDigest s.cfg s.reg.bootSeed (field s.reg.record s.cfg.layout.cachedMainPin), digestHeld := true } } := by
    simp only [cacheRestore, bind_run, getState_run, recField, getCfg_run, readRec, readHeld, hr, if_true, pure_run, writeCache,
      modifyReg_run, readCache, writeDigest, readDigest]
  rw [h]
  refine ⟨fun _ _ e => ?_, fun _ _ e => by cases e⟩
  cases e
  have hf : W → (field s.reg.record s.cfg.layout.cachedMainPin).length = 32 := fun w => by
    obtain ⟨-, hl, hr⟩ := hJ.wide w s hs
    obtain ⟨-, -, -, -, -, -, -, h8, -, -, h11, -⟩ := layout_words hl
    rw [field, slice_len _ _ _ (by omega), h11]
  have hm : W → (maskDigest s.cfg s.reg.bootSeed (field s.reg.record s.cfg.layout.cachedMainPin)).length = 32 :=
    fun w => maskDigest_length _ _ _ (hf w)
  exact ⟨hJ.digest _ _ hm (hJ.cache s _ hf hs), hm⟩

theorem zeros_len (n : Nat) : (zeros n).length = n := List.length_replicate ..

theorem triple_clearRecord (hJ : KeepsRec W A J) {E : Err → State → Prop} : Triple J clearRecord (fun _ t => J t) E :=
  triple_bind (triple_setFlags hJ _) (fun _ => triple_bind (triple_setNumFails hJ _) (fun _ =>
    triple_bind (triple_setAttempts hJ _) (fun _ =>
    triple_bind (triple_setRecField hJ _ _ (fun _ _ h => (layout_words h).2.2.2.1)) (fun _ =>
    triple_bind (triple_setRecField hJ _ _ (fun _ _ h => (layout_words h).2.2.2.2.1)) (fun _ =>
    triple_bind (triple_weak (triple_rand hJ.toKeeps 4)) (fun _ =>
    triple_bind (triple_setRecField hJ _ _ (fun _ _ h => (layout_words h).2.2.2.2.2.1)) (fun _ =>
    triple_bind (triple_setHmac hJ _ (zeros_len 32)) (fun _ => triple_setCached hJ _ (fun _ => zeros_len 32)))))))))

theorem triple_unlockOrBrick (hJ : Keeps W A J) : Triple J unlockOrBrick (fun _ t => J t) (PinFail B J) :=
  triple_catching (triple_pairUnlock hJ) (fun f s h => (by cases h.2.1)) (fun e _ =>
    triple_ite (fun _ => triple_raise (fun _ h => ⟨h.1, fun _ hf => nomatch hf⟩))
      (fun hne => triple_raise (fun _ h => absurd h.2.1 hne)))

theorem triple_loginBlank (hJ : KeepsRec W A J) {E : Err → State → Prop} : Triple J loginBlank (fun _ t => J t) E := by
  have h : Triple J (do
      (do writeDigest (zeros Config.blockLen); cacheSave)
      sign) (fun _ t => J t) E :=
    triple_bind (triple_cacheSaved hJ (zeros Config.blockLen) (fun _ => zeros_len 32)) (fun _ => triple_sign hJ)
  intro s hs
  have := h s hs
  have e : loginBlank s = (do
      (do writeDigest (zeros Config.blockLen); cacheSave)
      sign : Op Unit) s := by
    unfold loginBlank
    cases h : writeDigest (zeros Config.blockLen) s <;> simp only [bind_run, h]
  rw [e]
  exact this

theorem triple_setup (hJ : KeepsRec W A J) : Triple J setup (fun _ t => J t) (PinFail B J) :=
  triple_bind (triple_validate hJ) (fun _ => triple_bind (triple_clearRecord hJ) (fun _ =>
    triple_bind (triple_unlockOrBrick hJ.toKeeps) (fun _ => triple_bind (triple_session (triple_readCounters hJ)) (fun _ =>
    triple_bind (triple_session (triple_detectBlank hJ)) (fun b => by
      cases b
      · exact triple_sign hJ
      · exact triple_bind (Q := fun _ t => J t) (triple_getCfg (fun _ h => h)) (fun _ => triple_bind (triple_setFlags hJ _)
          (fun _ => triple_loginBlank hJ)))))))

theorem triple_loginFailed (hJ : KeepsRec W A J) : Triple J loginFailed (fun _ t => J t) (PinFail B J) :=
  triple_bind (triple_session (triple_readCounters hJ)) (fun _ => triple_bind (triple_sign hJ)
    (fun _ => triple_pinRaise (by simp)))

theorem triple_testDigest (hJ : KeepsRec W A J) (d : Bytes) : Triple J (testDigest d) (fun _ t => J t) (SessionFail J) :=
  triple_bind (Q := fun _ t => J t) (triple_getCfg (fun _ h => h)) (fun _ => triple_bind (triple_pairUnlock hJ.toKeeps)
    (fun _ => triple_bind (triple_weak (triple_gendigSlot hJ.toKeeps _ _)) (fun _ => triple_isCorrectTempkey hJ.toKeeps _)))

/-- The digest written and cached in the middle of an operation. -/
theorem triple_cacheThen (hJ : KeepsRec W A J) {α : Type} {k : Op α} {Q : α → State → Prop} {E : Err → State → Prop}
    (d : Bytes)
    (hd : W → d.length = 32) (hk : Triple J k Q E) : Triple J (do writeDigest d; cacheSave; k) Q E := by
  have h : Triple J (do (do writeDigest d; cacheSave); k) Q E := triple_bind (triple_cacheSaved hJ d hd) (fun _ => hk)
  intro s hs
  have := h s hs
  have e : (do writeDigest d; cacheSave; k : Op α) s = (do (do writeDigest d; cacheSave); k : Op α) s := by
    cases h : writeDigest d s <;> simp only [bind_run, h]
  rw [e]
  exact this

theorem triple_loginPin (hJ : KeepsRec W A J) (hS : Stores A J updateBlocks) (hB : Overspent J → B) (n : Word32) :
    Triple J (loginPin n) (fun _ t => J t) (PinFail B J) :=
  triple_bind (Q := fun _ t => J t) (triple_getCfg (fun _ h => h)) (fun _ => triple_bind (triple_recFieldAny hJ _) (fun _ =>
    triple_bind (triple_session (triple_pinHashAttempt hJ _)) (fun d => triple_pre (fun s hs => triple_conseq (P := J)
      (triple_bind (triple_session (triple_testDigest hJ d)) (fun _ => triple_ite (fun _ =>
        triple_bind (triple_goodLoginUpdates hJ hS hB d) (fun _ => triple_cacheThen hJ d (fun _ => hs.2)
          (triple_bind (triple_session (triple_encryptedRead hJ.toKeeps _ _ _ _)) (fun _ =>
          triple_bind (triple_setFlags hJ _) (fun _ => triple_bind (triple_setNumFails hJ _) (fun _ =>
          triple_bind (triple_setAttempts hJ _) (fun _ => triple_sign hJ))))))) (fun _ => triple_loginFailed hJ)))
      (fun t ht => by rw [ht]; exact hs.1) (fun _ _ h => h) (fun _ _ h => h)))))

theorem triple_login (hJ : KeepsRec W A J) (hS : Stores A J updateBlocks) (hB : Overspent J → B) : Triple J login
    (fun _ t => J t) (PinFail B J) :=
  triple_bind (triple_validate hJ) (fun _ => triple_bind (triple_verify hJ) (fun _ =>
    triple_bind (Q := fun _ t => J t) (triple_getCfg (fun _ h => h)) (fun _ => triple_bind (triple_recWord hJ _) (fun _ =>
    triple_ite (fun _ => triple_ite (fun _ => triple_loginBlank hJ) (fun _ => triple_pinRaise (by simp))) (fun _ =>
    triple_ite (fun _ => triple_pinRaise (by simp)) (fun _ => triple_bind (triple_recWord hJ _) (fun _ =>
    triple_ite (fun _ => triple_pinRaise (by simp)) (fun _ => triple_loginPin hJ hS hB _))))))))

theorem storedSecret_blocks (c : Params) (s : Bytes) (i : Nat)
    (h : i < ((if allZero s then zeros Config.secretLen else xorBytes s c.rom.otpKey) ++ zeros 24).length / 32) :
    i < 3 ∨ 72 < c.rom.otpKey.length := by
  by_cases ho : 72 < c.rom.otpKey.length
  · exact .inr ho
  · refine .inl ?_
    have : (if allZero s then zeros Config.secretLen else xorBytes s c.rom.otpKey).length ≤ 72 := by
      split
      · exact Nat.le_of_eq (List.length_replicate ..)
      · simp only [xorBytes, List.length_zipWith]; omega
    have e : (zeros 24).length = 24 := List.length_replicate ..
    rw [List.length_append, e] at h
    omega

theorem triple_changeSecret (hJ : KeepsRec W A J) (hS : Stores A J changeBlocks) (d : Bytes) :
    Triple J (changeSecret d) (fun _ t => J t) (PinFail B J) :=
  triple_bind triple_params (fun p => triple_fact (fun ⟨s, hs, hp⟩ => triple_bind (triple_recFieldAny hJ _) (fun _ =>
    triple_bind (triple_recWord hJ _) (fun _ => triple_bind (triple_setFlags hJ _) (fun _ =>
    triple_session (triple_encryptedWrite hJ.toKeeps _ _ _ _ (fun t i ht hi => by
      have := storedSecret_blocks _ _ _ hi
      rw [hp] at this ⊢
      exact hS s t _ i hs ht (.inr (.inr ⟨rfl, this⟩)))))))))

theorem triple_changePin (hJ : KeepsRec W A J) (hS : Stores A J changeBlocks) (hB : Overspent J → B) (d : Bytes) :
    Triple J (changePin d) (fun _ t => J t) (PinFail B J) :=
  triple_bind triple_params (fun p => triple_fact (fun ⟨z, hz, hp⟩ => triple_bind (triple_recFieldAny hJ _) (fun _ =>
    triple_bind (triple_recWord hJ _) (fun _ => triple_bind (triple_session (triple_pinHashAttempt hJ _)) (fun d' =>
    triple_pre (fun s hs => triple_conseq (P := J)
      (triple_bind (triple_session (triple_encryptedWrite hJ.toKeeps _ _ _ _ (fun t i ht hi => by
        rw [hp]; exact hS z t _ i hz ht (.inr (.inl ⟨rfl, by rw [hs.2] at hi; omega⟩))))) (fun _ =>
      triple_bind (triple_goodLoginUpdates hJ (stores_updates hS) hB d') (fun _ => triple_cacheThen hJ d' (fun _ => hs.2)
      (triple_bind (triple_recWord hJ _) (fun _ => triple_bind (triple_setFlags hJ _) (fun _ =>
      triple_bind (triple_setNumFails hJ _) (fun _ => triple_setAttempts hJ _)))))))
      (fun t ht => by rw [ht]; exact hs.1) (fun _ _ h => h) (fun _ _ h => h)))))))

theorem triple_oldDigest (hJ : KeepsRec W A J) (b : Bool) (n : Word32) :
    Triple J (oldDigest b n) (fun r t => J t ∧ (W → r.length = 32)) (PinFail B J) :=
  triple_ite (fun _ => triple_pure (fun _ h => ⟨h, fun _ => zeros_len 32⟩)) (fun _ => triple_bind (triple_recFieldAny hJ _)
    (fun _ => triple_bind (triple_session (triple_pinHashAttempt hJ _)) (fun d => triple_pre (fun s hs =>
    triple_conseq (P := J) (triple_bind (triple_session (triple_testDigest hJ d)) (fun _ =>
      triple_ite (fun _ => triple_pure (fun _ h => ⟨h, fun _ => hs.2⟩)) (fun _ => triple_bind (triple_sign hJ)
        (fun _ => triple_pinRaise (by simp)))))
      (fun t ht => by rw [ht]; exact hs.1) (fun _ _ h => h) (fun _ _ h => h)))))

theorem triple_changeDigest (hJ : KeepsRec W A J) (cf fl : Word32) :
    Triple J (changeDigest cf fl) (fun r t => J t ∧ (W → r.length = 32)) (PinFail B J) :=
  triple_bind (Q := fun _ t => J t) (triple_getCfg (fun _ h => h)) (fun _ => triple_ite (fun _ =>
    triple_bind (triple_recWord hJ _) (fun _ => triple_bind (triple_recWord hJ _) (fun _ =>
    triple_ite (fun _ => triple_pinRaise (by simp)) (fun _ => triple_ite (fun _ => triple_pinRaise (by simp)) (fun _ =>
    triple_ite (fun _ => triple_pinRaise (by simp)) (fun _ => triple_oldDigest hJ _ _))))))
    (fun _ => triple_cacheRestore hJ))

theorem triple_writeDigest (hJ : KeepsRec W A J) (d : Bytes) (hd : W → d.length = 32) {E : Err → State → Prop} :
    Triple J (writeDigest d) (fun _ t => J t) E := triple_modifyReg (fun s hs => hJ.digest s d hd hs)

theorem triple_change (hJ : KeepsRec W A J) (hS : Stores A J changeBlocks) (hB : Overspent J → B) : Triple J change
    (fun _ t => J t) (PinFail B J) := by
  have hlast (cf : Word32) (c : Params) (d : Bytes) : Triple J (do
      if hasFlag cf c.flag.changeWalletPin then changePin d else pure ()
      sign) (fun _ t => J t) (PinFail B J) := by
    split
    · exact triple_bind (triple_changePin hJ hS hB _) (fun _ => triple_sign hJ)
    · exact triple_sign hJ
  exact triple_bind (triple_validate hJ) (fun _ => triple_bind (triple_verify hJ) (fun _ =>
    triple_bind (Q := fun _ t => J t) (triple_getCfg (fun _ h => h)) (fun _ => triple_bind (triple_recWord hJ _) (fun _ =>
    triple_bind (triple_recWord hJ _) (fun cf => triple_ite (fun _ => triple_pinRaise (by simp)) (fun _ =>
    triple_ite (fun _ => triple_pinRaise (by simp)) (fun _ => triple_bind (triple_changeDigest hJ _ _) (fun d =>
    triple_pre (fun s hs => triple_conseq (P := J)
      (triple_bind (triple_writeDigest hJ d hs.2) (fun _ => triple_ite
        (fun _ => triple_bind (triple_changeSecret hJ hS _) (fun _ => hlast _ _ _)) (fun _ => hlast _ _ _)))
      (fun t ht => by rw [ht]; exact hs.1) (fun _ _ h => h) (fun _ _ h => h))))))))))

theorem triple_fetchSecret (hJ : KeepsRec W A J) : Triple J fetchSecret (fun _ t => J t) (PinFail B J) :=
  triple_bind (triple_validate hJ) (fun _ => triple_bind (triple_verify hJ) (fun _ =>
    triple_bind (triple_cfgW hJ) (fun c => triple_pre (fun s hs => triple_conseq (P := J)
      (triple_bind (triple_recWord hJ _) (fun _ =>
    triple_ite (fun _ => triple_bind (triple_weak (P := fun r => W → r.length = 32) (triple_cacheRestore hJ)) (fun _ =>
      triple_bind (triple_session (triple_encryptedRead hJ.toKeeps _ _ _ _)) (fun r =>
      triple_bind (triple_setRecField hJ _ _ (fun w l h => by
        have hs9 := (layout_words h).2.2.2.2.2.2.2.2.1
        have hotp : c.rom.otpKey.length = 72 := by
          have := (hs.2 w).1
          rw [Params.wf, Bool.and_eq_true] at this
          exact (of_decide_eq_true this.2).2.2.1
        have : (if allZero r then zeros Config.secretLen else xorBytes r c.rom.otpKey).length ≤ 72 := by
          split
          · exact Nat.le_of_eq (zeros_len 72)
          · simp only [xorBytes, List.length_zipWith, hotp]; omega
        omega)) (fun _ => triple_bind (triple_setFlags hJ _) (fun _ => triple_sign hJ)))))
      (fun _ => triple_pinRaise (by simp)))) (fun t ht => by rw [ht]; exact hs.1) (fun _ _ h => h) (fun _ _ h => h)))))

end Sys2Proof.Machine
end

