-- ==== Sys2Proof/Laws/Memory.lean ====
section
/-! SUPPORT. The SE space as memory (spec/20_memory.md R47 to R50): what a read after a store gives, what a store leaves, the
canonical form. -/

namespace Sys2Proof.Machine

theorem memByte_of_lt {m : List Host.Cell} {a : Nat} (h : ∀ x ∈ m, a < x.1) : memByte m a = unlistedByte := by
  induction m with
  | nil => rfl
  | cons x m ih =>
    obtain ⟨b, v⟩ := x
    have hb : a < b := h _ List.mem_cons_self
    rw [memByte, if_neg (by omega)]
    exact ih (fun y hy => h y (List.mem_cons_of_mem _ hy))

/-- In canonical form: what the head and the tail say. -/
theorem memWf_cons {x : Host.Cell} {m : List Host.Cell} :
    memWf (x :: m) = true ↔ (∀ y ∈ m, x.1 < y.1) ∧ x.2 ≠ unlistedByte ∧ memWf m = true := by
  simp only [memWf, Bool.and_eq_true, decide_eq_true_eq, List.pairwise_cons, List.all_cons]
  tauto

/-- What a byte reads as after a store: the byte stored at that address, what it was elsewhere. -/
theorem memByte_memSet {m : List Host.Cell} (h : memWf m = true) (a : Nat) (v : Byte) (x : Nat) :
    memByte (memSet m a v) x = if x = a then v else memByte m x := by
  induction m with
  | nil =>
    by_cases hv : v = unlistedByte
    · simp only [memSet, hv, if_true, memByte]; split <;> rfl
    · simp only [memSet, hv, if_false, memByte]
      by_cases hx : x = a
      · simp [hx]
      · rw [if_neg (fun h => hx h.symm), if_neg hx]
  | cons c m ih =>
    obtain ⟨b, w⟩ := c
    obtain ⟨hlt, hw, hm⟩ := memWf_cons.mp h
    have ih := ih hm
    unfold memSet
    by_cases hab : a < b
    · rw [if_pos hab]
      by_cases hv : v = unlistedByte
      · rw [if_pos hv]
        by_cases hx : x = a
        · rw [if_pos hx, hx, hv]
          exact memByte_of_lt (fun y hy => by
            rcases List.mem_cons.mp hy with rfl | hy
            · exact hab
            · exact Nat.lt_trans hab (hlt y hy))
        · rw [if_neg hx]
      · rw [if_neg hv]
        by_cases hx : x = a
        · rw [if_pos hx, hx]; simp only [memByte, if_true]
        · rw [if_neg hx, memByte, if_neg (fun h => hx h.symm)]
    · rw [if_neg hab]
      by_cases he : a = b
      · rw [if_pos he]
        subst he
        by_cases hv : v = unlistedByte
        · rw [if_pos hv]
          by_cases hx : x = a
          · rw [if_pos hx, hx, hv]; exact memByte_of_lt hlt
          · rw [if_neg hx, memByte, if_neg (fun h => hx h.symm)]
        · rw [if_neg hv]
          by_cases hx : x = a
          · rw [if_pos hx, hx]; simp only [memByte, if_true]
          · simp only [memByte, if_neg hx, if_neg (fun h => hx (Eq.symm h))]
      · rw [if_neg he]
        by_cases hb : b = x
        · subst hb
          rw [if_neg (fun h => he h.symm)]
          simp only [memByte, if_true]
        · rw [memByte, if_neg hb, ih, memByte, if_neg hb]

theorem memSet_addr {m : List Host.Cell} {a : Nat} {v : Byte} {y : Host.Cell} (hy : y ∈ memSet m a v) :
    y.1 = a ∨ y ∈ m := by
  induction m with
  | nil =>
    unfold memSet at hy
    split at hy
    · exact absurd hy List.not_mem_nil
    · left; rw [List.mem_singleton.mp hy]
  | cons c m ih =>
    obtain ⟨b, w⟩ := c
    unfold memSet at hy
    split at hy
    · split at hy
      · exact .inr hy
      · rcases List.mem_cons.mp hy with rfl | h
        · exact .inl rfl
        · exact .inr h
    · split at hy
      · split at hy
        · exact .inr (List.mem_cons_of_mem _ hy)
        · rcases List.mem_cons.mp hy with rfl | h
          · exact .inl rfl
          · exact .inr (List.mem_cons_of_mem _ h)
      · rcases List.mem_cons.mp hy with rfl | h
        · exact .inr List.mem_cons_self
        · rcases ih h with h | h
          · exact .inl h
          · exact .inr (List.mem_cons_of_mem _ h)

/-- A store keeps the canonical form. -/
theorem memSet_wf {m : List Host.Cell} (h : memWf m = true) (a : Nat) (v : Byte) : memWf (memSet m a v) = true := by
  induction m with
  | nil =>
    unfold memSet
    split
    · rfl
    · next hv => rw [memWf_cons]; exact ⟨fun y hy => absurd hy List.not_mem_nil, hv, rfl⟩
  | cons c m ih =>
    obtain ⟨b, w⟩ := c
    obtain ⟨hlt, hw, hm⟩ := memWf_cons.mp h
    unfold memSet
    split
    · next hab =>
      split
      · exact h
      · next hv =>
        rw [memWf_cons]
        refine ⟨fun y hy => ?_, hv, h⟩
        rcases List.mem_cons.mp hy with rfl | hy
        · exact hab
        · exact Nat.lt_trans hab (hlt y hy)
    · next hab =>
      split
      · next he =>
        subst he
        split
        · exact hm
        · next hv => rw [memWf_cons]; exact ⟨hlt, hv, hm⟩
      · next he =>
        rw [memWf_cons]
        refine ⟨fun y hy => ?_, hw, ih hm⟩
        rcases memSet_addr hy with h | h
        · rw [h]; show b < a; omega
        · exact hlt y h

theorem memWrite_wf {m : List Host.Cell} (h : memWf m = true) (a : Nat) (v : Bytes) : memWf (memWrite m a v) = true := by
  induction v generalizing m a with
  | nil => exact h
  | cons x v ih => exact ih (memSet_wf h a x) (a + 1)

/-- What a byte reads as after a byte string is stored. -/
theorem memByte_memWrite {m : List Host.Cell} (h : memWf m = true) (a : Nat) (v : Bytes) (x : Nat) :
    memByte (memWrite m a v) x = if a ≤ x ∧ x < a + v.length then v.getD (x - a) 0 else memByte m x := by
  induction v generalizing m a with
  | nil => rw [if_neg (by simp)]; rfl
  | cons b v ih =>
    rw [memWrite, ih (memSet_wf h a b), memByte_memSet h, List.length_cons]
    by_cases hx : x = a
    · subst hx
      rw [if_neg (by omega), if_pos rfl, if_pos (by omega), Nat.sub_self, List.getD_cons_zero]
    · rw [if_neg hx]
      by_cases hr : a + 1 ≤ x ∧ x < a + 1 + v.length
      · rw [if_pos hr, if_pos (by omega), show x - a = (x - (a + 1)) + 1 by omega, List.getD_cons_succ]
      · rw [if_neg hr, if_neg (by omega)]

/-- A read after a store to the same place gives the value stored. -/
theorem memRead_memWrite {m : List Host.Cell} (h : memWf m = true) (a : Nat) (v : Bytes) :
    memRead (memWrite m a v) a v.length = v := by
  unfold memRead
  apply List.ext_getElem
  · rw [List.length_map, List.length_range]
  · intro i h1 h2
    rw [List.getElem_map, List.getElem_range, memByte_memWrite h, if_pos (by omega), Nat.add_sub_cancel_left,
      List.getD_eq_getElem?_getD, List.getElem?_eq_getElem h2, Option.getD_some]

/-- A store leaves every read that does not meet it. -/
theorem memRead_memWrite_other {m : List Host.Cell} (h : memWf m = true) (a : Nat) (v : Bytes) (b n : Nat)
    (hd : b + n ≤ a ∨ a + v.length ≤ b) : memRead (memWrite m a v) b n = memRead m b n := by
  unfold memRead
  apply List.map_congr_left
  intro i hi
  rw [List.mem_range] at hi
  rw [memByte_memWrite h, if_neg (by omega)]

/-- Provisioned slots are in canonical form. -/
theorem provisionedSlots_wf (c : Config.Params) : memWf (provisionedSlots c) = true := by
  unfold provisionedSlots provisionSlot
  exact memWrite_wf (memWrite_wf (memWrite_wf (memWrite_wf rfl _ _) _ _) _ _) _ _

@[simp] theorem initial_slots : Chip.initial.slots = provisionedSlots Config.defaults := by unfold Chip.initial; rfl

theorem initial_memWf : memWf Chip.initial.slots = true := by rw [initial_slots]; exact provisionedSlots_wf _

/-- The slot that pairs is provisioned with the device's pairing secret (R48, R220). -/
theorem initial_pairing : memRead Chip.initial.slots (blockBase (p2Addr Config.defaults Config.defaults.slot.pairing 0)) 32
    = Config.defaults.rom.pairingSecret := by
  have w0 : memWf (provisionSlot Config.defaults [] Config.defaults.slot.pairing Config.defaults.rom.pairingSecret) = true :=
    memWrite_wf rfl _ _
  have w1 := memWrite_wf w0 (blockBase (p2Addr Config.defaults Config.defaults.slot.kdf 0)) (unknownKey Config.defaults.slot.kdf)
  have w2 := memWrite_wf w1 (blockBase (p2Addr Config.defaults Config.defaults.slot.pinAttempt 0))
    (unknownKey Config.defaults.slot.pinAttempt)
  rw [initial_slots]
  unfold provisionedSlots
  refine (memRead_memWrite_other w2 _ _ _ 32 ?_).trans ((memRead_memWrite_other w1 _ _ _ 32 ?_).trans
    ((memRead_memWrite_other w0 _ _ _ 32 ?_).trans (memRead_memWrite rfl _ _)))
  all_goals decide

end Sys2Proof.Machine
end

