-- ==== Sys2Proof/Laws/State.lean ====
section
/-! SUPPORT. One lemma for each field an update of the state leaves or sets, so that no later proof unfolds the update. -/

namespace Sys2Proof.Machine

/-! ### The ending of an operation -/

@[simp] theorem endWith_cfg (s : State) (e : Ending) : (s.endWith e).cfg = s.cfg := rfl
@[simp] theorem endWith_reg (s : State) (e : Ending) : (s.endWith e).reg = s.reg := rfl
@[simp] theorem endWith_wire (s : State) (e : Ending) : (s.endWith e).wire = s.wire := rfl
@[simp] theorem endWith_host (s : State) (e : Ending) : (s.endWith e).host = s.host := rfl
@[simp] theorem endWith_chip (s : State) (e : Ending) : (s.endWith e).chip = s.chip := rfl
@[simp] theorem endWith_env (s : State) (e : Ending) : (s.endWith e).env = s.env := rfl
@[simp] theorem endWith_booted (s : State) (e : Ending) : (s.endWith e).ctl.booted = s.ctl.booted := rfl
@[simp] theorem endWith_ending (s : State) (e : Ending) : (s.endWith e).ctl.ending = e := rfl
@[simp] theorem endWith_endWith (s : State) (e e' : Ending) : (s.endWith e).endWith e' = s.endWith e' := rfl

/-! ### The environment's actions -/

@[simp] theorem withPending_cfg (s : State) (p : List HostAction) : (s.withPending p).cfg = s.cfg := rfl
@[simp] theorem withPending_reg (s : State) (p : List HostAction) : (s.withPending p).reg = s.reg := rfl
@[simp] theorem withPending_wire (s : State) (p : List HostAction) : (s.withPending p).wire = s.wire := rfl
@[simp] theorem withPending_chip (s : State) (p : List HostAction) : (s.withPending p).chip = s.chip := rfl
@[simp] theorem withPending_env (s : State) (p : List HostAction) : (s.withPending p).env = s.env := rfl
@[simp] theorem withPending_ctl (s : State) (p : List HostAction) : (s.withPending p).ctl = s.ctl := rfl
@[simp] theorem withPending_buf (s : State) (p : List HostAction) : (s.withPending p).host.buf = s.host.buf := rfl
@[simp] theorem withPending_pending (s : State) (p : List HostAction) : (s.withPending p).host.pending = p := rfl

@[simp] theorem setHostBuf_cfg (s : State) (b : Bytes) : (s.setHostBuf b).cfg = s.cfg := rfl
@[simp] theorem setHostBuf_reg (s : State) (b : Bytes) : (s.setHostBuf b).reg = s.reg := rfl
@[simp] theorem setHostBuf_wire (s : State) (b : Bytes) : (s.setHostBuf b).wire = s.wire := rfl
@[simp] theorem setHostBuf_chip (s : State) (b : Bytes) : (s.setHostBuf b).chip = s.chip := rfl
@[simp] theorem setHostBuf_buf (s : State) (b : Bytes) : (s.setHostBuf b).host.buf = b := rfl

@[simp] theorem strayArrives_cfg (s : State) (x : List Symbol) : (s.strayArrives x).cfg = s.cfg := rfl
@[simp] theorem strayArrives_reg (s : State) (x : List Symbol) : (s.strayArrives x).reg = s.reg := rfl
@[simp] theorem strayArrives_chip (s : State) (x : List Symbol) : (s.strayArrives x).chip = s.chip := rfl
@[simp] theorem strayArrives_arrived (s : State) (x : List Symbol) :
    (s.strayArrives x).wire.arrived = s.wire.arrived ++ x := rfl
@[simp] theorem strayArrives_inFlight (s : State) (x : List Symbol) :
    (s.strayArrives x).wire.inFlight = s.wire.inFlight := rfl

@[simp] theorem aboutToCall_booted (s : State) (w : Bytes) : (s.aboutToCall w).ctl.booted = true := rfl
@[simp] theorem aboutToCall_pending (s : State) (w : Bytes) :
    (s.aboutToCall w).host.pending = .call w :: s.host.pending := rfl
@[simp] theorem aboutToCall_reg (s : State) (w : Bytes) : (s.aboutToCall w).reg = s.reg := rfl
@[simp] theorem aboutToCall_chip (s : State) (w : Bytes) : (s.aboutToCall w).chip = s.chip := rfl

/-! ### Registers after a cold reset and after a chip reset (R40) -/

@[simp] theorem coldReset_cfg (s : State) : s.coldReset.cfg = s.cfg := rfl
@[simp] theorem coldReset_booted (s : State) : s.coldReset.ctl.booted = false := rfl
@[simp] theorem coldReset_pending (s : State) : s.coldReset.host.pending = s.host.pending := rfl
@[simp] theorem coldReset_inFlight (s : State) : s.coldReset.wire.inFlight = [] := rfl
@[simp] theorem cold_recHeld (b : Bytes) : (Regs.cold b).recHeld = false := rfl
@[simp] theorem cold_bootSeed (b : Bytes) : (Regs.cold b).bootSeed = b := rfl

@[simp] theorem afterChipReset_bootSeed (r : Regs) : r.afterChipReset.bootSeed = r.bootSeed := rfl
@[simp] theorem afterChipReset_record (r : Regs) : r.afterChipReset.record = r.record := rfl
@[simp] theorem afterChipReset_recHeld (r : Regs) : r.afterChipReset.recHeld = r.recHeld := rfl
@[simp] theorem afterChipReset_tkValid (r : Regs) : r.afterChipReset.tkValid = false := rfl
@[simp] theorem afterChipReset_digestHeld (r : Regs) : r.afterChipReset.digestHeld = false := rfl
@[simp] theorem afterChipReset_cacheHeld (r : Regs) : r.afterChipReset.cacheHeld = false := rfl
@[simp] theorem afterChipReset_crc (r : Regs) : r.afterChipReset.crc = r.crc := rfl
@[simp] theorem afterChipReset_busCalls (r : Regs) : r.afterChipReset.busCalls = r.busCalls := rfl
@[simp] theorem afterChipReset_phase (r : Regs) : r.afterChipReset.phase = .ready := rfl

/-! ### The mark of a run without a value (R41), the line of a call that is cut off (R71) -/

@[simp] theorem markUnmeant_cfg (s : State) : s.markUnmeant.cfg = s.cfg := rfl
@[simp] theorem markUnmeant_reg (s : State) : s.markUnmeant.reg = s.reg := rfl
@[simp] theorem markUnmeant_wire (s : State) : s.markUnmeant.wire = s.wire := rfl
@[simp] theorem markUnmeant_host (s : State) : s.markUnmeant.host = s.host := rfl
@[simp] theorem markUnmeant_chip (s : State) : s.markUnmeant.chip = s.chip := rfl
@[simp] theorem markUnmeant_env (s : State) : s.markUnmeant.env = s.env := rfl
@[simp] theorem markUnmeant_unmeant (s : State) : s.markUnmeant.ctl.unmeant = true := rfl
@[simp] theorem markUnmeant_booted (s : State) : s.markUnmeant.ctl.booted = s.ctl.booted := rfl
@[simp] theorem markUnmeant_ending (s : State) : s.markUnmeant.ctl.ending = s.ctl.ending := rfl
@[simp] theorem endWith_unmeant (s : State) (e : Ending) : (s.endWith e).ctl.unmeant = s.ctl.unmeant := rfl
@[simp] theorem coldReset_unmeant (s : State) : s.coldReset.ctl.unmeant = s.ctl.unmeant := rfl

@[simp] theorem dyingAfter_cfg (s : State) (n : Nat) : (s.dyingAfter n).cfg = s.cfg := rfl
@[simp] theorem dyingAfter_reg (s : State) (n : Nat) : (s.dyingAfter n).reg = s.reg := rfl
@[simp] theorem dyingAfter_wire (s : State) (n : Nat) : (s.dyingAfter n).wire = s.wire := rfl
@[simp] theorem dyingAfter_host (s : State) (n : Nat) : (s.dyingAfter n).host = s.host := rfl
@[simp] theorem dyingAfter_chip (s : State) (n : Nat) : (s.dyingAfter n).chip = s.chip := rfl
@[simp] theorem dyingAfter_ctl (s : State) (n : Nat) : (s.dyingAfter n).ctl = s.ctl := rfl
@[simp] theorem lineOf_cfg (t s : State) (n : Nat) : (t.lineOf s n).cfg = t.cfg := rfl
@[simp] theorem lineOf_reg (t s : State) (n : Nat) : (t.lineOf s n).reg = t.reg := rfl
@[simp] theorem lineOf_wire (t s : State) (n : Nat) : (t.lineOf s n).wire = t.wire := rfl
@[simp] theorem lineOf_host (t s : State) (n : Nat) : (t.lineOf s n).host = t.host := rfl
@[simp] theorem lineOf_chip (t s : State) (n : Nat) : (t.lineOf s n).chip = t.chip := rfl
@[simp] theorem lineOf_ctl (t s : State) (n : Nat) : (t.lineOf s n).ctl = t.ctl := rfl

@[simp] theorem forged_cfg (s : State) (x : List Symbol) : (s.forged x).cfg = s.cfg := rfl
@[simp] theorem forged_reg (s : State) (x : List Symbol) : (s.forged x).reg = s.reg := rfl
@[simp] theorem forged_wire (s : State) (x : List Symbol) : (s.forged x).wire = s.wire := rfl
@[simp] theorem forged_host (s : State) (x : List Symbol) : (s.forged x).host = s.host := rfl
@[simp] theorem forged_ctl (s : State) (x : List Symbol) : (s.forged x).ctl = s.ctl := rfl
@[simp] theorem watchdogExpired_cfg (s : State) : s.watchdogExpired.cfg = s.cfg := rfl
@[simp] theorem watchdogExpired_reg (s : State) : s.watchdogExpired.reg = s.reg := rfl
@[simp] theorem watchdogExpired_wire (s : State) : s.watchdogExpired.wire = s.wire := rfl
@[simp] theorem watchdogExpired_host (s : State) : s.watchdogExpired.host = s.host := rfl
@[simp] theorem watchdogExpired_ctl (s : State) : s.watchdogExpired.ctl = s.ctl := rfl

/-! ### The chip -/

@[simp] theorem holdReply_slots (ch : Chip) (b : Bytes) : (ch.holdReply b).slots = ch.slots := rfl
@[simp] theorem holdReply_counter0 (ch : Chip) (b : Bytes) : (ch.holdReply b).counter0 = ch.counter0 := rfl
@[simp] theorem holdReply_locks (ch : Chip) (b : Bytes) : (ch.holdReply b).locks = ch.locks := rfl
@[simp] theorem holdReply_power (ch : Chip) (b : Bytes) : (ch.holdReply b).power = ch.power := rfl
@[simp] theorem dropTempKey_slots (ch : Chip) : ch.dropTempKey.slots = ch.slots := rfl
@[simp] theorem dropTempKey_counter0 (ch : Chip) : ch.dropTempKey.counter0 = ch.counter0 := rfl
@[simp] theorem dropTempKey_locks (ch : Chip) : ch.dropTempKey.locks = ch.locks := rfl
@[simp] theorem dropTempKey_valid (ch : Chip) : ch.dropTempKey.tempKeyValid = false := rfl
@[simp] theorem setTempKey_slots (ch : Chip) (v : Bytes) : (ch.setTempKey v).slots = ch.slots := rfl
@[simp] theorem setTempKey_counter0 (ch : Chip) (v : Bytes) : (ch.setTempKey v).counter0 = ch.counter0 := rfl
@[simp] theorem setTempKey_locks (ch : Chip) (v : Bytes) : (ch.setTempKey v).locks = ch.locks := rfl
@[simp] theorem setTempKey_tempKey (ch : Chip) (v : Bytes) : (ch.setTempKey v).tempKey = v := rfl
@[simp] theorem setTempKey_valid (ch : Chip) (v : Bytes) : (ch.setTempKey v).tempKeyValid = true := rfl
@[simp] theorem storeBlock_counter0 (ch : Chip) (p2 : Word16) (v : Bytes) : (ch.storeBlock p2 v).counter0 = ch.counter0 := rfl
@[simp] theorem storeBlock_locks (ch : Chip) (p2 : Word16) (v : Bytes) : (ch.storeBlock p2 v).locks = ch.locks := rfl
@[simp] theorem storeBlock_slots (ch : Chip) (p2 : Word16) (v : Bytes) :
    (ch.storeBlock p2 v).slots = memWrite ch.slots (blockBase p2) v := rfl
@[simp] theorem fallAsleep_slots (ch : Chip) : ch.fallAsleep.slots = ch.slots := rfl
@[simp] theorem fallAsleep_counter0 (ch : Chip) : ch.fallAsleep.counter0 = ch.counter0 := rfl
@[simp] theorem fallAsleep_locks (ch : Chip) : ch.fallAsleep.locks = ch.locks := rfl
@[simp] theorem goIdle_slots (ch : Chip) : ch.goIdle.slots = ch.slots := rfl
@[simp] theorem goIdle_counter0 (ch : Chip) : ch.goIdle.counter0 = ch.counter0 := rfl
@[simp] theorem goIdle_locks (ch : Chip) : ch.goIdle.locks = ch.locks := rfl

end Sys2Proof.Machine
end

