-- ==== Sys2Proof/Laws/Chip.lean ====
section
/-! SUPPORT. What nothing the chip hears can undo (spec/20_memory.md R50, R57, R60; spec/42_selink.md R132): the canonical
form of its slots, its monotonic counter, its locks, its access rules and its serial number. -/

namespace Sys2Proof.Machine

open Sys2Proof.Config (Params)

/-- What a chip keeps, whatever it hears. -/
structure Chip.Kept (a b : Chip) : Prop where
  wf : memWf a.slots = true → memWf b.slots = true
  counter : a.counter0.toNat ≤ b.counter0.toNat
  locks : ∃ new, b.locks = new ++ a.locks
  policy : b.policy = a.policy
  serial : b.serial = a.serial

theorem kept_refl (a : Chip) : a.Kept a := ⟨id, Nat.le_refl _, ⟨[], rfl⟩, rfl, rfl⟩

theorem kept_trans {a b c : Chip} (h : a.Kept b) (h' : b.Kept c) : a.Kept c := by
  obtain ⟨n, hn⟩ := h.locks
  obtain ⟨m, hm⟩ := h'.locks
  exact ⟨fun w => h'.wf (h.wf w), Nat.le_trans h.counter h'.counter, ⟨m ++ n, by rw [hm, hn, List.append_assoc]⟩,
    h'.policy.trans h.policy, h'.serial.trans h.serial⟩

/-- A change that touches none of it. -/
theorem kept_of_eq {a b : Chip} (h1 : b.slots = a.slots) (h2 : b.counter0 = a.counter0) (h3 : b.locks = a.locks)
    (h4 : b.policy = a.policy) (h5 : b.serial = a.serial) : a.Kept b :=
  ⟨fun w => by rw [h1]; exact w, by rw [h2], ⟨[], h3⟩, h4, h5⟩

theorem kept_store (a : Chip) (p2 : Word16) (v : Bytes) : a.Kept (a.storeBlock p2 v) :=
  ⟨fun w => memWrite_wf w _ _, Nat.le_refl _, ⟨[], rfl⟩, rfl, rfl⟩

/-- One more attempt, only below the limit (R57, R58). -/
theorem kept_count {a b : Chip} {c : Params} (h : ¬ a.budgetSpent c = true) (h1 : b.slots = a.slots)
    (h2 : b.counter0 = a.counter0 + 1) (h3 : b.locks = a.locks) (h4 : b.policy = a.policy) (h5 : b.serial = a.serial) :
    a.Kept b := by
  refine ⟨fun w => by rw [h1]; exact w, ?_, ⟨[], h3⟩, h4, h5⟩
  have hlt : a.counter0.toNat < (a.matchCount c).toNat := by
    simp only [Chip.budgetSpent, decide_eq_true_eq, BitVec.not_le] at h
    exact h
  have := (a.matchCount c).isLt
  rw [h2, BitVec.toNat_add, show (1 : CounterValue).toNat = 1 from rfl, Nat.mod_eq_of_lt (by omega)]
  exact Nat.le_succ _

theorem kept_ite {a : Chip} {p : Prop} [Decidable p] {x y : Reply × Chip} (hx : p → a.Kept x.2) (hy : ¬ p → a.Kept y.2) :
    a.Kept (if p then x else y).2 := by
  split
  · exact hx ‹_›
  · exact hy ‹_›

theorem kept_same {a b : Chip} (h : b.slots = a.slots ∧ b.counter0 = a.counter0 ∧ b.locks = a.locks
    ∧ b.policy = a.policy ∧ b.serial = a.serial) : a.Kept b := kept_of_eq h.1 h.2.1 h.2.2.1 h.2.2.2.1 h.2.2.2.2

theorem doRead_kept (c : Params) (a : Chip) (p2 : Word16) : a.Kept (a.doRead c p2).2 := by
  unfold Chip.doRead
  refine kept_ite (fun _ => ?_) (fun _ => kept_refl a)
  split
  · exact kept_refl a
  · exact kept_ite (fun _ => kept_refl a) (fun _ => kept_refl a)
  · exact kept_refl a

theorem doWrite_kept (c : Params) (a : Chip) (p2 : Word16) (d : Bytes) : a.Kept (a.doWrite c p2 d).2 :=
  kept_ite (fun _ => kept_store a _ _) (fun _ => kept_refl a)

theorem doWriteMac_kept (c : Params) (a : Chip) (p2 : Word16) (d : Bytes) : a.Kept (a.doWriteMac c p2 d).2 :=
  kept_ite (fun _ => kept_ite (fun _ => kept_store a _ _) (fun _ => kept_refl a)) (fun _ => kept_refl a)

theorem doCounterIncr_kept (c : Params) (a : Chip) (id : SlotId) : a.Kept (a.doCounterIncr c id).2 :=
  kept_ite (fun h => kept_count (c := c) h.2 rfl rfl rfl rfl rfl) (fun _ => kept_refl a)

theorem doHashStart_kept (c : Params) (a : Chip) (k : SlotId) : a.Kept (a.doHashStart c k).2 :=
  kept_ite (fun _ => kept_ite (fun _ => kept_ite (fun _ => kept_refl a)
    (fun h => kept_count (c := c) h rfl rfl rfl rfl rfl)) (fun _ => kept_same ⟨rfl, rfl, rfl, rfl, rfl⟩))
    (fun _ => kept_refl a)

theorem doHashEnd_kept (c : Params) (a : Chip) (m : Bytes) : a.Kept (a.doHashEnd c m).2 := by
  unfold Chip.doHashEnd
  split
  · exact kept_ite (fun _ => kept_same ⟨rfl, rfl, rfl, rfl, rfl⟩) (fun _ => kept_refl a)
  · exact kept_refl a

theorem doCheckMac_kept (c : Params) (a : Chip) (k : SlotId) (b : Bytes) : a.Kept (a.doCheckMac c k b).2 :=
  kept_ite (fun _ => kept_ite (fun _ => kept_same ⟨rfl, rfl, rfl, rfl, rfl⟩) (fun _ => kept_same ⟨rfl, rfl, rfl, rfl, rfl⟩))
    (fun _ => kept_refl a)

theorem perform_kept (c : Params) (a : Chip) (cmd : Command) : a.Kept (a.perform c cmd).2 := by
  refine kept_ite (fun _ => kept_refl a) (fun _ => ?_)
  refine kept_ite (fun _ => doRead_kept c a _) (fun _ => ?_)
  refine kept_ite (fun _ => doWrite_kept c a _ _) (fun _ => ?_)
  refine kept_ite (fun _ => doWriteMac_kept c a _ _) (fun _ => ?_)
  refine kept_ite (fun _ => kept_ite (fun _ => kept_same ⟨rfl, rfl, rfl, rfl, rfl⟩) (fun _ => kept_refl a)) (fun _ => ?_)
  refine kept_ite (fun _ => kept_ite (fun _ => kept_same ⟨rfl, rfl, rfl, rfl, rfl⟩) (fun _ => kept_refl a)) (fun _ => ?_)
  refine kept_ite (fun _ => kept_ite (fun _ => kept_same ⟨rfl, rfl, rfl, rfl, rfl⟩) (fun _ => kept_refl a)) (fun _ => ?_)
  refine kept_ite (fun _ => doCheckMac_kept c a _ _) (fun _ => ?_)
  refine kept_ite (fun _ => kept_ite (fun _ => kept_same ⟨rfl, rfl, rfl, rfl, rfl⟩) (fun _ => kept_refl a)) (fun _ => ?_)
  refine kept_ite (fun _ => kept_ite (fun _ => kept_refl a) (fun _ => kept_refl a)) (fun _ => ?_)
  refine kept_ite (fun _ => doCounterIncr_kept c a _) (fun _ => ?_)
  refine kept_ite (fun _ => kept_same ⟨rfl, rfl, rfl, rfl, rfl⟩) (fun _ => ?_)
  refine kept_ite (fun _ => ⟨id, Nat.le_refl _, ⟨[(cmd.p1, cmd.p2)], rfl⟩, rfl, rfl⟩) (fun _ => ?_)
  refine kept_ite (fun _ => kept_same ⟨rfl, rfl, rfl, rfl, rfl⟩) (fun _ => ?_)
  refine kept_ite (fun _ => doHashStart_kept c a _) (fun _ => ?_)
  exact kept_ite (fun _ => doHashEnd_kept c a _) (fun _ => kept_refl a)

theorem holdReply_kept (a : Chip) (b : Bytes) : a.Kept (a.holdReply b) := kept_of_eq rfl rfl rfl rfl rfl

/-- Falling asleep, whatever for. -/
theorem fallAsleep_kept (a : Chip) : a.Kept a.fallAsleep := kept_of_eq rfl rfl rfl rfl rfl

theorem kept_iteBool {a x y : Chip} {b : Bool} (hx : a.Kept x) (hy : a.Kept y) : a.Kept (if b then x else y) := by
  split
  · exact hx
  · exact hy

theorem command_kept (c : Params) (a : Chip) (cmd : Command) : a.Kept (a.command c cmd) := by
  have h0 : a.Kept a.drawWatchdog.2 := kept_of_eq rfl rfl rfl rfl rfl
  have h1 (executed : Bool) : a.Kept (if executed then (a.drawWatchdog.2.perform c cmd).2 else a.drawWatchdog.2) :=
    kept_iteBool (kept_trans h0 (perform_kept c _ cmd)) h0
  unfold Chip.command
  dsimp only
  split
  · exact kept_trans h0 (kept_trans (perform_kept c _ cmd) (holdReply_kept _ _))
  · next executed lost _ =>
    refine kept_trans (h1 executed) (kept_trans (kept_iteBool ?_ (kept_refl _)) (holdReply_kept _ _))
    exact kept_of_eq rfl rfl rfl rfl rfl
  · next executed answers _ =>
    have h2 := kept_trans (h1 executed) (fallAsleep_kept _)
    exact kept_iteBool (kept_trans h2 (holdReply_kept _ _)) h2

theorem hearAwake_kept (c : Params) (a : Chip) (msg : Bytes) : a.Kept (a.hearAwake c msg) := by
  unfold Chip.hearAwake
  split
  · exact kept_of_eq rfl rfl rfl rfl rfl
  split
  · exact kept_of_eq rfl rfl rfl rfl rfl
  split
  · exact fallAsleep_kept a
  split
  · exact command_kept c a _
  · split
    · exact holdReply_kept _ _
    · exact kept_refl a

theorem hear_kept (c : Params) (a : Chip) (msg : Bytes) : a.Kept (a.hear c msg) := by
  have h0 : a.Kept a.drawLapse.2 := kept_of_eq rfl rfl rfl rfl rfl
  unfold Chip.hear
  split
  · exact kept_iteBool (kept_trans h0 (fallAsleep_kept _)) (kept_trans h0 (hearAwake_kept c _ msg))
  · exact kept_refl a
  · exact kept_refl a

theorem hearSymbols_kept (c : Params) (a : Chip) (x : List Symbol) : a.Kept (a.hearSymbols c x) := by
  unfold Chip.hearSymbols
  split
  · exact hear_kept c a _
  · exact kept_refl a

theorem wakeUp_kept (c : Params) (a : Chip) : a.Kept (a.wakeUp c) := by
  have h0 : a.Kept a.drawLapse.2.drawCoin.2 := kept_of_eq rfl rfl rfl rfl rfl
  have awoken (b : Chip) : b.Kept { b.holdReply (statusFrame c c.st.wake) with power := .awake } :=
    kept_of_eq rfl rfl rfl rfl rfl
  unfold Chip.wakeUp
  split
  · refine kept_trans (kept_iteBool (kept_trans h0 (fallAsleep_kept _)) (kept_iteBool ?_ h0)) (awoken _)
    exact kept_trans h0 (kept_of_eq rfl rfl rfl rfl rfl)
  · exact awoken a
  · exact awoken a

theorem answer_kept (c : Params) (a : Chip) : a.Kept (a.answer c).2 := by
  unfold Chip.answer
  split
  · split
    · dsimp only
      split <;> exact kept_of_eq rfl rfl rfl rfl rfl
    · exact kept_refl a
  · exact kept_of_eq rfl rfl rfl rfl rfl
  · exact kept_refl a

/-- What WIRE makes of an outbound message keeps what the message itself would. -/
theorem moved_of {P : Chip → Prop} (c : Params) (own : Chip → Chip) (m : Config.OutMove) {a : Chip} (ha : P a)
    (ho : ∀ d, P d → P (own d)) (hf : ∀ d x, P d → P (d.hearSymbols c x)) : P (a.moved c own m) := by
  unfold Chip.moved
  split
  · exact ho a ha
  · next messages =>
    induction messages generalizing a with
    | nil => exact ha
    | cons w l ih => exact ih (by cases w; exacts [ho a ha, hf a _ ha])

theorem moved_kept (c : Params) (own : Chip → Chip) (ho : ∀ d : Chip, d.Kept (own d)) (m : Config.OutMove) (a : Chip) :
    a.Kept (a.moved c own m) :=
  moved_of c own m (kept_refl a) (fun d h => kept_trans h (ho d)) (fun d x h => kept_trans h (hearSymbols_kept c d x))

theorem blockPowerCycled_kept (a : Chip) : a.Kept a.blockPowerCycled := by
  unfold Chip.blockPowerCycled
  dsimp only
  split <;> exact kept_of_eq rfl rfl rfl rfl rfl

end Sys2Proof.Machine
end

