-- ==== Sys2Proof/Laws/LineKeeps.lean ====
section
/-! SUPPORT. What the BitBus operations and a transaction keep (spec/40_bitbus.md, spec/42_selink.md R119): a property that
each small write keeps, whatever the line and the far end do; and the error outcomes they can end in. -/

namespace Sys2Proof.Machine

/-- A property kept by every small write of a transaction but to `PHASE`, `RETRY` and `BUSCALLS`. -/
structure LineKeeps (W : Prop) (J : State → Prop) : Prop where
  env : ∀ s (e : Env), J s → J { s with env := e }
  tof : ∀ s (b : Bool), J s → J { s with reg := { s.reg with tof := b } }
  crc : ∀ s (v : Word16), J s → J { s with reg := { s.reg with crc := v } }
  lstate : ∀ s (l : LState), J s → J { s with reg := { s.reg with lstate := l } }
  clear : ∀ s, J s → J { s with reg := { s.reg with tkValid := false } }
  baud : ∀ s, J s → J { s with reg := { s.reg with baudsel := false } }
  tx : ∀ s (b : Bytes), (W → b.length ≤ 256) → J s → J { s with reg := { s.reg with txbuf := b } }
  rx : ∀ s (b : Bytes), (W → b.length ≤ 256) → J s → J { s with reg := { s.reg with rxbuf := b } }
  wire : ∀ s (w : Wire), w.inFlight = s.wire.inFlight ∨ w.inFlight = [] → J s → J { s with wire := w }
  chip : ∀ s (ch : Chip), s.chip.Kept ch → J s → J { s with chip := ch }

/-- `x` is no stop. -/
def NoStop (e : Err) : Prop := ∀ f, e ≠ .stop f

variable {W : Prop} {J : State → Prop}

/-- How a BitBus operation ends in error: a `BusTimeout` (R107). -/
def LineFail (J : State → Prop) (e : Err) (t : State) : Prop := J t ∧ ∃ tag, e = .busTimeout tag

theorem sendSymbols_shape (xs : List Symbol) (s : State) : ∃ e w, sendSymbols xs s = .ok () { s with env := e, wire := w }
    ∨ sendSymbols xs s = .error (.busTimeout .tx) { s with env := e, wire := w } := by
  induction xs generalizing s with
  | nil => exact ⟨s.env, s.wire, .inl rfl⟩
  | cons x xs ih =>
    cases hst : (s.env.stall.next Config.freeStall).1 with
    | true =>
      refine ⟨{ s.env with stall := (s.env.stall.next Config.freeStall).2 }, s.wire, .inr ?_⟩
      simp only [sendSymbols, bind_run, drawStall, hst, if_true, raise_run]
    | false =>
      obtain ⟨e, w, h⟩ := ih { s with
        env := { s.env with stall := (s.env.stall.next Config.freeStall).2 }
        wire := { s.wire with trace := s.wire.trace ++ [.sym x s.reg.baudsel], inFlight := s.wire.inFlight ++ [x] } }
      refine ⟨e, w, ?_⟩
      simp only [sendSymbols, bind_run, drawStall, hst, Bool.false_eq_true, if_false, lineTx, modifyState_run]
      exact h

/-- Either way a `send` ends: the draws, the line, and what the chip makes of what reached it. -/
theorem send_shape (bs : Bytes) (s : State) : ∃ e w ch, w.inFlight = [] ∧ s.chip.Kept ch ∧
    (send bs s = .ok () { s with env := e, wire := w, chip := ch }
    ∨ send bs s = .error (.busTimeout .tx) { s with env := e, wire := w, chip := ch }) := by
  obtain ⟨e, w, h⟩ := sendSymbols_shape (serializeBytes s.cfg bs) s
  refine ⟨e, { w with inFlight := [], outMoves := (w.outMoves.next Config.freeOutMove).2 },
    s.chip.moved s.cfg (fun d => d.hearSymbols s.cfg w.inFlight) (w.outMoves.next Config.freeOutMove).1, rfl,
    moved_kept _ _ (fun d => hearSymbols_kept _ d _) _ _, ?_⟩
  rcases h with h | h
  · exact .inl (by unfold send; rw [h]; rfl)
  · exact .inr (by unfold send; rw [h]; rfl)

theorem triple_send (hJ : LineKeeps W J) (bs : Bytes) : Triple J (send bs) (fun _ t => J t) (LineFail J) := by
  intro s hs
  obtain ⟨e, w, ch, hw, hk, h⟩ := send_shape bs s
  have hj : J { s with env := e, wire := w, chip := ch } :=
    hJ.chip { s with env := e, wire := w } ch hk (hJ.wire { s with env := e } w (.inr hw) (hJ.env s e hs))
  rcases h with h | h <;> rw [h]
  · exact ⟨fun _ _ e => (by cases e; exact hj), fun _ _ e => by cases e⟩
  · exact ⟨fun _ _ e => (by cases e), fun _ _ e => by cases e; exact ⟨hj, _, rfl⟩⟩

/-- Either way `wake` ends (R104). -/
theorem wake_shape (s : State) : ∃ e w ch, w.inFlight = s.wire.inFlight ∧ s.chip.Kept ch ∧
    (wake s = .ok () { s with env := e, wire := w, chip := ch, reg := { s.reg with baudsel := false, lstate := .awake } }
    ∨ wake s = .error (.busTimeout .tx) { s with env := e, wire := w, chip := ch, reg := { s.reg with baudsel := false } }) := by
  cases hst : (s.env.stall.next Config.freeStall).1 with
  | true =>
    refine ⟨{ s.env with stall := (s.env.stall.next Config.freeStall).2 }, s.wire, s.chip, rfl, kept_refl _, .inr ?_⟩
    simp only [wake, bind_run, modifyReg_run, drawStall, hst, if_true, raise_run]
  | false =>
    refine ⟨{ s.env with stall := (s.env.stall.next Config.freeStall).2 },
      { s.wire with trace := s.wire.trace ++ [.low true], outMoves := (s.wire.outMoves.next Config.freeOutMove).2, arrived := [] },
      s.chip.moved s.cfg (fun d => d.wakeUp s.cfg) (s.wire.outMoves.next Config.freeOutMove).1, rfl,
      moved_kept _ _ (fun d => wakeUp_kept _ d) _ _, .inl ?_⟩
    simp only [wake, bind_run, modifyReg_run, drawStall, hst, Bool.false_eq_true, if_false, lineLow, modifyState_run,
      discardArrived]

theorem triple_wake (hJ : LineKeeps W J) : Triple J wake (fun _ t => J t) (LineFail J) := by
  intro s hs
  obtain ⟨e, w, ch, hw, hk, h⟩ := wake_shape s
  have hj : J { s with env := e, wire := w, chip := ch, reg := { s.reg with baudsel := false } } :=
    hJ.baud { s with env := e, wire := w, chip := ch } (hJ.chip { s with env := e, wire := w } ch hk
      (hJ.wire { s with env := e } w (.inl hw) (hJ.env s e hs)))
  rcases h with h | h <;> rw [h]
  · exact ⟨fun _ _ e => (by cases e; exact hJ.lstate _ _ hj), fun _ _ e => by cases e⟩
  · exact ⟨fun _ _ e => (by cases e), fun _ _ e => by cases e; exact ⟨hj, _, rfl⟩⟩

/-- A property kept by the line's operations, as far as the messages that `M` admits go, and by every other small write of
an attempt. -/
structure LineOps (W : Prop) (M : Bytes → Prop) (J : State → Prop) : Prop where
  env : ∀ s (e : Env), J s → J { s with env := e }
  tof : ∀ s (b : Bool), J s → J { s with reg := { s.reg with tof := b } }
  crc : ∀ s (v : Word16), J s → J { s with reg := { s.reg with crc := v } }
  lstate : ∀ s (l : LState), J s → J { s with reg := { s.reg with lstate := l } }
  clear : ∀ s, J s → J { s with reg := { s.reg with tkValid := false } }
  tx : ∀ s (b : Bytes), (W → b.length ≤ 256) → J s → J { s with reg := { s.reg with txbuf := b } }
  rx : ∀ s (b : Bytes), (W → b.length ≤ 256) → J s → J { s with reg := { s.reg with rxbuf := b } }
  arrived : ∀ s (x : List Symbol), J s → J { s with wire := { s.wire with arrived := x } }
  inMoves : ∀ s (d : Draws Config.InMove), J s → J { s with wire := { s.wire with inMoves := d } }
  answer : ∀ s, J s → J { s with chip := (s.chip.answer s.cfg).2 }
  token : ∀ b, M [b]
  send : ∀ bs, M bs → Triple J (send bs) (fun _ t => J t) (LineFail J)
  wake : Triple J wake (fun _ t => J t) (LineFail J)

/-- Every message admitted. -/
def AnyMessage (_ : Bytes) : Prop := True

theorem LineKeeps.ops (hJ : LineKeeps W J) : LineOps W AnyMessage J where
  env := hJ.env
  tof := hJ.tof
  crc := hJ.crc
  lstate := hJ.lstate
  clear := hJ.clear
  tx := hJ.tx
  rx := hJ.rx
  arrived s _ h := hJ.wire s _ (.inl rfl) h
  inMoves s _ h := hJ.wire s _ (.inl rfl) h
  answer s h := hJ.chip s _ (answer_kept _ _) h
  token _ := trivial
  send bs _ := triple_send hJ bs
  wake := triple_wake hJ

variable {M : Bytes → Prop}

theorem triple_idle (hJ : LineOps W M J) : Triple J idle (fun _ t => J t) (LineFail J) :=
  triple_bind (Q := fun _ t => J t) (triple_getCfg (fun _ h => h)) (fun _ => triple_bind (hJ.send _ (hJ.token _))
    (fun _ => triple_modifyReg (fun s hs => hJ.lstate s _ hs)))

theorem triple_sleep (hJ : LineOps W M J) : Triple J sleep (fun _ t => J t) (LineFail J) :=
  triple_bind (Q := fun _ t => J t) (triple_modifyReg (fun s hs => hJ.clear s hs)) (fun _ =>
    triple_bind (Q := fun _ t => J t) (triple_getCfg (fun _ h => h)) (fun _ => triple_bind (hJ.send _ (hJ.token _))
    (fun _ => triple_modifyReg (fun s hs => hJ.lstate s _ hs))))

theorem triple_closeLine (hJ : LineOps W M J) (c : Close) : Triple J (closeLine c) (fun _ t => J t) (LineFail J) := by
  cases c
  · exact triple_idle hJ
  · exact triple_sleep hJ

/-! ### Receiving -/

theorem triple_groupBits (hJ : LineOps W M J) (c : Config.Params) (xs : List Symbol) {E : Err → State → Prop} :
    Triple J (groupBits c xs) (fun _ t => J t) E := by
  induction xs with
  | nil => exact triple_pure (fun _ h => h)
  | cons x xs ih =>
    refine triple_bind (Q := fun _ t => J t) ?_ (fun b => triple_bind ih (fun _ => triple_pure (fun _ h => h)))
    exact triple_ite (fun _ => triple_pure (fun _ h => h)) (fun _ => triple_ite (fun _ => triple_pure (fun _ h => h))
      (fun _ => triple_run _ _ (fun _ => rfl) (fun s hs => hJ.env s _ hs)))

theorem triple_readGroups (hJ : LineOps W M J) (c : Config.Params) (n : Nat) (xs : List Symbol) {E : Err → State → Prop} :
    Triple J (readGroups c n xs) (fun r t => J t ∧ r.length = n) E := by
  induction n generalizing xs with
  | zero => exact triple_pure (fun _ h => ⟨h, rfl⟩)
  | succ n ih =>
    refine triple_bind (triple_groupBits hJ c _) (fun b => triple_bind (ih _) (fun r => ?_))
    exact triple_pure (fun _ h => ⟨h.1, by rw [List.length_cons, h.2]⟩)

theorem triple_deserialize (hJ : LineOps W M J) (xs : List Symbol) (n : Nat) {E : Err → State → Prop} :
    Triple J (deserialize xs n) (fun r t => J t ∧ r.length ≤ n) E :=
  triple_bind (Q := fun _ t => J t) (triple_getCfg (fun _ h => h)) (fun c =>
    triple_conseq (triple_readGroups hJ c _ _) (fun _ h => h) (fun _ _ h => ⟨h.1, by rw [h.2]; exact Nat.min_le_left _ _⟩)
      (fun _ _ h => h))

theorem triple_lineRxBurst (hJ : LineOps W M J) {E : Err → State → Prop} : Triple J lineRxBurst (fun _ t => J t) E := by
  intro s hs
  unfold lineRxBurst
  cases h : (s.wire.inMoves.next Config.freeInMove).1 with
  | inject b =>
    simp only [h]
    exact ⟨fun _ _ e => (by cases e; exact hJ.inMoves s _ hs), fun _ _ e => by cases e⟩
  | pass =>
    simp only [h]
    refine ⟨fun _ _ e => ?_, fun _ _ e => by cases e⟩
    cases e
    exact hJ.answer { s with wire := { s.wire with inMoves := (s.wire.inMoves.next Config.freeInMove).2 } }
      (hJ.inMoves s _ hs)

theorem triple_sendPrompt (hJ : LineOps W M J) : Triple J sendPrompt (fun _ t => J t) (LineFail J) := by
  refine triple_bind (Q := fun _ t => J t) (triple_getCfg (fun _ h => h)) (fun c => ?_)
  split
  · exact hJ.send _ (hJ.token _)
  · exact triple_pure (fun _ h => h)

/-- `RXBUF` has its width (R20). -/
theorem rxHeld_length (b : Bytes) : (rxHeld b).length ≤ 256 := by
  unfold rxHeld
  split
  · assumption
  · exact Nat.le_of_eq (List.length_ofFn ..)

theorem triple_receive (hJ : LineOps W M J) (n : Nat) :
    Triple J (receive n) (fun r t => J t ∧ r.length ≤ n) (LineFail J) := by
  refine triple_bind (Q := fun _ t => J t) (triple_modifyReg (fun s hs => hJ.tof s _ hs)) (fun _ =>
    triple_bind (Q := fun _ t => J t) (triple_run (fun _ => ()) _ (fun _ => rfl) (fun s hs => hJ.arrived s _ hs))
    (fun _ => triple_bind (triple_sendPrompt hJ) (fun _ => triple_bind (triple_lineRxBurst hJ) (fun b =>
    triple_bind (Q := fun _ t => J t) (triple_modifyReg (fun s hs => hJ.tof s _ hs)) (fun _ => triple_ite
    (fun _ => triple_raise (fun _ h => ⟨h, _, rfl⟩)) (fun _ => triple_bind (triple_deserialize hJ _ _) (fun r => ?_)))))))
  exact triple_pre (fun s hs => triple_conseq (P := J) (Q := fun a t => J t ∧ a = r) (E := LineFail J)
    (triple_bind (Q := fun _ t => J t) (triple_modifyReg (fun t ht => hJ.rx t _ (fun _ => rxHeld_length r) ht))
      (fun _ => triple_pure (fun _ h => ⟨h, rfl⟩)))
    (fun t ht => by rw [ht]; exact hs.1) (fun a t h => ⟨h.1, by rw [h.2]; exact hs.2⟩) (fun _ _ h => h))

/-! ### Frames -/

theorem triple_crc16 (hJ : LineOps W M J) (v : Word16) (b : Bytes) {E : Err → State → Prop} :
    Triple J (crc16 v b) (fun _ t => J t) E :=
  triple_bind (Q := fun _ t => J t) (triple_getCfg (fun _ h => h)) (fun _ =>
    triple_bind (Q := fun _ t => J t) (triple_modifyReg (fun s hs => hJ.crc s _ hs)) (fun _ => triple_pure (fun _ h => h)))

theorem triple_encodeCommand (hJ : LineOps W M J) (o p : Byte) (q : Word16) (d : Bytes) (hd : W → d.length ≤ 248)
    {E : Err → State → Prop} :
    Triple J (encodeCommand o p q d) (fun f t => J t ∧ f = commandFrame t.cfg o p q d) E := by
  intro s hs
  have h : encodeCommand o p q d s = .ok (commandFrame s.cfg o p q d) { s with reg := { s.reg with
      crc := frameCrc s.cfg (commandBody o p q d), txbuf := commandFrame s.cfg o p q d } } := rfl
  rw [h]
  refine ⟨fun _ _ e => ?_, fun _ _ e => by cases e⟩
  cases e
  refine ⟨hJ.tx { s with reg := { s.reg with crc := frameCrc s.cfg (commandBody o p q d) } } _ (fun w => ?_)
    (hJ.crc s _ hs), rfl⟩
  have := hd w
  simp only [commandFrame, List.length_cons, List.length_append, commandBody, u16le, List.length_nil]
  omega

theorem triple_decodeResponse (hJ : LineOps W M J) (raw : Bytes) (n : Nat) :
    Triple J (decodeResponse raw n) (fun r t => J t ∧ r.length = n) (fun e t => J t ∧ NoStop e) := by
  have no (e : Err) (he : NoStop e) {Q : Bytes → State → Prop} : Triple J (raise e : Op Bytes) Q (fun e t => J t ∧ NoStop e) :=
    triple_raise (fun _ h => ⟨h, he⟩)
  unfold decodeResponse
  refine triple_ite (fun _ => no _ (by rintro _ h; cases h)) (fun _ => triple_ite (fun _ => triple_ite
    (fun _ => no _ (by rintro _ h; cases h)) (fun _ => no _ (by rintro _ h; cases h))) (fun hc => triple_ite
    (fun _ => no _ (by rintro _ h; cases h)) (fun hl => triple_bind (Q := fun _ t => J t) (triple_getCfg (fun _ h => h))
    (fun _ => triple_bind (triple_crc16 hJ _ _) (fun _ => triple_ite (fun _ => no _ (by rintro _ h; cases h))
    (fun _ => triple_pure (fun _ h => ⟨h, ?_⟩)))))))
  simp only [Decidable.not_not] at hc
  unfold slice
  rw [List.length_take, List.length_drop]
  omega

/-! ### A transaction -/

theorem triple_unlessRetried {α : Type} {p : Err → Bool} {x : Op α} {Q : α → State → Prop}
    (hx : Triple J x Q (fun e t => J t ∧ NoStop e)) (hQ : ∀ a t, Q a t → J t) :
    Triple J (unlessRetried p x) (fun r t => J t ∧ ∀ a, r = some a → Q a t) (fun e t => J t ∧ NoStop e) := by
  refine triple_catching (E' := fun e t => J t ∧ NoStop e) (triple_bind hx (fun a => triple_pure (fun t h => ⟨hQ a t h, ?_⟩)))
    (fun f s h => h) (fun e _ => triple_ite (fun _ => triple_pure (fun _ h => ⟨h.1, by rintro a ⟨⟩⟩))
      (fun _ => triple_raise (fun _ h => h)))
  rintro b ⟨⟩
  exact h

theorem line_noStop (e : Err) (t : State) (h : LineFail J e t) : J t ∧ NoStop e :=
  ⟨h.1, by obtain ⟨_, tag, rfl⟩ := h; rintro f ⟨⟩⟩

/-- One attempt, after its count: the payload of the length expected, or a failure to be retried. -/
theorem triple_attempt (hJ : LineOps W M J) (e : Expect) :
    Triple J (do
      let got ← unlessRetried retriedReceive (receive (Expect.want e))
      match got with
      | none => pure none
      | some r =>
        match e with
        | .raw n => if r.length < n then pure none else pure (some r)
        | .status => unlessRetried retriedDecode (decodeResponse r (Expect.want e - 3))
        | .data _ => unlessRetried retriedDecode (decodeResponse r (Expect.want e - 3)))
      (fun r t => J t ∧ ∀ p, r = some p → Expect.long e p) (fun e t => J t ∧ NoStop e) := by
  have hr := triple_unlessRetried (p := retriedReceive) (triple_conseq (triple_receive hJ (Expect.want e)) (fun _ h => h)
    (fun _ _ h => h) line_noStop) (fun _ _ h => h.1)
  refine triple_bind hr (fun got => ?_)
  cases got with
  | none => exact triple_pure (fun _ h => ⟨h.1, by rintro p ⟨⟩⟩)
  | some r =>
    have hd (n : Nat) (hn : ∀ p : Bytes, p.length = n → Expect.long e p) :
        Triple (fun t => J t ∧ ∀ a, some r = some a → J t ∧ a.length ≤ Expect.want e)
          (unlessRetried retriedDecode (decodeResponse r n)) (fun r t => J t ∧ ∀ p, r = some p → Expect.long e p)
          (fun e t => J t ∧ NoStop e) :=
      triple_conseq (triple_unlessRetried (p := retriedDecode) (triple_decodeResponse hJ r n) (fun _ _ h => h.1))
        (fun _ h => h.1) (fun _ _ h => ⟨h.1, fun p hp => hn p (h.2 p hp).2⟩) (fun _ _ h => h)
    cases e with
    | raw n =>
      exact triple_ite (fun _ => triple_pure (fun _ h => ⟨h.1, by rintro p ⟨⟩⟩))
        (fun _ => triple_pure (fun _ h => ⟨h.1, by rintro p _ m ⟨⟩⟩))
    | status => exact hd _ (by rintro p _ m ⟨⟩)
    | data n => exact hd _ (by rintro p hp m ⟨⟩; exact hp)

/-- What the counts and the phase of a transaction change. -/
structure SeqKeeps (W : Prop) (J : State → Prop) : Prop extends LineKeeps W J where
  phase : ∀ s (p : Phase), J s → J { s with reg := { s.reg with phase := p } }
  retry : ∀ s (n : Nat), J s → J { s with reg := { s.reg with retry := n } }
  calls : ∀ s, J s → J { s with reg := { s.reg with busCalls := s.reg.busCalls + 1 } }

/-- The same, over messages admitted. -/
structure SeqOps (W : Prop) (M : Bytes → Prop) (J : State → Prop) : Prop extends LineOps W M J where
  phase : ∀ s (p : Phase), J s → J { s with reg := { s.reg with phase := p } }
  retry : ∀ s (n : Nat), J s → J { s with reg := { s.reg with retry := n } }
  calls : ∀ s, J s → J { s with reg := { s.reg with busCalls := s.reg.busCalls + 1 } }

theorem SeqKeeps.seqOps (hJ : SeqKeeps W J) : SeqOps W AnyMessage J :=
  { hJ.toLineKeeps.ops with phase := hJ.phase, retry := hJ.retry, calls := hJ.calls }

theorem triple_receiveLoop (hJ : SeqOps W M J) (e : Expect) (n : Nat) :
    Triple J (receiveLoop e n) (fun r t => J t ∧ Expect.long e r) (fun e t => J t ∧ NoStop e) := by
  induction n with
  | zero => exact triple_raise (fun _ h => ⟨h, by rintro f ⟨⟩⟩)
  | succ n ih =>
    refine triple_bind (Q := fun r t => J t ∧ ∀ p, r = some p → Expect.long e p) ?_ (fun got => ?_)
    · exact triple_bind (Q := fun _ t => J t) (triple_modifyReg (fun s hs => hJ.retry s _ hs))
        (fun _ => triple_attempt hJ.toLineOps e)
    · cases got with
      | none => exact triple_conseq ih (fun _ h => h.1) (fun _ _ h => h) (fun _ _ h => h)
      | some p => exact triple_pure (fun _ h => ⟨h.1, h.2 p rfl⟩)

/-- A transaction whose command is admitted. -/
theorem triple_command (hJ : SeqOps W M J) (o p : Byte) (q : Word16) (d : Bytes) (e : Expect) (c : Close)
    (hM : ∀ t, J t → M (commandFrame t.cfg o p q d)) (h : W → d.length ≤ 248) :
    Triple J (transact o p q d e c) (fun r t => J t ∧ Expect.long e r) (fun x t => J t ∧ NoStop x) := by
  have hl := hJ.toLineOps
  have ph (p : Phase) {E : Err → State → Prop} : Triple J (setPhase p) (fun _ t => J t) E :=
    triple_modifyReg (fun s hs => hJ.phase s p hs)
  have line {α : Type} {x : Op α} {Q : α → State → Prop} (hx : Triple J x Q (LineFail J)) :
      Triple J x Q (fun x t => J t ∧ NoStop x) := triple_conseq hx (fun _ h => h) (fun _ _ h => h) line_noStop
  refine triple_catching (E' := fun x t => J t ∧ NoStop x) ?_ (fun f s h => h) (fun x _ => triple_pre (fun s hs =>
    triple_conseq (P := J) (Q := fun r t => J t ∧ Expect.long e r) (E := fun x t => J t ∧ NoStop x)
      (triple_bind (ph .ready) (fun _ => triple_raise (fun _ h => ⟨h, hs.2⟩)))
      (fun t ht => by rw [ht]; exact hs.1) (fun _ _ h => h) (fun _ _ h => h)))
  refine triple_bind (Q := fun _ t => J t) (triple_modifyReg (fun s hs => hJ.retry { s with reg := { s.reg with
      busCalls := s.reg.busCalls + 1 } } 0 (hJ.calls s hs))) (fun _ => triple_bind (ph _) (fun _ =>
    triple_bind (line hl.wake) (fun _ => triple_bind (ph _) (fun _ =>
    triple_bind (triple_encodeCommand hl _ _ _ _ h) (fun f => triple_bind (triple_pre (fun s hs =>
      triple_conseq (line (hl.send f (by rw [hs.2]; exact hM s hs.1))) (fun t ht => by rw [ht]; exact hs.1) (fun _ _ h => h)
        (fun _ _ h => h))) (fun _ =>
    triple_bind (ph _) (fun _ => triple_bind (Q := fun _ t => J t) (triple_getCfg (fun _ h => h)) (fun _ =>
    triple_bind (triple_receiveLoop hJ e _) (fun r => triple_ite
      (fun _ => triple_raise (fun _ h => ⟨h.1, by rintro f ⟨⟩⟩)) (fun _ => ?_))))))))))
  exact triple_pre (fun s hs => triple_conseq (P := J) (Q := fun a t => J t ∧ a = r) (E := fun x t => J t ∧ NoStop x)
    (triple_bind (ph _) (fun _ => triple_bind (line (triple_closeLine hl c)) (fun _ => triple_bind (ph _)
      (fun _ => triple_pure (fun _ h => ⟨h, rfl⟩)))))
    (fun t ht => by rw [ht]; exact hs.1) (fun a t h => ⟨h.1, by rw [h.2]; exact hs.2⟩) (fun _ _ h => h))

theorem triple_transact (hJ : SeqKeeps W J) (o p : Byte) (q : Word16) (d : Bytes) (e : Expect) (c : Close)
    (h : W → d.length ≤ 248) :
    Triple J (transact o p q d e c) (fun r t => J t ∧ Expect.long e r) (fun x t => J t ∧ NoStop x) :=
  triple_command hJ.seqOps o p q d e c (fun _ _ => trivial) h

/-- A chip reset ends well, whatever the line does (R135). -/
theorem triple_chipReset (hJ : LineOps W M J)
    (hr : ∀ s, J s → J { s with reg := s.reg.afterChipReset }) :
    Triple J chipReset (fun _ t => J t) (fun _ _ => False) := by
  have sw {x : Op Unit} (hx : Triple J x (fun _ t => J t) (LineFail J)) :
      Triple J (swallowTimeout x) (fun _ t => J t) (fun _ _ => False) := by
    refine triple_catching hx (fun f s h => ?_) (fun e _ => ?_)
    · obtain ⟨_, tag, ht⟩ := h
      cases ht
    · cases e <;> first
        | exact triple_pure (fun _ h => h.1)
        | exact triple_raise (fun _ h => by obtain ⟨_, tag, ht⟩ := h; cases ht)
  exact triple_bind (sw hJ.wake) (fun _ => triple_bind (sw (triple_sleep hJ)) (fun _ =>
    triple_modifyReg (fun s hs => hr s hs)))

end Sys2Proof.Machine
end

