-- ==== Sys2Proof/Laws/HoareDispatch.lean ====
section
/-! SUPPORT. What the dispatch boundary keeps, and the one stop it can end in (spec/45_dispatch.md R177 to R185). -/

namespace Sys2Proof.Machine

theorem seq_held : SeqKeeps False (fun s => s.reg.recHeld = true) where
  env _ _ h := h
  tof _ _ h := h
  crc _ _ h := h
  lstate _ _ h := h
  clear _ h := h
  baud _ h := h
  tx _ _ _ h := h
  rx _ _ _ h := h
  wire _ _ _ h := h
  chip _ _ _ h := h
  phase _ _ h := h
  retry _ _ h := h
  calls _ h := h

variable {W B : Prop} {A : Config.Params → Byte → Word16 → Prop} {J : State → Prop}

/-- A property kept, beside a record held. -/
theorem Keeps.held (hJ : Keeps W A J) : KeepsRec W A (fun s => J s ∧ s.reg.recHeld = true) where
  wide w s h := hJ.wide w s h.1
  plain s o q h ho := hJ.plain s o q h.1 ho
  transact o p q d e c h := by
    rintro s ⟨hs, hA⟩
    have h1 := hJ.transact o p q d e c h s ⟨hs.1, hA⟩
    have h2 := triple_transact seq_held o p q d e c (fun h => h.elim) s hs.2
    exact ⟨fun a t ht => ⟨⟨(h1.1 a t ht).1, (h2.1 a t ht).1⟩, (h1.1 a t ht).2⟩,
      fun a t ht => ⟨⟨(h1.2 a t ht).1, (h2.2 a t ht).1⟩, (h1.2 a t ht).2⟩⟩
  env s e h := ⟨hJ.env s e h.1, h.2⟩
  tk s v hv h := ⟨hJ.tk s v hv h.1, h.2⟩
  clear s h := ⟨hJ.clear s h.1, h.2⟩
  digest s v hv h := ⟨hJ.digest s v hv h.1, h.2⟩
  cache s v hv h := ⟨hJ.cache s v hv h.1, h.2⟩
  record s v hv h := ⟨hJ.record s v hv h.1, rfl⟩
  held _ h := h.2

/-- What the boundary writes besides. -/
structure KeepsHost (W : Prop) (A : Config.Params → Byte → Word16 → Prop) (J : State → Prop) : Prop extends Keeps W A J where
  buf : ∀ s (b : Bytes), J s → J { s with host := { s.host with buf := b } }
  release : ∀ s, J s → J { s with reg := { s.reg with record := zeros 276, recHeld := false } }
  reset : Triple J chipReset (fun _ t => J t) (fun _ _ => False)

/-- An operation on a record it is given. -/
theorem triple_onRecord {E : Err → State → Prop} (hJ : Keeps W A J) (r : Bytes) (hr : W → r.length = 276) {x : Op Unit}
    (hx : Triple (fun s => J s ∧ s.reg.recHeld = true) x (fun _ t => J t ∧ t.reg.recHeld = true) E) :
    Triple J (do writeRec r; x) (fun _ t => J t ∧ t.reg.recHeld = true) E :=
  triple_bind (triple_modifyReg (fun s hs => ⟨hJ.record s r hr hs, rfl⟩)) (fun _ => hx)

/-- No outcome that was caught is a stop. -/
def Caught {α : Type} (r : Except Err α) : Prop := ∀ e, r = .error e → ∀ f, e ≠ .stop f

theorem triple_outcomeOf {α : Type} {P : State → Prop} {x : Op α} {Q : α → State → Prop} {E : Err → State → Prop}
    {R : State → Prop} (hx : Triple P x Q E) (hQ : ∀ a t, Q a t → R t) (hE : ∀ e t, E e t → R t) :
    Triple P (outcomeOf x) (fun r t => R t ∧ Caught r) (fun e t => E e t ∧ ∃ f, e = .stop f) :=
  triple_catching (E' := E) (triple_bind hx (fun a => triple_pure (fun t h => ⟨hQ a t h, by rintro e ⟨⟩⟩)))
    (fun f _ h => ⟨h, f, rfl⟩) (fun e he => triple_pure (fun t h => ⟨hE e t h, by rintro e' ⟨⟩; exact he⟩))

/-- How the boundary stops: only if `B`. -/
def StopOnly (B : Prop) (J : State → Prop) (e : Err) (t : State) : Prop := J t ∧ (∃ f, e = .stop f) ∧ B

theorem stop_of_pin {e : Err} {t : State} (h : PinFail B J e t ∧ ∃ f, e = .stop f) : StopOnly B J e t := by
  obtain ⟨⟨hj, hf⟩, f, rfl⟩ := h
  exact ⟨hj, ⟨f, rfl⟩, hf f rfl⟩

/-- The operation a sub-method names keeps what it must. -/
def PinKeeps (B : Prop) (J : State → Prop) (c : Config.Params) (arg2 : Word32) : Prop :=
  Triple (fun s => J s ∧ s.reg.recHeld = true) (pinOperation c arg2) (fun _ t => J t ∧ t.reg.recHeld = true)
    (PinFail B (fun t => J t ∧ t.reg.recHeld = true))

theorem triple_pinControl (hJ : KeepsHost W A J) (len : Nat) (arg2 : Word32)
    (hp : ∀ s, J s → PinKeeps B J s.cfg arg2) :
    Triple J (pinControl len arg2) (fun _ t => J t) (PinFail B J) := by
  have no {e : Err} (he : ∀ f, e ≠ .stop f) : Triple J (raise e : Op Unit) (fun _ t => J t) (PinFail B J) :=
    triple_raise (fun _ h => ⟨h, fun f hf => absurd hf (he f)⟩)
  refine triple_bind (Q := fun c t => J t ∧ ∃ s, J s ∧ c = s.cfg) (triple_getCfg (fun s h => ⟨h, s, h, rfl⟩)) (fun c =>
    triple_fact (fun ⟨z, hz, hc⟩ => triple_ite (fun _ => no (by simp)) (fun _ => triple_ite (fun _ => no (by simp)) (fun _ =>
      triple_bind (Q := fun r t => J t ∧ r.length = 276) (triple_run _ id (fun _ => rfl) (fun s hs => ⟨hs, by simp [hostBytes, Config.recordLen]⟩))
      (fun r => triple_fact (fun hr => ?_)))))) 
  have hop := hp z hz
  rw [← hc] at hop
  refine triple_bind (Q := fun _ t => J t ∧ t.reg.recHeld = true)
    (triple_modifyReg (fun s hs => ⟨hJ.record s r (fun _ => hr) hs, rfl⟩)) (fun _ => ?_)
  have hout := triple_outcomeOf hop (fun _ _ h => h) (fun _ _ h => h.1)
  refine triple_bind (triple_conseq hout (fun _ h => h) (fun _ _ h => h)
    (fun e t h => ⟨h.1.1.1, h.1.2⟩)) (fun outcome => triple_pre (fun s hs => ?_))
  have tail : Triple (fun t => J t ∧ t.reg.recHeld = true) (do releaseRec; propagate outcome) (fun _ t => J t) (PinFail B J) := by
    refine triple_bind (Q := fun _ t => J t) (triple_modifyReg (fun s hs => hJ.release s hs.1)) (fun _ => ?_)
    cases ho : outcome with
    | ok u => exact triple_pure (fun _ h => h)
    | error e => exact no (hs.2 e ho)
  refine triple_conseq (P := fun t => J t ∧ t.reg.recHeld = true) ?_ (fun t ht => by rw [ht]; exact hs.1) (fun _ _ h => h)
    (fun _ _ h => h)
  refine triple_ite (fun _ => ?_) (fun _ => tail)
  refine triple_bind (Q := fun _ t => J t ∧ t.reg.recHeld = true) (fun s hs => ?_) (fun r' =>
    triple_bind (triple_run (fun _ => ()) _ (fun _ => rfl) (fun s hs => ⟨hJ.buf s _ hs.1, hs.2⟩)) (fun _ => tail))
  rw [readRec_held s hs.2]
  exact ⟨fun _ _ e => (by cases e; exact hs), fun _ _ e => by cases e⟩

theorem triple_hostWrite (hJ : KeepsHost W A J) {E : Err → State → Prop} (v : Bytes) :
    Triple J (hostWrite v) (fun _ t => J t) E := triple_run (fun _ => ()) _ (fun _ => rfl) (fun s hs => hJ.buf s _ hs)

theorem triple_readSeSlot (hJ : KeepsHost W A J) (len : Nat) (arg2 : Word32) :
    Triple J (readSeSlot len arg2) (fun _ t => J t) (PinFail B J) := by
  refine triple_bind (Q := fun _ t => J t) (triple_getCfg (fun _ h => h)) (fun c => triple_ite
    (fun _ => triple_pinRaise (by simp)) (fun _ => triple_ite (fun _ => triple_pinRaise (by simp)) (fun _ => triple_session ?_)))
  exact triple_bind (triple_pairUnlock hJ.toKeeps) (fun _ => triple_bind
    (triple_weak (triple_seLink hJ.toKeeps (triple_read hJ.toKeeps _ _ _))) (fun _ => triple_hostWrite hJ _))

theorem triple_getRandomBytes (hJ : KeepsHost W A J) {E : Err → State → Prop} (len : Nat) :
    Triple J (getRandomBytes len) (fun _ t => J t) E :=
  triple_ite (fun _ => triple_pure (fun _ h => h)) (fun _ => triple_bind (triple_weak (triple_rand hJ.toKeeps len))
    (fun _ => triple_hostWrite hJ _))

theorem triple_dispatchBody (hJ : KeepsHost W A J) (method : Word32) (len : Nat) (arg2 : Word32)
    (hp : ∀ s t, J s → J t → method = s.cfg.method.pinControl → PinKeeps B J t.cfg arg2) :
    Triple J (dispatchBody method len arg2) (fun _ t => J t) (PinFail B J) := by
  have no {e : Err} (he : ∀ f, e ≠ .stop f) : Triple J (raise e : Op Unit) (fun _ t => J t) (PinFail B J) :=
    triple_raise (fun _ h => ⟨h, fun f hf => absurd hf (he f)⟩)
  refine triple_bind (Q := fun c t => J t ∧ ∃ s, J s ∧ c = s.cfg) (triple_getCfg (fun s h => ⟨h, s, h, rfl⟩)) (fun c =>
    triple_fact (fun ⟨z, hz, hc⟩ => triple_ite (fun _ => no (by simp)) (fun _ => triple_bind (Q := fun _ t => J t)
      (triple_run _ _ (fun _ => rfl) (fun s hs => hJ.env s _ hs)) (fun _ => triple_ite (fun hm => ?_) (fun _ =>
      triple_ite (fun _ => triple_readSeSlot hJ _ _) (fun _ => triple_ite (fun _ => triple_getRandomBytes hJ _) (fun _ =>
      triple_ite (fun _ => triple_unlockOrBrick hJ.toKeeps) (fun _ => no (by simp)))))))))
  exact triple_pinControl hJ _ _ (fun t ht => hp z t hz ht (by rw [← hc]; exact hm))

theorem triple_seDispatch (hJ : KeepsHost W A J) (method : Word32) (len : Nat) (arg2 : Word32)
    (hp : ∀ s t, J s → J t → method = s.cfg.method.pinControl → PinKeeps B J t.cfg arg2) :
    Triple J (seDispatch method len arg2) (fun _ t => J t) (StopOnly B J) := by
  refine triple_bind (triple_conseq (triple_outcomeOf (R := J) (triple_dispatchBody hJ method len arg2 hp) (fun _ _ h => h)
    (fun _ _ h => h.1)) (fun _ h => h) (fun _ _ h => h.1) (fun _ _ h => stop_of_pin h)) (fun _ => ?_)
  refine triple_bind (Q := fun _ t => J t) (triple_modifyReg (fun s hs => hJ.release s hs)) (fun _ => ?_)
  exact triple_bind (triple_conseq hJ.reset (fun _ h => h) (fun _ _ h => h) (fun _ _ h => h.elim)) (fun _ =>
    triple_bind (Q := fun _ t => J t) (triple_getCfg (fun _ h => h)) (fun _ => triple_pure (fun _ h => h)))

end Sys2Proof.Machine
end

