-- ==== Sys2Proof/Laws/Invariant.lean ====
section
/-! SUPPORT. The three properties that the operations are shown to keep: nothing at all (which bounds how they end), a record
held in `REC`, and the invariant of Safety.lean. -/

namespace Sys2Proof.Machine

/-! ### Nothing at all -/

theorem seq_trivial : SeqKeeps False (fun _ => True) where
  env _ _ _ := trivial
  tof _ _ _ := trivial
  crc _ _ _ := trivial
  lstate _ _ _ := trivial
  clear _ _ := trivial
  baud _ _ := trivial
  tx _ _ _ _ := trivial
  rx _ _ _ _ := trivial
  wire _ _ _ _ := trivial
  chip _ _ _ _ := trivial
  phase _ _ _ := trivial
  retry _ _ _ := trivial
  calls _ _ := trivial

theorem keeps_trivial : Keeps False AnyCommand (fun _ => True) where
  wide h := h.elim
  plain _ _ _ _ _ := trivial
  transact o p q d e c _ s hs := triple_transact seq_trivial o p q d e c (fun h => h.elim) s hs.1
  env _ _ _ := trivial
  tk _ _ _ _ := trivial
  clear _ _ := trivial
  digest _ _ _ _ := trivial
  cache _ _ _ _ := trivial
  record _ _ _ _ := trivial

/-! ### A record held -/

theorem keeps_held : KeepsRec False AnyCommand (fun s => s.reg.recHeld = true) where
  wide h := h.elim
  plain _ _ _ _ _ := trivial
  transact o p q d e c _ s hs := triple_transact seq_held o p q d e c (fun h => h.elim) s hs.1
  env _ _ h := h
  tk _ _ _ h := h
  clear _ h := h
  digest _ _ _ h := h
  cache _ _ _ h := h
  record _ _ _ _ := rfl
  held _ h := h

/-! ### The invariant -/

/-- The invariant without what a transaction moves on the way. -/
structure Fit (s : State) : Prop where
  cfgWf : s.cfg.wf = true
  modes : s.cfg.modesDiffer = true
  layoutWf : s.cfg.layout.wf = true
  slots : memWf s.chip.slots = true
  tk : s.reg.tk.length = 32
  digest : s.reg.digest.length = 32
  cache : s.reg.cache.length = 32
  seed : s.reg.bootSeed.length = 32
  record : s.reg.record.length = 276
  tx : s.reg.txbuf.length ≤ 256
  rx : s.reg.rxbuf.length ≤ 256
  baud : s.reg.baudsel = false
  inFlight : s.wire.inFlight = []

theorem inv_iff (s : State) : s.inv = true ↔ Fit s ∧ s.reg.phase = .ready ∧ s.reg.retry ≤ s.cfg.retryMax := by
  simp only [State.inv, Bool.and_eq_true, decide_eq_true_eq]
  constructor
  · rintro ⟨⟨⟨⟨⟨h1, h0⟩, h2⟩, h3⟩, h4, h5, h6, h7, h8, h9, h10⟩, h11, h12, h13, h14⟩
    exact ⟨⟨h1, h0, h2, h3, h4, h5, h6, h7, h8, h9, h10, h12, h14⟩, h11, h13⟩
  · rintro ⟨⟨h1, h0, h2, h3, h4, h5, h6, h7, h8, h9, h10, h12, h14⟩, h11, h13⟩
    exact ⟨⟨⟨⟨⟨h1, h0⟩, h2⟩, h3⟩, h4, h5, h6, h7, h8, h9, h10⟩, h11, h12, h13, h14⟩

theorem seq_fit : SeqKeeps True Fit where
  env _ _ h := { h with }
  tof _ _ h := { h with }
  crc _ _ h := { h with }
  lstate _ _ h := { h with }
  clear _ h := { h with }
  baud _ h := { h with baud := rfl }
  tx _ _ hb h := { h with tx := hb trivial }
  rx _ _ hb h := { h with rx := hb trivial }
  wire _ _ hw h := { h with inFlight := hw.elim (fun e => e.trans h.inFlight) id }
  chip _ _ hk h := { h with slots := hk.wf h.slots }
  phase _ _ h := { h with }
  retry _ _ h := { h with }
  calls _ h := { h with }

/-- The count of attempts and its bound, which the small writes of an attempt leave. -/
theorem line_retry (m k : Nat) : LineKeeps False (fun s => s.cfg.retryMax = m ∧ s.reg.retry = k) where
  env _ _ h := h
  tof _ _ h := h
  crc _ _ h := h
  lstate _ _ h := h
  clear _ h := h
  baud _ h := h
  tx _ _ _ h := h
  rx _ _ _ h := h
  wire _ _ _ h := h
  chip _ _ _ h := h

/-- The count is bounded, however far it has come. -/
theorem line_bounded (m n : Nat) : LineKeeps False (fun s => s.cfg.retryMax = m ∧ s.reg.retry + n ≤ m) where
  env _ _ h := h
  tof _ _ h := h
  crc _ _ h := h
  lstate _ _ h := h
  clear _ h := h
  baud _ h := h
  tx _ _ _ h := h
  rx _ _ _ h := h
  wire _ _ _ h := h
  chip _ _ _ h := h

theorem receiveLoop_bounded (m : Nat) (e : Expect) (n : Nat) :
    Triple (fun s => s.cfg.retryMax = m ∧ s.reg.retry + n ≤ m) (receiveLoop e n)
      (fun _ t => t.cfg.retryMax = m ∧ t.reg.retry + 0 ≤ m) (fun _ t => t.cfg.retryMax = m ∧ t.reg.retry + 0 ≤ m) := by
  induction n with
  | zero => exact triple_raise (fun _ h => h)
  | succ n ih =>
    refine triple_bind (Q := fun _ t => t.cfg.retryMax = m ∧ t.reg.retry + n ≤ m) ?_ (fun got => ?_)
    · refine triple_bind (Q := fun _ t => t.cfg.retryMax = m ∧ t.reg.retry + n ≤ m)
        (triple_modifyReg (fun s hs => ⟨hs.1, ?_⟩)) (fun _ => ?_)
      · have := hs.2
        simp only
        omega
      · refine triple_conseq (triple_attempt (line_bounded m n).ops e) (fun _ h => h) (fun _ _ h => h.1)
          (fun _ _ h => ⟨h.1.1, Nat.le_trans (by omega) h.1.2⟩)
    · cases got with
      | none => exact ih
      | some p => exact triple_pure (fun _ h => ⟨h.1, Nat.le_trans (by omega) h.2⟩)

/-- A transaction leaves `RETRY` within its bound, if it was (R28, R120). -/
theorem transact_bounded (m : Nat) (o p : Byte) (q : Word16) (d : Bytes) (e : Expect) (c : Close) :
    Triple (fun s => s.cfg.retryMax = m) (transact o p q d e c) (fun _ t => t.cfg.retryMax = m ∧ t.reg.retry + 0 ≤ m)
      (fun _ t => t.cfg.retryMax = m ∧ t.reg.retry + 0 ≤ m) := by
  have lb := line_bounded m 0
  have lm := line_bounded m m
  have weak {α : Type} {x : Op α} {P : State → Prop} {Q : α → State → Prop} {n : Nat}
      (h : Triple P x Q (LineFail (fun s => s.cfg.retryMax = m ∧ s.reg.retry + n ≤ m))) :
      Triple P x Q (fun _ t => t.cfg.retryMax = m ∧ t.reg.retry + 0 ≤ m) :=
    triple_conseq h (fun _ h => h) (fun _ _ h => h) (fun _ _ h => ⟨h.1.1, Nat.le_trans (by omega) h.1.2⟩)
  have ph (n : Nat) (p : Phase) {E : Err → State → Prop} :
      Triple (fun s => s.cfg.retryMax = m ∧ s.reg.retry + n ≤ m) (setPhase p)
        (fun _ s => s.cfg.retryMax = m ∧ s.reg.retry + n ≤ m) E := triple_modifyReg (fun _ h => h)
  refine triple_catching (E' := fun _ t => t.cfg.retryMax = m ∧ t.reg.retry + 0 ≤ m) ?_ (fun _ _ h => h)
    (fun _ _ => triple_bind (ph 0 .ready) (fun _ => triple_raise (fun _ h => h)))
  refine triple_bind (Q := fun _ s => s.cfg.retryMax = m ∧ s.reg.retry + m ≤ m)
    (triple_modifyReg (fun _ h => ⟨h, by simp only; omega⟩)) (fun _ =>
    triple_bind (ph m _) (fun _ => triple_bind (weak (triple_wake lm)) (fun _ => triple_bind (ph m _) (fun _ =>
    triple_bind (triple_conseq (triple_encodeCommand lm.ops _ _ _ _ (fun h => h.elim)) (fun _ h => h)
      (fun _ _ h => h.1) (fun _ _ h => h)) (fun _ => triple_bind (weak (triple_send lm _)) (fun _ =>
    triple_bind (ph m _) (fun _ => triple_bind (Q := fun c s => s.cfg.retryMax = m ∧ s.reg.retry + c.retryMax ≤ m)
      (triple_getCfg (fun _ h => ⟨h.1, by rw [h.1]; exact h.2⟩)) (fun c =>
    triple_bind (receiveLoop_bounded m e c.retryMax) (fun _ => triple_ite (fun _ => triple_raise (fun _ h => h)) (fun _ =>
      triple_bind (ph 0 _) (fun _ => triple_bind (weak (triple_closeLine lb.ops _)) (fun _ => triple_bind (ph 0 _)
      (fun _ => triple_pure (fun _ h => h))))))))))))))

theorem triple_any {α : Type} {P : State → Prop} (x : Op α) : Triple P x (fun _ _ => True) (fun _ _ => True) :=
  fun _ _ => ⟨fun _ _ _ => trivial, fun _ _ _ => trivial⟩

theorem triple_toReady {P : State → Prop} {E : Err → State → Prop} :
    Triple P (setPhase .ready) (fun _ t => t.reg.phase = .ready) E := triple_modifyReg (fun _ _ => rfl)

/-- A transaction ends with `PHASE` at `READY`, however it ends (R119). -/
theorem transact_ready (o p : Byte) (q : Word16) (d : Bytes) (e : Expect) (c : Close) :
    Triple (fun _ => True) (transact o p q d e c) (fun _ t => t.reg.phase = .ready) (fun _ t => t.reg.phase = .ready) := by
  intro s _
  have hno := triple_transact seq_trivial o p q d e c (fun h => h.elim) s trivial
  have : Triple (fun _ => True) (transact o p q d e c) (fun _ t => t.reg.phase = .ready)
      (fun e t => t.reg.phase = .ready ∨ ∃ f, e = .stop f) := by
    refine triple_catching (E' := fun _ _ => True) ?_ (fun f _ _ => .inr ⟨f, rfl⟩)
      (fun _ _ => triple_bind triple_toReady (fun _ => triple_raise (fun _ h => .inl h)))
    refine triple_bind (triple_any _) (fun _ => triple_bind (triple_any _) (fun _ => triple_bind (triple_any _) (fun _ =>
      triple_bind (triple_any _) (fun _ => triple_bind (triple_any _) (fun _ => triple_bind (triple_any _) (fun _ =>
      triple_bind (triple_any _) (fun _ => triple_bind (triple_any _) (fun _ => triple_bind (triple_any _) (fun _ =>
      triple_ite (fun _ => triple_raise (fun _ _ => trivial)) (fun _ => triple_bind (triple_any _) (fun _ =>
      triple_bind (triple_any _) (fun _ => triple_bind triple_toReady (fun _ => triple_pure (fun _ h => h))))))))))))))
  refine ⟨(this s trivial).1, fun e t h => ?_⟩
  rcases (this s trivial).2 e t h with h' | ⟨f, rfl⟩
  · exact h'
  · exact absurd rfl ((hno.2 _ _ h).2 f)

/-- A record held, and the invariant. -/
def Good (s : State) : Prop := s.inv = true

theorem triple_transact_good (o p : Byte) (q : Word16) (d : Bytes) (e : Expect) (c : Close)
    (h : d.length ≤ 248) :
    Triple Good (transact o p q d e c) (fun r t => Good t ∧ Expect.long e r) (fun x t => Good t ∧ NoStop x) := by
  intro s hs
  obtain ⟨hf, hp, hr⟩ := (inv_iff s).mp hs
  have h1 := triple_transact seq_fit o p q d e c (fun _ => h) s hf
  have h2 := transact_bounded s.cfg.retryMax o p q d e c s rfl
  have h3 := transact_ready o p q d e c s trivial
  have bound (t : State) (ht : t.cfg.retryMax = s.cfg.retryMax ∧ t.reg.retry + 0 ≤ s.cfg.retryMax) :
      t.reg.retry ≤ t.cfg.retryMax := by omega
  exact ⟨fun a t ht => ⟨(inv_iff t).mpr ⟨(h1.1 a t ht).1, h3.1 a t ht, bound t (h2.1 a t ht)⟩, (h1.1 a t ht).2⟩,
    fun a t ht => ⟨(inv_iff t).mpr ⟨(h1.2 a t ht).1, h3.2 a t ht, bound t (h2.2 a t ht)⟩, (h1.2 a t ht).2⟩⟩

theorem good_of {s t : State} (h : Good s) (hf : Fit s → Fit t) (hp : t.reg.phase = s.reg.phase)
    (hr : t.reg.retry = s.reg.retry) (hc : t.cfg.retryMax = s.cfg.retryMax) : Good t := by
  obtain ⟨h1, h2, h3⟩ := (inv_iff s).mp h
  exact (inv_iff t).mpr ⟨hf h1, hp.trans h2, by rw [hr, hc]; exact h3⟩

theorem keeps_good : Keeps True AnyCommand Good where
  wide _ s h := by
    have := ((inv_iff s).mp h).1
    exact ⟨this.cfgWf, this.layoutWf, this.record⟩
  plain _ _ _ _ _ := trivial
  transact o p q d e c h s hs := triple_transact_good o p q d e c (h trivial) s hs.1
  env _ _ h := good_of h (fun h => { h with }) rfl rfl rfl
  tk _ _ hv h := good_of h (fun h => { h with tk := hv trivial }) rfl rfl rfl
  clear _ h := good_of h (fun h => { h with }) rfl rfl rfl
  digest _ _ hv h := good_of h (fun h => { h with digest := hv trivial }) rfl rfl rfl
  cache _ _ hv h := good_of h (fun h => { h with cache := hv trivial }) rfl rfl rfl
  record _ _ hv h := good_of h (fun h => { h with record := hv trivial }) rfl rfl rfl

theorem keeps_goodHeld : KeepsRec True AnyCommand (fun s => Good s ∧ s.reg.recHeld = true) where
  wide _ s h := keeps_good.wide trivial s h.1
  plain _ _ _ _ _ := trivial
  transact o p q d e c h := by
    rintro s ⟨hs, -⟩
    have h1 := triple_transact_good o p q d e c (h trivial) s hs.1
    have h2 := triple_transact seq_held o p q d e c (fun h => h.elim) s hs.2
    exact ⟨fun a t ht => ⟨⟨(h1.1 a t ht).1, (h2.1 a t ht).1⟩, (h1.1 a t ht).2⟩,
      fun a t ht => ⟨⟨(h1.2 a t ht).1, (h2.2 a t ht).1⟩, (h1.2 a t ht).2⟩⟩
  env s e h := ⟨keeps_good.env s e h.1, h.2⟩
  tk s v hv h := ⟨keeps_good.tk s v hv h.1, h.2⟩
  clear s h := ⟨keeps_good.clear s h.1, h.2⟩
  digest s v hv h := ⟨keeps_good.digest s v hv h.1, h.2⟩
  cache s v hv h := ⟨keeps_good.cache s v hv h.1, h.2⟩
  record s v hv h := ⟨keeps_good.record s v hv h.1, rfl⟩
  held _ h := h.2

/-- The small writes of the line keep the invariant too. -/
theorem line_good : LineKeeps True Good where
  env s e h := keeps_good.env s e h
  tof _ _ h := good_of h (fun h => { h with }) rfl rfl rfl
  crc _ _ h := good_of h (fun h => { h with }) rfl rfl rfl
  lstate _ _ h := good_of h (fun h => { h with }) rfl rfl rfl
  clear s h := keeps_good.clear s h
  baud _ h := good_of h (fun h => { h with baud := rfl }) rfl rfl rfl
  tx _ _ hb h := good_of h (fun h => { h with tx := hb trivial }) rfl rfl rfl
  rx _ _ hb h := good_of h (fun h => { h with rx := hb trivial }) rfl rfl rfl
  wire _ _ hw h := good_of h (fun h => { h with inFlight := hw.elim (fun e => e.trans h.inFlight) id }) rfl rfl rfl
  chip _ _ hk h := good_of h (fun h => { h with slots := hk.wf h.slots }) rfl rfl rfl

theorem good_afterChipReset (s : State) (h : Good s) : Good { s with reg := s.reg.afterChipReset } := by
  obtain ⟨hf, hp, hr⟩ := (inv_iff s).mp h
  exact (inv_iff _).mpr ⟨{ hf with tk := rfl, digest := rfl, cache := rfl, tx := Nat.zero_le _, rx := Nat.zero_le _ }, rfl,
    Nat.zero_le _⟩

end Sys2Proof.Machine
end

