-- ==== Sys2Proof/Laws/Draws.lean ====
section
/-! SUPPORT. Draws ahead and after: how they split, what a script makes of them. -/

namespace Sys2Proof.Machine

open Sys2Proof.Config (InMove OutMove)

@[simp] theorem ahead_zero {α : Type} (free : Nat → α) (d : Draws α) : d.ahead free 0 = [] := rfl

@[simp] theorem after_zero {α : Type} (free : Nat → α) (d : Draws α) : d.after free 0 = d := rfl

theorem ahead_succ {α : Type} (free : Nat → α) (n : Nat) (d : Draws α) :
    d.ahead free (n + 1) = (d.next free).1 :: (d.next free).2.ahead free n := rfl

theorem after_succ {α : Type} (free : Nat → α) (n : Nat) (d : Draws α) :
    d.after free (n + 1) = (d.next free).2.after free n := rfl

theorem ahead_one {α : Type} (free : Nat → α) (d : Draws α) : d.ahead free 1 = [(d.next free).1] := rfl

theorem after_one {α : Type} (free : Nat → α) (d : Draws α) : d.after free 1 = (d.next free).2 := rfl

@[simp] theorem ahead_length {α : Type} (free : Nat → α) (n : Nat) (d : Draws α) : (d.ahead free n).length = n := by
  induction n generalizing d with
  | zero => rfl
  | succ n ih => rw [ahead_succ, List.length_cons, ih]

theorem ahead_add {α : Type} (free : Nat → α) (m n : Nat) (d : Draws α) :
    d.ahead free (m + n) = d.ahead free m ++ (d.after free m).ahead free n := by
  induction m generalizing d with
  | zero => simp
  | succ m ih => rw [Nat.succ_add, ahead_succ, ahead_succ, after_succ, ih, List.cons_append]

theorem after_add {α : Type} (free : Nat → α) (m n : Nat) (d : Draws α) :
    d.after free (m + n) = (d.after free m).after free n := by
  induction m generalizing d with
  | zero => simp
  | succ m ih => rw [Nat.succ_add, after_succ, after_succ, ih]

@[simp] theorem after_after {α : Type} (free : Nat → α) (m n : Nat) (d : Draws α) :
    (d.after free m).after free n = d.after free (m + n) := (after_add free m n d).symm

/-- Taking a stream's next draws when the script answers them all. -/
theorem ahead_script {α : Type} (free : Nat → α) (l rest : List α) (k : Nat) (g : Option α) :
    Draws.ahead free l.length { script := l ++ rest, taken := k, forever := g } = l
      ∧ Draws.after free l.length { script := l ++ rest, taken := k, forever := g }
        = { script := rest, taken := k, forever := g } := by
  induction l with
  | nil => exact ⟨rfl, rfl⟩
  | cons a l ih => exact ⟨by rw [List.length_cons, ahead_succ]; exact congrArg _ ih.1, by
      rw [List.length_cons, after_succ]; exact ih.2⟩

/-- A stream that answers the same for good once its script is used up. -/
theorem next_forever {α : Type} (free : Nat → α) (x : α) (k : Nat) :
    Draws.next { script := [], taken := k, forever := some x } free =
    (x, { script := [], taken := k + 1, forever := some x }) :=
  rfl

/-! ### The line granted -/

theorem quiet_add (f : Face) (m n : Nat) : f.quiet (m + n) ↔ f.quiet m ∧ (f.transmitted m).quiet n := by
  unfold Face.quiet Face.transmitted
  rw [ahead_add, List.replicate_add]
  constructor
  · intro h
    exact List.append_inj h (by simp)
  · rintro ⟨h1, h2⟩
    rw [h1, h2]

theorem quiet_one (f : Face) : f.quiet 1 ↔ (f.env.stall.next Config.freeStall).1 = false := by
  unfold Face.quiet
  rw [ahead_one, List.replicate_one, List.cons_eq_cons]
  simp

theorem quiet_succ (f : Face) (n : Nat) :
    f.quiet (n + 1) ↔ (f.env.stall.next Config.freeStall).1 = false ∧ (f.transmitted 1).quiet n := by
  rw [Nat.add_comm, quiet_add, quiet_one]

theorem quiet_mono {f : Face} {m n : Nat} (h : f.quiet n) (hmn : m ≤ n) : f.quiet m := by
  obtain ⟨k, rfl⟩ := Nat.exists_eq_add_of_le hmn
  exact ((quiet_add f m k).mp h).1

theorem hears_append (f : Face) (a b : List (List Symbol)) :
    f.hears (a ++ b) ↔ f.hears a ∧ (f.heard a.length).hears b := by
  unfold Face.hears Face.heard
  rw [List.length_append, ahead_add, List.map_append]
  constructor
  · intro h
    exact List.append_inj h (by simp)
  · rintro ⟨h1, h2⟩
    rw [h1, h2]

theorem hears_cons (f : Face) (a : List Symbol) (b : List (List Symbol)) :
    f.hears (a :: b) ↔ (f.inMoves.next Config.freeInMove).1 = InMove.inject a ∧ (f.heard 1).hears b := by
  rw [show a :: b = [a] ++ b from rfl, hears_append]
  simp only [Face.hears, List.length_cons, List.length_nil, Nat.zero_add, ahead_one, List.map_cons, List.map_nil,
    List.cons.injEq, and_true]

/-- A script of "ready" answers is a quiet line. -/
theorem quiet_of_script {f : Face} {n : Nat} {rest : List Bool}
    (h : f.env.stall.script = List.replicate n false ++ rest) : f.quiet n := by
  have := (ahead_script Config.freeStall (List.replicate n false) rest f.env.stall.taken f.env.stall.forever).1
  rw [List.length_replicate, ← h] at this
  exact this

/-- A script of injected bursts is heard. -/
theorem hears_of_script {f : Face} {bursts : List (List Symbol)} {rest : List InMove}
    (h : f.inMoves.script = bursts.map InMove.inject ++ rest) : f.hears bursts := by
  have := (ahead_script Config.freeInMove (bursts.map InMove.inject) rest f.inMoves.taken f.inMoves.forever).1
  rw [List.length_map, ← h] at this
  exact this

theorem randoms_length (f : Face) (n : Nat) : (f.randoms n).length = n := ahead_length _ _ _

end Sys2Proof.Machine
end

