-- ==== Sys2Proof/Laws/Bytes.lean ====
section
/-! SUPPORT. Byte strings: byte order round trips, lengths, symbols and bytes (spec/30_encoding.md R78, spec/40_bitbus.md
R108), the CRC over parts (spec/41_framecodec.md R113), frames (R117). -/

namespace Sys2Proof.Machine

open Sys2Proof.Config (Params)

/-! ### Byte order -/

@[simp] theorem zeros_length (n : Nat) : (zeros n).length = n := List.length_replicate ..

@[simp] theorem u16le_length (v : Word16) : (u16le v).length = 2 := rfl

@[simp] theorem u32le_length (v : Word32) : (u32le v).length = 4 := rfl

@[simp] theorem word16_u16le (v : Word16) : word16 (v.extractLsb' 0 8) (v.extractLsb' 8 8) = v := by
  unfold word16
  ext i hi
  simp only [BitVec.getElem_append, BitVec.getElem_extractLsb']
  split
  · simp_all
  · rw [← BitVec.getLsbD_eq_getElem]; congr 1; omega

@[simp] theorem word32_u32le (v : Word32) :
    word32 (v.extractLsb' 0 8) (v.extractLsb' 8 8) (v.extractLsb' 16 8) (v.extractLsb' 24 8) = v := by
  unfold word32
  ext i hi
  simp only [BitVec.getElem_append, BitVec.getElem_extractLsb']
  repeat' split
  all_goals (rw [← BitVec.getLsbD_eq_getElem]; congr 1; omega)

@[simp] theorem le32_u32le (v : Word32) : le32 (u32le v) = v := by
  simp only [le32, u32le, List.getD_cons_zero, List.getD_cons_succ, word32_u32le]

@[simp] theorem le32_u32le_append (v : Word32) (r : Bytes) : le32 (u32le v ++ r) = v := by
  simp only [le32, u32le, List.cons_append, List.getD_cons_zero, List.getD_cons_succ, word32_u32le]

@[simp] theorem u16le_ne_nil (v : Word16) : u16le v ≠ [] := by simp [u16le]

/-! ### Slices -/

theorem slice_length {b : Bytes} {i n : Nat} (h : i + n ≤ b.length) : (slice b i n).length = n := by
  simp only [slice, List.length_take, List.length_drop]; omega

theorem slice_length_le (b : Bytes) (i n : Nat) : (slice b i n).length ≤ n := by
  simp only [slice, List.length_take]; omega

theorem splice_length {b v : Bytes} {i : Nat} (h : i + v.length ≤ b.length) : (splice b i v).length = b.length := by
  simp only [splice, List.length_append, List.length_take, List.length_drop]; omega

@[simp] theorem xorBytes_length (a b : Bytes) : (xorBytes a b).length = min a.length b.length := by
  simp [xorBytes]

theorem slice_splice_same {b v : Bytes} {i : Nat} (h : i + v.length ≤ b.length) :
    slice (splice b i v) i v.length = v := by
  have hi : (b.take i).length = i := by simp only [List.length_take]; omega
  simp only [slice, splice, List.append_assoc]
  rw [List.drop_append, hi, Nat.sub_self, List.drop_zero, List.drop_eq_nil_of_le (by omega), List.nil_append,
    List.take_append_of_le_length (le_refl _), List.take_length]

theorem slice_getElem? (b : Bytes) (i n k : Nat) : (slice b i n)[k]? = if k < n then b[i + k]? else none := by
  simp only [slice, List.getElem?_take, List.getElem?_drop]

theorem splice_getElem? {b v : Bytes} {i : Nat} (h : i + v.length ≤ b.length) (k : Nat) :
    (splice b i v)[k]? = if i ≤ k ∧ k < i + v.length then v[k - i]? else b[k]? := by
  have hi : (b.take i).length = i := by simp only [List.length_take]; omega
  unfold splice
  by_cases h1 : k < i
  · rw [List.append_assoc, List.getElem?_append_left (by omega), List.getElem?_take, if_pos h1, if_neg (by omega)]
  · by_cases h2 : k < i + v.length
    · rw [List.append_assoc, List.getElem?_append_right (by omega), hi, List.getElem?_append_left (by omega),
        if_pos (by omega)]
    · rw [List.append_assoc, List.getElem?_append_right (by omega), hi, List.getElem?_append_right (by omega),
        List.getElem?_drop, if_neg (by omega)]
      congr 1; omega

theorem slice_splice_other {b v : Bytes} {i j n : Nat} (h : i + v.length ≤ b.length)
    (hd : j + n ≤ i ∨ i + v.length ≤ j) : slice (splice b i v) j n = slice b j n := by
  apply List.ext_getElem?
  intro k
  rw [slice_getElem?, slice_getElem?, splice_getElem? h]
  split
  · rw [if_neg (by omega)]
  · rfl

/-! ### Symbols -/

@[simp] theorem serializeByte_length (c : Params) (b : Byte) : (serializeByte c b).length = 8 := by
  simp [serializeByte, Config.pulsesPerByte]

@[simp] theorem serializeBytes_nil (c : Params) : serializeBytes c [] = [] := rfl

@[simp] theorem serializeBytes_cons (c : Params) (b : Byte) (bs : Bytes) :
    serializeBytes c (b :: bs) = serializeByte c b ++ serializeBytes c bs := rfl

@[simp] theorem serializeBytes_append (c : Params) (a b : Bytes) :
    serializeBytes c (a ++ b) = serializeBytes c a ++ serializeBytes c b := by
  simp [serializeBytes]

@[simp] theorem serializeBytes_length (c : Params) (bs : Bytes) : (serializeBytes c bs).length = 8 * bs.length := by
  induction bs with
  | nil => rfl
  | cons b bs ih => rw [serializeBytes_cons, List.length_append, ih, serializeByte_length, List.length_cons]; omega

@[simp] theorem serializeBytes_eq_nil (c : Params) (bs : Bytes) : serializeBytes c bs = [] ↔ bs = [] := by
  rw [← List.length_eq_zero_iff, serializeBytes_length, ← List.length_eq_zero_iff]; omega

theorem isPulse_symOf (c : Params) (b : Bool) : isPulse c (symOf c b) = true := by
  cases b <;> simp [isPulse, symOf]

theorem isPulse_of_mem_serializeByte {c : Params} {b : Byte} {x : Symbol} (h : x ∈ serializeByte c b) :
    isPulse c x = true := by
  obtain ⟨i, -, rfl⟩ := List.mem_map.mp h
  exact isPulse_symOf c _

/-- The eight bits of a byte, bit 0 first, are the byte again. -/
theorem byteOfBits_bits (b : Byte) : byteOfBits ((List.range 8).map (fun i => b.getLsbD i)) = b := by
  revert b
  decide +kernel

/-- The bit a pulse code stands for. -/
theorem symOf_pulse1 {c : Params} (hc : c.pulse0 ≠ c.pulse1) (b : Bool) :
    decide (symOf c b = c.pulse1) = b := by
  cases b <;> simp [symOf, hc]

theorem bits_of_serializeByte {c : Params} (hc : c.pulse0 ≠ c.pulse1) (b : Byte) :
    (serializeByte c b).map (fun x => decide (x = c.pulse1)) = (List.range 8).map (fun i => b.getLsbD i) := by
  simp only [serializeByte, List.map_map]
  apply List.map_congr_left
  intro i _
  exact symOf_pulse1 hc _

theorem groupBits_pulses {c : Params} {syms : List Symbol} (h : ∀ x ∈ syms, isPulse c x = true) (s : State) :
    groupBits c syms s = .ok (syms.map (fun x => decide (x = c.pulse1))) s := by
  induction syms with
  | nil => rfl
  | cons x xs ih =>
    have hx := h x List.mem_cons_self
    have hxs := ih (fun y hy => h y (List.mem_cons_of_mem x hy))
    have hb : symbolBit c x s = .ok (decide (x = c.pulse1)) s := by
      unfold symbolBit
      simp only [isPulse, Bool.or_eq_true, decide_eq_true_eq] at hx
      split
      · simp [*]
      · simp_all
    simp only [groupBits, bind_run, hb, hxs, pure_run, List.map_cons]

/-- Whole groups of pulse codes are read back as the bytes they came from, no draw taken (R108). -/
theorem readGroups_serialized {c : Params} (hc : c.pulse0 ≠ c.pulse1) (n : Nat) (bs : Bytes) (t : List Symbol)
    (hn : n ≤ bs.length) (s : State) : readGroups c n (serializeBytes c bs ++ t) s = .ok (bs.take n) s := by
  induction n generalizing bs with
  | zero => rfl
  | succ n ih =>
    match bs, hn with
    | b :: bs, hn =>
      have h1 : (serializeBytes c (b :: bs) ++ t).take Config.pulsesPerByte = serializeByte c b := by
        rw [serializeBytes_cons, List.append_assoc, List.take_append_of_le_length (by simp [Config.pulsesPerByte])]
        exact List.take_of_length_le (by simp [Config.pulsesPerByte])
      have h2 : (serializeBytes c (b :: bs) ++ t).drop Config.pulsesPerByte = serializeBytes c bs ++ t := by
        rw [serializeBytes_cons, List.append_assoc, List.drop_append_of_le_length (by simp [Config.pulsesPerByte]),
          List.drop_eq_nil_of_le (by simp [Config.pulsesPerByte]), List.nil_append]
      have h3 : ∀ x ∈ serializeByte c b, isPulse c x = true := fun x hx => isPulse_of_mem_serializeByte hx
      simp only [readGroups, bind_run, h1, h2, groupBits_pulses h3, ih bs (by simpa using hn), pure_run,
        List.take_succ_cons, bits_of_serializeByte hc, byteOfBits_bits]

theorem skipJunk_serialized {c : Params} {j : List Symbol} (hj : ∀ x ∈ j, isPulse c x = false) (bs : Bytes)
    (t : List Symbol) (hb : bs ≠ []) :
    skipJunk c (j ++ serializeBytes c bs ++ t) = serializeBytes c bs ++ t := by
  unfold skipJunk
  rw [List.append_assoc, List.dropWhile_append_of_pos (by simpa using hj)]
  match bs, hb with
  | b :: bs, _ =>
    have : serializeByte c b = symOf c (b.getLsbD 0) :: (serializeByte c b).tail := rfl
    rw [serializeBytes_cons, this, List.cons_append, List.cons_append, List.dropWhile_cons_of_neg]
    simp [isPulse_symOf]

/-- `deserialize` of a byte string's symbols, with junk before and less than a group after: the bytes, at most
`maxLen`, and no draw taken (R100, R108). -/
theorem deserialize_serialized {s : State} (hc : s.cfg.pulse0 ≠ s.cfg.pulse1) {j : List Symbol}
    (hj : ∀ x ∈ j, isPulse s.cfg x = false) (bs : Bytes) (t : List Symbol) (ht : t.length < 8) (maxLen : Nat) :
    deserialize (j ++ serializeBytes s.cfg bs ++ t) maxLen s = .ok (bs.take maxLen) s := by
  simp only [deserialize, bind_run, getCfg_run]
  by_cases hb : bs = []
  · subst hb
    have h0 : skipJunk s.cfg (j ++ serializeBytes s.cfg [] ++ t) = skipJunk s.cfg t := by
      unfold skipJunk
      rw [serializeBytes_nil, List.append_nil, List.dropWhile_append_of_pos (by simpa using hj)]
    have hl : (skipJunk s.cfg t).length < 8 := lt_of_le_of_lt (List.dropWhile_sublist _).length_le ht
    have hg : groupCount maxLen (skipJunk s.cfg t) = 0 := by
      unfold groupCount Config.pulsesPerByte; omega
    rw [h0, hg, List.take_nil]
    rfl
  · rw [skipJunk_serialized hj bs t hb]
    have hg : groupCount maxLen (serializeBytes s.cfg bs ++ t) = min maxLen bs.length := by
      unfold groupCount Config.pulsesPerByte
      rw [List.length_append, serializeBytes_length]; omega
    rw [hg, readGroups_serialized hc _ _ _ (by omega)]
    congr 1
    rcases Nat.le_total maxLen bs.length with h | h
    · rw [Nat.min_eq_left h]
    · rw [Nat.min_eq_right h, List.take_length, List.take_of_length_le h]

/-! ### CRC and frames -/

/-! ### What `deserialize` does to the state: it takes junk draws -/

theorem groupBits_junk (c : Params) (xs : List Symbol) (d : Draws Bool) : ∃ b d', ∀ s : State, s.env.junk = d →
    groupBits c xs s = .ok b { s with env := { s.env with junk := d' } } := by
  induction xs generalizing d with
  | nil => exact ⟨[], d, fun s h => by rw [← h]; rfl⟩
  | cons x xs ih =>
    have : ∃ b d', ∀ s : State, s.env.junk = d → symbolBit c x s = .ok b { s with env := { s.env with junk := d' } } := by
      unfold symbolBit
      split
      · exact ⟨true, d, fun s h => by rw [← h]; rfl⟩
      · split
        · exact ⟨false, d, fun s h => by rw [← h]; rfl⟩
        · exact ⟨(d.next Config.freeJunk).1, (d.next Config.freeJunk).2, fun s h => by subst h; rfl⟩
    obtain ⟨b, d1, h1⟩ := this
    obtain ⟨bs, d2, h2⟩ := ih d1
    refine ⟨b :: bs, d2, fun s h => ?_⟩
    simp only [groupBits, bind_run, h1 s h, pure_run]
    rw [h2 _ rfl]

theorem readGroups_junk (c : Params) (n : Nat) (xs : List Symbol) (d : Draws Bool) : ∃ b d', ∀ s : State, s.env.junk = d →
    readGroups c n xs s = .ok b { s with env := { s.env with junk := d' } } := by
  induction n generalizing xs d with
  | zero => exact ⟨[], d, fun s h => by rw [← h]; rfl⟩
  | succ n ih =>
    obtain ⟨b, d1, h1⟩ := groupBits_junk c (xs.take 8) d
    obtain ⟨bs, d2, h2⟩ := ih (xs.drop 8) d1
    refine ⟨byteOfBits b :: bs, d2, fun s h => ?_⟩
    simp only [readGroups, Config.pulsesPerByte, bind_run, h1 s h, pure_run]
    rw [h2 _ rfl]

/-- The bytes and the junk draws taken depend on the parameters and the junk draws alone (R100). -/
theorem deserialize_junk (xs : List Symbol) (n : Nat) (c : Params) (d : Draws Bool) : ∃ b d', ∀ s : State, s.cfg = c →
    s.env.junk = d →
    deserialize xs n s = .ok b { s with env := { s.env with junk := d' } } := by
  obtain ⟨b, d', h⟩ := readGroups_junk c (groupCount n (skipJunk c xs)) (skipJunk c xs) d
  exact ⟨b, d', fun s hc hd => by subst hc; exact h s hd⟩

theorem crcBytes_append (poly seed : Word16) (a b : Bytes) :
    crcBytes poly seed (a ++ b) = crcBytes poly (crcBytes poly seed a) b := List.foldl_append ..

@[simp] theorem commandBody_length (opcode p1 : Byte) (p2 : Word16) (data : Bytes) :
    (commandBody opcode p1 p2 data).length = data.length + 5 := by
  simp only [commandBody, List.length_cons, List.length_append, u16le_length]; omega

@[simp] theorem commandFrame_length (c : Params) (opcode p1 : Byte) (p2 : Word16) (data : Bytes) :
    (commandFrame c opcode p1 p2 data).length = data.length + 8 := by
  simp only [commandFrame, List.length_cons, List.length_append, commandBody_length, u16le_length]

@[simp] theorem responseFrame_length (c : Params) (p : Bytes) : (responseFrame c p).length = p.length + 3 := by
  simp only [responseFrame, List.length_cons, List.length_append, u16le_length]

theorem slice_frame_crc (a : Bytes) (v : Word16) : slice (a ++ u16le v) a.length 2 = u16le v := by
  simp only [slice, List.drop_left]
  exact List.take_of_length_le (by simp)

theorem slice_frame_body (a : Bytes) (v : Word16) : slice (a ++ u16le v) 0 a.length = a := by
  simp only [slice, List.drop_zero, List.take_left]

/-! ### Comparisons and hashes -/

theorem foldl_or_eq_zero (l : Bytes) (a : Byte) : l.foldl (· ||| ·) a = 0 ↔ a = 0 ∧ ∀ x ∈ l, x = 0 := by
  induction l generalizing a with
  | nil => simp
  | cons x l ih =>
    rw [List.foldl_cons, ih, List.forall_mem_cons, ← and_assoc]
    apply and_congr_left'
    constructor
    · intro h
      constructor
      · ext i hi
        have := congrArg (fun v => v.getLsbD i) h
        simp only [BitVec.getLsbD_or, BitVec.ofNat_eq_ofNat, BitVec.getLsbD_zero, Bool.or_eq_false_iff] at this
        simpa [BitVec.getLsbD_eq_getElem hi] using this.1
      · ext i hi
        have := congrArg (fun v => v.getLsbD i) h
        simp only [BitVec.getLsbD_or, BitVec.ofNat_eq_ofNat, BitVec.getLsbD_zero, Bool.or_eq_false_iff] at this
        simpa [BitVec.getLsbD_eq_getElem hi] using this.2
    · rintro ⟨rfl, rfl⟩; rfl

/-- The constant-time comparison is equality (R141). -/
theorem ctEqualBytes_iff (a b : Bytes) : ctEqualBytes a b = true ↔ a = b := by
  simp only [ctEqualBytes, diffOf, Bool.and_eq_true, decide_eq_true_eq, foldl_or_eq_zero, true_and]
  constructor
  · rintro ⟨hl, hz⟩
    apply List.ext_getElem hl
    intro i h1 h2
    have hx := hz (a[i] ^^^ b[i]) (List.mem_iff_getElem.mpr ⟨i, by simp; omega, by simp⟩)
    exact BitVec.xor_eq_zero_iff.mp hx
  · rintro rfl
    refine ⟨rfl, fun x hx => ?_⟩
    obtain ⟨i, hi, rfl⟩ := List.mem_iff_getElem.mp hx
    simp

/-- The all-zero test is equality with zeros (R231). -/
theorem allZero_iff (b : Bytes) : allZero b = true ↔ b = zeros b.length := by
  simp only [allZero, decide_eq_true_eq, foldl_or_eq_zero, true_and]
  exact List.eq_replicate_length.symm

@[simp] theorem sha256_length (b : Bytes) : (sha256 b).length = 32 := List.length_ofFn ..

@[simp] theorem hmac256_length (k b : Bytes) : (hmac256 k b).length = 32 := List.length_ofFn ..

@[simp] theorem cacheMask_length (h b : Bytes) : (cacheMask h b).length = 32 := List.length_ofFn ..

@[simp] theorem signatureOf_length (c : Params) (b r : Bytes) : (signatureOf c b r).length = 32 := hmac256_length ..

end Sys2Proof.Machine
end

