-- ==== Sys2Proof/Laws/Line.lean ====
section
/-! SUPPORT. What the BitBus operations do when the line is granted, and when it is not (spec/40_bitbus.md R101 to R106):
one lemma for each way an operation can end. -/

namespace Sys2Proof.Machine

open Sys2Proof.Config (Params InMove)

/-! ### Faces of the small steps -/

@[simp] theorem face_cfg (s : State) : s.face.cfg = s.cfg := rfl
@[simp] theorem face_reg (s : State) : s.face.reg = s.reg := rfl
@[simp] theorem face_deliver (s : State) : s.deliver.face = { s.face with inFlight := [] } := rfl

theorem drawStall_run (s : State) : drawStall s =
    .ok (s.env.stall.next Config.freeStall).1
    { s with env := { s.env with stall := s.env.stall.after Config.freeStall 1 } } :=
  rfl

/-! ### Sending -/

/-- What is on the line and in the machine once symbols have gone out. -/
def State.sending (s : State) (xs : List Symbol) : State :=
  { s with
    wire := { s.wire with
      trace := s.wire.trace ++ xs.map (fun x => .sym x s.reg.baudsel)
      inFlight := s.wire.inFlight ++ xs }
    env := { s.env with stall := s.env.stall.after Config.freeStall xs.length } }

theorem sendSymbols_quiet (xs : List Symbol) (s : State) (hq : s.face.quiet xs.length) :
    sendSymbols xs s = .ok () (s.sending xs) := by
  induction xs generalizing s with
  | nil => simp [sendSymbols, State.sending]
  | cons x xs ih =>
    obtain ⟨h1, h2⟩ := (quiet_succ _ _).mp hq
    have h1' : (s.env.stall.next Config.freeStall).1 = false := h1
    simp only [sendSymbols, bind_run, drawStall_run, h1', lineTx, modifyState_run, Bool.false_eq_true, if_false]
    rw [ih]
    · simp only [State.sending, List.map_cons, List.append_assoc, List.cons_append, List.nil_append,
        List.length_cons, after_after, Nat.add_comm]
    · exact h2

theorem sendSymbols_stalls (xs ys : List Symbol) (hy : ys ≠ []) (s : State) (hq : s.face.stallsAfter xs.length) :
    sendSymbols (xs ++ ys) s = .error (.busTimeout .tx)
      { s.sending xs with env := { s.env with stall := s.env.stall.after Config.freeStall (xs.length + 1) } } := by
  induction xs generalizing s with
  | nil =>
    match ys, hy with
    | y :: ys, _ =>
      have h1 : (s.env.stall.next Config.freeStall).1 = true := by
        have : s.env.stall.ahead Config.freeStall 1 = [true] := hq
        rw [ahead_one] at this
        exact (List.cons.inj this).1
      simp only [List.nil_append, sendSymbols, bind_run, drawStall_run, h1, if_true, raise_run, State.sending,
        List.map_nil, List.append_nil, List.length_nil, Nat.zero_add]
  | cons x xs ih =>
    have hq' : s.env.stall.ahead Config.freeStall (xs.length + 1 + 1) = false :: (List.replicate xs.length false ++ [true]) :=
      hq
    rw [ahead_succ] at hq'
    obtain ⟨h1, h2⟩ := List.cons.inj hq'
    simp only [List.cons_append, sendSymbols, bind_run, drawStall_run, h1, lineTx, modifyState_run, Bool.false_eq_true,
      if_false]
    rw [ih _ (by exact h2)]
    simp only [State.sending, List.map_cons, List.append_assoc, List.cons_append, List.nil_append, List.length_cons,
        after_after, Nat.add_comm]

/-- `send` on a working line (R101). -/
theorem send_goes (bs : Bytes) (s : State) (hq : s.face.quiet (8 * bs.length)) :
    Goes (send bs) s () ((s.face.sentAt s.reg.baudsel (serializeBytes s.cfg bs)).transmitted (8 * bs.length)) := by
  refine ⟨(s.sending (serializeBytes s.cfg bs)).deliver, ?_, ?_⟩
  · unfold send
    rw [sendSymbols_quiet _ _ (by rwa [serializeBytes_length])]
  · rw [face_deliver]
    simp only [State.sending, State.face, Face.sentAt, Face.transmitted, serializeBytes_length]

/-- `send` when the transmit-ready poll hits its ceiling after so many symbols (R101). -/
theorem send_stalls (bs : Bytes) (s : State) (n : Nat) (hn : n < 8 * bs.length) (hq : s.face.stallsAfter n) :
    Fails (send bs) s (.busTimeout .tx)
      ((s.face.sentAt s.reg.baudsel ((serializeBytes s.cfg bs).take n)).transmitted (n + 1)) := by
  have hl : ((serializeBytes s.cfg bs).take n).length = n := by
    rw [List.length_take, serializeBytes_length]; omega
  have hd : (serializeBytes s.cfg bs).drop n ≠ [] := by
    intro h
    have := congrArg List.length h
    rw [List.length_drop, serializeBytes_length, List.length_nil] at this
    omega
  have := sendSymbols_stalls ((serializeBytes s.cfg bs).take n) ((serializeBytes s.cfg bs).drop n) hd s (by rwa [hl])
  rw [List.take_append_drop, hl] at this
  refine ⟨State.deliver _, by unfold send; rw [this], ?_⟩
  rw [face_deliver]
  simp only [State.sending, State.face, Face.sentAt, Face.transmitted]

/-! ### Tokens and the low pulse -/

theorem wake_goes (s : State) (hq : s.face.quiet 1) :
    Goes wake s () { s.face.pulsed.transmitted 1 with
      reg := { s.reg with baudsel := false, lstate := .awake }, arrived := [] } := by
  have h1 : (s.env.stall.next Config.freeStall).1 = false := (quiet_one _).mp hq
  unfold Goes wake
  simp only [bind_run, modifyReg_run, drawStall_run, h1, Bool.false_eq_true, if_false, lineLow, modifyState_run,
    discardArrived]
  exact ⟨_, rfl, rfl⟩

theorem wake_stalls (s : State) (hq : s.face.stallsAfter 0) :
    Fails wake s (.busTimeout .tx)
      { s.face.transmitted 1 with reg := { s.reg with baudsel := false } } := by
  have h1 : (s.env.stall.next Config.freeStall).1 = true := by
    have : s.env.stall.ahead Config.freeStall 1 = [true] := hq
    rw [ahead_one] at this
    exact (List.cons.inj this).1
  unfold Fails wake
  simp only [bind_run, modifyReg_run, drawStall_run, h1, if_true, raise_run]
  exact ⟨_, rfl, rfl⟩

theorem idle_goes (s : State) (hq : s.face.quiet 8) :
    Goes idle s () (((s.face.sentAt s.reg.baudsel (serializeBytes s.cfg [s.cfg.ioflagIdle])).transmitted 8).withRegs
      { s.reg with lstate := .idled }) := by
  unfold idle
  refine goes_bind (goes_cfg s) (fun t ht => ?_)
  have hr : t.reg = s.reg := congrArg Face.reg ht
  have hc : t.cfg = s.cfg := congrArg Face.cfg ht
  refine goes_bind (send_goes _ _ (by rw [ht]; exact hq)) (fun u hu => ?_)
  have := goes_modifyReg (fun r => { r with lstate := .idled }) u
  rw [hu, ht, hr, hc] at this
  exact this

theorem idle_stalls (s : State) (n : Nat) (hn : n < 8) (hq : s.face.stallsAfter n) :
    Fails idle s (.busTimeout .tx) ((s.face.sentAt s.reg.baudsel ((serializeBytes s.cfg [s.cfg.ioflagIdle]).take n)).transmitted
      (n + 1)) := by
  unfold idle
  refine fails_after (goes_cfg s) (fun t ht => ?_)
  have hr : t.reg = s.reg := congrArg Face.reg ht
  have hc : t.cfg = s.cfg := congrArg Face.cfg ht
  apply fails_bind
  have := send_stalls [s.face.cfg.ioflagIdle] t n (by simpa using hn) (by rwa [ht])
  rw [ht, hr, hc] at this
  exact this

theorem sleep_goes (s : State) (hq : s.face.quiet 8) :
    Goes sleep s () (((s.face.sentAt s.reg.baudsel (serializeBytes s.cfg [s.cfg.ioflagSleep])).transmitted 8).withRegs
      { s.reg with tkValid := false, lstate := .asleep }) := by
  unfold sleep clearTkValid
  refine goes_bind (goes_modifyReg _ s) (fun t ht => ?_)
  refine goes_bind (goes_cfg t) (fun u hu => ?_)
  have hr : u.reg = { s.reg with tkValid := false } := congrArg Face.reg (hu.trans ht)
  have hc : u.cfg = s.cfg := congrArg Face.cfg (hu.trans ht)
  refine goes_bind (send_goes _ _ (by rw [hu, ht]; exact hq)) (fun v hv => ?_)
  have := goes_modifyReg (fun r => { r with lstate := .asleep }) v
  rw [hv, hu, ht, hr, hc] at this
  exact this

theorem sleep_stalls (s : State) (n : Nat) (hn : n < 8) (hq : s.face.stallsAfter n) :
    Fails sleep s (.busTimeout .tx) (((s.face.sentAt s.reg.baudsel
      ((serializeBytes s.cfg [s.cfg.ioflagSleep]).take n)).transmitted (n + 1)).withRegs
      { s.reg with tkValid := false }) := by
  unfold sleep clearTkValid
  refine fails_after (goes_modifyReg _ s) (fun t ht => ?_)
  refine fails_after (goes_cfg t) (fun u hu => ?_)
  have hr : u.reg = { s.reg with tkValid := false } := congrArg Face.reg (hu.trans ht)
  have hc : u.cfg = s.cfg := congrArg Face.cfg (hu.trans ht)
  have hct : t.face.cfg = s.cfg := congrArg Face.cfg ht
  rw [hct]
  apply fails_bind
  have := send_stalls [s.cfg.ioflagSleep] u n (by simpa using hn) (by rw [hu, ht]; exact hq)
  rw [hu, ht, hr, hc] at this
  exact this

/-! ### Receiving -/

/-- The face of a receive attempt once its prompt is out and a burst has come (R102). -/
def Face.listened (f : Face) : Face :=
  { ((f.sentAt f.reg.baudsel (serializeBytes f.cfg (promptBytes f.cfg))).transmitted
      (8 * (promptBytes f.cfg).length)).heard 1 with
    reg := { f.reg with tof := true }
    arrived := []
    inFlight := if promptBytes f.cfg = [] then f.inFlight else [] }

theorem sendPrompt_goes (s : State) (hq : s.face.quiet (8 * (promptBytes s.cfg).length)) :
    Goes sendPrompt s () { (s.face.sentAt s.reg.baudsel (serializeBytes s.cfg (promptBytes s.cfg))).transmitted
      (8 * (promptBytes s.cfg).length) with
      inFlight := if promptBytes s.cfg = [] then s.face.inFlight else [] } := by
  unfold sendPrompt
  refine goes_bind (goes_cfg s) (fun t ht => ?_)
  have hr : t.reg = s.reg := congrArg Face.reg ht
  have hc : t.cfg = s.cfg := congrArg Face.cfg ht
  rw [face_cfg]
  unfold promptBytes at hq ⊢
  cases htx : s.cfg.ioflagTx with
  | none =>
    have := goes_pure () t
    rw [ht] at this
    simpa only [Option.toList_none, serializeBytes_nil, List.length_nil, Nat.mul_zero, Face.sentAt, Face.transmitted,
      List.map_nil, List.append_nil, after_zero, if_true] using this
  | some b =>
    rw [htx] at hq
    have := send_goes [b] t (by rw [ht]; exact hq)
    rw [ht, hr, hc] at this
    exact this

theorem lineRxBurst_inject (s : State) (burst : List Symbol)
    (h : (s.wire.inMoves.next Config.freeInMove).1 = InMove.inject burst) :
    lineRxBurst s = .ok burst { s with wire := { s.wire with inMoves := s.wire.inMoves.after Config.freeInMove 1 } } := by
  simp only [lineRxBurst, h]
  rfl

theorem receive_opening (maxLen : Nat) (s : State) (burst : List Symbol)
    (hq : s.face.quiet (8 * (promptBytes s.cfg).length)) (hh : s.face.hears [burst]) :
    ∃ t, t.face = s.face.listened ∧ receive maxLen s =
      (if burst = [] then .error (.busTimeout .rx) t
       else (do
        let b ← deserialize burst maxLen
        modifyReg (fun r => { r with rxbuf := rxHeld b })
        pure b : Op Bytes) t) := by
  have hh' : (s.wire.inMoves.next Config.freeInMove).1 = InMove.inject burst := ((hears_cons _ _ _).mp hh).1
  obtain ⟨u, hu, hf⟩ := sendPrompt_goes { s with reg := { s.reg with tof := false }, wire := { s.wire with arrived := [] } } hq
  have hi : u.wire.inMoves = s.wire.inMoves := congrArg Face.inMoves hf
  have hh'' : (u.wire.inMoves.next Config.freeInMove).1 = InMove.inject burst := by rw [hi]; exact hh'
  refine ⟨{ u with
    wire := { u.wire with inMoves := u.wire.inMoves.after Config.freeInMove 1 }
    reg := { u.reg with tof := true } }, ?_, ?_⟩
  · have hreg : u.reg = { s.reg with tof := false } := congrArg Face.reg hf
    have := congrArg (fun f : Face => { f.heard 1 with reg := { f.reg with tof := true } }) hf
    exact this
  · unfold receive
    simp only [bind_run, modifyReg_run, discardArrived, modifyState_run, hu, lineRxBurst_inject u burst hh'']
    by_cases hb : burst = []
    · rw [if_pos hb, if_pos hb, raise_run]
    · rw [if_neg hb, if_neg hb]
      simp only [bind_run, modifyReg_run, pure_run]

/-- `receive` when a byte string's symbols come, with junk before and less than a group after (R102). -/
theorem receive_goes (maxLen : Nat) (s : State) (hc : s.cfg.pulse0 ≠ s.cfg.pulse1) (j : List Symbol)
    (hj : ∀ x ∈ j, isPulse s.cfg x = false) (bs : Bytes) (t : List Symbol) (ht : t.length < 8)
    (hne : j ++ serializeBytes s.cfg bs ++ t ≠ []) (hq : s.face.quiet (8 * (promptBytes s.cfg).length))
    (hh : s.face.hears [j ++ serializeBytes s.cfg bs ++ t]) :
    Goes (receive maxLen) s (bs.take maxLen)
      (s.face.listened.withRegs { s.reg with tof := true, rxbuf := rxHeld (bs.take maxLen) }) := by
  obtain ⟨u, hu, hr⟩ := receive_opening maxLen s _ hq hh
  have hcu : u.cfg = s.cfg := congrArg Face.cfg hu
  rw [if_neg hne] at hr
  rw [← hcu] at hc hj hr
  refine ⟨{ u with reg := { u.reg with rxbuf := rxHeld (bs.take maxLen) } }, ?_, ?_⟩
  · rw [hr, bind_run, deserialize_serialized hc hj bs t ht maxLen]
    rfl
  · exact congrArg (fun f : Face => f.withRegs { f.reg with rxbuf := rxHeld (bs.take maxLen) }) hu

/-- `receive` of any burst: what `deserialize` makes of it (R102). -/
theorem receive_burst (maxLen : Nat) (s : State) (burst : List Symbol) (hb : burst ≠ [])
    (hq : s.face.quiet (8 * (promptBytes s.cfg).length)) (hh : s.face.hears [burst]) :
    ∃ t bs d, deserialize burst maxLen s = .ok bs { s with env := { s.env with junk := d } }
      ∧ receive maxLen s = .ok bs t
      ∧ t.face = { s.face.listened with
          env := { s.face.listened.env with junk := d }, reg := { s.reg with tof := true, rxbuf := rxHeld bs } } := by
  obtain ⟨u, hu, hr⟩ := receive_opening maxLen s _ hq hh
  have hcu : u.cfg = s.cfg := congrArg Face.cfg hu
  have hju : u.env.junk = s.env.junk := congrArg (fun f : Face => f.env.junk) hu
  obtain ⟨bs, d, hd⟩ := deserialize_junk burst maxLen s.cfg s.env.junk
  rw [if_neg hb] at hr
  refine ⟨{ u with env := { u.env with junk := d }, reg := { u.reg with rxbuf := rxHeld bs } }, bs, d, hd s rfl rfl, ?_, ?_⟩
  · rw [hr, bind_run, hd u hcu hju]
    rfl
  · exact congrArg (fun f : Face => { f with env := { f.env with junk := d }, reg := { f.reg with rxbuf := rxHeld bs } }) hu

/-- `receive` when nothing comes (R102). -/
theorem receive_silence (maxLen : Nat) (s : State) (hq : s.face.quiet (8 * (promptBytes s.cfg).length))
    (hh : s.face.hears [[]]) : Fails (receive maxLen) s (.busTimeout .rx) s.face.listened := by
  obtain ⟨u, hu, hr⟩ := receive_opening maxLen s _ hq hh
  exact ⟨u, by rw [hr, if_pos rfl], hu⟩

end Sys2Proof.Machine
end

