-- ==== Sys2Proof/Laws/Link.lean ====
section
/-! SUPPORT. FrameCodec and the command sequencer (spec/41_framecodec.md R114, R115; spec/42_selink.md R119 to R122): what
decoding answers for each kind of frame, what a receive attempt, the retry loop and a whole transaction leave. -/

namespace Sys2Proof.Machine

open Sys2Proof.Config (Params InMove)

/-! ### Frames -/

theorem encodeCommand_run (opcode p1 : Byte) (p2 : Word16) (data : Bytes) (s : State) :
    encodeCommand opcode p1 p2 data s = .ok (commandFrame s.cfg opcode p1 p2 data)
      { s with reg := { s.reg with
        crc := frameCrc s.cfg (commandBody opcode p1 p2 data)
        txbuf := commandFrame s.cfg opcode p1 p2 data } } := rfl

theorem crc16_run (seed : Word16) (bytes : Bytes) (s : State) :
    crc16 seed bytes s = .ok (crcBytes s.cfg.crcPoly seed bytes)
      { s with reg := { s.reg with crc := crcBytes s.cfg.crcPoly seed bytes } } := rfl

theorem countByte (n : Nat) (h : n ≤ 252) : (BitVec.ofNat 8 (n + 3)).toNat = n + 3 := by
  rw [BitVec.toNat_ofNat]; omega

/-- A response frame decodes to its payload (R117). -/
theorem decodeResponse_frame (p : Bytes) (h1 : 1 ≤ p.length) (h2 : p.length ≤ 252) (s : State) :
    decodeResponse (responseFrame s.cfg p) p.length s = .ok p
      { s with reg := { s.reg with crc := frameCrc s.cfg (BitVec.ofNat 8 (p.length + 3) :: p) } } := by
  have hl : (responseFrame s.cfg p).length = p.length + 3 := responseFrame_length _ _
  have hb : (BitVec.ofNat 8 (p.length + 3) :: p).length = p.length + 1 := List.length_cons
  have h0 : (responseFrame s.cfg p).getD 0 0 = BitVec.ofNat 8 (p.length + 3) := rfl
  unfold decodeResponse
  rw [if_neg (by rw [hl]; unfold Config.errReplyLen; omega), h0, countByte _ h2]
  simp only [ne_eq, not_true_eq_false, if_false]
  rw [if_neg (by rw [hl]; omega)]
  have e2 : p.length + 3 - 2 = (BitVec.ofNat 8 (p.length + 3) :: p).length := by rw [hb]; omega
  have s1 : slice (responseFrame s.cfg p) 0 (p.length + 3 - 2) = BitVec.ofNat 8 (p.length + 3) :: p := by
    rw [e2]; exact slice_frame_body _ _
  have s2 : slice (responseFrame s.cfg p) (p.length + 3 - 2) 2
      = u16le (frameCrc s.cfg (BitVec.ofNat 8 (p.length + 3) :: p)) := by
    rw [e2]; exact slice_frame_crc _ _
  have s3 : slice (responseFrame s.cfg p) 1 (p.length + 3 - 3) = p := by
    rw [Nat.add_sub_cancel]
    simp only [slice, responseFrame, List.cons_append, List.drop_succ_cons, List.drop_zero, List.take_left]
  simp only [bind_run, getCfg_run, crc16_run, s1, s2, s3]
  exact congrFun (if_neg (not_not_intro rfl)) _

/-- A spoiled frame is one of the outcomes the retry loop catches, and moves at most the CRC (R115, R120). -/
theorem decodeResponse_spoiled (n : Nat) (raw : Bytes) (s : State) (h : spoiled s.cfg n raw) :
    ∃ e v, retriedDecode e = true
      ∧ decodeResponse raw n s = .error e { s with reg := { s.reg with crc := v } } := by
  unfold decodeResponse
  by_cases hl : raw.length < Config.errReplyLen
  · rw [if_pos hl]
    exact ⟨.shortRead, s.reg.crc, rfl, rfl⟩
  · rw [if_neg hl]
    have hl' : ¬ raw.length < 4 := hl
    by_cases hc : (raw.getD 0 0).toNat = n + 3
    · simp only [hc, ne_eq, not_true_eq_false, if_false]
      by_cases hs : raw.length < n + 3
      · rw [if_pos hs]
        exact ⟨.shortRead, s.reg.crc, rfl, rfl⟩
      · rw [if_neg hs]
        have hcrc : slice raw (n + 3 - 2) 2 ≠ u16le (frameCrc s.cfg (slice raw 0 (n + 3 - 2))) := by
          rcases h with h | h | h | h
          · exact absurd h hl'
          · exact absurd hc h.1
          · exact absurd h.2 hs
          · exact h.2
        simp only [bind_run, getCfg_run, crc16_run]
        refine ⟨.crcMismatch, crcBytes s.cfg.crcPoly s.cfg.crcInit (slice raw 0 (n + 3 - 2)), rfl, ?_⟩
        exact (congrFun (if_pos hcrc) _)
    · simp only [ne_eq, hc, not_false_eq_true, if_true]
      rw [if_neg]
      · exact ⟨.lengthMismatch, s.reg.crc, rfl, rfl⟩
      · rcases h with h | h | h | h
        · exact absurd h hl'
        · exact h.2
        · exact absurd h.1 hc
        · exact absurd h.1 hc

/-- A status reply with an error, where a longer frame was expected (R115 case (b)). -/
theorem decodeResponse_chipError (n : Nat) (raw : Bytes) (s : State) (hl : 4 ≤ raw.length)
    (hc : (raw.getD 0 0).toNat = 4) (hn : n ≠ 1) (hs : raw.getD 1 0 ≠ 0) :
    decodeResponse raw n s = .error (.chipError (raw.getD 1 0)) s := by
  unfold decodeResponse
  rw [if_neg (by unfold Config.errReplyLen; omega)]
  simp only [hc]
  rw [if_pos (by omega), if_pos ⟨rfl, hs⟩]
  rfl

/-! ### One receive attempt -/

theorem unlessRetried_goes {α : Type} {r : Err → Bool} {x : Op α} {s : State} {a : α} {f : Face} (h : Goes x s a f) :
    Goes (unlessRetried r x) s (some a) f := by
  obtain ⟨t, ht, hf⟩ := h
  exact goes_catching ⟨t, by rw [bind_run, ht]; rfl, hf⟩

theorem unlessRetried_caught {α : Type} {r : Err → Bool} {x : Op α} {s : State} {e : Err} {f : Face}
    (h : Fails x s e f) (hr : r e = true) (he : ∀ w, e ≠ .stop w) : Goes (unlessRetried r x) s none f := by
  refine goes_caught (fails_bind h) he (fun t ht => ?_)
  rw [if_pos hr, ← ht]
  exact goes_pure _ t

theorem unlessRetried_passed {α : Type} {r : Err → Bool} {x : Op α} {s : State} {e : Err} {f : Face}
    (h : Fails x s e f) (hr : r e = false) (he : ∀ w, e ≠ .stop w) : Fails (unlessRetried r x) s e f := by
  refine fails_caught (fails_bind h) he (fun t ht => ?_)
  rw [if_neg (by simp [hr]), ← ht]
  exact fails_raise _ t

theorem retriedDecode_not_stop {e : Err} (h : retriedDecode e = true) : ∀ w, e ≠ .stop w := by
  rintro w rfl
  cases h

/-- The face after a receive attempt that heard `raw` (R119): the prompt, the burst, `TOF`, `RXBUF`, one more on
`RETRY`, and the CRC as decoding left it. -/
def Face.attempted (f : Face) (raw : Bytes) (crc : Word16) : Face :=
  { f.listened with
    reg := { f.reg with
      retry := f.reg.retry + 1
      tof := true
      rxbuf := if raw = [] then f.reg.rxbuf else rxHeld raw
      crc := crc } }

theorem attempt_receive (expect : Expect) (s : State) (raw : Bytes) (hc : s.cfg.pulse0 ≠ s.cfg.pulse1)
    (hw : raw.length ≤ Expect.want expect) (hq : s.face.quiet (8 * (promptBytes s.cfg).length))
    (hh : s.face.hears [serializeBytes s.cfg raw]) :
    Goes (do
        modifyReg (fun r => { r with retry := r.retry + 1 })
        unlessRetried retriedReceive (receive (Expect.want expect))) s
      (if raw = [] then none else some raw) (s.face.attempted raw s.reg.crc) := by
  refine goes_bind (goes_modifyReg _ s) (fun t ht => ?_)
  have hct : t.cfg = s.cfg := congrArg Face.cfg ht
  have hrt : t.reg = { s.reg with retry := s.reg.retry + 1 } := congrArg Face.reg ht
  rw [← hct] at hc hq hh
  have hq' : t.face.quiet (8 * (promptBytes t.cfg).length) := by rw [ht]; exact hq
  have hh' : t.face.hears [serializeBytes t.cfg raw] := by rw [ht]; exact hh
  by_cases hr : raw = []
  · subst hr
    rw [if_pos rfl]
    have := unlessRetried_caught (r := retriedReceive) (receive_silence (Expect.want expect) t hq' hh') rfl
      (by intro w h; cases h)
    rw [ht] at this
    exact this
  · rw [if_neg hr]
    have hg := receive_goes (Expect.want expect) t hc [] (by simp) raw [] (by simp) (by simpa using hr) hq'
      (by simpa using hh')
    rw [List.take_of_length_le hw] at hg
    have := unlessRetried_goes (r := retriedReceive) hg
    rw [ht, hrt] at this
    have e : (s.face.attempted raw s.reg.crc) =
        ((s.face.withRegs { s.reg with retry := s.reg.retry + 1 }).listened.withRegs
          { s.reg with retry := s.reg.retry + 1, tof := true, rxbuf := rxHeld raw }) := by
      simp only [Face.attempted, if_neg hr]
      rfl
    rw [e]
    exact this

/-- An attempt that hears what counts as a failure is a failure, and moves at most the CRC besides (R120). -/
theorem receiveAttempt_failed (expect : Expect) (s : State) (raw : Bytes) (hc : s.cfg.pulse0 ≠ s.cfg.pulse1)
    (hw : raw.length ≤ Expect.want expect) (hf : expectFails s.cfg expect raw)
    (hq : s.face.quiet (8 * (promptBytes s.cfg).length)) (hh : s.face.hears [serializeBytes s.cfg raw]) :
    ∃ v, (∀ n, expect = .raw n → v = s.reg.crc) ∧ Goes (receiveAttempt expect) s none (s.face.attempted raw v) := by
  obtain ⟨t, ht, hft⟩ := attempt_receive expect s raw hc hw hq hh
  have hct : t.cfg = s.cfg := congrArg Face.cfg hft
  have key : ∀ y : Op (Option Bytes), receiveAttempt expect s = y t → ∀ f, Goes y t none f →
      Goes (receiveAttempt expect) s none f := by
    rintro y hy f ⟨u, hu, hfu⟩
    exact ⟨u, by rw [hy, hu], hfu⟩
  have expand : receiveAttempt expect s = (do
      let got ← (do
        modifyReg (fun r => { r with retry := r.retry + 1 })
        unlessRetried retriedReceive (receive (Expect.want expect)))
      match got with
      | none => pure none
      | some r =>
        match expect with
        | .raw n => if r.length < n then pure none else pure (some r)
        | .status => unlessRetried retriedDecode (decodeResponse r (Expect.want expect - 3))
        | .data _ => unlessRetried retriedDecode (decodeResponse r (Expect.want expect - 3)) : Op (Option Bytes)) s := by
    unfold receiveAttempt
    simp only [bind_run]
    rfl
  rw [bind_run, ht] at expand
  by_cases hr : raw = []
  · refine ⟨s.reg.crc, fun _ _ => rfl, ?_⟩
    rw [if_pos hr] at expand
    exact ⟨t, expand, hft⟩
  · rw [if_neg hr] at expand
    cases expect with
    | raw n =>
      refine ⟨s.reg.crc, fun _ _ => rfl, ?_⟩
      have hf' : raw.length < n := hf
      simp only [if_pos hf'] at expand
      exact ⟨t, expand, hft⟩
    | status =>
      have hf' : spoiled t.cfg 1 raw := by rw [hct]; exact hf
      obtain ⟨e, v, he, hd⟩ := decodeResponse_spoiled 1 raw t hf'
      refine ⟨v, fun n h => (by cases h), ?_⟩
      obtain ⟨u, hu, hfu⟩ := unlessRetried_caught (r := retriedDecode) ⟨_, hd, rfl⟩ he (retriedDecode_not_stop he)
      exact ⟨u, expand.trans hu, by
        rw [hfu]
        have := congrArg (fun f : Face => { f with reg := { f.reg with crc := v } }) hft
        exact this⟩
    | data n =>
      have hf' : spoiled t.cfg n raw := by rw [hct]; exact hf
      obtain ⟨e, v, he, hd⟩ := decodeResponse_spoiled n raw t hf'
      refine ⟨v, fun n h => (by cases h), ?_⟩
      obtain ⟨u, hu, hfu⟩ := unlessRetried_caught (r := retriedDecode) ⟨_, hd, rfl⟩ he (retriedDecode_not_stop he)
      exact ⟨u, expand.trans (by exact hu), by
        rw [hfu]
        have := congrArg (fun f : Face => { f with reg := { f.reg with crc := v } }) hft
        exact this⟩

end Sys2Proof.Machine
end

