-- ==== Sys2Proof/Laws/Transaction.lean ====
section
/-! SUPPORT. The retry loop and a whole transaction (spec/42_selink.md R119 to R122): one lemma says what a completed
exchange leaves, one what a spoiled run of attempts ends in, one what a chip's error status ends in. -/

namespace Sys2Proof.Machine

open Sys2Proof.Config (Params InMove)

/-- What decoding the accepted reply leaves in `CRC`: nothing new where the reply is raw (R118). -/
def Exchange.heardCrc (c : Params) (x : Exchange) (before : Word16) : Word16 :=
  match x.expect with
  | .raw _ => before
  | .status => frameCrc c (BitVec.ofNat 8 (x.payload.length + 3) :: x.payload)
  | .data _ => frameCrc c (BitVec.ofNat 8 (x.payload.length + 3) :: x.payload)

/-- An accepted reply fits what `receive` was asked for and is not empty. -/
theorem reply_fits (c : Params) (x : Exchange) (h : expectAccepts x.expect x.payload) :
    (x.reply c).length ≤ Expect.want x.expect ∧ x.reply c ≠ [] := by
  obtain ⟨opcode, p1, p2, data, expect, close, failed, payload⟩ := x
  cases expect with
  | status =>
    have : payload = [0] := h
    subst this
    exact ⟨Nat.le_refl 4, by simp [Exchange.reply, responseFrame]⟩
  | data n =>
    obtain ⟨h1, -, -⟩ := h
    refine ⟨?_, by simp [Exchange.reply, responseFrame]⟩
    have : (responseFrame c payload).length ≤ n + 3 := by rw [responseFrame_length, h1]
    exact this
  | raw n =>
    obtain ⟨h1, h2⟩ := h
    have hl : payload.length = n := h1
    refine ⟨?_, ?_⟩
    · change payload.length ≤ n
      omega
    · change payload ≠ []
      rintro rfl
      simp at hl
      omega

theorem receiveAttempt_expand (expect : Expect) (s : State) : receiveAttempt expect s = (do
      let got ← (do
        modifyReg (fun r => { r with retry := r.retry + 1 })
        unlessRetried retriedReceive (receive (Expect.want expect)))
      match got with
      | none => pure none
      | some r =>
        match expect with
        | .raw n => if r.length < n then pure none else pure (some r)
        | .status => unlessRetried retriedDecode (decodeResponse r (Expect.want expect - 3))
        | .data _ => unlessRetried retriedDecode (decodeResponse r (Expect.want expect - 3)) : Op (Option Bytes)) s := by
  unfold receiveAttempt
  simp only [bind_run]
  rfl

/-- An attempt that hears the accepted reply gives its payload (R119). -/
theorem receiveAttempt_accepted (x : Exchange) (s : State) (hc : s.cfg.pulse0 ≠ s.cfg.pulse1)
    (ha : expectAccepts x.expect x.payload) (hq : s.face.quiet (8 * (promptBytes s.cfg).length))
    (hh : s.face.hears [serializeBytes s.cfg (x.reply s.cfg)]) :
    Goes (receiveAttempt x.expect) s (some x.payload)
      (s.face.attempted (x.reply s.cfg) (x.heardCrc s.cfg s.reg.crc)) := by
  obtain ⟨hw, hne⟩ := reply_fits s.cfg x ha
  obtain ⟨t, ht, hft⟩ := attempt_receive x.expect s _ hc hw hq hh
  have hct : t.cfg = s.cfg := congrArg Face.cfg hft
  have expand := receiveAttempt_expand x.expect s
  rw [bind_run, ht, if_neg hne] at expand
  obtain ⟨opcode, p1, p2, data, expect, close, failed, payload⟩ := x
  cases expect with
  | raw n =>
    have hl : payload.length = n := ha.1
    have : ¬ (Exchange.reply s.cfg ⟨opcode, p1, p2, data, .raw n, close, failed, payload⟩).length < n := by
      change ¬ payload.length < n
      omega
    simp only [if_neg this] at expand
    exact ⟨t, expand, hft⟩
  | status =>
    have hp : payload = [0] := ha
    subst hp
    have hd := decodeResponse_frame [0] (by decide) (by decide) t
    rw [hct] at hd
    obtain ⟨u, hu, hfu⟩ := unlessRetried_goes (r := retriedDecode) ⟨_, hd, rfl⟩
    refine ⟨u, expand.trans hu, ?_⟩
    rw [hfu]
    have := congrArg (fun f : Face => { f with reg := { f.reg with
      crc := frameCrc s.cfg (BitVec.ofNat 8 (List.length ([0] : Bytes) + 3) :: [0]) } }) hft
    refine Eq.trans ?_ this
    rw [← hct]
    rfl
  | data n =>
    obtain ⟨h1, h2, h3⟩ := ha
    have h1' : payload.length = n := h1
    have hd := decodeResponse_frame payload (by omega) (by omega) t
    rw [hct, h1'] at hd
    obtain ⟨u, hu, hfu⟩ := unlessRetried_goes (r := retriedDecode) ⟨_, hd, rfl⟩
    refine ⟨u, expand.trans hu, ?_⟩
    rw [hfu]
    have := congrArg (fun f : Face => { f with reg := { f.reg with
      crc := frameCrc s.cfg (BitVec.ofNat 8 (n + 3) :: payload) } }) hft
    simp only [Exchange.heardCrc, h1']
    refine Eq.trans ?_ this
    rw [← hct]
    rfl

/-! ### Attempts one after the other -/

/-- The face after `k` receive attempts, the last of which heard `raw`. -/
def Face.looped (f : Face) (k : Nat) (raw : Bytes) (crc : Word16) : Face :=
  { ((f.sent (serializeBytes f.cfg (List.replicate k (promptBytes f.cfg)).flatten)).transmitted
      (8 * (k * (promptBytes f.cfg).length))).heard k with
    reg := { f.reg with retry := f.reg.retry + k, tof := true, rxbuf := rxHeld raw, crc := crc }
    arrived := [] }

theorem attempted_eq_looped {f : Face} (hb : f.reg.baudsel = false) (hi : f.inFlight = []) {raw : Bytes}
    (hr : raw ≠ []) (crc : Word16) : f.attempted raw crc = f.looped 1 raw crc := by
  simp only [Face.attempted, Face.looped, Face.listened, Face.sent, Face.sentAt, Face.transmitted, Face.heard, hb, hi,
    hr, if_false, List.replicate_one, List.flatten_cons, List.flatten_nil, List.append_nil, Nat.one_mul, ite_self]

theorem looped_of_attempted {f : Face} (hb : f.reg.baudsel = false) (hi : f.inFlight = []) (raw : Bytes)
    (v : Word16) (k : Nat) (last : Bytes) (crc : Word16) :
    (f.attempted raw v).looped k last crc = f.looped (k + 1) last crc := by
  have e : 8 * (promptBytes f.cfg).length + 8 * (k * (promptBytes f.cfg).length)
      = 8 * ((k + 1) * (promptBytes f.cfg).length) := by ring
  simp only [Face.attempted, Face.looped, Face.listened, Face.sent, Face.sentAt, Face.transmitted, Face.heard, hb, hi,
    ite_self, List.replicate_succ, List.flatten_cons, serializeBytes_append, List.map_append, List.append_assoc,
    after_after, Nat.add_assoc, Nat.add_comm 1 k, e]

/-- The retry loop: failures as long as they come, then the accepted reply (R119, R120). -/
theorem receiveLoop_goes (x : Exchange) (s : State) (n : Nat) (hc : s.cfg.pulse0 ≠ s.cfg.pulse1)
    (hb : s.reg.baudsel = false) (hi : s.wire.inFlight = []) (hn : x.failed.length < n)
    (ha : expectAccepts x.expect x.payload)
    (hf : ∀ raw ∈ x.failed, raw.length ≤ Expect.want x.expect ∧ expectFails s.cfg x.expect raw)
    (hq : s.face.quiet (8 * (x.attempts * (promptBytes s.cfg).length))) (hh : s.face.hears (x.bursts s.cfg)) :
    Goes (receiveLoop x.expect n) s x.payload
      (s.face.looped x.attempts (x.reply s.cfg) (x.heardCrc s.cfg s.reg.crc)) := by
  obtain ⟨opcode, p1, p2, data, expect, close, failed, payload⟩ := x
  induction failed generalizing s n with
  | nil =>
    obtain ⟨m, rfl⟩ : ∃ m, n = m + 1 := ⟨n - 1, by simp only [List.length_nil] at hn; omega⟩
    have hh' := hh
    simp only [Exchange.bursts, Exchange.replies, List.nil_append, List.map_cons, List.map_nil] at hh'
    simp only [Exchange.attempts, List.length_nil, Nat.zero_add, Nat.one_mul] at hq
    have ha' := receiveAttempt_accepted ⟨opcode, p1, p2, data, expect, close, [], payload⟩ s hc ha hq hh'
    rw [attempted_eq_looped hb hi (reply_fits s.cfg ⟨opcode, p1, p2, data, expect, close, [], payload⟩ ha).2] at ha'
    unfold receiveLoop
    refine goes_bind ha' (fun t ht => ?_)
    have := goes_pure payload t
    rw [ht] at this
    exact this
  | cons raw failed ih =>
    obtain ⟨m, rfl⟩ : ∃ m, n = m + 1 := ⟨n - 1, by simp only [List.length_cons] at hn; omega⟩
    obtain ⟨hw, hfail⟩ := hf raw List.mem_cons_self
    have hq' : s.face.quiet (8 * (promptBytes s.cfg).length + 8 * ((failed.length + 1) * (promptBytes s.cfg).length)) := by
      have e : 8 * (promptBytes s.cfg).length + 8 * ((failed.length + 1) * (promptBytes s.cfg).length)
          = 8 * ((failed.length + 1 + 1) * (promptBytes s.cfg).length) := by ring
      rw [e]
      exact hq
    obtain ⟨hq1, hq2⟩ := (quiet_add _ _ _).mp hq'
    have hh' : s.face.hears (serializeBytes s.cfg raw ::
        Exchange.bursts s.cfg ⟨opcode, p1, p2, data, expect, close, failed, payload⟩) := hh
    have hh1 : s.face.hears [serializeBytes s.cfg raw] :=
      ((hears_append _ [_] _).mp hh').1
    have hh2 := ((hears_append _ [_] _).mp hh').2
    obtain ⟨v, hv, hg⟩ := receiveAttempt_failed expect s raw hc hw hfail hq1 hh1
    unfold receiveLoop
    refine goes_bind hg (fun t ht => ?_)
    have hct : t.cfg = s.cfg := congrArg Face.cfg ht
    have hrt : t.reg = (s.face.attempted raw v).reg := congrArg Face.reg ht
    have hit : t.wire.inFlight = [] := by
      have : t.face.inFlight = (s.face.attempted raw v).inFlight := congrArg Face.inFlight ht
      have hi' : s.face.inFlight = [] := hi
      simp only [Face.attempted, Face.listened, hi', ite_self] at this
      exact this
    have := ih t m (by rw [hct]; exact hc) (by rw [hrt]; exact hb) hit
      (by simp only [List.length_cons] at hn ⊢; omega) ha
      (by rw [hct]; exact fun r hr => hf r (List.mem_cons_of_mem raw hr))
      (by rw [hct, ht]; exact hq2) (by rw [hct, ht]; exact hh2)
    rw [ht, hct, looped_of_attempted hb hi] at this
    have hcrc : Exchange.heardCrc s.cfg ⟨opcode, p1, p2, data, expect, close, failed, payload⟩ t.reg.crc
        = Exchange.heardCrc s.cfg ⟨opcode, p1, p2, data, expect, close, raw :: failed, payload⟩ s.reg.crc := by
      cases expect with
      | raw k =>
        have : t.reg.crc = s.reg.crc := by rw [hrt, ← hv k rfl]; rfl
        exact this
      | status => rfl
      | data k => rfl
    rw [hcrc] at this
    exact this

/-! ### A whole transaction -/

theorem symbols_length (c : Params) (x : Exchange) :
    (x.symbols c).length = 8 * (x.data.length + 8) + 8 * (x.attempts * (promptBytes c).length) + 8 := by
  simp only [Exchange.symbols, Exchange.frame, serializeBytes_length, List.length_append, commandFrame_length,
    List.length_flatten, List.map_replicate, List.sum_replicate, smul_eq_mul, List.length_cons, List.length_nil]
  ring

theorem goes_setPhase (p : Phase) (s : State) :
    Goes (setPhase p) s () (s.face.withRegs { s.face.reg with phase := p }) := goes_modifyReg _ s

/-- The registers when the command is about to be sent (R119). -/
def Regs.starting (r : Regs) : Regs :=
  { r with busCalls := r.busCalls + 1, retry := 0, phase := .sending, baudsel := false, lstate := .awake }

/-- The face once the command frame is out and the block is about to listen (R119). -/
def Face.commanded (f : Face) (frame : Bytes) (crc : Word16) : Face :=
  { (f.pulsed.sent (serializeBytes f.cfg frame)).transmitted (1 + 8 * frame.length) with
    reg := { f.reg.starting with txbuf := frame, crc := crc, phase := .receiving }, arrived := [] }

/-- The first half of a transaction: waking, encoding, sending (R119). -/
def transactOpening (opcode p1 : Byte) (p2 : Word16) (data : Bytes) : Op Unit := do
  modifyReg (fun r => { r with busCalls := r.busCalls + 1, retry := 0 })
  setPhase .waking
  wake
  setPhase .sending
  let frame ← encodeCommand opcode p1 p2 data
  send frame
  setPhase .receiving

/-- The second half: what is made of the payload (R119). -/
def transactClosing (expect : Expect) (close : Close) (p : Bytes) : Op Bytes :=
  if expect = .status ∧ p.getD 0 0 ≠ stOk then raise (.chipError (p.getD 0 0))
  else do
    setPhase .closing
    closeLine close
    setPhase .ready
    pure p

theorem transactBody_split (opcode p1 : Byte) (p2 : Word16) (data : Bytes) (expect : Expect) (close : Close)
    (s : State) : transactBody opcode p1 p2 data expect close s = (do
      transactOpening opcode p1 p2 data
      let c ← getCfg
      let p ← receiveLoop expect c.retryMax
      transactClosing expect close p : Op Bytes) s := by
  simp only [transactBody, transactOpening, bind_run]
  cases modifyReg (fun r => { r with busCalls := r.busCalls + 1, retry := 0 }) s with
  | error e t => rfl
  | ok a t =>
    dsimp only
    cases setPhase .waking t with
    | error e t => rfl
    | ok a t =>
      dsimp only
      cases wake t with
      | error e t => rfl
      | ok a t =>
        dsimp only
        cases setPhase .sending t with
        | error e t => rfl
        | ok a t =>
          dsimp only
          cases encodeCommand opcode p1 p2 data t with
          | error e t => rfl
          | ok a t =>
            dsimp only
            cases send a t with
            | error e t => rfl
            | ok a t => rfl

theorem transactOpening_goes (opcode p1 : Byte) (p2 : Word16) (data : Bytes) (s : State)
    (hq : s.face.quiet (1 + 8 * (data.length + 8))) : Goes (transactOpening opcode p1 p2 data) s ()
      (s.face.commanded (commandFrame s.cfg opcode p1 p2 data) (frameCrc s.cfg (commandBody opcode p1 p2 data))) := by
  obtain ⟨hq1, hq2⟩ := (quiet_add _ _ _).mp hq
  unfold transactOpening
  refine goes_bind (goes_modifyReg _ s) (fun t ht => ?_)
  refine goes_bind (goes_setPhase _ t) (fun u hu => ?_)
  rw [ht] at hu
  refine goes_bind (wake_goes u (by rw [hu]; exact hq1)) (fun v hv => ?_)
  have hur : u.reg = _ := congrArg Face.reg hu
  rw [hu, hur] at hv
  refine goes_bind (goes_setPhase _ v) (fun w hw => ?_)
  rw [hv] at hw
  have hwc : w.cfg = s.cfg := congrArg Face.cfg hw
  refine goes_bind ⟨_, encodeCommand_run opcode p1 p2 data w, rfl⟩ (fun y hy => ?_)
  have hyf := hy.trans (congrArg (fun f : Face => { f with reg := { f.reg with
    crc := frameCrc w.cfg (commandBody opcode p1 p2 data), txbuf := commandFrame w.cfg opcode p1 p2 data } }) hw)
  rw [hwc] at hyf ⊢
  have hyc : y.cfg = s.cfg := congrArg Face.cfg hyf
  refine goes_bind (send_goes _ y (by rw [hyf, commandFrame_length]; exact hq2)) (fun z hz => ?_)
  have hyr : y.reg = _ := congrArg Face.reg hyf
  rw [hyf, hyr, hyc] at hz
  have := goes_setPhase .receiving z
  rw [hz] at this
  refine goes_face_eq ?_ this
  simp only [Face.commanded, Face.withRegs, Face.sent, Face.sentAt, Face.transmitted, Face.pulsed, Regs.starting,
    after_after, face_cfg, face_reg]

theorem closeLine_goes (close : Close) (s : State) (hb : s.reg.baudsel = false) (hq : s.face.quiet 8) :
    Goes (closeLine close) s () (((s.face.sent (serializeBytes s.cfg [closeToken s.cfg close])).transmitted 8).withRegs
      { s.reg with tkValid := s.reg.tkValid && decide (close = .idle), lstate := closedLine close }) := by
  cases close with
  | idle =>
    have := idle_goes s hq
    rw [hb] at this
    simpa only [closeLine, Face.sent, closeToken, closedLine, decide_true, Bool.and_true] using this
  | sleep =>
    have := sleep_goes s hq
    rw [hb] at this
    simpa only [closeLine, Face.sent, closeToken, closedLine, reduceCtorEq, decide_false, Bool.and_false] using this

/-- A transaction the environment grants: the exchange happens, and nothing else (R119, R120, R136). -/
theorem transact_goes (x : Exchange) (s : State) (hc : s.cfg.pulse0 ≠ s.cfg.pulse1) (hx : x.completes s.cfg)
    (hq : s.face.quiet (x.cost s.cfg)) (hh : s.face.hears (x.bursts s.cfg)) :
    Goes (transact x.opcode x.p1 x.p2 x.data x.expect x.close) s x.payload (s.face.exchange x) := by
  obtain ⟨hn, ha, hf⟩ := hx
  have hcost : x.cost s.cfg = (1 + 8 * (x.data.length + 8)) + (8 * (x.attempts * (promptBytes s.cfg).length) + 8) := by
    rw [Exchange.cost, symbols_length]; ring
  rw [hcost] at hq
  obtain ⟨hq1, hq23⟩ := (quiet_add _ _ _).mp hq
  obtain ⟨hq2, hq3⟩ := (quiet_add _ _ _).mp hq23
  apply goes_catching
  suffices h : Goes (do
      transactOpening x.opcode x.p1 x.p2 x.data
      let c ← getCfg
      let p ← receiveLoop x.expect c.retryMax
      transactClosing x.expect x.close p : Op Bytes) s x.payload (s.face.exchange x) by
    obtain ⟨t, ht, hft⟩ := h
    exact ⟨t, by rw [transactBody_split]; exact ht, hft⟩
  refine goes_bind (transactOpening_goes _ _ _ _ s hq1) (fun t ht => ?_)
  refine goes_bind (goes_cfg t) (fun u hu => ?_)
  rw [ht] at hu
  have htc : t.face.cfg = s.cfg := congrArg Face.cfg ht
  have huc : u.cfg = s.cfg := congrArg Face.cfg hu
  have hur : u.reg = _ := congrArg Face.reg hu
  rw [htc]
  have hl : (commandFrame s.cfg x.opcode x.p1 x.p2 x.data).length = x.data.length + 8 := commandFrame_length ..
  have hloop := receiveLoop_goes x u s.cfg.retryMax (by rw [huc]; exact hc) (by rw [hur]; rfl)
    (congrArg Face.inFlight hu) hn ha (by rw [huc]; exact hf)
    (by
      rw [huc, hu]
      simp only [Face.commanded, hl]
      exact hq2)
    (by rw [huc, hu]; exact hh)
  rw [huc, hu] at hloop
  refine goes_bind hloop (fun v hv => ?_)
  have hvc : v.cfg = s.cfg := congrArg Face.cfg hv
  have hok : ¬ (x.expect = .status ∧ x.payload.getD 0 0 ≠ stOk) := by
    rintro ⟨h1, h2⟩
    rw [h1] at ha
    have : x.payload = [0] := ha
    rw [this] at h2
    exact h2 rfl
  unfold transactClosing
  rw [if_neg hok]
  refine goes_bind (goes_setPhase _ v) (fun w hw => ?_)
  rw [hv] at hw
  have hwc : w.cfg = s.cfg := congrArg Face.cfg hw
  have hwr : w.reg = _ := congrArg Face.reg hw
  have hq3' : w.face.quiet 8 := by
    rw [hw]
    simp only [Face.quiet, Face.looped, Face.commanded, Face.transmitted, Face.withRegs, Face.heard, Face.sent, Face.sentAt,
      Face.pulsed, after_after, hl] at hq3 ⊢
    exact hq3
  have hclose := closeLine_goes x.close w (by rw [hwr]; rfl) hq3'
  rw [hw, hwc, hwr] at hclose
  refine goes_bind hclose (fun y hy => ?_)
  refine goes_bind (goes_setPhase _ y) (fun z hz => ?_)
  rw [hy] at hz
  have hend := goes_pure x.payload z
  rw [hz] at hend
  refine goes_face_eq ?_ hend
  have hcrc : x.heardCrc s.cfg (frameCrc s.cfg (commandBody x.opcode x.p1 x.p2 x.data)) = x.crc s.cfg := by
    unfold Exchange.heardCrc Exchange.crc
    cases x.expect <;> rfl
  have hcrc' : Exchange.heardCrc s.cfg x u.reg.crc = x.crc s.cfg := by rw [hur]; exact hcrc
  have e : x.cost s.cfg = 1 + 8 * (x.data.length + 8) + 8 * (x.attempts * (promptBytes s.cfg).length) + 8 := by
    rw [hcost]; ring
  simp only [Face.exchange, Exchange.regs, Face.withRegs, Face.looped, Face.commanded, Face.sent, Face.sentAt,
    Face.transmitted, Face.heard, Face.pulsed, e, Exchange.symbols, Exchange.frame,
    serializeBytes_append, List.map_append, List.append_assoc, after_after, hl, Regs.starting, hcrc', Nat.zero_add,
    face_cfg, face_reg]

end Sys2Proof.Machine
end

