-- ==== Sys2Proof/Laws/Failures.lean ====
section
/-! SUPPORT. How a transaction fails (spec/42_selink.md R120 to R122): attempts used up, a chip's error status, a line
that stalls; what a failed attempt does to the rest of the loop. -/

namespace Sys2Proof.Machine

open Sys2Proof.Config (Params InMove)

/-- The face after `k` receive attempts that failed (R120). -/
def Face.retried (f : Face) (k : Nat) (rx : Bytes) (crc : Word16) : Face :=
  { ((f.sent (serializeBytes f.cfg (List.replicate k (promptBytes f.cfg)).flatten)).transmitted
      (8 * (k * (promptBytes f.cfg).length))).heard k with
    reg := { f.reg with retry := f.reg.retry + k, tof := f.reg.tof || decide (k ≠ 0), rxbuf := rx, crc := crc }
    arrived := if k = 0 then f.arrived else [] }

theorem retried_zero {f : Face} (hi : f.inFlight = []) : f.retried 0 f.reg.rxbuf f.reg.crc = f := by
  obtain ⟨cfg, reg, trace, inFlight, arrived, inMoves, host, env, ctl⟩ := f
  cases hi
  simp [Face.retried, Face.sent, Face.sentAt, Face.transmitted, Face.heard]

theorem retried_of_attempted {f : Face} (hb : f.reg.baudsel = false) (hi : f.inFlight = []) (raw : Bytes)
    (v : Word16) (k : Nat) (rx : Bytes) (crc : Word16) :
    (f.attempted raw v).retried k rx crc = f.retried (k + 1) rx crc := by
  have e : 8 * (promptBytes f.cfg).length + 8 * (k * (promptBytes f.cfg).length)
      = 8 * ((k + 1) * (promptBytes f.cfg).length) := by ring
  simp only [Face.attempted, Face.retried, Face.listened, Face.sent, Face.sentAt, Face.transmitted, Face.heard, hb, hi,
    ite_self, List.replicate_succ, List.flatten_cons, serializeBytes_append, List.map_append, List.append_assoc,
    after_after, Nat.add_assoc, Nat.add_comm 1 k, e, Bool.true_or, Nat.add_eq_zero_iff, one_ne_zero, and_false, if_false, ne_eq, not_false_eq_true, decide_true, Bool.or_true]

theorem receiveLoop_succ (expect : Expect) (n : Nat) : receiveLoop expect (n + 1) = (do
    let got ← receiveAttempt expect
    match got with
    | some p => pure p
    | none => receiveLoop expect n : Op Bytes) := rfl

/-- Failed attempts only use the loop up: what is left is the loop with so many attempts fewer (R120). -/
theorem receiveLoop_failed (expect : Expect) (failed : List Bytes) (m : Nat) (s : State)
    (hc : s.cfg.pulse0 ≠ s.cfg.pulse1) (hb : s.reg.baudsel = false) (hi : s.wire.inFlight = [])
    (hf : ∀ raw ∈ failed, raw.length ≤ Expect.want expect ∧ expectFails s.cfg expect raw)
    (hq : s.face.quiet (8 * (failed.length * (promptBytes s.cfg).length)))
    (hh : s.face.hears (failed.map (serializeBytes s.cfg))) :
    ∃ t rx crc, receiveLoop expect (failed.length + m) s = receiveLoop expect m t
      ∧ t.face = s.face.retried failed.length rx crc := by
  induction failed generalizing s with
  | nil =>
    refine ⟨s, s.reg.rxbuf, s.reg.crc, by rw [List.length_nil, Nat.zero_add], ?_⟩
    exact (retried_zero hi).symm
  | cons raw failed ih =>
    obtain ⟨hw, hfail⟩ := hf raw List.mem_cons_self
    have hq' : s.face.quiet (8 * (promptBytes s.cfg).length + 8 * (failed.length * (promptBytes s.cfg).length)) := by
      have e : 8 * (promptBytes s.cfg).length + 8 * (failed.length * (promptBytes s.cfg).length)
          = 8 * ((failed.length + 1) * (promptBytes s.cfg).length) := by ring
      rw [e]
      exact hq
    obtain ⟨hq1, hq2⟩ := (quiet_add _ _ _).mp hq'
    have hh1 : s.face.hears [serializeBytes s.cfg raw] := ((hears_append _ [_] _).mp hh).1
    have hh2 := ((hears_append _ [_] _).mp hh).2
    obtain ⟨v, -, t, ht, hft⟩ := receiveAttempt_failed expect s raw hc hw hfail hq1 hh1
    have hct : t.cfg = s.cfg := congrArg Face.cfg hft
    have hrt : t.reg = (s.face.attempted raw v).reg := congrArg Face.reg hft
    have hit : t.wire.inFlight = [] := by
      have h1 : t.face.inFlight = (s.face.attempted raw v).inFlight := congrArg Face.inFlight hft
      have hi' : s.face.inFlight = [] := hi
      simp only [Face.attempted, Face.listened, hi', ite_self] at h1
      exact h1
    obtain ⟨u, rx, crc, hu, hfu⟩ := ih t (by rw [hct]; exact hc) (by rw [hrt]; exact hb) hit
      (by rw [hct]; exact fun r hr => hf r (List.mem_cons_of_mem raw hr))
      (by rw [hct, hft]; exact hq2) (by rw [hct, hft]; exact hh2)
    refine ⟨u, rx, crc, ?_, ?_⟩
    · rw [List.length_cons, Nat.add_right_comm, receiveLoop_succ, bind_run, ht]
      exact hu
    · rw [hfu, hft, retried_of_attempted hb hi, List.length_cons]

/-- Whatever the loop raises, the transaction raises, `PHASE` back at `READY` and the line not closed (R119, R121). -/
theorem transact_loop_fails (opcode p1 : Byte) (p2 : Word16) (data : Bytes) (expect : Expect) (close : Close)
    (s : State) (e : Err) (g : Face) (he : ∀ w, e ≠ .stop w) (hq : s.face.quiet (1 + 8 * (data.length + 8)))
    (hl : ∀ t, t.face = s.face.commanded (commandFrame s.cfg opcode p1 p2 data)
      (frameCrc s.cfg (commandBody opcode p1 p2 data)) →
      Fails (do
        let p ← receiveLoop expect s.cfg.retryMax
        transactClosing expect close p : Op Bytes) t e g) :
    Fails (transact opcode p1 p2 data expect close) s e (g.withRegs { g.reg with phase := .ready }) := by
  have h : Fails (transactBody opcode p1 p2 data expect close) s e g := by
    suffices h : Fails (do
        transactOpening opcode p1 p2 data
        let c ← getCfg
        let p ← receiveLoop expect c.retryMax
        transactClosing expect close p : Op Bytes) s e g by
      obtain ⟨t, ht, hft⟩ := h
      exact ⟨t, by rw [transactBody_split]; exact ht, hft⟩
    refine fails_after (transactOpening_goes _ _ _ _ s hq) (fun t ht => ?_)
    refine fails_after (goes_cfg t) (fun u hu => ?_)
    rw [ht] at hu
    have htc : t.face.cfg = s.cfg := congrArg Face.cfg ht
    rw [htc]
    exact hl u hu
  refine fails_caught h he (fun t ht => ?_)
  refine fails_after (goes_setPhase _ t) (fun u hu => ?_)
  rw [ht] at hu
  have := fails_raise (α := Bytes) e u
  rwa [hu] at this

/-- Every attempt of the retry loop fails: `RetriesExhausted`, the command sent once, the line left awake (R120, R121). -/
theorem transact_exhausted (opcode p1 : Byte) (p2 : Word16) (data : Bytes) (expect : Expect) (close : Close)
    (failed : List Bytes) (s : State) (hc : s.cfg.pulse0 ≠ s.cfg.pulse1) (hn : failed.length = s.cfg.retryMax)
    (hf : ∀ raw ∈ failed, raw.length ≤ Expect.want expect ∧ expectFails s.cfg expect raw)
    (hq : s.face.quiet (1 + 8 * (data.length + 8) + 8 * (failed.length * (promptBytes s.cfg).length)))
    (hh : s.face.hears (failed.map (serializeBytes s.cfg))) :
    ∃ rx crc, Fails (transact opcode p1 p2 data expect close) s .retriesExhausted
      (let g := (s.face.commanded (commandFrame s.cfg opcode p1 p2 data)
        (frameCrc s.cfg (commandBody opcode p1 p2 data))).retried failed.length rx crc
       g.withRegs { g.reg with phase := .ready }) := by
  obtain ⟨hq1, hq2⟩ := (quiet_add _ _ _).mp hq
  obtain ⟨a, ha, hfa⟩ := transactOpening_goes opcode p1 p2 data s hq1
  have hl : (commandFrame s.cfg opcode p1 p2 data).length = data.length + 8 := commandFrame_length ..
  have hac : a.cfg = s.cfg := congrArg Face.cfg hfa
  have har : a.reg = _ := congrArg Face.reg hfa
  obtain ⟨b, rx, crc, hb, hfb⟩ := receiveLoop_failed expect failed 0 a (by rw [hac]; exact hc) (by rw [har]; rfl)
    (congrArg Face.inFlight hfa) (by rw [hac]; exact hf)
    (by rw [hac, hfa]; simp only [Face.commanded, hl]; exact hq2) (by rw [hac, hfa]; exact hh)
  refine ⟨rx, crc, ?_⟩
  rw [Nat.add_zero, hn] at hb
  have h : Fails (transactBody opcode p1 p2 data expect close) s .retriesExhausted b.face := by
    refine ⟨b, ?_, rfl⟩
    rw [transactBody_split, bind_run, ha]
    simp only [bind_run, getCfg_run, hac, hb]
    rfl
  rw [hfa] at hfb
  rw [hfb] at h
  refine fails_caught h (by intro w h; cases h) (fun t ht => ?_)
  refine fails_after (goes_setPhase _ t) (fun u hu => ?_)
  rw [ht] at hu
  have := fails_raise (α := Bytes) .retriesExhausted u
  rwa [hu] at this

/-- Received bytes that carry a chip's error status under an expectation (R115 case (b), R119, R122). -/
def carriesError (c : Params) (expect : Expect) (code : Byte) (raw : Bytes) : Prop :=
  code ≠ 0 ∧ match expect with
    | .status => raw = statusFrame c code
    | .data n => n ≠ 1 ∧ raw.length ≤ n + 3 ∧ 4 ≤ raw.length ∧ raw.getD 0 0 = 4 ∧ raw.getD 1 0 = code
    | .raw _ => False

theorem attempt_chipError (expect : Expect) (code : Byte) (raw : Bytes) (s : State)
    (hc : s.cfg.pulse0 ≠ s.cfg.pulse1) (he : carriesError s.cfg expect code raw) (close : Close) (m : Nat)
    (hq : s.face.quiet (8 * (promptBytes s.cfg).length)) (hh : s.face.hears [serializeBytes s.cfg raw]) :
    ∃ crc, Fails (do
      let p ← receiveLoop expect (m + 1)
      transactClosing expect close p : Op Bytes) s (.chipError code) (s.face.attempted raw crc) := by
  obtain ⟨hcode, he⟩ := he
  cases expect with
  | raw n => exact he.elim
  | status =>
    have he' : raw = statusFrame s.cfg code := he
    have hw : raw.length ≤ Expect.want .status := by
      rw [he', statusFrame, responseFrame_length]; exact Nat.le_refl 4
    have hne : raw ≠ [] := by
      rw [he']; simp [statusFrame, responseFrame]
    obtain ⟨t, ht, hft⟩ := attempt_receive .status s raw hc hw hq hh
    have hct : t.cfg = s.cfg := congrArg Face.cfg hft
    have expand := receiveAttempt_expand .status s
    rw [bind_run, ht, if_neg hne] at expand
    have hd := decodeResponse_frame [code] (Nat.le_refl 1) (Nat.le_of_ble_eq_true rfl) t
    obtain ⟨u, hu, hfu⟩ := unlessRetried_goes (r := retriedDecode) ⟨_, hd, rfl⟩
    refine ⟨frameCrc s.cfg (BitVec.ofNat 8 (List.length ([code] : Bytes) + 3) :: [code]), u, ?_, ?_⟩
    · have e2 : receiveAttempt .status s = .ok (some [code]) u := by
        rw [expand, he']
        have : statusFrame s.cfg code = responseFrame t.cfg [code] := by rw [hct]; rfl
        rw [this]
        exact hu
      unfold receiveLoop
      simp only [bind_run, e2, pure_run]
      unfold transactClosing
      rw [if_pos ⟨rfl, hcode⟩]
      rfl
    · rw [hfu]
      have := congrArg (fun f : Face => { f with reg := { f.reg with
        crc := frameCrc s.cfg (BitVec.ofNat 8 (List.length ([code] : Bytes) + 3) :: [code]) } }) hft
      refine Eq.trans ?_ this
      rw [← hct]
      rfl
  | data n =>
    obtain ⟨hn, hw, hl, h0, h1⟩ := he
    have hne : raw ≠ [] := by rintro rfl; simp at hl
    obtain ⟨t, ht, hft⟩ := attempt_receive (.data n) s raw hc hw hq hh
    have expand := receiveAttempt_expand (.data n) s
    rw [bind_run, ht, if_neg hne] at expand
    have hd := decodeResponse_chipError n raw t hl (by rw [h0]; rfl) hn (by rw [h1]; exact hcode)
    rw [h1] at hd
    obtain ⟨u, hu, hfu⟩ := unlessRetried_passed (r := retriedDecode) ⟨_, hd, rfl⟩ rfl (by intro w h; cases h)
    refine ⟨s.reg.crc, u, ?_, by rw [hfu, hft]⟩
    have e2 : receiveAttempt (.data n) s = .error (.chipError code) u := by
      rw [expand]
      exact hu
    unfold receiveLoop
    simp only [bind_run, e2]

/-- A chip's error status ends the transaction at once, however many attempts failed before: `ChipError` with the byte as
received, the command sent once, the line not closed (R120, R121, R122). -/
theorem transact_chipError (opcode p1 : Byte) (p2 : Word16) (data : Bytes) (expect : Expect) (close : Close)
    (failed : List Bytes) (code : Byte) (raw : Bytes) (s : State) (hc : s.cfg.pulse0 ≠ s.cfg.pulse1)
    (hn : failed.length < s.cfg.retryMax)
    (hf : ∀ r ∈ failed, r.length ≤ Expect.want expect ∧ expectFails s.cfg expect r)
    (he : carriesError s.cfg expect code raw)
    (hq : s.face.quiet (1 + 8 * (data.length + 8) + 8 * ((failed.length + 1) * (promptBytes s.cfg).length)))
    (hh : s.face.hears ((failed ++ [raw]).map (serializeBytes s.cfg))) :
    ∃ rx crc, Fails (transact opcode p1 p2 data expect close) s (.chipError code)
      (let g := (s.face.commanded (commandFrame s.cfg opcode p1 p2 data)
        (frameCrc s.cfg (commandBody opcode p1 p2 data))).retried (failed.length + 1) rx crc
       g.withRegs { g.reg with phase := .ready }) := by
  obtain ⟨hq1, hq2⟩ := (quiet_add _ _ _).mp hq
  have e : 8 * ((failed.length + 1) * (promptBytes s.cfg).length)
      = 8 * (failed.length * (promptBytes s.cfg).length) + 8 * (promptBytes s.cfg).length := by ring
  rw [e] at hq2
  obtain ⟨hq2, hq3⟩ := (quiet_add _ _ _).mp hq2
  rw [List.map_append] at hh
  obtain ⟨hh1, hh2⟩ := (hears_append _ _ _).mp hh
  obtain ⟨a, ha, hfa⟩ := transactOpening_goes opcode p1 p2 data s hq1
  have hl : (commandFrame s.cfg opcode p1 p2 data).length = data.length + 8 := commandFrame_length ..
  have hac : a.cfg = s.cfg := congrArg Face.cfg hfa
  have har : a.reg = _ := congrArg Face.reg hfa
  obtain ⟨k, hk⟩ : ∃ k, s.cfg.retryMax = failed.length + (k + 1) := ⟨s.cfg.retryMax - failed.length - 1, by omega⟩
  obtain ⟨b, rx, crc, hb, hfb⟩ := receiveLoop_failed expect failed (k + 1) a (by rw [hac]; exact hc) (by rw [har]; rfl)
    (congrArg Face.inFlight hfa) (by rw [hac]; exact hf)
    (by rw [hac, hfa]; simp only [Face.commanded, hl]; exact hq2) (by rw [hac, hfa]; exact hh1)
  rw [hfa] at hfb
  have hbc : b.cfg = s.cfg := congrArg Face.cfg hfb
  have hbr : b.reg.baudsel = false := congrArg (fun f : Face => f.reg.baudsel) hfb
  have hbi : b.face.inFlight = [] := congrArg Face.inFlight hfb
  obtain ⟨crc', w, hw, hfw⟩ := attempt_chipError expect code raw b (by rw [hbc]; exact hc) (by rw [hbc]; exact he) close
    k (by
      rw [hfb, hbc]
      simp only [Face.commanded, Face.retried, Face.quiet, Face.transmitted, Face.heard, Face.sent, Face.sentAt, Face.pulsed,
        after_after, hl] at hq3 ⊢
      exact hq3)
    (by
      rw [hfb, hbc]
      simp only [List.length_map] at hh2
      exact hh2)
  have h : Fails (transactBody opcode p1 p2 data expect close) s (.chipError code) w.face := by
    refine ⟨w, ?_, rfl⟩
    rw [transactBody_split, bind_run, ha]
    simp only [bind_run, getCfg_run, hac, hk, hb]
    rw [bind_run] at hw
    exact hw
  refine ⟨w.reg.rxbuf, w.reg.crc, ?_⟩
  have hfw' : w.face = (s.face.commanded (commandFrame s.cfg opcode p1 p2 data)
        (frameCrc s.cfg (commandBody opcode p1 p2 data))).retried (failed.length + 1) w.reg.rxbuf w.reg.crc := by
    have h1 : w.face = w.face.withRegs { w.face.reg with rxbuf := w.reg.rxbuf, crc := w.reg.crc } := rfl
    rw [h1, hfw, hfb]
    have e2 : 8 * (failed.length * (promptBytes s.cfg).length) + 8 * (promptBytes s.cfg).length
        = 8 * ((failed.length + 1) * (promptBytes s.cfg).length) := e.symm
    have e3 : (List.replicate (failed.length + 1) (promptBytes s.cfg)).flatten
        = (List.replicate failed.length (promptBytes s.cfg)).flatten ++ promptBytes s.cfg := by
      rw [List.replicate_succ', List.flatten_append, List.flatten_cons, List.flatten_nil, List.append_nil]
    simp only [Face.attempted, Face.listened, Face.retried, Face.withRegs, Face.commanded, Face.sent, Face.sentAt,
      Face.transmitted, Face.heard, Face.pulsed, Regs.starting, face_cfg, face_reg, e3, serializeBytes_append,
      List.map_append, List.append_assoc, after_after, Nat.add_assoc, e2, ite_self, Nat.add_eq_zero_iff, one_ne_zero,
      and_false, ne_eq, not_false_eq_true, decide_true, Bool.or_true]
  rw [hfw'] at h
  refine fails_caught h (by intro w h; cases h) (fun t ht => ?_)
  refine fails_after (goes_setPhase _ t) (fun u hu => ?_)
  rw [ht] at hu
  have := fails_raise (α := Bytes) (.chipError code) u
  rwa [hu] at this

end Sys2Proof.Machine
end

