-- ==== Sys2Proof/Laws/Session.lean ====
section
/-! SUPPORT. Exchanges one after the other, and the session operations made of them (spec/43_sessioncrypto.md R138 to
R152): each lemma says what one operation gives and leaves when the environment grants its exchanges. -/

namespace Sys2Proof.Machine

open Sys2Proof.Config (Params InMove)

/-! ### Exchanges in sequence -/

@[simp] theorem exchanges_nil (f : Face) : f.exchanges [] = f := rfl

@[simp] theorem exchanges_cons (f : Face) (x : Exchange) (xs : List Exchange) :
    f.exchanges (x :: xs) = (f.exchange x).exchanges xs := rfl

theorem exchanges_append (f : Face) (xs ys : List Exchange) : f.exchanges (xs ++ ys) = (f.exchanges xs).exchanges ys :=
  List.foldl_append ..

@[simp] theorem exchange_cfg (f : Face) (x : Exchange) : (f.exchange x).cfg = f.cfg := rfl

@[simp] theorem exchanges_cfg (f : Face) (xs : List Exchange) : (f.exchanges xs).cfg = f.cfg := by
  induction xs generalizing f with
  | nil => rfl
  | cons x xs ih => rw [exchanges_cons, ih, exchange_cfg]

theorem exchange_env (f : Face) (x : Exchange) : (f.exchange x).env =
    { f.env with stall := f.env.stall.after Config.freeStall (x.cost f.cfg) } := rfl

theorem exchanges_env (f : Face) (xs : List Exchange) : (f.exchanges xs).env =
    { f.env with stall := f.env.stall.after Config.freeStall ((xs.map (fun x => x.cost f.cfg)).sum) } := by
  induction xs generalizing f with
  | nil => rfl
  | cons x xs ih =>
    rw [exchanges_cons, ih, exchange_env, exchange_cfg]
    simp only [List.map_cons, List.sum_cons, after_after]

theorem exchange_inMoves (f : Face) (x : Exchange) : (f.exchange x).inMoves = f.inMoves.after Config.freeInMove x.attempts :=
  rfl

theorem bursts_length (c : Params) (x : Exchange) : (x.bursts c).length = x.attempts := by
  simp only [Exchange.bursts, Exchange.replies, Exchange.attempts, List.length_map, List.length_append, List.length_cons,
    List.length_nil]

theorem exchanges_inMoves (f : Face) (xs : List Exchange) : (f.exchanges xs).inMoves =
    f.inMoves.after Config.freeInMove (xs.flatMap (fun x => x.bursts f.cfg)).length := by
  induction xs generalizing f with
  | nil => rfl
  | cons x xs ih =>
    rw [exchanges_cons, ih, exchange_inMoves, after_after, List.flatMap_cons, List.length_append, bursts_length,
      exchange_cfg]

theorem grants_append (f : Face) (xs ys : List Exchange) :
    f.grants (xs ++ ys) ↔ f.grants xs ∧ (f.exchanges xs).grants ys := by
  unfold Face.grants
  rw [List.map_append, List.sum_append, quiet_add, List.flatMap_append, hears_append, List.forall_mem_append,
    exchanges_cfg]
  have e1 : (f.transmitted ((xs.map (fun x => x.cost f.cfg)).sum)).quiet ((ys.map (fun x => x.cost f.cfg)).sum)
      ↔ (f.exchanges xs).quiet ((ys.map (fun x => x.cost f.cfg)).sum) := by
    unfold Face.quiet
    rw [exchanges_env]
    exact Iff.rfl
  have e2 : (f.heard (xs.flatMap (fun x => x.bursts f.cfg)).length).hears (ys.flatMap (fun x => x.bursts f.cfg))
      ↔ (f.exchanges xs).hears (ys.flatMap (fun x => x.bursts f.cfg)) := by
    unfold Face.hears
    rw [exchanges_inMoves]
    exact Iff.rfl
  rw [e1, e2]
  tauto

theorem grants_single {f : Face} {x : Exchange} (h : f.grants [x]) :
    f.quiet (x.cost f.cfg) ∧ f.hears (x.bursts f.cfg) ∧ x.completes f.cfg := by
  obtain ⟨h1, h2, h3⟩ := h
  refine ⟨by simpa using h1, by simpa using h2, h3 x List.mem_cons_self⟩

/-! ### Sessions -/

@[simp] theorem session_cfg (f : Face) (xs : List Exchange) (n : Nat) (tk : Bytes) (v : Bool) :
    (f.session xs n tk v).cfg = f.cfg := exchanges_cfg f xs

theorem session_nil (f : Face) : f.session [] 0 f.reg.tk f.reg.tkValid = f := rfl

theorem exchange_tk (f : Face) (y : Exchange) (n : Nat) (tk : Bytes) (v : Bool) :
    ((f.drew n).withRegs { f.reg with tk := tk, tkValid := v }).exchange y
      = ((f.exchange y).drew n).withRegs
        { (f.exchange y).reg with tk := tk, tkValid := v && decide (y.close = .idle) } := by
  simp only [Face.exchange, Face.drew, Face.withRegs, Face.heard, Face.transmitted, Face.sent, Face.sentAt, Face.pulsed,
    Exchange.regs]

/-- Setting the copy of TempKey aside, exchanges do not see it. -/
theorem exchanges_tk (f : Face) (ys : List Exchange) (n : Nat) (tk : Bytes) (v : Bool) :
    ∃ v', ((f.drew n).withRegs { f.reg with tk := tk, tkValid := v }).exchanges ys
      = ((f.exchanges ys).drew n).withRegs { (f.exchanges ys).reg with tk := tk, tkValid := v' } := by
  induction ys generalizing f v with
  | nil => exact ⟨v, rfl⟩
  | cons y ys ih =>
    rw [exchanges_cons, exchange_tk]
    exact ih (f.exchange y) (v && decide (y.close = .idle))

theorem drew_drew (f : Face) (m n : Nat) : (f.drew m).drew n = f.drew (m + n) := by
  simp only [Face.drew, after_after]

theorem session_session (f : Face) (xs ys : List Exchange) (m n : Nat) (tk tk' : Bytes) (v v' : Bool) :
    (f.session xs m tk v).session ys n tk' v' = f.session (xs ++ ys) (m + n) tk' v' := by
  have h : f.session xs m tk v = ((f.exchanges xs).drew m).withRegs { (f.exchanges xs).reg with tk := tk, tkValid := v } :=
    rfl
  obtain ⟨w, hw⟩ := exchanges_tk (f.exchanges xs) ys m tk v
  rw [h]
  unfold Face.session
  simp only
  rw [hw, exchanges_append]
  simp only [Face.withRegs, Face.drew, after_after]

theorem session_grants (f : Face) (xs ys : List Exchange) (n : Nat) (tk : Bytes) (v : Bool) :
    (f.session xs n tk v).grants ys ↔ (f.exchanges xs).grants ys := Iff.rfl

theorem grants_session {f : Face} {xs ys : List Exchange} (n : Nat) (tk : Bytes) (v : Bool)
    (h : f.grants (xs ++ ys)) : (f.session xs n tk v).grants ys :=
  (session_grants f xs ys n tk v).mpr ((grants_append f xs ys).mp h).2

theorem exchanges_rand (f : Face) (xs : List Exchange) : (f.exchanges xs).env.rand = f.env.rand := by
  rw [exchanges_env]

theorem session_randoms (f : Face) (xs : List Exchange) (m n : Nat) (tk : Bytes) (v : Bool) :
    (f.session xs m tk v).randoms n = (f.randoms (m + n)).drop m := by
  have h : (f.session xs m tk v).randoms n = ((f.exchanges xs).env.rand.after Config.freeRand m).ahead Config.freeRand n :=
    rfl
  rw [h, exchanges_rand]
  unfold Face.randoms
  rw [ahead_add, List.drop_append, ahead_length, Nat.sub_self, List.drop_zero, List.drop_eq_nil_of_le (by simp),
    List.nil_append]

theorem randoms_take (f : Face) {m n : Nat} (h : m ≤ n) : (f.randoms n).take m = f.randoms m := by
  obtain ⟨k, rfl⟩ := Nat.exists_eq_add_of_le h
  unfold Face.randoms
  rw [ahead_add, List.take_append_of_le_length (by simp), List.take_of_length_le (by simp)]

theorem randoms_slice (f : Face) (i n k : Nat) (h : i + n ≤ k) : slice (f.randoms k) i n = (f.randoms (i + n)).drop i := by
  have := randoms_take f h
  rw [← this]
  simp only [slice, List.drop_take, Nat.add_sub_cancel_left]

/-! ### The small operations -/

theorem goes_writeTk (v : Bytes) (s : State) :
    Goes (writeTk v) s () (s.face.withRegs { s.reg with tk := v, tkValid := true }) := goes_modifyReg _ s

theorem goes_clearTkValid (s : State) :
    Goes clearTkValid s () (s.face.withRegs { s.reg with tkValid := false }) := goes_modifyReg _ s

theorem goes_readTk (s : State) (h : s.reg.tkValid = true) : Goes readTk s s.reg.tk s.face :=
  ⟨s, readHeld_held h, rfl⟩

theorem goes_rand (n : Nat) (s : State) : Goes (rand n) s (s.face.randoms n) (s.face.drew n) := ⟨_, rfl, rfl⟩

theorem goes_seCall {α : Type} {x : Op α} {s : State} {a : α} {f : Face} (h : Goes x s a f) : Goes (seCall x) s a f :=
  goes_catching h

/-- One transaction, from the face the environment grants. -/
theorem transact_grants (x : Exchange) (s : State) (hc : s.cfg.pulse0 ≠ s.cfg.pulse1) (hg : s.face.grants [x])
    (hi : x.close = .idle) : Goes (transact x.opcode x.p1 x.p2 x.data x.expect x.close) s x.payload
      (s.face.session [x] 0 s.reg.tk s.reg.tkValid) := by
  obtain ⟨h1, h2, h3⟩ := grants_single hg
  refine goes_face_eq ?_ (transact_goes x s hc h3 h1 h2)
  have : (s.face.exchange x).reg.tkValid = s.reg.tkValid := by
    change (s.reg.tkValid && decide (x.close = .idle)) = s.reg.tkValid
    rw [hi]
    exact Bool.and_true _
  have h : s.face.session [x] 0 s.reg.tk s.reg.tkValid
      = (s.face.exchange x).withRegs { (s.face.exchange x).reg with tkValid := s.reg.tkValid } := rfl
  rw [h, ← this]
  rfl

/-- The same for a command operation that is that transaction. -/
theorem data_grants (x : Exchange) (y : Op Bytes) (s : State) (hc : s.cfg.pulse0 ≠ s.cfg.pulse1) (hi : x.close = .idle)
    (hg : s.face.grants [x]) (hy : y s = transact x.opcode x.p1 x.p2 x.data x.expect x.close s) :
    Goes y s x.payload (s.face.session [x] 0 s.reg.tk s.reg.tkValid) := by
  obtain ⟨t, ht, hf⟩ := transact_grants x s hc hg hi
  exact ⟨t, hy.trans ht, hf⟩

/-- The same for a command operation that drops its payload, or makes something of it. -/
theorem command_grants {α : Type} (x : Exchange) (k : Bytes → α) (y : Op α) (s : State)
    (hc : s.cfg.pulse0 ≠ s.cfg.pulse1) (hi : x.close = .idle) (hg : s.face.grants [x])
    (hy : y s = (do let p ← transact x.opcode x.p1 x.p2 x.data x.expect x.close; pure (k p) : Op α) s) :
    Goes y s (k x.payload) (s.face.session [x] 0 s.reg.tk s.reg.tkValid) := by
  have h : Goes (do let p ← transact x.opcode x.p1 x.p2 x.data x.expect x.close; pure (k p) : Op α) s (k x.payload)
      (s.face.session [x] 0 s.reg.tk s.reg.tkValid) :=
    goes_bind (transact_grants x s hc hg hi) (fun t ht => ht ▸ goes_pure _ t)
  obtain ⟨t, ht, hf⟩ := h
  exact ⟨t, hy.trans ht, hf⟩

end Sys2Proof.Machine
end

