-- ==== Sys2Proof/Laws/SessionOps.lean ====
section
/-! SUPPORT. What each session operation gives and leaves when the environment grants its exchanges
(spec/43_sessioncrypto.md R139 to R152), each lemma made of those of the operations it calls. -/

namespace Sys2Proof.Machine

open Sys2Proof.Config (Params InMove)

/-! ### Commands -/

theorem nonce_goes (numin rng : Bytes) (s : State) (hc : s.cfg.pulse0 ≠ s.cfg.pulse1)
    (hg : s.face.grants [xNonce s.cfg numin rng]) :
    Goes (nonce numin .idle) s rng (s.face.session [xNonce s.cfg numin rng] 0 s.reg.tk s.reg.tkValid) :=
  data_grants (xNonce s.cfg numin rng) _ s hc rfl hg rfl

theorem read_goes (slot : SlotId) (block : Nat) (reply : Bytes) (s : State) (hc : s.cfg.pulse0 ≠ s.cfg.pulse1)
    (hg : s.face.grants [xRead s.cfg slot block reply]) :
    Goes (read slot block .idle) s reply (s.face.session [xRead s.cfg slot block reply] 0 s.reg.tk s.reg.tkValid) :=
  data_grants (xRead s.cfg slot block reply) _ s hc rfl hg rfl

theorem macGen_goes (mac : Bytes) (s : State) (hc : s.cfg.pulse0 ≠ s.cfg.pulse1)
    (hg : s.face.grants [xMacGen s.cfg mac]) :
    Goes (macGen s.cfg.slot.pairing .idle) s mac (s.face.session [xMacGen s.cfg mac] 0 s.reg.tk s.reg.tkValid) :=
  data_grants (xMacGen s.cfg mac) _ s hc rfl hg rfl

theorem genDig_goes (slot : SlotId) (s : State) (hc : s.cfg.pulse0 ≠ s.cfg.pulse1)
    (hg : s.face.grants [xGenDig s.cfg slot]) :
    Goes (genDig slot .idle) s () (s.face.session [xGenDig s.cfg slot] 0 s.reg.tk s.reg.tkValid) :=
  command_grants (xGenDig s.cfg slot) (fun _ => ()) _ s hc rfl hg rfl

theorem genDigCounter_goes (s : State) (hc : s.cfg.pulse0 ≠ s.cfg.pulse1) (hg : s.face.grants [xGenDigCounter s.cfg]) :
    Goes (genDigCounter s.cfg.counterId .idle) s ()
      (s.face.session [xGenDigCounter s.cfg] 0 s.reg.tk s.reg.tkValid) :=
  command_grants (xGenDigCounter s.cfg) (fun _ => ()) _ s hc rfl hg rfl

theorem checkMac_goes (keynum : SlotId) (body : Bytes) (s : State) (hc : s.cfg.pulse0 ≠ s.cfg.pulse1)
    (hg : s.face.grants [xCheckMac s.cfg keynum body]) :
    Goes (checkMac keynum body .idle) s () (s.face.session [xCheckMac s.cfg keynum body] 0 s.reg.tk s.reg.tkValid) :=
  command_grants (xCheckMac s.cfg keynum body) (fun _ => ()) _ s hc rfl hg rfl

theorem writeMac_goes (slot : SlotId) (block : Nat) (data mac : Bytes) (s : State) (hc : s.cfg.pulse0 ≠ s.cfg.pulse1)
    (hg : s.face.grants [xWriteMac s.cfg slot block data mac]) : Goes (writeMac slot block data mac .idle) s ()
      (s.face.session [xWriteMac s.cfg slot block data mac] 0 s.reg.tk s.reg.tkValid) :=
  command_grants (xWriteMac s.cfg slot block data mac) (fun _ => ()) _ s hc rfl hg rfl

theorem counterRead_goes (v : Word32) (s : State) (hc : s.cfg.pulse0 ≠ s.cfg.pulse1)
    (hg : s.face.grants [xCounterRead s.cfg v]) :
    Goes (counterRead .idle) s v (s.face.session [xCounterRead s.cfg v] 0 s.reg.tk s.reg.tkValid) := by
  have := command_grants (xCounterRead s.cfg v) le32 (counterRead .idle) s hc rfl hg rfl
  rwa [show le32 (xCounterRead s.cfg v).payload = v from le32_u32le v] at this

theorem counterIncr_goes (v : Word32) (s : State) (hc : s.cfg.pulse0 ≠ s.cfg.pulse1)
    (hg : s.face.grants [xCounterIncr s.cfg v]) :
    Goes (counterIncr .idle) s v (s.face.session [xCounterIncr s.cfg v] 0 s.reg.tk s.reg.tkValid) := by
  have := command_grants (xCounterIncr s.cfg v) le32 (counterIncr .idle) s hc rfl hg rfl
  rwa [show le32 (xCounterIncr s.cfg v).payload = v from le32_u32le v] at this

theorem keyedHash_goes (keynum : SlotId) (msg h : Bytes) (s : State) (hc : s.cfg.pulse0 ≠ s.cfg.pulse1)
    (hg : s.face.grants (xKeyedHash s.cfg keynum msg h)) : Goes (keyedHash keynum msg .idle) s h
      (s.face.session (xKeyedHash s.cfg keynum msg h) 0 s.reg.tk s.reg.tkValid) := by
  obtain ⟨h1, h2⟩ := (grants_append _ [_] [_]).mp hg
  unfold keyedHash
  refine goes_bind (command_grants _ (fun _ => ()) (keyedHashStart keynum) s hc rfl h1 rfl) (fun t ht => ?_)
  have htc : t.cfg = s.cfg := (congrArg Face.cfg ht).trans (session_cfg ..)
  have htr : t.reg = _ := congrArg Face.reg ht
  have := data_grants ⟨t.cfg.op.keyedHash, t.cfg.p1.keyedHashEnd, 32, msg, .data 32, .idle, [], h⟩
    (keyedHashEnd msg .idle) t (by rw [htc]; exact hc) rfl (by rw [ht, htc]; exact (session_grants ..).mpr h2) rfl
  rw [ht, htr, htc] at this
  refine goes_face_eq ?_ this
  exact session_session ..

/-! ### Nonces and folds -/

theorem pickNonce_goes (numin rng : Bytes) (s : State) (hc : s.cfg.pulse0 ≠ s.cfg.pulse1)
    (hg : s.face.grants [xNonce s.cfg numin rng]) : Goes (pickNonce numin) s (sha256 (nonceMsg rng numin))
      (s.face.session [xNonce s.cfg numin rng] 0 (sha256 (nonceMsg rng numin)) true) := by
  unfold pickNonce
  refine goes_bind (goes_seCall (nonce_goes numin rng s hc hg)) (fun t ht => ?_)
  refine goes_bind (goes_writeTk _ t) (fun u hu => ?_)
  have hur : u.reg.tkValid = true := congrArg (fun f : Face => f.reg.tkValid) hu
  have hut : u.reg.tk = sha256 (nonceMsg rng numin) := congrArg (fun f : Face => f.reg.tk) hu
  have := goes_readTk u hur
  rw [hut, hu] at this
  have htr : t.reg = _ := congrArg Face.reg ht
  rw [ht, htr] at this
  exact this

theorem freshNonce_goes (rng : Bytes) (s : State) (hc : s.cfg.pulse0 ≠ s.cfg.pulse1)
    (hg : s.face.grants [xNonce s.cfg (s.face.randoms 20) rng]) :
    Goes freshNonce s (sha256 (nonceMsg rng (s.face.randoms 20)))
      (s.face.session [xNonce s.cfg (s.face.randoms 20) rng] 20 (sha256 (nonceMsg rng (s.face.randoms 20))) true) := by
  unfold freshNonce
  refine goes_bind (goes_rand _ s) (fun t ht => ?_)
  have htc : t.cfg = s.cfg := congrArg Face.cfg ht
  have := goes_seCall (pickNonce_goes (s.face.randoms 20) rng t (by rw [htc]; exact hc) (by rw [ht, htc]; exact hg))
  rw [ht, htc] at this
  refine goes_face_eq ?_ this
  have h := session_session s.face [] [xNonce s.cfg (s.face.randoms 20) rng] 20 0 s.reg.tk
    (sha256 (nonceMsg rng (s.face.randoms 20))) s.reg.tkValid true
  exact h

theorem gendigSlot_goes (slot : SlotId) (plaintext rng : Bytes) (s : State) (hc : s.cfg.pulse0 ≠ s.cfg.pulse1)
    (hg : s.face.grants (xGendigSlot s.cfg slot (s.face.randoms 20) rng)) :
    Goes (gendigSlot slot plaintext) s (gendigDigest slot plaintext (s.face.randoms 20) rng)
      (s.face.session (xGendigSlot s.cfg slot (s.face.randoms 20) rng) 20
        (gendigDigest slot plaintext (s.face.randoms 20) rng) true) := by
  have hg' : s.face.grants ([xNonce s.cfg (s.face.randoms 20) rng] ++ [xGenDig s.cfg slot]) := hg
  unfold gendigSlot
  refine goes_bind (freshNonce_goes rng s hc ((grants_append _ _ _).mp hg').1) (fun t ht => ?_)
  have htc : t.cfg = s.cfg := (congrArg Face.cfg ht).trans (session_cfg ..)
  have hg2 := grants_session (xs := [xNonce s.cfg (s.face.randoms 20) rng]) 20
    (sha256 (nonceMsg rng (s.face.randoms 20))) true hg'
  have h1 := goes_seCall (genDig_goes slot t (by rw [htc]; exact hc) (by rw [ht, htc]; exact hg2))
  refine goes_bind h1 (fun u hu => ?_)
  rw [ht, htc, session_session] at hu
  refine goes_bind (goes_writeTk _ u) (fun v hv => ?_)
  have hvr : v.reg.tkValid = true := congrArg (fun f : Face => f.reg.tkValid) hv
  have hvt : v.reg.tk = gendigDigest slot plaintext (s.face.randoms 20) rng := congrArg (fun f : Face => f.reg.tk) hv
  have := goes_readTk v hvr
  rw [hvt, hv] at this
  have hur : u.reg = _ := congrArg Face.reg hu
  rw [hu, hur] at this
  exact this

theorem gendigCounter_goes (value : Word32) (rng : Bytes) (s : State) (hc : s.cfg.pulse0 ≠ s.cfg.pulse1)
    (hg : s.face.grants (xGendigCounter s.cfg (s.face.randoms 20) rng)) :
    Goes (gendigCounter value) s (gendigCounterDigest s.cfg value (s.face.randoms 20) rng)
      (s.face.session (xGendigCounter s.cfg (s.face.randoms 20) rng) 20
        (gendigCounterDigest s.cfg value (s.face.randoms 20) rng) true) := by
  have hg' : s.face.grants ([xNonce s.cfg (s.face.randoms 20) rng] ++ [xGenDigCounter s.cfg]) := hg
  unfold gendigCounter
  refine goes_bind (freshNonce_goes rng s hc ((grants_append _ _ _).mp hg').1) (fun t ht => ?_)
  refine goes_bind (goes_cfg t) (fun t' ht' => ?_)
  rw [ht] at ht'
  have htc : t'.cfg = s.cfg := (congrArg Face.cfg ht').trans (session_cfg ..)
  have htc' : t.face.cfg = s.cfg := (congrArg Face.cfg ht).trans (session_cfg ..)
  have hg2 := grants_session (xs := [xNonce s.cfg (s.face.randoms 20) rng]) 20
    (sha256 (nonceMsg rng (s.face.randoms 20))) true hg'
  have h1 := goes_seCall (genDigCounter_goes t' (by rw [htc]; exact hc) (by rw [ht', htc]; exact hg2))
  rw [htc] at h1
  rw [htc']
  refine goes_bind h1 (fun u hu => ?_)
  rw [ht', session_session] at hu
  refine goes_bind (goes_writeTk _ u) (fun v hv => ?_)
  have hvr : v.reg.tkValid = true := congrArg (fun f : Face => f.reg.tkValid) hv
  have hvt : v.reg.tk = gendigCounterDigest s.cfg value (s.face.randoms 20) rng :=
    congrArg (fun f : Face => f.reg.tk) hv
  have := goes_readTk v hvr
  rw [hvt, hv] at this
  have hur : u.reg = _ := congrArg Face.reg hu
  rw [hu, hur] at this
  exact this

/-! ### Checks -/

/-- The mark cleared before the command that spends TempKey: what a session leaves afterwards (R142, R143). -/
theorem session_cleared (f : Face) (xs : List Exchange) (n : Nat) (tk : Bytes) (v : Bool) :
    (f.session xs n tk v).withRegs { (f.session xs n tk v).reg with tkValid := false } = f.session xs n tk false := rfl

/-- Clearing the mark of a state that a session left. -/
theorem clear_session {u : State} {f : Face} {xs : List Exchange} {n : Nat} {tk : Bytes} {b : Bool}
    (hu : u.face = f.session xs n tk b) : Goes clearTkValid u () (f.session xs n tk false) := by
  have h := goes_clearTkValid u
  rw [show u.reg = u.face.reg from rfl, hu] at h
  exact h

theorem face_session_nil_false (f : Face) :
    f.withRegs { f.reg with tkValid := false } = f.session [] 0 f.reg.tk false := rfl

theorem isCorrectTempkey_goes (expected mac : Bytes) (s : State) (hc : s.cfg.pulse0 ≠ s.cfg.pulse1)
    (hg : s.face.grants [xMacGen s.cfg mac]) :
    Goes (isCorrectTempkey expected) s (ctEqualBytes mac (tempkeyMac s.cfg expected))
      (s.face.session [xMacGen s.cfg mac] 0 s.reg.tk false) := by
  unfold isCorrectTempkey
  refine goes_bind (goes_clearTkValid s) (fun t ht => ?_)
  have ht' : t.face = s.face.session [] 0 s.reg.tk false := ht
  refine goes_bind (goes_cfg t) (fun u hu => ?_)
  rw [ht'] at hu
  have huc : u.cfg = s.cfg := congrArg Face.cfg hu
  have htc : t.face.cfg = s.cfg := congrArg Face.cfg ht'
  have h1 := goes_seCall (macGen_goes mac u (by rw [huc]; exact hc) (by rw [hu, huc]; exact hg))
  rw [huc] at h1
  rw [htc]
  refine goes_bind h1 (fun v hv => ?_)
  have hur : u.reg = _ := congrArg Face.reg hu
  rw [hu, hur, session_session] at hv
  have := goes_pure (ctEqualBytes mac (tempkeyMac s.cfg expected)) v
  rw [hv] at this
  exact this

theorem checkmac_goes (keynum : SlotId) (secret rng : Bytes) (s : State) (hc : s.cfg.pulse0 ≠ s.cfg.pulse1)
    (hg : s.face.grants (xCheckmac s.cfg keynum secret (slice (s.face.randoms 33) 0 20) (slice (s.face.randoms 33) 20 13)
      rng)) :
    Goes (checkmac keynum secret) s () (s.face.session
      (xCheckmac s.cfg keynum secret (slice (s.face.randoms 33) 0 20) (slice (s.face.randoms 33) 20 13) rng) 33
      (sha256 (nonceMsg rng (s.face.randoms 20))) false) := by
  have e1 : slice (s.face.randoms 33) 0 20 = s.face.randoms 20 := by
    rw [randoms_slice _ _ _ _ (by decide), List.drop_zero]
  have e2 : slice (s.face.randoms 33) 20 13 = (s.face.randoms (20 + 13)).drop 20 := randoms_slice _ _ _ _ (by decide)
  rw [e1, e2] at hg ⊢
  have hg' : s.face.grants ([xNonce s.cfg (s.face.randoms 20) rng] ++ [_]) := hg
  unfold checkmac
  refine goes_bind (freshNonce_goes rng s hc ((grants_append _ _ _).mp hg').1) (fun t ht => ?_)
  refine goes_bind (goes_rand _ t) (fun u hu => ?_)
  rw [ht] at hu ⊢
  rw [show Config.otherDataLen = 13 from rfl, session_randoms]
  refine goes_bind (goes_clearTkValid u) (fun v hv => ?_)
  have hur : u.reg = _ := congrArg Face.reg hu
  rw [hu, hur] at hv
  have hv' : v.face = s.face.session [xNonce s.cfg (s.face.randoms 20) rng] 33
      (sha256 (nonceMsg rng (s.face.randoms 20))) false := by
    rw [hv]
    have : (s.face.session [xNonce s.cfg (s.face.randoms 20) rng] 20 (sha256 (nonceMsg rng (s.face.randoms 20))) true).drew 13
        = s.face.session [xNonce s.cfg (s.face.randoms 20) rng] (20 + 13) (sha256 (nonceMsg rng (s.face.randoms 20))) true := by
      simp only [Face.session, Face.drew, Face.withRegs, after_after]
    rw [show Config.otherDataLen = 13 from rfl, this]
    rfl
  have hvc : v.cfg = s.cfg := (congrArg Face.cfg hv').trans (session_cfg ..)
  have hg2 := grants_session (xs := [xNonce s.cfg (s.face.randoms 20) rng]) 33
    (sha256 (nonceMsg rng (s.face.randoms 20))) false hg'
  have h1 := goes_seCall (checkMac_goes keynum _ v (by rw [hvc]; exact hc) (by rw [hv', hvc]; exact hg2))
  have hvr : v.reg = _ := congrArg Face.reg hv'
  rw [hv', hvr, hvc, session_session] at h1
  exact h1

/-- What `TK` is after a `pair_unlock` with these draws; its mark is clear (R143, R144). -/
def pairTk (draws rng : Bytes) : Bytes := sha256 (nonceMsg rng (slice draws 0 20))

theorem pairUnlock_goes (rng : Bytes) (s : State) (hc : s.cfg.pulse0 ≠ s.cfg.pulse1)
    (hg : s.face.grants (xPair s.cfg (s.face.randoms 33) rng)) :
    Goes pairUnlock s () (s.face.session (xPair s.cfg (s.face.randoms 33) rng) 33 (pairTk (s.face.randoms 33) rng) false) := by
  unfold pairUnlock
  refine goes_bind (goes_cfg s) (fun t ht => ?_)
  have htc : t.cfg = s.cfg := congrArg Face.cfg ht
  have := goes_seCall (checkmac_goes s.cfg.slot.pairing s.cfg.rom.pairingSecret rng t (by rw [htc]; exact hc)
    (by rw [ht, htc]; exact hg))
  rw [ht, htc] at this
  unfold pairTk
  rw [randoms_slice _ 0 20 33 (by decide), List.drop_zero]
  exact this

end Sys2Proof.Machine
end

