-- ==== Sys2Proof/Laws/Channel.lean ====
section
/-! SUPPORT. The session operations of many exchanges (spec/43_sessioncrypto.md R145 to R151): encrypted reads and writes,
mixing, stretching, authenticated reads, the counted increment. -/

namespace Sys2Proof.Machine

open Sys2Proof.Config (Params InMove)

/-! ### Draws of a round -/

theorem xPair_randoms (c : Params) (f : Face) (rng : Bytes) {n : Nat} (h : 33 ≤ n) :
    xPair c (f.randoms n) rng = xPair c (f.randoms 33) rng := by
  unfold xPair
  rw [randoms_slice f 0 20 n (by omega), randoms_slice f 20 13 n (by omega), randoms_slice f 0 20 33 (by decide),
    randoms_slice f 20 13 33 (by decide)]

/-- The draws of the fold that follows a `pair_unlock`. -/
theorem fold_draws (f : Face) (xs : List Exchange) (tk : Bytes) (v : Bool) {n : Nat} (h : 53 ≤ n) :
    (f.session xs 33 tk v).randoms 20 = slice (f.randoms n) 33 20 := by
  rw [session_randoms, randoms_slice f 33 20 n (by omega)]

theorem later_draws (f : Face) (xs : List Exchange) (m n : Nat) (tk : Bytes) (v : Bool) :
    (f.session xs m tk v).randoms n = (f.randoms (m + n)).drop m := session_randoms ..

/-! ### Folds after a pairing -/

/-- `pair_unlock`, then `gendig_slot`, then what follows: the opening of every encrypted access (R145, R146). -/
theorem round_goes {β : Type} (slot : SlotId) (plaintext pairRng gendigRng : Bytes) (n : Nat) (hn : 53 ≤ n) (s : State)
    (hc : s.cfg.pulse0 ≠ s.cfg.pulse1)
    (hg : s.face.grants (xPair s.cfg (s.face.randoms n) pairRng
      ++ xGendigSlot s.cfg slot (slice (s.face.randoms n) 33 20) gendigRng)) (k : Bytes → Op β) (r : β) (g : Face)
    (hk : ∀ t, t.face = s.face.session (xPair s.cfg (s.face.randoms n) pairRng
        ++ xGendigSlot s.cfg slot (slice (s.face.randoms n) 33 20) gendigRng) 53
        (roundDigest slot plaintext (s.face.randoms n) gendigRng) true →
      Goes (k (roundDigest slot plaintext (s.face.randoms n) gendigRng)) t r g) :
    Goes (do
      seCall pairUnlock
      let d ← seCall (gendigSlot slot plaintext)
      k d) s r g := by
  obtain ⟨h1, -⟩ := (grants_append _ _ _).mp hg
  rw [xPair_randoms _ _ _ (by omega : 33 ≤ n)] at h1 hg hk
  refine goes_bind (goes_seCall (pairUnlock_goes pairRng s hc h1)) (fun t ht => ?_)
  have htc : t.cfg = s.cfg := (congrArg Face.cfg ht).trans (session_cfg ..)
  have hd : t.face.randoms 20 = slice (s.face.randoms n) 33 20 := by rw [ht, fold_draws _ _ _ _ hn]
  have h2 := gendigSlot_goes slot plaintext gendigRng t (by rw [htc]; exact hc)
    (by rw [hd, ht, htc]; exact grants_session _ _ _ hg)
  rw [hd, ht, htc, session_session] at h2
  exact goes_bind (goes_seCall h2) (fun u hu => hk u hu)

/-! ### Encrypted read -/

/-- What `TK` is after an encrypted read: the last round's digest. -/
def readTkAfter (authSlot : SlotId) (authSecret : Bytes) : Bytes → Bytes → List ReadReply → Bytes
  | tk, _, [] => tk
  | _, draws, r :: rs =>
    readTkAfter authSlot authSecret (roundDigest authSlot authSecret draws r.gendigRng) (draws.drop roundDraws) rs

theorem readBlocks_goes (slot authSlot : SlotId) (authSecret : Bytes) (b : Nat) (rs : List ReadReply) (s : State)
    (hc : s.cfg.pulse0 ≠ s.cfg.pulse1)
    (hg : s.face.grants (xEncryptedRead s.cfg slot authSlot b (s.face.randoms (53 * rs.length)) rs)) :
    Goes (readBlocks slot authSlot authSecret b rs.length) s
      (encryptedReadBytes authSlot authSecret (s.face.randoms (53 * rs.length)) rs)
      (s.face.session (xEncryptedRead s.cfg slot authSlot b (s.face.randoms (53 * rs.length)) rs) (53 * rs.length)
        (readTkAfter authSlot authSecret s.reg.tk (s.face.randoms (53 * rs.length)) rs)
        (s.reg.tkValid && decide (rs = []))) := by
  induction rs generalizing b s with
  | nil =>
    refine goes_face_eq ?_ (goes_pure ([] : Bytes) s)
    simp only [decide_true, Bool.and_true]
    rfl
  | cons r rs ih =>
    have hn : 53 ≤ 53 * (rs.length + 1) := by omega
    rw [List.length_cons] at hg ⊢
    generalize hD : s.face.randoms (53 * (rs.length + 1)) = D at hg ⊢
    have hD' : (s.face.randoms (53 + 53 * rs.length)).drop 53 = D.drop roundDraws := by
      rw [← hD, show 53 * (rs.length + 1) = 53 + 53 * rs.length by ring]; rfl
    have hg' : s.face.grants ((xPair s.cfg D r.pairRng ++ xGendigSlot s.cfg authSlot (slice D 33 20) r.gendigRng
        ++ [xRead s.cfg slot b r.block]) ++ xEncryptedRead s.cfg slot authSlot (b + 1) (D.drop roundDraws) rs) := hg
    obtain ⟨hgA, -⟩ := (grants_append _ _ _).mp hg'
    obtain ⟨hgB, -⟩ := (grants_append _ _ _).mp hgA
    unfold readBlocks
    rw [← hD] at hgB
    refine round_goes authSlot authSecret r.pairRng r.gendigRng _ hn s hc hgB _ _ _ (fun t ht => ?_)
    rw [hD] at ht ⊢
    have htc : t.cfg = s.cfg := (congrArg Face.cfg ht).trans (session_cfg ..)
    have hr := goes_seCall (read_goes slot b r.block t (by rw [htc]; exact hc)
      (by rw [ht, htc]; exact grants_session _ _ _ hgA))
    have htr : t.reg = _ := congrArg Face.reg ht
    rw [ht, htr, htc, session_session, Nat.add_zero] at hr
    refine goes_bind hr (fun u hu => ?_)
    refine goes_bind (clear_session hu) (fun v hv' => ?_)
    have hvc : v.cfg = s.cfg := (congrArg Face.cfg hv').trans (session_cfg ..)
    have hvd : v.face.randoms (53 * rs.length) = D.drop roundDraws := by rw [hv', session_randoms, hD']
    have hi := ih (b + 1) v (by rw [hvc]; exact hc) (by
      rw [hvd, hv', hvc]
      exact grants_session _ _ _ hg')
    have hvr : v.reg = _ := congrArg Face.reg hv'
    rw [hvd, hv', hvc, hvr, session_session] at hi
    refine goes_bind hi (fun w hw => ?_)
    have := goes_pure (xorBytes r.block (roundDigest authSlot authSecret D r.gendigRng)
      ++ encryptedReadBytes authSlot authSecret (D.drop roundDraws) rs) w
    rw [hw] at this
    refine goes_face_eq ?_ this
    have e : 53 + 53 * rs.length = 53 * (rs.length + 1) := by ring
    rw [e]
    simp only [reduceCtorEq, decide_false, Bool.and_false]
    rfl

theorem encryptedRead_goes (slot authSlot : SlotId) (authSecret : Bytes) (n : Nat) (rs : List ReadReply) (s : State)
    (hc : s.cfg.pulse0 ≠ s.cfg.pulse1) (hn : blocksFor n = rs.length)
    (hg : s.face.grants (xEncryptedRead s.cfg slot authSlot 0 (s.face.randoms (53 * rs.length)) rs)) :
    Goes (encryptedRead slot authSlot authSecret n) s
      ((encryptedReadBytes authSlot authSecret (s.face.randoms (53 * rs.length)) rs).take n)
      (s.face.session (xEncryptedRead s.cfg slot authSlot 0 (s.face.randoms (53 * rs.length)) rs) (53 * rs.length)
        (readTkAfter authSlot authSecret s.reg.tk (s.face.randoms (53 * rs.length)) rs)
        (s.reg.tkValid && decide (rs = []))) := by
  unfold encryptedRead
  rw [hn]
  exact goes_bind (readBlocks_goes slot authSlot authSecret 0 rs s hc hg) (fun t ht => ht ▸ goes_pure _ t)

/-! ### Encrypted write -/

/-- What `TK` is after an encrypted write: the last round's digest. -/
def writeTkAfter (authSlot : SlotId) (authSecret : Bytes) : Bytes → Bytes → List WriteReply → Bytes
  | tk, _, [] => tk
  | _, draws, r :: rs =>
    writeTkAfter authSlot authSecret (roundDigest authSlot authSecret draws r.gendigRng) (draws.drop roundDraws) rs

theorem writeBlocks_goes (slot authSlot : SlotId) (authSecret : Bytes) (b : Nat) (data : Bytes) (rs : List WriteReply)
    (s : State) (hc : s.cfg.pulse0 ≠ s.cfg.pulse1)
    (hg : s.face.grants
      (xEncryptedWrite s.cfg slot authSlot authSecret b data (s.face.randoms (53 * rs.length)) rs)) :
    Goes (writeBlocks slot authSlot authSecret b rs.length data) s ()
      (s.face.session (xEncryptedWrite s.cfg slot authSlot authSecret b data (s.face.randoms (53 * rs.length)) rs)
        (53 * rs.length) (writeTkAfter authSlot authSecret s.reg.tk (s.face.randoms (53 * rs.length)) rs)
        (s.reg.tkValid && decide (rs = []))) := by
  induction rs generalizing b s data with
  | nil =>
    refine goes_face_eq ?_ (goes_pure () s)
    simp only [decide_true, Bool.and_true]
    rfl
  | cons r rs ih =>
    have hn : 53 ≤ 53 * (rs.length + 1) := by omega
    rw [List.length_cons] at hg ⊢
    generalize hD : s.face.randoms (53 * (rs.length + 1)) = D at hg ⊢
    have hD' : (s.face.randoms (53 + 53 * rs.length)).drop 53 = D.drop roundDraws := by
      rw [← hD, show 53 * (rs.length + 1) = 53 + 53 * rs.length by ring]; rfl
    have hg' : s.face.grants ((xPair s.cfg D r.pairRng ++ xGendigSlot s.cfg authSlot (slice D 33 20) r.gendigRng
        ++ [xWriteBlock s.cfg slot b (roundDigest authSlot authSecret D r.gendigRng) (data.take 32)])
        ++ xEncryptedWrite s.cfg slot authSlot authSecret (b + 1) (data.drop 32) (D.drop roundDraws) rs) := hg
    obtain ⟨hgA, -⟩ := (grants_append _ _ _).mp hg'
    obtain ⟨hgB, -⟩ := (grants_append _ _ _).mp hgA
    unfold writeBlocks
    rw [← hD] at hgB
    refine round_goes authSlot authSecret r.pairRng r.gendigRng _ hn s hc hgB _ _ _ (fun t ht => ?_)
    rw [hD] at ht ⊢
    refine goes_bind (goes_cfg t) (fun t' ht' => ?_)
    rw [ht] at ht'
    have htc : t.face.cfg = s.cfg := (congrArg Face.cfg ht).trans (session_cfg ..)
    rw [htc]
    refine goes_bind (clear_session ht') (fun u hu => ?_)
    have huc : u.cfg = s.cfg := (congrArg Face.cfg hu).trans (session_cfg ..)
    have hw := goes_seCall (writeMac_goes slot b (xorBytes (data.take 32) (roundDigest authSlot authSecret D r.gendigRng))
      (sha256 (writeMacMsg (roundDigest authSlot authSecret D r.gendigRng) (p2Addr s.cfg slot b) (data.take 32))) u
      (by rw [huc]; exact hc) (by rw [hu, huc]; exact grants_session _ _ _ hgA))
    have hur : u.reg = _ := congrArg Face.reg hu
    rw [hu, hur, huc, session_session, Nat.add_zero] at hw
    refine goes_bind hw (fun v hv => ?_)
    have hv' : v.face = s.face.session (xPair s.cfg D r.pairRng ++ xGendigSlot s.cfg authSlot (slice D 33 20) r.gendigRng
        ++ [xWriteBlock s.cfg slot b (roundDigest authSlot authSecret D r.gendigRng) (data.take 32)]) 53
        (roundDigest authSlot authSecret D r.gendigRng) false := hv
    have hvc : v.cfg = s.cfg := (congrArg Face.cfg hv').trans (session_cfg ..)
    have hvd : v.face.randoms (53 * rs.length) = D.drop roundDraws := by rw [hv', session_randoms, hD']
    have hi := ih (b + 1) (data.drop 32) v (by rw [hvc]; exact hc) (by
      rw [hvd, hv', hvc]
      exact grants_session _ _ _ hg')
    have hvr : v.reg = _ := congrArg Face.reg hv'
    rw [hvd, hv', hvc, hvr, session_session] at hi
    refine goes_face_eq ?_ hi
    have e : 53 + 53 * rs.length = 53 * (rs.length + 1) := by ring
    rw [e]
    simp only [reduceCtorEq, decide_false, Bool.and_false]
    rfl

theorem encryptedWrite_goes (slot authSlot : SlotId) (authSecret data : Bytes) (rs : List WriteReply) (s : State)
    (hc : s.cfg.pulse0 ≠ s.cfg.pulse1) (hn : data.length / 32 = rs.length)
    (hg : s.face.grants
      (xEncryptedWrite s.cfg slot authSlot authSecret 0 data (s.face.randoms (53 * rs.length)) rs)) :
    Goes (encryptedWrite slot authSlot authSecret data) s ()
      (s.face.session (xEncryptedWrite s.cfg slot authSlot authSecret 0 data (s.face.randoms (53 * rs.length)) rs)
        (53 * rs.length) (writeTkAfter authSlot authSecret s.reg.tk (s.face.randoms (53 * rs.length)) rs)
        (s.reg.tkValid && decide (rs = []))) := by
  unfold encryptedWrite
  rw [show data.length / Config.blockLen = rs.length from hn]
  exact writeBlocks_goes slot authSlot authSecret 0 data rs s hc hg

/-! ### Mixing and stretching -/

theorem mixin_plain_goes (start rng : Bytes) (s : State) (hc : s.cfg.pulse0 ≠ s.cfg.pulse1)
    (hg : s.face.grants (xPair s.cfg (s.face.randoms 33) rng)) :
    Goes (mixin s.cfg.slot.keyPlain start) s
      (sha256 (Config.mixMsg s.cfg.rom.pairingSecret start s.cfg.slot.keyPlain (zeros 32)))
      (s.face.session (xPair s.cfg (s.face.randoms 33) rng) 33 (pairTk (s.face.randoms 33) rng) false) := by
  unfold mixin
  refine goes_bind (goes_seCall (pairUnlock_goes rng s hc hg)) (fun t ht => ?_)
  refine goes_bind (goes_cfg t) (fun u hu => ?_)
  have htc : t.face.cfg = s.cfg := (congrArg Face.cfg ht).trans (session_cfg ..)
  rw [htc, if_pos rfl]
  have := goes_pure (sha256 (Config.mixMsg s.cfg.rom.pairingSecret start s.cfg.slot.keyPlain (zeros 32))) u
  rw [hu, ht] at this
  exact this

theorem mixin_key_goes (keynum : SlotId) (start rng h : Bytes) (s : State) (hc : s.cfg.pulse0 ≠ s.cfg.pulse1)
    (hk : keynum ≠ s.cfg.slot.keyPlain)
    (hg : s.face.grants (xPair s.cfg (s.face.randoms 33) rng ++ xKeyedHash s.cfg keynum start h)) :
    Goes (mixin keynum start) s (sha256 (Config.mixMsg s.cfg.rom.pairingSecret start keynum h))
      (s.face.session (xPair s.cfg (s.face.randoms 33) rng ++ xKeyedHash s.cfg keynum start h) 33
        (pairTk (s.face.randoms 33) rng) false) := by
  obtain ⟨h1, -⟩ := (grants_append _ _ _).mp hg
  unfold mixin
  refine goes_bind (goes_seCall (pairUnlock_goes rng s hc h1)) (fun t ht => ?_)
  refine goes_bind (goes_cfg t) (fun u hu => ?_)
  rw [ht] at hu
  have htc : t.face.cfg = s.cfg := (congrArg Face.cfg ht).trans (session_cfg ..)
  have huc : u.cfg = s.cfg := (congrArg Face.cfg hu).trans (session_cfg ..)
  rw [htc, if_neg hk]
  have hh := goes_seCall (keyedHash_goes keynum start h u (by rw [huc]; exact hc)
    (by rw [hu, huc]; exact grants_session _ _ _ hg))
  have hur : u.reg = _ := congrArg Face.reg hu
  rw [hu, hur, huc, session_session, Nat.add_zero] at hh
  refine goes_bind hh (fun v hv => ?_)
  have := goes_pure (sha256 (Config.mixMsg s.cfg.rom.pairingSecret start keynum h)) v
  rw [hv] at this
  exact this

/-- What `TK` is after `stretch`: as the last pairing left it. -/
def stretchTkAfter : Bytes → Bytes → List StretchReply → Bytes
  | tk, _, [] => tk
  | _, draws, r :: rs => stretchTkAfter (pairTk draws r.pairRng) (draws.drop checkmacDraws) rs

theorem stretch_goes (start : Bytes) (rs : List StretchReply) (s : State) (hc : s.cfg.pulse0 ≠ s.cfg.pulse1)
    (hg : s.face.grants (xStretch s.cfg start (s.face.randoms (33 * rs.length)) rs)) :
    Goes (stretch start rs.length) s (stretchResult start rs)
      (s.face.session (xStretch s.cfg start (s.face.randoms (33 * rs.length)) rs) (33 * rs.length)
        (stretchTkAfter s.reg.tk (s.face.randoms (33 * rs.length)) rs) (s.reg.tkValid && decide (rs = []))) := by
  induction rs generalizing start s with
  | nil =>
    refine goes_face_eq ?_ (goes_pure start s)
    simp only [decide_true, Bool.and_true]
    rfl
  | cons r rs ih =>
    rw [List.length_cons] at hg ⊢
    generalize hD : s.face.randoms (33 * (rs.length + 1)) = D at hg ⊢
    have hD' : (s.face.randoms (33 + 33 * rs.length)).drop 33 = D.drop checkmacDraws := by
      rw [← hD, show 33 * (rs.length + 1) = 33 + 33 * rs.length by ring]; rfl
    have hp : xPair s.cfg D r.pairRng = xPair s.cfg (s.face.randoms 33) r.pairRng := by
      rw [← hD, xPair_randoms _ _ _ (by omega)]
    have htk : pairTk D r.pairRng = pairTk (s.face.randoms 33) r.pairRng := by
      unfold pairTk
      rw [← hD, randoms_slice _ 0 20 _ (by omega), randoms_slice _ 0 20 _ (by decide)]
    have hg' : s.face.grants ((xPair s.cfg D r.pairRng ++ xKeyedHash s.cfg s.cfg.slot.kdf start r.hash)
        ++ xStretch s.cfg r.hash (D.drop checkmacDraws) rs) := hg
    obtain ⟨hgA, -⟩ := (grants_append _ _ _).mp hg'
    obtain ⟨hgB, -⟩ := (grants_append _ _ _).mp hgA
    unfold stretch
    rw [hp] at hgB
    refine goes_bind (goes_seCall (pairUnlock_goes r.pairRng s hc hgB)) (fun t ht => ?_)
    rw [← hp, ← htk] at ht
    refine goes_bind (goes_cfg t) (fun u hu => ?_)
    rw [ht] at hu
    have htc : t.face.cfg = s.cfg := (congrArg Face.cfg ht).trans (session_cfg ..)
    have huc : u.cfg = s.cfg := (congrArg Face.cfg hu).trans (session_cfg ..)
    rw [htc]
    have hh := goes_seCall (keyedHash_goes s.cfg.slot.kdf start r.hash u (by rw [huc]; exact hc)
      (by rw [hu, huc]; exact grants_session _ _ _ hgA))
    have hur : u.reg = _ := congrArg Face.reg hu
    rw [hu, hur, huc, session_session, Nat.add_zero] at hh
    refine goes_bind hh (fun v hv => ?_)
    have hv' : v.face = s.face.session (xPair s.cfg D r.pairRng ++ xKeyedHash s.cfg s.cfg.slot.kdf start r.hash) 33
        (pairTk D r.pairRng) false := hv
    have hvc : v.cfg = s.cfg := (congrArg Face.cfg hv').trans (session_cfg ..)
    have hvd : v.face.randoms (33 * rs.length) = D.drop checkmacDraws := by rw [hv', session_randoms, hD']
    have hi := ih r.hash v (by rw [hvc]; exact hc) (by
      rw [hvd, hv', hvc]
      exact grants_session _ _ _ hg')
    have hvr : v.reg = _ := congrArg Face.reg hv'
    rw [hvd, hv', hvc, hvr, session_session] at hi
    refine goes_face_eq ?_ hi
    have e : 33 + 33 * rs.length = 33 * (rs.length + 1) := by ring
    rw [e]
    simp only [reduceCtorEq, decide_false, Bool.and_false]
    rfl

/-! ### Authenticated reads -/

theorem requireTempkey_goes (d : Bytes) (s : State) (hc : s.cfg.pulse0 ≠ s.cfg.pulse1)
    (hg : s.face.grants [xMacGen s.cfg (tempkeyMac s.cfg d)]) :
    Goes (requireTempkey d) s () (s.face.session [xMacGen s.cfg (tempkeyMac s.cfg d)] 0 s.reg.tk false) := by
  unfold requireTempkey
  refine goes_bind (goes_seCall (isCorrectTempkey_goes d _ s hc hg)) (fun t ht => ?_)
  rw [if_pos ((ctEqualBytes_iff _ _).mpr rfl), ← ht]
  exact goes_pure _ t

/-- A wrong MAC at the end of an authenticated read is `SeFailure` (R149 to R151). -/
theorem requireTempkey_wrong (d mac : Bytes) (s : State) (hc : s.cfg.pulse0 ≠ s.cfg.pulse1)
    (hm : mac ≠ tempkeyMac s.cfg d) (hg : s.face.grants [xMacGen s.cfg mac]) :
    Fails (requireTempkey d) s .seFailure (s.face.session [xMacGen s.cfg mac] 0 s.reg.tk false) := by
  unfold requireTempkey
  refine fails_after (goes_seCall (isCorrectTempkey_goes d mac s hc hg)) (fun t ht => ?_)
  rw [if_neg (by rw [ctEqualBytes_iff]; exact hm)]
  refine fails_after (clear_session ht) (fun u hu => ?_)
  have := fails_raise (α := Unit) .seFailure u
  rwa [hu] at this

/-- The end of an authenticated read: the value where the MAC is the one its digest calls for (R149 to R151). -/
def settle {α : Type} (d : Bytes) (v : α) : Op α := do
  requireTempkey d
  pure v

theorem settle_goes {α : Type} (d : Bytes) (v : α) (s : State) (hc : s.cfg.pulse0 ≠ s.cfg.pulse1)
    (hg : s.face.grants [xMacGen s.cfg (tempkeyMac s.cfg d)]) :
    Goes (settle d v) s v (s.face.session [xMacGen s.cfg (tempkeyMac s.cfg d)] 0 s.reg.tk false) := by
  refine goes_bind (requireTempkey_goes d s hc hg) (fun t ht => ?_)
  have := goes_pure v t
  rwa [ht] at this

theorem settle_wrong {α : Type} (d : Bytes) (v : α) (mac : Bytes) (s : State) (hc : s.cfg.pulse0 ≠ s.cfg.pulse1)
    (hm : mac ≠ tempkeyMac s.cfg d) (hg : s.face.grants [xMacGen s.cfg mac]) :
    Fails (settle d v) s .seFailure (s.face.session [xMacGen s.cfg mac] 0 s.reg.tk false) :=
  fails_bind (requireTempkey_wrong d mac s hc hm hg)

/-- From a session on to its last command, right or wrong. -/
theorem settled_goes {α : Type} {x : Op α} {d tk : Bytes} {v : α} {xs : List Exchange} {n : Nat} {b : Bool} {s : State}
    (hc : s.cfg.pulse0 ≠ s.cfg.pulse1) (hx : Reaches x s (settle d v) (s.face.session xs n tk b))
    (hg : s.face.grants (xs ++ [xMacGen s.cfg (tempkeyMac s.cfg d)])) :
    Goes x s v (s.face.session (xs ++ [xMacGen s.cfg (tempkeyMac s.cfg d)]) n tk false) := by
  refine goes_reached hx (fun t ht => ?_)
  have htc : t.cfg = s.cfg := (congrArg Face.cfg ht).trans (session_cfg ..)
  have h := settle_goes d v t (by rw [htc]; exact hc) (by rw [ht, htc]; exact grants_session _ _ _ hg)
  have htr : t.reg = _ := congrArg Face.reg ht
  rw [ht, htr, htc, session_session] at h
  exact h

theorem settled_wrong {α : Type} {x : Op α} {d tk mac : Bytes} {v : α} {xs : List Exchange} {n : Nat} {b : Bool} {s : State}
    (hc : s.cfg.pulse0 ≠ s.cfg.pulse1) (hx : Reaches x s (settle d v) (s.face.session xs n tk b))
    (hm : mac ≠ tempkeyMac s.cfg d) (hg : s.face.grants (xs ++ [xMacGen s.cfg mac])) :
    Fails x s .seFailure (s.face.session (xs ++ [xMacGen s.cfg mac]) n tk false) := by
  refine fails_reached hx (fun t ht => ?_)
  have htc : t.cfg = s.cfg := (congrArg Face.cfg ht).trans (session_cfg ..)
  have h := settle_wrong d v mac t (by rw [htc]; exact hc) (by rw [htc]; exact hm)
    (by rw [ht, htc]; exact grants_session _ _ _ hg)
  have htr : t.reg = _ := congrArg Face.reg ht
  rw [ht, htr, htc, session_session] at h
  exact h

/-- The exchanges of `auth_read_slot` before the command for the MAC (R149). -/
def xSlotRound (c : Params) (slot : SlotId) (draws pairRng v gendigRng : Bytes) : List Exchange :=
  xPair c draws pairRng ++ [xRead c slot 0 v] ++ xGendigSlot c slot (slice draws 33 20) gendigRng

theorem authReadSlot_reaches (slot : SlotId) (pairRng v gendigRng : Bytes) (s : State) (hc : s.cfg.pulse0 ≠ s.cfg.pulse1)
    (hg : s.face.grants (xSlotRound s.cfg slot (s.face.randoms 53) pairRng v gendigRng)) :
    Reaches (authReadSlot slot) s (settle (roundDigest slot v (s.face.randoms 53) gendigRng) v)
      (s.face.session (xSlotRound s.cfg slot (s.face.randoms 53) pairRng v gendigRng) 53
        (roundDigest slot v (s.face.randoms 53) gendigRng) true) := by
  generalize hD : s.face.randoms 53 = D at hg ⊢
  have hp : xPair s.cfg D pairRng = xPair s.cfg (s.face.randoms 33) pairRng := by
    rw [← hD, xPair_randoms _ _ _ (by decide)]
  obtain ⟨hgB, -⟩ := (grants_append _ _ _).mp hg
  obtain ⟨hgC, -⟩ := (grants_append _ _ _).mp hgB
  unfold authReadSlot
  rw [hp] at hgC
  refine reaches_bind (goes_seCall (pairUnlock_goes pairRng s hc hgC)) (fun t ht => ?_)
  rw [← hp] at ht
  have htc : t.cfg = s.cfg := (congrArg Face.cfg ht).trans (session_cfg ..)
  have hr := goes_seCall (read_goes slot 0 v t (by rw [htc]; exact hc) (by rw [ht, htc]; exact grants_session _ _ _ hgB))
  have htr : t.reg = _ := congrArg Face.reg ht
  rw [ht, htr, htc, session_session, Nat.add_zero] at hr
  refine reaches_bind hr (fun u hu => ?_)
  have huc : u.cfg = s.cfg := (congrArg Face.cfg hu).trans (session_cfg ..)
  have hd : u.face.randoms 20 = slice D 33 20 := by rw [hu, fold_draws _ _ _ _ (Nat.le_refl 53), hD]
  have h2 := gendigSlot_goes slot v gendigRng u (by rw [huc]; exact hc)
    (by rw [hd, hu, huc]; exact grants_session _ _ _ hg)
  rw [hd, hu, huc, session_session] at h2
  exact reaches_bind (goes_seCall h2) (fun w hw => reaches_self _ hw)

theorem authReadSlot_goes (slot : SlotId) (pairRng v gendigRng : Bytes) (s : State) (hc : s.cfg.pulse0 ≠ s.cfg.pulse1)
    (hg : s.face.grants (xAuthReadSlot s.cfg slot (s.face.randoms 53) pairRng v gendigRng)) :
    Goes (authReadSlot slot) s v (s.face.session (xAuthReadSlot s.cfg slot (s.face.randoms 53) pairRng v gendigRng) 53
      (roundDigest slot v (s.face.randoms 53) gendigRng) false) :=
  settled_goes hc (authReadSlot_reaches slot pairRng v gendigRng s hc ((grants_append _ _ _).mp hg).1) hg

/-- A wrong MAC at the end of `auth_read_slot` (R149). -/
theorem authReadSlot_wrong (slot : SlotId) (pairRng v gendigRng mac : Bytes) (s : State) (hc : s.cfg.pulse0 ≠ s.cfg.pulse1)
    (hm : mac ≠ tempkeyMac s.cfg (roundDigest slot v (s.face.randoms 53) gendigRng))
    (hg : s.face.grants (withMac s.cfg (xAuthReadSlot s.cfg slot (s.face.randoms 53) pairRng v gendigRng) mac)) :
    Fails (authReadSlot slot) s .seFailure
      (s.face.session (withMac s.cfg (xAuthReadSlot s.cfg slot (s.face.randoms 53) pairRng v gendigRng) mac) 53
        (roundDigest slot v (s.face.randoms 53) gendigRng) false) := by
  have e : withMac s.cfg (xAuthReadSlot s.cfg slot (s.face.randoms 53) pairRng v gendigRng) mac
      = xSlotRound s.cfg slot (s.face.randoms 53) pairRng v gendigRng ++ [xMacGen s.cfg mac] :=
    congrArg (· ++ [xMacGen s.cfg mac]) List.dropLast_concat
  rw [e] at hg ⊢
  exact settled_wrong hc (authReadSlot_reaches slot pairRng v gendigRng s hc ((grants_append _ _ _).mp hg).1) hm hg

/-- A counter value given by whatever came before is about to be checked (R150, R151). -/
theorem counterCheck_reaches (v : Word32) (gendigRng : Bytes) (s : State) (hc : s.cfg.pulse0 ≠ s.cfg.pulse1)
    (hg : s.face.grants (xGendigCounter s.cfg (s.face.randoms 20) gendigRng)) :
    Reaches (do
      let d ← seCall (gendigCounter v)
      requireTempkey d
      pure v) s (settle (gendigCounterDigest s.cfg v (s.face.randoms 20) gendigRng) v)
      (s.face.session (xGendigCounter s.cfg (s.face.randoms 20) gendigRng) 20
        (gendigCounterDigest s.cfg v (s.face.randoms 20) gendigRng) true) :=
  reaches_bind (goes_seCall (gendigCounter_goes v gendigRng s hc hg)) (fun _ hw => reaches_self _ hw)

/-- The exchanges of `auth_read_counter` before the command for the MAC (R150). -/
def xCounterRound (c : Params) (v : Word32) (draws pairRng gendigRng : Bytes) : List Exchange :=
  xPair c draws pairRng ++ [xCounterRead c v] ++ xGendigCounter c (slice draws 33 20) gendigRng

theorem authReadCounter_reaches (v : Word32) (pairRng gendigRng : Bytes) (s : State) (hc : s.cfg.pulse0 ≠ s.cfg.pulse1)
    (hg : s.face.grants (xCounterRound s.cfg v (s.face.randoms 53) pairRng gendigRng)) :
    Reaches authReadCounter s (settle (gendigCounterDigest s.cfg v (slice (s.face.randoms 53) 33 20) gendigRng) v)
      (s.face.session (xCounterRound s.cfg v (s.face.randoms 53) pairRng gendigRng) 53
        (gendigCounterDigest s.cfg v (slice (s.face.randoms 53) 33 20) gendigRng) true) := by
  generalize hD : s.face.randoms 53 = D at hg ⊢
  have hp : xPair s.cfg D pairRng = xPair s.cfg (s.face.randoms 33) pairRng := by
    rw [← hD, xPair_randoms _ _ _ (by decide)]
  obtain ⟨hgA, -⟩ := (grants_append _ _ _).mp hg
  obtain ⟨hgB, -⟩ := (grants_append _ _ _).mp hgA
  unfold authReadCounter
  rw [hp] at hgB
  refine reaches_bind (goes_seCall (pairUnlock_goes pairRng s hc hgB)) (fun t ht => ?_)
  rw [← hp] at ht
  have htc : t.cfg = s.cfg := (congrArg Face.cfg ht).trans (session_cfg ..)
  have hr := goes_seCall (counterRead_goes v t (by rw [htc]; exact hc) (by rw [ht, htc]; exact grants_session _ _ _ hgA))
  have htr : t.reg = _ := congrArg Face.reg ht
  rw [ht, htr, htc, session_session, Nat.add_zero] at hr
  refine reaches_bind hr (fun u hu => ?_)
  have huc : u.cfg = s.cfg := (congrArg Face.cfg hu).trans (session_cfg ..)
  have hd : u.face.randoms 20 = slice D 33 20 := by rw [hu, fold_draws _ _ _ _ (Nat.le_refl 53), hD]
  have h2 := counterCheck_reaches v gendigRng u (by rw [huc]; exact hc)
    (by rw [hd, hu, huc]; exact grants_session _ _ _ hg)
  rw [hd, hu, huc, session_session] at h2
  exact h2

theorem authReadCounter_split (c : Params) (v : Word32) (draws pairRng gendigRng : Bytes) :
    xAuthReadCounter c v draws pairRng gendigRng = xCounterRound c v draws pairRng gendigRng
      ++ [xMacGen c (tempkeyMac c (gendigCounterDigest c v (slice draws 33 20) gendigRng))] := by
  simp only [xAuthReadCounter, xCounterRound, xCounterCheck, List.append_assoc]

theorem authReadCounter_goes (v : Word32) (pairRng gendigRng : Bytes) (s : State) (hc : s.cfg.pulse0 ≠ s.cfg.pulse1)
    (hg : s.face.grants (xAuthReadCounter s.cfg v (s.face.randoms 53) pairRng gendigRng)) :
    Goes authReadCounter s v (s.face.session (xAuthReadCounter s.cfg v (s.face.randoms 53) pairRng gendigRng) 53
      (gendigCounterDigest s.cfg v (slice (s.face.randoms 53) 33 20) gendigRng) false) := by
  rw [authReadCounter_split] at hg ⊢
  exact settled_goes hc (authReadCounter_reaches v pairRng gendigRng s hc ((grants_append _ _ _).mp hg).1) hg

/-- A wrong MAC at the end of `auth_read_counter` (R150). -/
theorem authReadCounter_wrong (v : Word32) (pairRng gendigRng mac : Bytes) (s : State) (hc : s.cfg.pulse0 ≠ s.cfg.pulse1)
    (hm : mac ≠ tempkeyMac s.cfg (gendigCounterDigest s.cfg v (slice (s.face.randoms 53) 33 20) gendigRng))
    (hg : s.face.grants (withMac s.cfg (xAuthReadCounter s.cfg v (s.face.randoms 53) pairRng gendigRng) mac)) :
    Fails authReadCounter s .seFailure
      (s.face.session (withMac s.cfg (xAuthReadCounter s.cfg v (s.face.randoms 53) pairRng gendigRng) mac) 53
        (gendigCounterDigest s.cfg v (slice (s.face.randoms 53) 33 20) gendigRng) false) := by
  have e : withMac s.cfg (xAuthReadCounter s.cfg v (s.face.randoms 53) pairRng gendigRng) mac
      = xCounterRound s.cfg v (s.face.randoms 53) pairRng gendigRng ++ [xMacGen s.cfg mac] := by
    rw [authReadCounter_split]
    exact congrArg (· ++ [xMacGen s.cfg mac]) List.dropLast_concat
  rw [e] at hg ⊢
  exact settled_wrong hc (authReadCounter_reaches v pairRng gendigRng s hc ((grants_append _ _ _).mp hg).1) hm hg

/-! ### The counted increment -/

theorem incrLoop_goes (values : List Word32) (last before : Word32) (s : State) (hc : s.cfg.pulse0 ≠ s.cfg.pulse1)
    (hg : s.face.grants (values.map (xCounterIncr s.cfg) ++ [xCounterIncr s.cfg last])) :
    Goes (incrLoop (values.length + 1) before) s last
      (s.face.session (values.map (xCounterIncr s.cfg) ++ [xCounterIncr s.cfg last]) 0 s.reg.tk s.reg.tkValid) := by
  induction values generalizing s before with
  | nil =>
    unfold incrLoop
    refine goes_bind (goes_seCall (counterIncr_goes last s hc hg)) (fun t ht => ?_)
    exact goes_face_eq ht (goes_pure last t)
  | cons v values ih =>
    have hg' : s.face.grants ([xCounterIncr s.cfg v] ++ (values.map (xCounterIncr s.cfg) ++ [xCounterIncr s.cfg last])) := hg
    obtain ⟨hgA, -⟩ := (grants_append _ _ _).mp hg'
    rw [List.length_cons]
    unfold incrLoop
    refine goes_bind (goes_seCall (counterIncr_goes v s hc hgA)) (fun t ht => ?_)
    have htc : t.cfg = s.cfg := (congrArg Face.cfg ht).trans (session_cfg ..)
    have hi := ih v t (by rw [htc]; exact hc) (by rw [ht, htc]; exact grants_session _ _ _ hg')
    have htr : t.reg = _ := congrArg Face.reg ht
    rw [ht, htr, htc, session_session] at hi
    exact hi

/-- The exchanges of `add_counter(n)` before the command for the MAC (R151). -/
def xAddRound (c : Params) (values : List Word32) (last : Word32) (draws pairRng gendigRng : Bytes) : List Exchange :=
  xPair c draws pairRng ++ (values.map (xCounterIncr c) ++ [xCounterIncr c last])
    ++ xGendigCounter c (slice draws 33 20) gendigRng

theorem addCounter_reaches (values : List Word32) (last : Word32) (pairRng gendigRng : Bytes) (s : State)
    (hc : s.cfg.pulse0 ≠ s.cfg.pulse1)
    (hg : s.face.grants (xAddRound s.cfg values last (s.face.randoms 53) pairRng gendigRng)) :
    Reaches (addCounter (values.length + 1)) s
      (settle (gendigCounterDigest s.cfg last (slice (s.face.randoms 53) 33 20) gendigRng) last)
      (s.face.session (xAddRound s.cfg values last (s.face.randoms 53) pairRng gendigRng) 53
        (gendigCounterDigest s.cfg last (slice (s.face.randoms 53) 33 20) gendigRng) true) := by
  generalize hD : s.face.randoms 53 = D at hg ⊢
  have hp : xPair s.cfg D pairRng = xPair s.cfg (s.face.randoms 33) pairRng := by
    rw [← hD, xPair_randoms _ _ _ (by decide)]
  obtain ⟨hgA, -⟩ := (grants_append _ _ _).mp hg
  obtain ⟨hgB, -⟩ := (grants_append _ _ _).mp hgA
  unfold addCounter
  rw [hp] at hgB
  refine reaches_bind (goes_seCall (pairUnlock_goes pairRng s hc hgB)) (fun t ht => ?_)
  rw [← hp] at ht
  have htc : t.cfg = s.cfg := (congrArg Face.cfg ht).trans (session_cfg ..)
  have hr := incrLoop_goes values last 0 t (by rw [htc]; exact hc) (by rw [ht, htc]; exact grants_session _ _ _ hgA)
  have htr : t.reg = _ := congrArg Face.reg ht
  rw [ht, htr, htc, session_session, Nat.add_zero] at hr
  refine reaches_bind hr (fun u hu => ?_)
  have huc : u.cfg = s.cfg := (congrArg Face.cfg hu).trans (session_cfg ..)
  have hd : u.face.randoms 20 = slice D 33 20 := by rw [hu, fold_draws _ _ _ _ (Nat.le_refl 53), hD]
  have h2 := counterCheck_reaches last gendigRng u (by rw [huc]; exact hc)
    (by rw [hd, hu, huc]; exact grants_session _ _ _ hg)
  rw [hd, hu, huc, session_session] at h2
  exact h2

theorem addCounter_split (c : Params) (values : List Word32) (last : Word32) (draws pairRng gendigRng : Bytes) :
    xAddCounter c values last draws pairRng gendigRng = xAddRound c values last draws pairRng gendigRng
      ++ [xMacGen c (tempkeyMac c (gendigCounterDigest c last (slice draws 33 20) gendigRng))] := by
  simp only [xAddCounter, xAddRound, xCounterCheck, List.append_assoc]

theorem addCounter_goes (values : List Word32) (last : Word32) (pairRng gendigRng : Bytes) (s : State)
    (hc : s.cfg.pulse0 ≠ s.cfg.pulse1)
    (hg : s.face.grants (xAddCounter s.cfg values last (s.face.randoms 53) pairRng gendigRng)) :
    Goes (addCounter (values.length + 1)) s last
      (s.face.session (xAddCounter s.cfg values last (s.face.randoms 53) pairRng gendigRng) 53
        (gendigCounterDigest s.cfg last (slice (s.face.randoms 53) 33 20) gendigRng) false) := by
  rw [addCounter_split] at hg ⊢
  exact settled_goes hc (addCounter_reaches values last pairRng gendigRng s hc ((grants_append _ _ _).mp hg).1) hg

/-- A wrong MAC at the end of `add_counter(n)`: the increments are made (R151). -/
theorem addCounter_wrong (values : List Word32) (last : Word32) (pairRng gendigRng mac : Bytes) (s : State)
    (hc : s.cfg.pulse0 ≠ s.cfg.pulse1)
    (hm : mac ≠ tempkeyMac s.cfg (gendigCounterDigest s.cfg last (slice (s.face.randoms 53) 33 20) gendigRng))
    (hg : s.face.grants (withMac s.cfg (xAddCounter s.cfg values last (s.face.randoms 53) pairRng gendigRng) mac)) :
    Fails (addCounter (values.length + 1)) s .seFailure
      (s.face.session (withMac s.cfg (xAddCounter s.cfg values last (s.face.randoms 53) pairRng gendigRng) mac) 53
        (gendigCounterDigest s.cfg last (slice (s.face.randoms 53) 33 20) gendigRng) false) := by
  have e : withMac s.cfg (xAddCounter s.cfg values last (s.face.randoms 53) pairRng gendigRng) mac
      = xAddRound s.cfg values last (s.face.randoms 53) pairRng gendigRng ++ [xMacGen s.cfg mac] := by
    rw [addCounter_split]
    exact congrArg (· ++ [xMacGen s.cfg mac]) List.dropLast_concat
  rw [e] at hg ⊢
  exact settled_wrong hc (addCounter_reaches values last pairRng gendigRng s hc ((grants_append _ _ _).mp hg).1) hm hg

end Sys2Proof.Machine
end

