-- ==== Sys2Proof/Laws/Pin.lean ====
section
/-! SUPPORT. What the parts of the PinEngine give and leave when the environment grants their exchanges
(spec/44_pinengine.md R156 to R173). -/

namespace Sys2Proof.Machine

open Sys2Proof.Config (Params InMove FieldLoc Layout)

/-! ### Faces -/

theorem exchanges_held (f : Face) (xs : List Exchange) : (f.exchanges xs).held = f.held := by
  induction xs generalizing f with
  | nil => rfl
  | cons x xs ih => rw [exchanges_cons, ih]; rfl

theorem exchanges_bootSeed (f : Face) (xs : List Exchange) : (f.exchanges xs).reg.bootSeed = f.reg.bootSeed := by
  induction xs generalizing f with
  | nil => rfl
  | cons x xs ih => rw [exchanges_cons, ih]; rfl

theorem withHeld_held (f : Face) : f.withHeld f.held = f := rfl

theorem session_held (f : Face) (xs : List Exchange) (n : Nat) (tk : Bytes) (v : Bool) :
    (f.session xs n tk v).held = f.held := exchanges_held f xs

@[simp] theorem pin_cfg (f : Face) (xs : List Exchange) (n : Nat) (tk : Bytes) (v : Bool) (h : Held) :
    (f.pin xs n tk v h).cfg = f.cfg := exchanges_cfg f xs

@[simp] theorem pin_held (f : Face) (xs : List Exchange) (n : Nat) (tk : Bytes) (v : Bool) (h : Held) :
    (f.pin xs n tk v h).held = h := rfl

@[simp] theorem pin_bootSeed (f : Face) (xs : List Exchange) (n : Nat) (tk : Bytes) (v : Bool) (h : Held) :
    (f.pin xs n tk v h).reg.bootSeed = f.reg.bootSeed := exchanges_bootSeed f xs

@[simp] theorem pin_tkValid (f : Face) (xs : List Exchange) (n : Nat) (tk : Bytes) (v : Bool) (h : Held) :
    (f.pin xs n tk v h).reg.tkValid = v := rfl

theorem session_pin (f : Face) (xs : List Exchange) (n : Nat) (tk : Bytes) (v : Bool) :
    f.session xs n tk v = f.pin xs n tk v f.held := by
  unfold Face.pin
  rw [← session_held f xs n tk v, withHeld_held]

theorem exchange_withHeld (f : Face) (y : Exchange) (h : Held) : (f.withHeld h).exchange y = (f.exchange y).withHeld h := by
  simp only [Face.exchange, Face.withHeld, Face.withRegs, Face.heard, Face.transmitted, Face.sent, Face.sentAt,
    Face.pulsed, Exchange.regs]

theorem exchanges_withHeld (f : Face) (ys : List Exchange) (h : Held) :
    (f.withHeld h).exchanges ys = (f.exchanges ys).withHeld h := by
  induction ys generalizing f with
  | nil => rfl
  | cons y ys ih => rw [exchanges_cons, exchange_withHeld, ih, exchanges_cons]

theorem session_withHeld (f : Face) (ys : List Exchange) (n : Nat) (tk : Bytes) (v : Bool) (h : Held) :
    (f.withHeld h).session ys n tk v = (f.session ys n tk v).withHeld h := by
  simp only [Face.session, exchanges_withHeld]
  rfl

theorem pin_session (f : Face) (xs ys : List Exchange) (m n : Nat) (tk tk' : Bytes) (v v' : Bool) (h : Held) :
    (f.pin xs m tk v h).session ys n tk' v' = f.pin (xs ++ ys) (m + n) tk' v' h := by
  unfold Face.pin
  rw [session_withHeld, session_session]

theorem pin_pin (f : Face) (xs ys : List Exchange) (m n : Nat) (tk tk' : Bytes) (v v' : Bool) (h h' : Held) :
    (f.pin xs m tk v h).pin ys n tk' v' h' = f.pin (xs ++ ys) (m + n) tk' v' h' := by
  rw [Face.pin, pin_session]
  rfl

theorem pin_grants {f : Face} {xs ys : List Exchange} (n : Nat) (tk : Bytes) (v : Bool) (h : Held)
    (hg : f.grants (xs ++ ys)) : (f.pin xs n tk v h).grants ys := ((grants_append f xs ys).mp hg).2

theorem pin_randoms (f : Face) (xs : List Exchange) (m n : Nat) (tk : Bytes) (v : Bool) (h : Held) :
    (f.pin xs m tk v h).randoms n = (f.randoms (m + n)).drop m := session_randoms f xs m n tk v

/-! ### Ending with something held -/

/-- `x` ends with the result `a`, the exchanges and draws given, the mark of TempKey's copy given, and `h` held. -/
def Pins {α : Type} (x : Op α) (s : State) (a : α) (xs : List Exchange) (n : Nat) (v : Bool) (h : Held) : Prop :=
  ∃ t tk, x s = .ok a t ∧ t.face = s.face.pin xs n tk v h

theorem pins_of_goes {α : Type} {x : Op α} {s : State} {a : α} {xs : List Exchange} {n : Nat} {tk : Bytes} {v : Bool}
    (hx : Goes x s a (s.face.session xs n tk v)) : Pins x s a xs n v s.face.held := by
  obtain ⟨t, ht, hf⟩ := hx
  exact ⟨t, tk, ht, by rw [hf, session_pin]⟩

theorem pins_still {α : Type} {x : Op α} {s : State} {a : α} {h : Held} (hx : Goes x s a (s.face.withHeld h)) :
    Pins x s a [] 0 s.reg.tkValid h := by
  obtain ⟨t, ht, hf⟩ := hx
  exact ⟨t, s.reg.tk, ht, hf⟩

theorem pins_pure {α : Type} (a : α) (s : State) : Pins (pure a) s a [] 0 s.reg.tkValid s.face.held :=
  ⟨s, s.reg.tk, rfl, rfl⟩

theorem pins_bind {α β : Type} {x : Op α} {k : α → Op β} {s : State} {a : α} {b : β} {xs ys : List Exchange}
    {m n : Nat} {v w : Bool} {h i : Held} (hx : Pins x s a xs m v h)
    (hk : ∀ t tk, t.face = s.face.pin xs m tk v h → Pins (k a) t b ys n w i) :
    Pins (x >>= k) s b (xs ++ ys) (m + n) w i := by
  obtain ⟨t, tk, ht, hf⟩ := hx
  obtain ⟨u, tk', hu, hg⟩ := hk t tk hf
  exact ⟨u, tk', by rw [bind_run, ht]; exact hu, by rw [hg, hf, pin_pin]⟩

/-- A first part that touches neither the line nor the draws. -/
theorem pins_bind_still {α β : Type} {x : Op α} {k : α → Op β} {s : State} {a : α} {b : β} {ys : List Exchange}
    {n : Nat} {v w : Bool} {h i : Held} (hx : Pins x s a [] 0 v h)
    (hk : ∀ t tk, t.face = s.face.pin [] 0 tk v h → Pins (k a) t b ys n w i) : Pins (x >>= k) s b ys n w i := by
  have := pins_bind hx hk
  rwa [List.nil_append, Nat.zero_add] at this

/-- A last part that touches neither. -/
theorem pins_bind_last {α β : Type} {x : Op α} {k : α → Op β} {s : State} {a : α} {b : β} {xs : List Exchange}
    {n : Nat} {v w : Bool} {h i : Held} (hx : Pins x s a xs n v h)
    (hk : ∀ t tk, t.face = s.face.pin xs n tk v h → Pins (k a) t b [] 0 w i) : Pins (x >>= k) s b xs n w i := by
  have := pins_bind hx hk
  rwa [List.append_nil, Nat.add_zero] at this

theorem pins_eq {α : Type} {x : Op α} {s : State} {a b : α} {xs ys : List Exchange} {m n : Nat} {v w : Bool}
    {h i : Held} (hx : Pins x s a xs m v h) (h1 : a = b) (h2 : xs = ys) (h3 : m = n) (h4 : v = w) (h5 : h = i) :
    Pins x s b ys n w i := by subst h1 h2 h3 h4 h5; exact hx

/-- What is known of a state that has such a face. -/
theorem pin_state {t : State} {f : Face} {xs : List Exchange} {n : Nat} {tk : Bytes} {v : Bool} {h : Held}
    (ht : t.face = f.pin xs n tk v h) :
    t.cfg = f.cfg ∧ t.reg.bootSeed = f.reg.bootSeed ∧ t.face.held = h ∧ t.reg.tkValid = v
      ∧ t.reg.record = h.record ∧ t.reg.recHeld = h.recHeld :=
  ⟨(congrArg Face.cfg ht).trans (pin_cfg ..),
   (congrArg (fun g : Face => g.reg.bootSeed) ht).trans (pin_bootSeed ..),
   (congrArg Face.held ht).trans (pin_held ..),
   (congrArg (fun g : Face => g.reg.tkValid) ht).trans (pin_tkValid ..),
   congrArg (fun g : Face => g.reg.record) ht,
   congrArg (fun g : Face => g.reg.recHeld) ht⟩

/-! ### The record -/

/-- A first part that only reads. -/
theorem pins_read {α β : Type} {x : Op α} {k : α → Op β} {s : State} {a : α} {b : β} {ys : List Exchange} {n : Nat}
    {w : Bool} {i : Held} (hx : x s = .ok a s) (hk : Pins (k a) s b ys n w i) : Pins (x >>= k) s b ys n w i := by
  obtain ⟨u, tk, hu, hg⟩ := hk
  exact ⟨u, tk, by rw [bind_run, hx]; exact hu, hg⟩

theorem recField_run (f : Layout → FieldLoc) (s : State) (hr : s.reg.recHeld = true) :
    recField f s = .ok (field s.reg.record (f s.cfg.layout)) s := by
  simp only [recField, bind_run, getCfg_run, readRec, readHeld, hr, if_true, pure_run]

theorem recWord_run (f : Layout → FieldLoc) (s : State) (hr : s.reg.recHeld = true) :
    recWord f s = .ok (fieldWord s.reg.record (f s.cfg.layout)) s := by
  simp only [recWord, bind_run, recField_run f s hr, pure_run]
  rfl

theorem validate_run (s : State) (hr : s.reg.recHeld = true) (hv : recordValid s.cfg s.reg.record) :
    validate s = .ok () s := by
  obtain ⟨h1, h2, h3, h4⟩ := hv
  simp only [validate, bind_run, getCfg_run, recWord_run _ s hr, h1, ne_eq, not_true_eq_false, if_false,
    Nat.not_lt.mpr h2, Nat.not_lt.mpr h3, Nat.not_lt.mpr h4, pure_run]

theorem recSignature_run (s : State) (hr : s.reg.recHeld = true) :
    recSignature s = .ok (signatureOf s.cfg s.reg.bootSeed s.reg.record) s := by
  simp only [recSignature, bind_run, getState_run, readRec, readHeld, hr, if_true, pure_run]

theorem verify_run (s : State) (hr : s.reg.recHeld = true) (hv : recordVerifies s.cfg s.reg.bootSeed s.reg.record) :
    verify s = .ok () s := by
  have h : ctEqualBytes (field s.reg.record s.cfg.layout.hmac) (signatureOf s.cfg s.reg.bootSeed s.reg.record) = true :=
    (ctEqualBytes_iff _ _).mpr hv
  simp only [verify, bind_run, recSignature_run s hr, recField_run _ s hr, ctEqual, pure_run, h, if_true]

theorem pins_cfg (s : State) : Pins getCfg s s.cfg [] 0 s.reg.tkValid s.face.held := ⟨s, s.reg.tk, rfl, rfl⟩

theorem pins_recField (f : Layout → FieldLoc) (s : State) (hr : s.reg.recHeld = true) :
    Pins (recField f) s (field s.reg.record (f s.cfg.layout)) [] 0 s.reg.tkValid s.face.held := by
  refine ⟨s, s.reg.tk, ?_, rfl⟩
  simp only [recField, bind_run, getCfg_run, readRec, readHeld, hr, if_true, pure_run]

theorem pins_recWord (f : Layout → FieldLoc) (s : State) (hr : s.reg.recHeld = true) :
    Pins (recWord f) s (fieldWord s.reg.record (f s.cfg.layout)) [] 0 s.reg.tkValid s.face.held := by
  refine ⟨s, s.reg.tk, ?_, rfl⟩
  simp only [recWord, recField, bind_run, getCfg_run, readRec, readHeld, hr, if_true, pure_run]
  rfl

theorem pins_setRecField (f : Layout → FieldLoc) (v : Bytes) (s : State) (hr : s.reg.recHeld = true) :
    Pins (setRecField f v) s () [] 0 s.reg.tkValid
      (s.face.held.withRecord (withField s.reg.record (f s.cfg.layout) v)) := by
  refine ⟨{ s with reg := { s.reg with record := withField s.reg.record (f s.cfg.layout) v, recHeld := true } },
    s.reg.tk, ?_, rfl⟩
  simp only [setRecField, bind_run, getCfg_run, readRec, readHeld, hr, if_true, writeRec, modifyReg_run]

theorem pins_setRecWord (f : Layout → FieldLoc) (v : Word32) (s : State) (hr : s.reg.recHeld = true) :
    Pins (setRecWord f v) s () [] 0 s.reg.tkValid
      (s.face.held.withRecord (withFieldWord s.reg.record (f s.cfg.layout) v)) := pins_setRecField f (u32le v) s hr

theorem pins_writeRec (r : Bytes) (s : State) :
    Pins (writeRec r) s () [] 0 s.reg.tkValid (s.face.held.withRecord r) := ⟨_, s.reg.tk, rfl, rfl⟩

theorem pins_sign (s : State) (hr : s.reg.recHeld = true) :
    Pins sign s () [] 0 s.reg.tkValid (s.face.held.signed s.cfg s.reg.bootSeed) := by
  refine ⟨{ s with reg := { s.reg with
    record := signedRecord s.cfg s.reg.bootSeed s.reg.record, recHeld := true } }, s.reg.tk, ?_, rfl⟩
  simp only [sign, recSignature, setRecField, bind_run, getState_run, getCfg_run, readRec, readHeld, hr, if_true, pure_run, writeRec,
    modifyReg_run]
  rfl

theorem pins_writeDigest (d : Bytes) (s : State) :
    Pins (writeDigest d) s () [] 0 s.reg.tkValid { s.face.held with digest := d, digestHeld := true } :=
  ⟨_, s.reg.tk, rfl, rfl⟩

theorem pins_cacheSave (s : State) (hr : s.reg.recHeld = true) (hd : s.reg.digestHeld = true) :
    Pins cacheSave s () [] 0 s.reg.tkValid (s.face.held.caching s.cfg s.reg.bootSeed s.reg.digest) := by
  refine ⟨{ s with reg := { s.reg with
    cache := maskDigest s.cfg s.reg.bootSeed s.reg.digest, cacheHeld := true
    record := withField s.reg.record s.cfg.layout.cachedMainPin (maskDigest s.cfg s.reg.bootSeed s.reg.digest)
    recHeld := true, digestHeld := true } }, s.reg.tk, ?_, rfl⟩
  · simp only [cacheSave, bind_run, getState_run, readDigest, hd, if_true, writeCache, modifyReg_run, readCache,
      setRecField, getCfg_run, readRec, readHeld, hr, writeRec]

/-- `cache_save` of the digest just written (R165, R168). -/
theorem pins_cacheDigest (d : Bytes) (s : State) (hr : s.reg.recHeld = true) :
    Pins (do
      writeDigest d
      cacheSave) s () [] 0 s.reg.tkValid (s.face.held.caching s.cfg s.reg.bootSeed d) := by
  refine pins_bind_still (pins_writeDigest d s) (fun t tk ht => ?_)
  obtain ⟨h1, h2, h3, h4, h5, h6⟩ := pin_state ht
  have hd : t.reg.digest = d := congrArg (fun g : Face => g.reg.digest) ht
  have hdh : t.reg.digestHeld = true := congrArg (fun g : Face => g.reg.digestHeld) ht
  refine pins_eq (pins_cacheSave t (h6.trans hr) hdh) rfl rfl rfl h4 ?_
  rw [h3, h1, h2, hd]
  rfl

theorem pins_cacheRestore (s : State) (hr : s.reg.recHeld = true) :
    Pins cacheRestore s
      (maskDigest s.cfg s.reg.bootSeed (field s.reg.record s.cfg.layout.cachedMainPin)) [] 0 s.reg.tkValid
      { s.face.held with
        cache := field s.reg.record s.cfg.layout.cachedMainPin, cacheHeld := true
        digest := maskDigest s.cfg s.reg.bootSeed (field s.reg.record s.cfg.layout.cachedMainPin)
        digestHeld := true } := by
  refine ⟨{ s with reg := { s.reg with
    cache := field s.reg.record s.cfg.layout.cachedMainPin, cacheHeld := true
    digest := maskDigest s.cfg s.reg.bootSeed (field s.reg.record s.cfg.layout.cachedMainPin)
    digestHeld := true } }, s.reg.tk, ?_, rfl⟩
  simp only [cacheRestore, bind_run, getState_run, recField, getCfg_run, readRec, readHeld, hr, if_true, pure_run, writeCache,
    modifyReg_run, readCache, writeDigest, readDigest]

end Sys2Proof.Machine
end

