-- ==== Sys2Proof/Laws/PinDraws.lean ====
section
/-! SUPPORT. Draws inside a longer run: an operation's exchanges use only so many of the random bytes ahead, and the bytes
ahead of a later state are those of the first, further on. -/

namespace Sys2Proof.Machine

open Sys2Proof.Config (Params)

theorem slice_take {D : Bytes} {i n k : Nat} (h : i + n ≤ k) : slice (D.take k) i n = slice D i n := by
  unfold slice
  rw [List.drop_take, List.take_take, Nat.min_eq_left (by omega)]

theorem xPair_take (c : Params) (D rng : Bytes) {k : Nat} (h : 33 ≤ k) : xPair c (D.take k) rng = xPair c D rng := by
  unfold xPair
  rw [slice_take (by omega), slice_take (by omega)]

theorem roundDigest_take (slot : SlotId) (secret D rng : Bytes) {k : Nat} (h : 53 ≤ k) :
    roundDigest slot secret (D.take k) rng = roundDigest slot secret D rng := by
  unfold roundDigest
  rw [slice_take (by omega)]

theorem xStretch_take (c : Params) (v D : Bytes) (rs : List StretchReply) {k : Nat} (h : 33 * rs.length ≤ k) :
    xStretch c v (D.take k) rs = xStretch c v D rs := by
  induction rs generalizing v D k with
  | nil => rfl
  | cons r rs ih =>
    rw [List.length_cons] at h
    have e : checkmacDraws = 33 := rfl
    simp only [xStretch]
    rw [xPair_take c D r.pairRng (by omega), List.drop_take, e, ih _ _ (by omega)]

theorem xEncryptedRead_take (c : Params) (slot authSlot : SlotId) (b : Nat) (D : Bytes) (rs : List ReadReply) {k : Nat}
    (h : 53 * rs.length ≤ k) : xEncryptedRead c slot authSlot b (D.take k) rs = xEncryptedRead c slot authSlot b D rs := by
  induction rs generalizing b D k with
  | nil => rfl
  | cons r rs ih =>
    rw [List.length_cons] at h
    have e : roundDraws = 53 := rfl
    simp only [xEncryptedRead]
    rw [xPair_take c D r.pairRng (by omega), slice_take (by omega), List.drop_take, e, ih _ _ (by omega)]

theorem encryptedReadBytes_take (authSlot : SlotId) (secret D : Bytes) (rs : List ReadReply) {k : Nat}
    (h : 53 * rs.length ≤ k) : encryptedReadBytes authSlot secret (D.take k) rs =
    encryptedReadBytes authSlot secret D rs := by
  induction rs generalizing D k with
  | nil => rfl
  | cons r rs ih =>
    rw [List.length_cons] at h
    have e : roundDraws = 53 := rfl
    simp only [encryptedReadBytes]
    rw [roundDigest_take authSlot secret D r.gendigRng (by omega), List.drop_take, e, ih _ (by omega)]

theorem xEncryptedWrite_take (c : Params) (slot authSlot : SlotId) (secret : Bytes) (b : Nat) (data D : Bytes)
    (rs : List WriteReply) {k : Nat} (h : 53 * rs.length ≤ k) :
    xEncryptedWrite c slot authSlot secret b data (D.take k) rs = xEncryptedWrite c slot authSlot secret b data D rs := by
  induction rs generalizing b data D k with
  | nil => rfl
  | cons r rs ih =>
    rw [List.length_cons] at h
    have e : roundDraws = 53 := rfl
    simp only [xEncryptedWrite]
    rw [xPair_take c D r.pairRng (by omega), slice_take (by omega), roundDigest_take authSlot secret D r.gendigRng (by omega),
      List.drop_take, e, ih _ _ _ (by omega)]

theorem xAuthReadCounter_take (c : Params) (v : Word32) (D pairRng gendigRng : Bytes) {k : Nat} (h : 53 ≤ k) :
    xAuthReadCounter c v (D.take k) pairRng gendigRng = xAuthReadCounter c v D pairRng gendigRng := by
  unfold xAuthReadCounter
  rw [xPair_take c D pairRng (by omega), slice_take (by omega)]

theorem xAuthReadSlot_take (c : Params) (slot : SlotId) (D pairRng v gendigRng : Bytes) {k : Nat} (h : 53 ≤ k) :
    xAuthReadSlot c slot (D.take k) pairRng v gendigRng = xAuthReadSlot c slot D pairRng v gendigRng := by
  unfold xAuthReadSlot
  rw [xPair_take c D pairRng (by omega), slice_take (by omega), roundDigest_take slot v D gendigRng (by omega)]

theorem xAddCounter_take (c : Params) (values : List Word32) (last : Word32) (D pairRng gendigRng : Bytes) {k : Nat}
    (h : 53 ≤ k) : xAddCounter c values last (D.take k) pairRng gendigRng =
    xAddCounter c values last D pairRng gendigRng := by
  unfold xAddCounter
  rw [xPair_take c D pairRng (by omega), slice_take (by omega)]

theorem xTestDigest_take (c : Params) (D pairRng gendigRng mac : Bytes) {k : Nat} (h : 53 ≤ k) :
    xTestDigest c (D.take k) pairRng gendigRng mac = xTestDigest c D pairRng gendigRng mac := by
  unfold xTestDigest
  rw [xPair_take c D pairRng (by omega), slice_take (by omega)]

theorem testMac_take (c : Params) (d D gendigRng : Bytes) {k : Nat} (h : 53 ≤ k) :
    testMac c d (D.take k) gendigRng = testMac c d D gendigRng := by
  unfold testMac
  rw [roundDigest_take _ d D gendigRng h]

theorem xPinAttempt_take (c : Params) (pin D : Bytes) (r : AttemptReply) {k : Nat} (h : attemptDraws r ≤ k) :
    xPinAttempt c pin (D.take k) r = xPinAttempt c pin D r := by
  unfold attemptDraws checkmacDraws Config.numinLen Config.otherDataLen at h
  unfold xPinAttempt checkmacDraws Config.numinLen Config.otherDataLen
  rw [xStretch_take c _ D r.stretches (by omega), List.drop_take, List.drop_take,
    xPair_take c _ r.plainRng (by omega), xPair_take c _ r.keyRng (by omega)]

theorem xReadCounters_take (c : Params) (D : Bytes) (r : CountersReply) {k : Nat} (h : 159 ≤ k) :
    xReadCounters c (D.take k) r = xReadCounters c D r := by
  have e : roundDraws = 53 := rfl
  unfold xReadCounters
  rw [e, xAuthReadCounter_take c _ D _ _ (by omega), List.drop_take, List.drop_take,
    xAuthReadSlot_take c _ _ _ _ _ (by omega), xAuthReadSlot_take c _ _ _ _ _ (by omega)]

theorem xUpdates_take (c : Params) (d : Bytes) (v last : Word32) (D : Bytes) (r : UpdateReply) {k : Nat}
    (h : 212 ≤ k) : xUpdates c d v last (D.take k) r = xUpdates c d v last D r := by
  have e : roundDraws = 53 := rfl
  unfold xUpdates
  rw [e, xAuthReadCounter_take c _ D _ _ (by omega), List.drop_take, List.drop_take, List.drop_take,
    xEncryptedWrite_take c _ _ _ _ _ _ [r.matchWrite] (by simp; omega), xAddCounter_take c _ _ _ _ _ (by omega),
    xEncryptedWrite_take c _ _ _ _ _ _ [r.lastWrite] (by simp; omega)]

theorem randoms_window (f : Face) {m N n : Nat} (h : m + N ≤ n) :
    (f.randoms (m + N)).drop m = ((f.randoms n).drop m).take N := by
  rw [← randoms_take f h, List.drop_take, Nat.add_sub_cancel_left]

/-- The bytes ahead of a later state, as a window of those ahead of the first. -/
theorem pin_window {t : State} {f : Face} {xs : List Exchange} {m N n : Nat} {tk : Bytes} {v : Bool} {h : Held}
    (ht : t.face = f.pin xs m tk v h) (hn : m + N ≤ n) : t.face.randoms N = ((f.randoms n).drop m).take N := by
  rw [ht, pin_randoms, randoms_window f hn]

end Sys2Proof.Machine
end

