-- ==== Sys2Proof/Laws/PinOps.lean ====
section
/-! SUPPORT. The PinEngine's own pieces: the hash of an attempt, the test of a digest, the counters read, the updates
after a good login, the detection of a blank chip (spec/44_pinengine.md R161 to R166). -/

namespace Sys2Proof.Machine

open Sys2Proof.Config (Params FieldLoc Layout)

/-- An operation that comes later in a run: its exchanges and its result are stated from the random bytes ahead of the
whole run. -/
theorem pins_later {α : Type} {x : Op α} {t : State} {f : Face} {xs : List Exchange} {m : Nat} {tk : Bytes} {v : Bool}
    {h : Held} (ht : t.face = f.pin xs m tk v h) (X : Params → Bytes → List Exchange) (a : Params → Bytes → α)
    (N : Nat) {n : Nat} {w : Bool} (hX : ∀ c D, X c (D.take N) = X c D) (ha : ∀ c D, a c (D.take N) = a c D)
    (hn : m + N ≤ n) (hg : f.grants (xs ++ X f.cfg ((f.randoms n).drop m)))
    (hop : t.face.grants (X t.cfg (t.face.randoms N)) →
      Pins x t (a t.cfg (t.face.randoms N)) (X t.cfg (t.face.randoms N)) N w t.face.held) :
    Pins x t (a f.cfg ((f.randoms n).drop m)) (X f.cfg ((f.randoms n).drop m)) N w h := by
  obtain ⟨h1, h2, h3, -, -, -⟩ := pin_state ht
  rw [h1, pin_window ht hn, hX, ha, h3] at hop
  exact hop (by rw [ht]; exact pin_grants _ _ _ _ hg)

/-- The same, first in a run. -/
theorem pins_first {α : Type} {x : Op α} {s : State} (X : Params → Bytes → List Exchange) (a : Params → Bytes → α)
    (N : Nat) {n : Nat} {w : Bool} (hX : ∀ c D, X c (D.take N) = X c D) (ha : ∀ c D, a c (D.take N) = a c D)
    (hn : N ≤ n) (hg : s.face.grants (X s.cfg (s.face.randoms n)))
    (hop : s.face.grants (X s.cfg (s.face.randoms N)) →
      Pins x s (a s.cfg (s.face.randoms N)) (X s.cfg (s.face.randoms N)) N w s.face.held) :
    Pins x s (a s.cfg (s.face.randoms n)) (X s.cfg (s.face.randoms n)) N w s.face.held := by
  rw [← randoms_take s.face hn, hX, ha] at hop
  exact hop hg

theorem grants_left {f : Face} {xs ys : List Exchange} (h : f.grants (xs ++ ys)) : f.grants xs :=
  ((grants_append f xs ys).mp h).1

/-! ### The pieces below -/

theorem pins_pairUnlock (rng : Bytes) (s : State) (hc : s.cfg.pulse0 ≠ s.cfg.pulse1)
    (hg : s.face.grants (xPair s.cfg (s.face.randoms 33) rng)) :
    Pins pairUnlock s () (xPair s.cfg (s.face.randoms 33) rng) 33 false s.face.held :=
  pins_of_goes (pairUnlock_goes rng s hc hg)

/-! ### The hash of an attempt (R161) -/

theorem pins_pinHashAttempt (pin : Bytes) (r : AttemptReply) (s : State) (hc : s.cfg.pulse0 ≠ s.cfg.pulse1)
    (hk : s.cfg.kdfIter = r.stretches.length) (hp : s.cfg.slot.pinAttempt ≠ s.cfg.slot.keyPlain)
    (hg : s.face.grants (xPinAttempt s.cfg pin (s.face.randoms (attemptDraws r)) r)) :
    Pins (pinHashAttempt pin) s (attemptDigest s.cfg pin r)
      (xPinAttempt s.cfg pin (s.face.randoms (attemptDraws r)) r) (attemptDraws r) false s.face.held := by
  have eN : attemptDraws r = 33 * r.stretches.length + 33 + 33 := rfl
  have e33 : checkmacDraws = 33 := rfl
  rw [eN] at hg ⊢
  generalize hL : 33 * r.stretches.length = L at hg ⊢
  simp only [xPinAttempt, e33, hL, List.append_assoc] at hg ⊢
  unfold pinHashAttempt
  refine pins_bind_still (pins_cfg s) (fun t tk ht => ?_)
  obtain ⟨h1, -, h3, -, -, -⟩ := pin_state ht
  rw [hk]
  refine pins_eq (pins_bind (xs := xStretch s.cfg (pinHash s.cfg pin) (s.face.randoms (L + 33 + 33)) r.stretches) (m := L)
    (ys := xPair s.cfg ((s.face.randoms (L + 33 + 33)).drop L) r.plainRng
      ++ (xPair s.cfg ((s.face.randoms (L + 33 + 33)).drop (L + 33)) r.keyRng
        ++ xKeyedHash s.cfg s.cfg.slot.pinAttempt (plainMix s.cfg pin r) r.hash)) (n := 33 + 33)
    (a := stretchResult (pinHash s.cfg pin) r.stretches) (b := attemptDigest s.cfg pin r)
    (v := t.reg.tkValid && decide (r.stretches = [])) (w := false) (h := s.face.held) (i := s.face.held)
    ?_ (fun u tk' hu => ?_)) rfl rfl rfl rfl rfl
  · have := pins_later (x := stretch (pinHash s.cfg pin) r.stretches.length) ht
      (fun c D => xStretch c (pinHash s.cfg pin) D r.stretches)
      (fun _ _ => stretchResult (pinHash s.cfg pin) r.stretches) L (n := L + 33 + 33)
      (w := t.reg.tkValid && decide (r.stretches = []))
      (fun c D => xStretch_take c _ D _ (by omega)) (fun _ _ => rfl) (by omega)
      (by rw [List.nil_append]; exact grants_left hg)
      (fun hg' => by
        rw [← hL] at hg' ⊢
        exact pins_of_goes (stretch_goes (pinHash s.cfg pin) r.stretches t (by rw [h1]; exact hc) hg'))
    exact this
  · rw [ht, pin_pin, List.nil_append, Nat.zero_add] at hu
    have hux := (pin_state hu).1
    refine pins_bind (xs := xPair s.cfg ((s.face.randoms (L + 33 + 33)).drop L) r.plainRng) (m := 33)
      (a := plainMix s.cfg pin r) (v := false) (h := s.face.held) ?_ (fun w tk'' hw => ?_)
    · exact pins_later hu (fun c D => xPair c D r.plainRng) (fun _ _ => plainMix s.cfg pin r) 33
        (fun c D => xPair_take c D _ (by omega)) (fun _ _ => rfl) (by omega)
        (grants_left (by rw [List.append_assoc]; exact hg))
        (fun hg' => by
          have hm := mixin_plain_goes (stretchResult (pinHash s.cfg pin) r.stretches) r.plainRng u
            (by rw [hux]; exact hc) hg'
          have hm' := pins_of_goes hm
          have e : u.cfg = s.cfg := hux
          rw [e] at hm' ⊢
          exact hm')
    · rw [hu, pin_pin] at hw
      have hwx := (pin_state hw).1
      exact pins_later hw (fun c D => xPair c D r.keyRng ++ xKeyedHash c s.cfg.slot.pinAttempt (plainMix s.cfg pin r) r.hash)
        (fun _ _ => attemptDigest s.cfg pin r) 33
        (fun c D => by rw [xPair_take c D _ (by omega)]) (fun _ _ => rfl) (by omega)
        (by simpa only [List.append_assoc, face_cfg, Nat.reduceAdd] using hg)
        (fun hg' => by
          have hm := mixin_key_goes s.cfg.slot.pinAttempt (plainMix s.cfg pin r) r.keyRng r.hash w
            (by rw [hwx]; exact hc) (by rw [hwx]; exact hp) hg'
          have hm' := pins_of_goes hm
          have e : w.cfg = s.cfg := hwx
          rw [e] at hm' ⊢
          exact hm')

/-! ### The test of a digest (R165, R170) -/

theorem pins_testDigest (d pairRng gendigRng mac : Bytes) (s : State) (hc : s.cfg.pulse0 ≠ s.cfg.pulse1)
    (hg : s.face.grants (xTestDigest s.cfg (s.face.randoms 53) pairRng gendigRng mac)) :
    Pins (testDigest d) s (ctEqualBytes mac (testMac s.cfg d (s.face.randoms 53) gendigRng))
      (xTestDigest s.cfg (s.face.randoms 53) pairRng gendigRng mac) 53 false s.face.held := by
  unfold testDigest
  refine pins_bind_still (pins_cfg s) (fun t tk ht => ?_)
  have h1 := (pin_state ht).1
  simp only [xTestDigest, List.append_assoc] at hg ⊢
  refine pins_eq (pins_bind (xs := xPair s.cfg (s.face.randoms 53) pairRng) (m := 33) (v := false) (h := s.face.held)
    (a := ()) (ys := xGendigSlot s.cfg s.cfg.slot.pinHash (slice (s.face.randoms 53) 33 20) gendigRng ++ [xMacGen s.cfg mac])
    (n := 20) (w := false) (i := s.face.held)
    (b := ctEqualBytes mac (testMac s.cfg d (s.face.randoms 53) gendigRng)) ?_ (fun u tk' hu => ?_)) rfl rfl rfl rfl rfl
  · exact pins_later ht (fun c D => xPair c D pairRng) (fun _ _ => ()) 33 (n := 53)
      (fun c D => xPair_take c D _ (by omega)) (fun _ _ => rfl) (by omega) (by rw [List.nil_append]; exact grants_left hg)
      (fun hg' => pins_pairUnlock pairRng t (by rw [h1]; exact hc) hg')
  · rw [ht, pin_pin, List.nil_append, Nat.zero_add] at hu
    have hux := (pin_state hu).1
    have hs : slice (s.face.randoms 53) 33 20 = ((s.face.randoms 53).drop 33).take 20 := rfl
    refine pins_eq (pins_bind (xs := xGendigSlot s.cfg s.cfg.slot.pinHash (slice (s.face.randoms 53) 33 20) gendigRng)
      (m := 20) (v := true) (h := s.face.held) (a := roundDigest s.cfg.slot.pinHash d (s.face.randoms 53) gendigRng)
      (ys := [xMacGen s.cfg mac]) (n := 0) ?_ (fun w tk'' hw => ?_)) rfl rfl rfl rfl rfl
    · exact pins_later hu (fun c D => xGendigSlot c s.cfg.slot.pinHash (D.take 20) gendigRng)
        (fun _ D => gendigDigest s.cfg.slot.pinHash d (D.take 20) gendigRng) 20 (n := 53)
        (fun c D => by simp only [List.take_take, Nat.min_self]) (fun c D => by simp only [List.take_take, Nat.min_self])
        (by omega)
        (grants_left (by rw [List.append_assoc, ← hs]; exact hg))
        (fun hg' => by
          have e : (u.face.randoms 20).take 20 = u.face.randoms 20 := List.take_of_length_le (by simp [Face.randoms])
          simp only [e] at hg' ⊢
          exact pins_of_goes (gendigSlot_goes s.cfg.slot.pinHash d gendigRng u (by rw [hux]; exact hc) hg'))
    · rw [hu, pin_pin] at hw
      obtain ⟨hw1, -, hw3, -, -, -⟩ := pin_state hw
      have hgw : w.face.grants [xMacGen s.cfg mac] := by
        rw [hw]
        exact pin_grants _ _ _ _ (by simpa only [List.append_assoc, face_cfg, Nat.reduceAdd] using hg)
      have := pins_of_goes (isCorrectTempkey_goes (roundDigest s.cfg.slot.pinHash d (s.face.randoms 53) gendigRng) mac w
        (by rw [hw1]; exact hc) (by rw [hw1]; exact hgw))
      rw [hw3, hw1] at this
      exact this

/-! ### The counters (R162) -/

theorem pins_readCounters (r : CountersReply) (s : State) (hr : s.reg.recHeld = true) (hc : s.cfg.pulse0 ≠ s.cfg.pulse1)
    (hg : s.face.grants (xReadCounters s.cfg (s.face.randoms 159) r)) :
    Pins readCounters s () (xReadCounters s.cfg (s.face.randoms 159) r) 159 false
      (s.face.held.withRecord (withCounters s.cfg s.reg.record r)) := by
  have e53 : roundDraws = 53 := rfl
  simp only [xReadCounters, e53, Nat.reduceMul, List.append_assoc] at hg ⊢
  unfold readCounters
  refine pins_bind_still (pins_cfg s) (fun t tk ht => ?_)
  have h1 := (pin_state ht).1
  refine pins_eq (pins_bind (xs := xAuthReadCounter s.cfg r.counter (s.face.randoms 159) r.counterPair r.counterGendig)
    (m := 53) (v := false) (h := s.face.held) (a := r.counter)
    (ys := xAuthReadSlot s.cfg s.cfg.slot.matchCount ((s.face.randoms 159).drop 53) r.matchPair r.matchBlock r.matchGendig
      ++ xAuthReadSlot s.cfg s.cfg.slot.lastgood ((s.face.randoms 159).drop 106) r.lastPair r.lastBlock r.lastGendig)
    (n := 106) (w := false) (b := ()) (i := s.face.held.withRecord (withCounters s.cfg s.reg.record r))
    ?_ (fun u tk' hu => ?_)) rfl rfl rfl rfl rfl
  · exact pins_later ht (fun c D => xAuthReadCounter c r.counter D r.counterPair r.counterGendig) (fun _ _ => r.counter) 53
      (n := 159) (fun c D => xAuthReadCounter_take c _ D _ _ (by omega)) (fun _ _ => rfl) (by omega)
      (by rw [List.nil_append]; exact grants_left hg)
      (fun hg' => pins_of_goes (authReadCounter_goes _ _ _ t (by rw [h1]; exact hc) hg'))
  · rw [ht, pin_pin, List.nil_append, Nat.zero_add] at hu
    have hux := (pin_state hu).1
    refine pins_eq (pins_bind (xs := xAuthReadSlot s.cfg s.cfg.slot.matchCount ((s.face.randoms 159).drop 53) r.matchPair
      r.matchBlock r.matchGendig) (m := 53) (v := false) (h := s.face.held) (a := r.matchBlock)
      (ys := xAuthReadSlot s.cfg s.cfg.slot.lastgood ((s.face.randoms 159).drop 106) r.lastPair r.lastBlock r.lastGendig)
      (n := 53) ?_ (fun w tk'' hw => ?_)) rfl rfl rfl rfl rfl
    · exact pins_later hu (fun c D => xAuthReadSlot c s.cfg.slot.matchCount D r.matchPair r.matchBlock r.matchGendig)
        (fun _ _ => r.matchBlock) 53 (n := 159) (fun c D => xAuthReadSlot_take c _ D _ _ _ (by omega)) (fun _ _ => rfl)
        (by omega) (grants_left (by rw [List.append_assoc]; exact hg))
        (fun hg' => pins_of_goes (authReadSlot_goes _ _ _ _ u (by rw [hux]; exact hc) hg'))
    · rw [hu, pin_pin] at hw
      have hwx := (pin_state hw).1
      refine pins_bind_last (a := r.lastBlock) (h := s.face.held) (v := false) ?_ (fun z tkz hz => ?_)
      · exact pins_later hw (fun c D => xAuthReadSlot c s.cfg.slot.lastgood D r.lastPair r.lastBlock r.lastGendig)
          (fun _ _ => r.lastBlock) 53 (n := 159) (fun c D => xAuthReadSlot_take c _ D _ _ _ (by omega)) (fun _ _ => rfl)
          (by omega) (by simpa only [List.append_assoc, face_cfg, Nat.reduceAdd] using hg)
          (fun hg' => pins_of_goes (authReadSlot_goes _ _ _ _ w (by rw [hwx]; exact hc) hg'))
      · rw [hw, pin_pin] at hz
        obtain ⟨z1, -, z3, z4, z5, z6⟩ := pin_state hz
        refine pins_bind_still (pins_setRecWord Layout.attemptsLeft _ z (z6.trans hr)) (fun y tky hy => ?_)
        obtain ⟨y1, -, y3, y4, y5, y6⟩ := pin_state hy
        refine pins_eq (pins_setRecWord Layout.numFails _ y y6) rfl rfl rfl (y4.trans z4) ?_
        rw [y3, y5, y1, z3]
        simp only [Held.withRecord, withCounters, face_cfg, z1, z5]
        rfl

end Sys2Proof.Machine
end

