-- ==== Sys2Proof/Laws/PinRuns.lean ====
section
/-! SUPPORT. Whole PIN operations that succeed, from what the environment grants them (spec/44_pinengine.md R163 to
R173). -/

namespace Sys2Proof.Machine

open Sys2Proof.Config (Params FieldLoc Layout)

theorem pins_rand (n : Nat) (s : State) : Pins (rand n) s (s.face.randoms n) [] n s.reg.tkValid s.face.held :=
  ⟨_, s.reg.tk, rfl, rfl⟩

theorem newMatchBlock_length (v : Word32) : (matchCountBlock v).length = 32 := by
  simp [matchCountBlock, u32le, zeros]

theorem lastgoodBlock_length (v : Word32) : (lastgoodBlock v).length = 32 := by
  simp [lastgoodBlock, u32le, zeros]

/-- The exchanges of `good_login_updates` when the budget holds (R166). -/
theorem pins_updates (d : Bytes) (v last : Word32) (r : UpdateReply) (s : State) (hc : s.cfg.pulse0 ≠ s.cfg.pulse1)
    (hb : budgetFits s.cfg v = true) (hn : bumpOf s.cfg v = r.increments.length + 1)
    (hg : s.face.grants (xUpdates s.cfg d v last (s.face.randoms 212) r)) :
    Pins (goodLoginUpdates d) s () (xUpdates s.cfg d v last (s.face.randoms 212) r) 212 false s.face.held := by
  have e53 : roundDraws = 53 := rfl
  simp only [xUpdates, e53, Nat.reduceMul, List.append_assoc] at hg ⊢
  unfold goodLoginUpdates
  refine pins_bind_still (pins_cfg s) (fun t tk ht => ?_)
  have h1 := (pin_state ht).1
  refine pins_eq (pins_bind (xs := xAuthReadCounter s.cfg v (s.face.randoms 212) r.readPair r.readGendig) (m := 53)
    (v := false) (h := s.face.held) (a := v) (b := ()) (w := false) (i := s.face.held)
    (ys := xEncryptedWrite s.cfg s.cfg.slot.matchCount s.cfg.slot.pinHash d 0 (matchCountBlock (newMatchCount s.cfg v))
        ((s.face.randoms 212).drop 53) [r.matchWrite]
      ++ (xAddCounter s.cfg r.increments last ((s.face.randoms 212).drop 106) r.addPair r.addGendig
      ++ xEncryptedWrite s.cfg s.cfg.slot.lastgood s.cfg.slot.pinHash d 0 (lastgoodBlock last)
        ((s.face.randoms 212).drop 159) [r.lastWrite])) (n := 159) ?_ (fun u tk' hu => ?_)) rfl rfl rfl rfl rfl
  · exact pins_later ht (fun c D => xAuthReadCounter c v D r.readPair r.readGendig) (fun _ _ => v) 53
      (n := 212) (fun c D => xAuthReadCounter_take c _ D _ _ (by omega)) (fun _ _ => rfl) (by omega)
      (by rw [List.nil_append]; exact grants_left hg)
      (fun hg' => pins_of_goes (authReadCounter_goes _ _ _ t (by rw [h1]; exact hc) hg'))
  · rw [ht, pin_pin, List.nil_append, Nat.zero_add] at hu
    have hux := (pin_state hu).1
    rw [if_pos hb]
    refine pins_eq (pins_bind (xs := xEncryptedWrite s.cfg s.cfg.slot.matchCount s.cfg.slot.pinHash d 0
        (matchCountBlock (newMatchCount s.cfg v)) ((s.face.randoms 212).drop 53) [r.matchWrite]) (m := 53)
      (v := false) (h := s.face.held) (a := ())
      (ys := xAddCounter s.cfg r.increments last ((s.face.randoms 212).drop 106) r.addPair r.addGendig
      ++ xEncryptedWrite s.cfg s.cfg.slot.lastgood s.cfg.slot.pinHash d 0 (lastgoodBlock last)
        ((s.face.randoms 212).drop 159) [r.lastWrite]) (n := 106) ?_ (fun w tk'' hw => ?_)) rfl rfl rfl rfl rfl
    · exact pins_later hu (fun c D => xEncryptedWrite c s.cfg.slot.matchCount s.cfg.slot.pinHash d 0
          (matchCountBlock (newMatchCount s.cfg v)) D [r.matchWrite]) (fun _ _ => ()) 53 (n := 212)
        (fun c D => xEncryptedWrite_take c _ _ _ _ _ D _ (by simp)) (fun _ _ => rfl) (by omega)
        (grants_left (by rw [List.append_assoc]; exact hg))
        (fun hg' => by
          have := encryptedWrite_goes s.cfg.slot.matchCount s.cfg.slot.pinHash d
            (matchCountBlock (newMatchCount s.cfg v)) [r.matchWrite] u (by rw [hux]; exact hc)
            (by rw [newMatchBlock_length]; rfl) hg'
          have h := pins_of_goes this
          simp only [reduceCtorEq, decide_false, Bool.and_false] at h
          exact h)
    · rw [hu, pin_pin] at hw
      have hwx := (pin_state hw).1
      refine pins_eq (pins_bind (xs := xAddCounter s.cfg r.increments last ((s.face.randoms 212).drop 106) r.addPair
          r.addGendig) (m := 53) (v := false) (h := s.face.held) (a := last)
        (ys := xEncryptedWrite s.cfg s.cfg.slot.lastgood s.cfg.slot.pinHash d 0 (lastgoodBlock last)
          ((s.face.randoms 212).drop 159) [r.lastWrite]) (n := 53) ?_ (fun z tkz hz => ?_)) rfl rfl rfl rfl rfl
      · exact pins_later hw (fun c D => xAddCounter c r.increments last D r.addPair r.addGendig) (fun _ _ => last) 53
          (n := 212) (fun c D => xAddCounter_take c _ _ D _ _ (by omega)) (fun _ _ => rfl) (by omega)
          (grants_left (by simpa only [List.append_assoc, face_cfg, Nat.reduceAdd] using hg))
          (fun hg' => by
            rw [hn]
            exact pins_of_goes (addCounter_goes _ _ _ _ w (by rw [hwx]; exact hc) hg'))
      · rw [hw, pin_pin] at hz
        have hzx := (pin_state hz).1
        exact pins_later hz (fun c D => xEncryptedWrite c s.cfg.slot.lastgood s.cfg.slot.pinHash d 0
            (lastgoodBlock last) D [r.lastWrite]) (fun _ _ => ()) 53 (n := 212)
          (fun c D => xEncryptedWrite_take c _ _ _ _ _ D _ (by simp)) (fun _ _ => rfl) (by omega)
          (by simpa only [List.append_assoc, face_cfg, Nat.reduceAdd] using hg)
          (fun hg' => by
            have := encryptedWrite_goes s.cfg.slot.lastgood s.cfg.slot.pinHash d
              (lastgoodBlock last) [r.lastWrite] z (by rw [hzx]; exact hc)
              (by rw [lastgoodBlock_length]; rfl) hg'
            have h := pins_of_goes this
            simp only [reduceCtorEq, decide_false, Bool.and_false] at h
            exact h)

/-- `detect_blank` when the chip accepts the all-zero key (R164). -/
theorem pins_detectBlank (pairRng checkRng : Bytes) (s : State) (hc : s.cfg.pulse0 ≠ s.cfg.pulse1)
    (hg : s.face.grants (xDetectBlank s.cfg (s.face.randoms 66) pairRng checkRng)) :
    Pins detectBlank s true (xDetectBlank s.cfg (s.face.randoms 66) pairRng checkRng) 66 false s.face.held := by
  unfold detectBlank
  refine pins_eq (pins_bind (xs := xPair s.cfg (s.face.randoms 66) pairRng) (m := 33) (v := false) (h := s.face.held)
    (a := ()) (b := true) (w := false) (i := s.face.held) (n := 33)
    (ys := xCheckmac s.cfg s.cfg.slot.pinHash (zeros 32) (slice (s.face.randoms 66) 33 20)
      (slice (s.face.randoms 66) 53 13) checkRng) ?_ (fun u tk' hu => ?_)) rfl rfl rfl rfl rfl
  · exact pins_first (fun c D => xPair c D pairRng) (fun _ _ => ()) 33 (n := 66) (fun c D => xPair_take c D _ (by omega))
      (fun _ _ => rfl) (by omega) (grants_left hg) (fun hg' => pins_pairUnlock pairRng s hc hg')
  · have hux := (pin_state hu).1
    refine pins_bind_still (pins_cfg u) (fun t tk ht => ?_)
    rw [hu, pin_pin, List.append_nil, Nat.add_zero] at ht
    have htx := (pin_state ht).1
    have e1 : slice (s.face.randoms 66) 33 20 = slice ((s.face.randoms 66).drop 33) 0 20 := by
      simp only [slice, List.drop_drop, Nat.add_zero]
    have e2 : slice (s.face.randoms 66) 53 13 = slice ((s.face.randoms 66).drop 33) 20 13 := by
      simp only [slice, List.drop_drop, Nat.reduceAdd]
    unfold xDetectBlank at hg
    rw [e1, e2] at hg ⊢
    have := pins_later ht (x := catching (do checkmac s.cfg.slot.pinHash (zeros Config.blockLen); pure true)
        (fun e => if e = .seFailure then pure false else raise e))
      (fun c D => xCheckmac c s.cfg.slot.pinHash (zeros 32) (slice D 0 20) (slice D 20 13) checkRng)
      (fun _ _ => true) 33 (n := 66) (w := false)
      (fun c D => by rw [slice_take (by omega), slice_take (by omega)]) (fun _ _ => rfl) (by omega) hg
      (fun hg' => by
        have h := checkmac_goes s.cfg.slot.pinHash (zeros 32) checkRng t (by rw [htx]; exact hc) hg'
        refine pins_of_goes (tk := sha256 (nonceMsg checkRng (t.face.randoms 20))) (goes_catching (goes_bind h (fun z hz => ?_)))
        have := goes_pure true z
        rwa [hz] at this)
    rw [show u.cfg = s.cfg from hux]
    exact this

/-! ### Blank logins and set-ups -/

/-- A blank login: no traffic, the zero digest cached, the record signed (R165). -/
theorem pins_loginBlank (s : State) (hr : s.reg.recHeld = true) :
    Pins loginBlank s () [] 0 s.reg.tkValid
      ((s.face.held.caching s.cfg s.reg.bootSeed (zeros 32)).signed s.cfg s.reg.bootSeed) := by
  have h := pins_cacheDigest (zeros 32) s hr
  refine pins_bind_still (pins_writeDigest (zeros 32) s) (fun t tk ht => ?_)
  obtain ⟨t1, t2, t3, t4, t5, t6⟩ := pin_state ht
  have hd : t.reg.digest = zeros 32 := congrArg (fun g : Face => g.reg.digest) ht
  have hdh : t.reg.digestHeld = true := congrArg (fun g : Face => g.reg.digestHeld) ht
  refine pins_bind_still (pins_cacheSave t (t6.trans hr) hdh) (fun u tk' hu => ?_)
  obtain ⟨u1, u2, u3, u4, u5, u6⟩ := pin_state hu
  refine pins_eq (pins_sign u u6) rfl rfl rfl (u4.trans t4) ?_
  rw [u3, u1, u2]
  simp only [face_cfg, face_reg, t1, t2, t3, hd]
  rfl

theorem pins_clearRecord (s : State) (hr : s.reg.recHeld = true) :
    Pins clearRecord s () [] 4 s.reg.tkValid
      (s.face.held.withRecord (clearedRecord s.cfg s.reg.record (s.face.randoms 4))) := by
  unfold clearRecord
  refine pins_bind_still (pins_setRecWord _ _ s hr) (fun a _ ha => ?_)
  obtain ⟨a1, a2, a3, a4, a5, a6⟩ := pin_state ha
  refine pins_bind_still (pins_setRecWord _ _ a a6) (fun b _ hb => ?_)
  obtain ⟨b1, b2, b3, b4, b5, b6⟩ := pin_state hb
  refine pins_bind_still (pins_setRecWord _ _ b b6) (fun c _ hc => ?_)
  obtain ⟨c1, c2, c3, c4, c5, c6⟩ := pin_state hc
  refine pins_bind_still (pins_setRecWord _ _ c c6) (fun d _ hd => ?_)
  obtain ⟨d1, d2, d3, d4, d5, d6⟩ := pin_state hd
  refine pins_bind_still (pins_setRecWord _ _ d d6) (fun e _ he => ?_)
  obtain ⟨e1, e2, e3, e4, e5, e6⟩ := pin_state he
  have hN : e.face.randoms 4 = s.face.randoms 4 := by
    rw [he, hd, hc, hb, ha, pin_pin, pin_pin, pin_pin, pin_pin, pin_randoms]
    rfl
  refine pins_eq (pins_bind (pins_rand 4 e) (ys := []) (n := 0) (fun f _ hf => ?_)) rfl rfl rfl
    (e4.trans (d4.trans (c4.trans (b4.trans a4)))) rfl
  obtain ⟨f1, f2, f3, f4, f5, f6⟩ := pin_state hf
  have hfr : f.reg.recHeld = true := f6.trans e6
  refine pins_bind_still (pins_setRecWord _ _ f hfr) (fun g _ hg => ?_)
  obtain ⟨g1, g2, g3, g4, g5, g6⟩ := pin_state hg
  refine pins_bind_still (pins_setRecField _ _ g g6) (fun i _ hi => ?_)
  obtain ⟨i1, i2, i3, i4, i5, i6⟩ := pin_state hi
  refine pins_eq (pins_setRecField Layout.cachedMainPin _ i i6) rfl rfl rfl (i4.trans (g4.trans f4)) ?_
  simp only [Held.withRecord, i3, i5, i1, g3, g5, g1, f1, f3, f5, e3, e1, d3, d5, d1, c3, c5, c1, b3, b5, b1, a3, a5, a1, face_cfg, hN]
  rfl

/-- `setup` of a blank chip (R163). -/
theorem pins_setup_blank (r : SetupReply) (s : State) (hr : s.reg.recHeld = true) (hc : s.cfg.pulse0 ≠ s.cfg.pulse1)
    (hv : recordValid s.cfg s.reg.record) (hg : s.face.grants (xSetup s.cfg (s.face.randoms 262) r)) :
    Pins setup s () (xSetup s.cfg (s.face.randoms 262) r) 262 false
      (heldSetup s.cfg s.reg.bootSeed (s.face.randoms 262) s.face.held r) := by
  unfold setup
  refine pins_read (validate_run s hr hv) ?_
  unfold xSetup at hg ⊢
  refine pins_eq (pins_bind (xs := []) (m := 4) (pins_clearRecord s hr)
    (ys := xPair s.cfg ((s.face.randoms 262).drop 4) r.warmRng
      ++ (xReadCounters s.cfg ((s.face.randoms 262).drop 37) r.counters
        ++ xDetectBlank s.cfg ((s.face.randoms 262).drop 196) r.blankPair r.blankRng))
    (n := 258) (b := ()) (w := false) (i := heldSetup s.cfg s.reg.bootSeed (s.face.randoms 262) s.face.held r)
    (fun b _ hb => ?_)) rfl (List.nil_append _) rfl rfl rfl
  rw [← randoms_take s.face (show 4 ≤ 262 by omega)] at hb
  obtain ⟨b1, b2, b3, b4, b5, b6⟩ := pin_state hb
  refine pins_bind (xs := xPair s.cfg ((s.face.randoms 262).drop 4) r.warmRng) (m := 33) (v := false) (a := ())
    (h := b.face.held) (n := 225) ?_ (fun d _ hd => ?_)
  · refine pins_eq (pins_later hb (fun c D => xPair c D r.warmRng) (fun _ _ => ()) 33 (n := 262) (w := false)
      (fun c D => xPair_take c D _ (by omega)) (fun _ _ => rfl) (by omega)
      (grants_left (by rw [List.nil_append]; exact hg))
      (fun hg' => ?_)) rfl rfl rfl rfl b3.symm
    exact pins_of_goes (goes_catching (pairUnlock_goes r.warmRng b (by rw [b1]; exact hc) hg'))
  · rw [hb, pin_pin, List.nil_append] at hd
    obtain ⟨d1, d2, d3, d4, d5, d6⟩ := pin_state hd
    have hdr : d.reg.recHeld = true := d6
    refine pins_bind (xs := xReadCounters s.cfg ((s.face.randoms 262).drop 37) r.counters) (m := 159) (v := false)
      (a := ()) (h := d.face.held.withRecord (withCounters s.cfg d.reg.record r.counters)) (n := 66) ?_ (fun e _ he => ?_)
    · have hgd : d.face.grants (xReadCounters d.cfg (d.face.randoms 159) r.counters) := by
        rw [d1, pin_window (n := 262) hd (by omega), xReadCounters_take _ _ _ (by omega), hd]
        exact grants_left (pin_grants _ _ _ _ hg)
      have := pins_readCounters r.counters d hdr (by rw [d1]; exact hc) hgd
      rw [d1, pin_window (n := 262) hd (by omega), xReadCounters_take _ _ _ (by omega)] at this
      exact this
    · rw [hd, pin_pin] at he
      obtain ⟨e1, e2, e3, e4, e5, e6⟩ := pin_state he
      have her : e.reg.recHeld = true := e6
      have hge : e.face.grants (xDetectBlank s.cfg ((s.face.randoms 262).drop 196) r.blankPair r.blankRng) := by
        rw [he]
        exact pin_grants _ _ _ _ (by rw [List.append_assoc]; exact hg)
      have eD : e.face.randoms 66 = (s.face.randoms 262).drop 196 := by
        rw [pin_window (n := 262) he (by omega)]
        exact List.take_of_length_le (by simp [Face.randoms])
      have hdet := pins_detectBlank r.blankPair r.blankRng e (by rw [e1]; exact hc) (by rw [e1, eD]; exact hge)
      rw [e1, eD] at hdet
      refine pins_bind_last hdet (fun f _ hf => ?_)
      obtain ⟨f1, f2, f3, f4, f5, f6⟩ := pin_state hf
      rw [if_pos rfl]
      refine pins_bind_still (pins_cfg f) (fun g _ hg => ?_)
      obtain ⟨g1, g2, g3, g4, g5, g6⟩ := pin_state hg
      refine pins_bind_still (pins_setRecWord _ _ g (g6.trans (f6.trans her))) (fun i _ hi => ?_)
      obtain ⟨i1, i2, i3, i4, i5, i6⟩ := pin_state hi
      have hb : Pins loginBlank i () [] 0 i.reg.tkValid
        ((i.face.held.caching i.cfg i.reg.bootSeed (zeros 32)).signed i.cfg i.reg.bootSeed) := pins_loginBlank i i6
      refine pins_eq hb rfl rfl rfl (i4.trans (g4.trans f4)) ?_
      have d5' : d.reg.record = clearedRecord s.cfg s.reg.record ((s.face.randoms 262).take 4) := d5
      simp only [i3, i1, i2, face_cfg, face_reg, g1, g2, g3, g5, f1, f2, f3, e1, e2, e3, d5']
      rfl

end Sys2Proof.Machine
end

