-- ==== Sys2Proof/Laws/PinLogin.lean ====
section
/-! SUPPORT. A login that succeeds, the fetch of the secret, the change of the secret (spec/44_pinengine.md R165, R170 to
R173). -/

namespace Sys2Proof.Machine

open Sys2Proof.Config (Params FieldLoc Layout)

theorem pins_encryptedRead (slot authSlot : SlotId) (secret : Bytes) (n : Nat) (rs : List ReadReply) (s : State)
    (hc : s.cfg.pulse0 ≠ s.cfg.pulse1) (hn : blocksFor n = rs.length) (hne : rs ≠ [])
    (hg : s.face.grants (xEncryptedRead s.cfg slot authSlot 0 (s.face.randoms (53 * rs.length)) rs)) :
    Pins (encryptedRead slot authSlot secret n) s
      ((encryptedReadBytes authSlot secret (s.face.randoms (53 * rs.length)) rs).take n)
      (xEncryptedRead s.cfg slot authSlot 0 (s.face.randoms (53 * rs.length)) rs) (53 * rs.length) false s.face.held := by
  have h := pins_of_goes (encryptedRead_goes slot authSlot secret n rs s hc hn hg)
  simpa only [hne, decide_false, Bool.and_false] using h

theorem pins_encryptedWrite (slot authSlot : SlotId) (secret data : Bytes) (rs : List WriteReply) (s : State)
    (hc : s.cfg.pulse0 ≠ s.cfg.pulse1) (hn : data.length / 32 = rs.length) (hne : rs ≠ [])
    (hg : s.face.grants (xEncryptedWrite s.cfg slot authSlot secret 0 data (s.face.randoms (53 * rs.length)) rs)) :
    Pins (encryptedWrite slot authSlot secret data) s ()
      (xEncryptedWrite s.cfg slot authSlot secret 0 data (s.face.randoms (53 * rs.length)) rs) (53 * rs.length) false
      s.face.held := by
  have h := pins_of_goes (encryptedWrite_goes slot authSlot secret data rs s hc hn hg)
  simpa only [hne, decide_false, Bool.and_false] using h

/-! ### Fetching the secret (R173) -/

theorem pins_fetchSecret (rs : List ReadReply) (s : State) (hr : s.reg.recHeld = true) (hc : s.cfg.pulse0 ≠ s.cfg.pulse1)
    (hv : recordValid s.cfg s.reg.record) (hs : recordVerifies s.cfg s.reg.bootSeed s.reg.record)
    (hf : hasFlag (recordFlags s.cfg s.reg.record) s.cfg.flag.successful = true) (hn : rs.length = 3)
    (hg : s.face.grants (xEncryptedRead s.cfg s.cfg.slot.seed s.cfg.slot.pinHash 0 (s.face.randoms 159) rs)) :
    Pins fetchSecret s () (xEncryptedRead s.cfg s.cfg.slot.seed s.cfg.slot.pinHash 0 (s.face.randoms 159) rs) 159 false
      (heldFetch s.cfg s.reg.bootSeed s.face.held ((encryptedReadBytes s.cfg.slot.pinHash
        (cachedDigest s.cfg s.reg.bootSeed s.reg.record) (s.face.randoms 159) rs).take 72)) := by
  unfold fetchSecret
  refine pins_read (validate_run s hr hv) (pins_read (verify_run s hr hs) (pins_read (getCfg_run s)
    (pins_read (recWord_run _ s hr) ?_)))
  rw [if_pos (show hasFlag (fieldWord s.reg.record s.cfg.layout.stateFlags) s.cfg.flag.successful = true from hf)]
  refine pins_bind_still (pins_cacheRestore s hr) (fun e _ he => ?_)
  obtain ⟨e1, e2, e3, e4, e5, e6⟩ := pin_state he
  have eD : e.face.randoms 159 = s.face.randoms 159 := by
    rw [he, pin_randoms, Nat.zero_add, List.drop_zero]
  have e159 : 53 * rs.length = 159 := by omega
  have hrd := pins_encryptedRead s.cfg.slot.seed s.cfg.slot.pinHash (cachedDigest s.cfg s.reg.bootSeed s.reg.record) 72 rs
    e (by rw [e1]; exact hc) (by rw [hn]; rfl) (by rintro rfl; cases hn) (by
      rw [e159, eD, e1, he]
      exact pin_grants (xs := []) _ _ _ _ hg)
  rw [e159, eD, e1] at hrd
  refine pins_bind_last hrd (fun f _ hf => ?_)
  obtain ⟨f1, f2, f3, f4, f5, f6⟩ := pin_state hf
  refine pins_bind_still (pins_setRecField _ _ f (f6.trans (e6.trans hr))) (fun g _ hg => ?_)
  obtain ⟨g1, g2, g3, g4, g5, g6⟩ := pin_state hg
  refine pins_bind_still (pins_setRecWord _ _ g g6) (fun i _ hi => ?_)
  obtain ⟨i1, i2, i3, i4, i5, i6⟩ := pin_state hi
  refine pins_eq (pins_sign i i6) rfl rfl rfl (i4.trans (g4.trans f4)) ?_
  have f5' : f.reg.record = s.reg.record := f5.trans (congrArg Held.record e3)
  simp only [i3, i1, i2, face_cfg, face_reg, g1, g2, g3, g5, f1, f2, f3, f5', e1, e2, e3]
  rfl

/-! ### A login that succeeds (R165) -/

theorem xLogin_grants {c : Params} {f : Face} {pin D : Bytes} {r : LoginReply} (h : f.grants (xLogin c pin D r)) :
    f.grants (xPinAttempt c pin D r.attempt
      ++ (xTestDigest c (D.drop (attemptDraws r.attempt)) r.testPair r.testGendig
          (testMac c (attemptDigest c pin r.attempt) (D.drop (attemptDraws r.attempt)) r.testGendig)
        ++ (xUpdates c (attemptDigest c pin r.attempt) r.counter r.lastCounter (D.drop (attemptDraws r.attempt + 53)) r.updates
          ++ xEncryptedRead c c.slot.seed c.slot.pinHash 0 (D.drop (attemptDraws r.attempt + 53 + 212)) r.seed))) := h

theorem pins_loginPin (r : LoginReply) (s : State) (hr : s.reg.recHeld = true) (hc : s.cfg.pulse0 ≠ s.cfg.pulse1)
    (hk : s.cfg.kdfIter = r.attempt.stretches.length) (hp : s.cfg.slot.pinAttempt ≠ s.cfg.slot.keyPlain)
    (hb : budgetFits s.cfg r.counter = true) (hi : bumpOf s.cfg r.counter = r.updates.increments.length + 1)
    (hn : r.seed.length = 3)
    (hg : s.face.grants (xLogin s.cfg (recordPin s.cfg s.reg.record) (s.face.randoms (loginDraws r)) r)) :
    Pins (loginPin (fieldWord s.reg.record s.cfg.layout.pinLen)) s ()
      (xLogin s.cfg (recordPin s.cfg s.reg.record) (s.face.randoms (loginDraws r)) r) (loginDraws r) false
      (heldLogin s.cfg s.reg.bootSeed (recordPin s.cfg s.reg.record) (s.face.randoms (loginDraws r)) s.face.held r) := by
  generalize hpin : recordPin s.cfg s.reg.record = pin at hg ⊢
  generalize hN : loginDraws r = N at hg ⊢
  have hN' : N = attemptDraws r.attempt + (53 + (212 + 159)) := hN.symm
  generalize hK : attemptDraws r.attempt = K at *
  generalize hd : attemptDigest s.cfg pin r.attempt = d at *
  have hgl := xLogin_grants hg
  rw [hK, hd] at hgl
  have hX : xLogin s.cfg pin (s.face.randoms N) r = xPinAttempt s.cfg pin (s.face.randoms N) r.attempt
      ++ (xTestDigest s.cfg ((s.face.randoms N).drop K) r.testPair r.testGendig
          (testMac s.cfg d ((s.face.randoms N).drop K) r.testGendig)
        ++ (xUpdates s.cfg d r.counter r.lastCounter ((s.face.randoms N).drop (K + 53)) r.updates
          ++ xEncryptedRead s.cfg s.cfg.slot.seed s.cfg.slot.pinHash 0 ((s.face.randoms N).drop (K + 53 + 212)) r.seed)) := by
    rw [← hK, ← hd]; rfl
  rw [hX]
  unfold loginPin
  refine pins_read (getCfg_run s) (pins_read (recField_run _ s hr) ?_)
  rw [show (field s.reg.record s.cfg.layout.pin).take (fieldWord s.reg.record s.cfg.layout.pinLen).toNat = pin from hpin]
  refine pins_eq (pins_bind (xs := xPinAttempt s.cfg pin (s.face.randoms N) r.attempt) (m := K) (v := false) (a := d)
    (h := s.face.held) (n := 53 + (212 + 159)) ?_ (fun t _ ht => ?_)) rfl rfl hN'.symm rfl rfl
  · have := pins_first (x := pinHashAttempt pin) (s := s) (fun c D => xPinAttempt c pin D r.attempt) (fun _ _ => d) K
      (n := N) (w := false) (fun c D => xPinAttempt_take c pin D _ (by omega)) (fun _ _ => rfl) (by omega)
      (grants_left hgl) (fun hg' => by
        have h := pins_pinHashAttempt pin r.attempt s hc hk hp (by rw [hK]; exact hg')
        rw [hd, hK] at h
        exact h)
    exact this
  · have htx := (pin_state ht).1
    refine pins_bind (xs := xTestDigest s.cfg ((s.face.randoms N).drop K) r.testPair r.testGendig
          (testMac s.cfg d ((s.face.randoms N).drop K) r.testGendig)) (m := 53) (v := false) (a := true)
      (h := s.face.held) (n := 212 + 159) ?_ (fun u _ hu => ?_)
    · have := pins_later (x := testDigest d) ht (fun c D => xTestDigest c D r.testPair r.testGendig
          (testMac s.cfg d D r.testGendig)) (fun _ _ => true) 53 (n := N) (w := false)
        (fun c D => by rw [xTestDigest_take c D _ _ _ (by omega), testMac_take _ _ D _ (by omega)]) (fun _ _ => rfl)
        (by omega) (grants_left (by rw [List.append_assoc]; exact hgl)) (fun hg' => by
          have h := pins_testDigest d r.testPair r.testGendig (testMac s.cfg d (t.face.randoms 53) r.testGendig) t
            (by rw [htx]; exact hc) hg'
          have e : ctEqualBytes (testMac s.cfg d (t.face.randoms 53) r.testGendig)
              (testMac t.cfg d (t.face.randoms 53) r.testGendig) = true := by
            rw [htx]; exact (ctEqualBytes_iff _ _).mpr rfl
          rwa [e] at h)
      exact this
    · rw [if_pos rfl]
      rw [ht, pin_pin] at hu
      obtain ⟨u1, u2, u3, u4, u5, u6⟩ := pin_state hu
      refine pins_bind (xs := xUpdates s.cfg d r.counter r.lastCounter ((s.face.randoms N).drop (K + 53)) r.updates)
        (m := 212) (v := false) (a := ()) (h := s.face.held) (n := 159) ?_ (fun w _ hw => ?_)
      · exact pins_later hu (fun c D => xUpdates c d r.counter r.lastCounter D r.updates) (fun _ _ => ()) 212 (n := N)
          (fun c D => xUpdates_take c _ _ _ D _ (by omega)) (fun _ _ => rfl) (by omega)
          (grants_left (by simpa only [List.append_assoc, face_cfg] using hgl))
          (fun hg' => pins_updates d r.counter r.lastCounter r.updates u (by rw [u1]; exact hc) (by rw [u1]; exact hb)
            (by rw [u1]; exact hi) hg')
      · rw [hu, pin_pin] at hw
        obtain ⟨w1, w2, w3, w4, w5, w6⟩ := pin_state hw
        have hwr : w.reg.recHeld = true := w6.trans hr
        refine pins_bind_still (pins_writeDigest d w) (fun x _ hx => ?_)
        rw [hw, pin_pin, List.append_nil, Nat.add_zero] at hx
        obtain ⟨x1, x2, x3, x4, x5, x6⟩ := pin_state hx
        have hxd : x.reg.digestHeld = true := congrArg (fun g : Face => g.reg.digestHeld) hx
        have hxv : x.reg.digest = d := congrArg (fun g : Face => g.reg.digest) hx
        refine pins_bind_still (pins_cacheSave x (x6.trans hr) hxd) (fun y _ hy => ?_)
        rw [hx, pin_pin, List.append_nil, Nat.add_zero] at hy
        obtain ⟨y1, y2, y3, y4, y5, y6⟩ := pin_state hy
        have hz := pins_later hy (x := encryptedRead s.cfg.slot.seed s.cfg.slot.pinHash d 72)
          (fun c D => xEncryptedRead c s.cfg.slot.seed s.cfg.slot.pinHash 0 D r.seed)
          (fun _ D => (encryptedReadBytes s.cfg.slot.pinHash d D r.seed).take 72) 159 (n := N) (w := false)
          (fun c D => xEncryptedRead_take c _ _ _ D _ (by omega))
          (fun _ D => by rw [encryptedReadBytes_take _ _ D _ (by omega)]) (by omega)
          (by simpa only [List.append_assoc, Nat.add_assoc, face_cfg] using hgl)
          (fun hg' => by
            have e159 : 53 * r.seed.length = 159 := by omega
            have h := pins_encryptedRead s.cfg.slot.seed s.cfg.slot.pinHash d 72 r.seed y (by rw [y1]; exact hc)
              (by rw [hn]; rfl) (by intro h; rw [h] at hn; cases hn) (by rw [e159]; exact hg')
            rwa [e159] at h)
        refine pins_eq (pins_bind_last hz (fun z _ hzf => ?_)) rfl rfl rfl rfl rfl
        obtain ⟨z1, z2, z3, z4, z5, z6⟩ := pin_state hzf
        have hS : (encryptedReadBytes s.cfg.slot.pinHash d ((s.face.randoms N).drop (K + 53 + 212)) r.seed).take 72
            = loginSecret s.cfg pin (s.face.randoms N) r := by
          rw [← hK, ← hd]; rfl
        rw [hS]
        have hzr : z.reg.recHeld = true := z6
        refine pins_bind_still (pins_setRecWord _ _ z hzr) (fun a _ ha => ?_)
        obtain ⟨a1, a2, a3, a4, a5, a6⟩ := pin_state ha
        refine pins_bind_still (pins_setRecWord _ _ a a6) (fun b _ hb => ?_)
        obtain ⟨b1, b2, b3, b4, b5, b6⟩ := pin_state hb
        refine pins_bind_still (pins_setRecWord _ _ b b6) (fun e _ he => ?_)
        obtain ⟨e1, e2, e3, e4, e5, e6⟩ := pin_state he
        refine pins_eq (pins_sign e e6) rfl rfl rfl (e4.trans (b4.trans (a4.trans z4))) ?_
        simp only [e3, e1, e2, face_cfg, face_reg, b1, b2, b3, b5, a1, a2, a3, a5, z1, z2, z3, z5, y1, y2, x1, x2,
          pin_held, hxv]
        rw [← hd]
        rfl

theorem pins_login (r : LoginReply) (s : State) (hr : s.reg.recHeld = true) (hc : s.cfg.pulse0 ≠ s.cfg.pulse1)
    (hv : recordValid s.cfg s.reg.record) (hs : recordVerifies s.cfg s.reg.bootSeed s.reg.record)
    (hf1 : hasFlag (recordFlags s.cfg s.reg.record) s.cfg.flag.isBlank = false)
    (hf2 : hasFlag (recordFlags s.cfg s.reg.record) s.cfg.flag.successful = false)
    (hl : fieldWord s.reg.record s.cfg.layout.pinLen ≠ 0)
    (hk : s.cfg.kdfIter = r.attempt.stretches.length) (hp : s.cfg.slot.pinAttempt ≠ s.cfg.slot.keyPlain)
    (hb : budgetFits s.cfg r.counter = true) (hi : bumpOf s.cfg r.counter = r.updates.increments.length + 1)
    (hn : r.seed.length = 3)
    (hg : s.face.grants (xLogin s.cfg (recordPin s.cfg s.reg.record) (s.face.randoms (loginDraws r)) r)) :
    Pins login s ()
      (xLogin s.cfg (recordPin s.cfg s.reg.record) (s.face.randoms (loginDraws r)) r) (loginDraws r) false
      (heldLogin s.cfg s.reg.bootSeed (recordPin s.cfg s.reg.record) (s.face.randoms (loginDraws r)) s.face.held r) := by
  unfold login
  refine pins_read (validate_run s hr hv) (pins_read (verify_run s hr hs) (pins_read (getCfg_run s)
    (pins_read (recWord_run _ s hr) ?_)))
  have h1 : hasFlag (fieldWord s.reg.record s.cfg.layout.stateFlags) s.cfg.flag.isBlank = false := hf1
  have h2 : hasFlag (fieldWord s.reg.record s.cfg.layout.stateFlags) s.cfg.flag.successful = false := hf2
  rw [if_neg (by rw [h1]; simp), if_neg (by rw [h2]; simp)]
  refine pins_read (recWord_run _ s hr) ?_
  rw [if_neg hl]
  exact pins_loginPin r s hr hc hk hp hb hi hn hg

/-- A blank login (R165). -/
theorem pins_login_blank (s : State) (hr : s.reg.recHeld = true)
    (hv : recordValid s.cfg s.reg.record) (hs : recordVerifies s.cfg s.reg.bootSeed s.reg.record)
    (hf1 : hasFlag (recordFlags s.cfg s.reg.record) s.cfg.flag.isBlank = true)
    (hf2 : hasFlag (recordFlags s.cfg s.reg.record) s.cfg.flag.successful = true) :
    Pins login s () [] 0 s.reg.tkValid
      ((s.face.held.caching s.cfg s.reg.bootSeed (zeros 32)).signed s.cfg s.reg.bootSeed) := by
  unfold login
  refine pins_read (validate_run s hr hv) (pins_read (verify_run s hr hs) (pins_read (getCfg_run s)
    (pins_read (recWord_run _ s hr) ?_)))
  rw [if_pos (show hasFlag (fieldWord s.reg.record s.cfg.layout.stateFlags) s.cfg.flag.isBlank = true from hf1),
    if_pos (show hasFlag (fieldWord s.reg.record s.cfg.layout.stateFlags) s.cfg.flag.successful = true from hf2)]
  exact pins_loginBlank s hr

/-! ### A login with a wrong PIN (R167) -/

/-- `x` ends with the error outcome `e`, the exchanges and draws given, the mark of TempKey's copy given, and `h` held. -/
def PinsFail {α : Type} (x : Op α) (s : State) (e : Err) (xs : List Exchange) (n : Nat) (v : Bool) (h : Held) : Prop :=
  ∃ t tk, x s = .error e t ∧ t.face = s.face.pin xs n tk v h

theorem pinsFail_after {α β : Type} {x : Op α} {k : α → Op β} {s : State} {a : α} {e : Err} {xs ys : List Exchange}
    {m n : Nat} {v w : Bool} {h i : Held} (hx : Pins x s a xs m v h)
    (hk : ∀ t tk, t.face = s.face.pin xs m tk v h → PinsFail (k a) t e ys n w i) :
    PinsFail (x >>= k) s e (xs ++ ys) (m + n) w i := by
  obtain ⟨t, tk, ht, hf⟩ := hx
  obtain ⟨u, tk', hu, hg⟩ := hk t tk hf
  exact ⟨u, tk', by rw [bind_run, ht]; exact hu, by rw [hg, hf, pin_pin]⟩

theorem pinsFail_read {α β : Type} {x : Op α} {k : α → Op β} {s : State} {a : α} {e : Err} {ys : List Exchange} {n : Nat}
    {w : Bool} {i : Held} (hx : x s = .ok a s) (hk : PinsFail (k a) s e ys n w i) : PinsFail (x >>= k) s e ys n w i := by
  obtain ⟨u, tk, hu, hg⟩ := hk
  exact ⟨u, tk, by rw [bind_run, hx]; exact hu, hg⟩

theorem pinsFail_eq {α : Type} {x : Op α} {s : State} {e : Err} {xs ys : List Exchange} {m n : Nat} {v w : Bool}
    {h i : Held} (hx : PinsFail x s e xs m v h) (h2 : xs = ys) (h3 : m = n) (h4 : v = w) (h5 : h = i) :
    PinsFail x s e ys n w i := by subst h2 h3 h4 h5; exact hx

theorem pinsFail_raise {α : Type} (e : Err) (s : State) :
    PinsFail (raise e : Op α) s e [] 0 s.reg.tkValid s.face.held := ⟨s, s.reg.tk, rfl, rfl⟩

theorem pins_loginFailed (r : CountersReply) (s : State) (hr : s.reg.recHeld = true) (hc : s.cfg.pulse0 ≠ s.cfg.pulse1)
    (hg : s.face.grants (xReadCounters s.cfg (s.face.randoms 159) r)) :
    PinsFail loginFailed s .authFail (xReadCounters s.cfg (s.face.randoms 159) r) 159 false
      ((s.face.held.withRecord (withCounters s.cfg s.reg.record r)).signed s.cfg s.reg.bootSeed) := by
  unfold loginFailed
  refine pinsFail_eq (pinsFail_after (pins_readCounters r s hr hc hg) (ys := []) (n := 0) (w := false)
    (fun t _ ht => ?_)) (List.append_nil _) rfl rfl rfl
  obtain ⟨t1, t2, t3, t4, t5, t6⟩ := pin_state ht
  have hs := pins_sign t t6
  have he : PinsFail (do sign; raise .authFail : Op Unit) t .authFail ([] ++ []) (0 + 0) t.reg.tkValid
      (t.face.held.signed t.cfg t.reg.bootSeed) := by
    refine pinsFail_after hs (fun u _ hu => ?_)
    obtain ⟨-, -, u3, u4, -, -⟩ := pin_state hu
    exact pinsFail_eq (pinsFail_raise .authFail u) rfl rfl u4 u3
  refine pinsFail_eq he rfl rfl t4 ?_
  rw [t1, t2, t3]
  rfl

theorem pins_login_wrong (r : WrongReply) (s : State) (hr : s.reg.recHeld = true) (hc : s.cfg.pulse0 ≠ s.cfg.pulse1)
    (hv : recordValid s.cfg s.reg.record) (hs : recordVerifies s.cfg s.reg.bootSeed s.reg.record)
    (hf1 : hasFlag (recordFlags s.cfg s.reg.record) s.cfg.flag.isBlank = false)
    (hf2 : hasFlag (recordFlags s.cfg s.reg.record) s.cfg.flag.successful = false)
    (hl : fieldWord s.reg.record s.cfg.layout.pinLen ≠ 0)
    (hk : s.cfg.kdfIter = r.attempt.stretches.length) (hp : s.cfg.slot.pinAttempt ≠ s.cfg.slot.keyPlain)
    (hm : r.mac ≠ testMac s.cfg (attemptDigest s.cfg (recordPin s.cfg s.reg.record) r.attempt)
      ((s.face.randoms (wrongDraws r)).drop (attemptDraws r.attempt)) r.testGendig)
    (hg : s.face.grants (xLoginWrong s.cfg (recordPin s.cfg s.reg.record) (s.face.randoms (wrongDraws r)) r)) :
    PinsFail login s .authFail
      (xLoginWrong s.cfg (recordPin s.cfg s.reg.record) (s.face.randoms (wrongDraws r)) r) (wrongDraws r) false
      (heldLoginWrong s.cfg s.reg.bootSeed s.face.held r) := by
  unfold login
  refine pinsFail_read (validate_run s hr hv) (pinsFail_read (verify_run s hr hs) (pinsFail_read (getCfg_run s)
    (pinsFail_read (recWord_run _ s hr) ?_)))
  have h1 : hasFlag (fieldWord s.reg.record s.cfg.layout.stateFlags) s.cfg.flag.isBlank = false := hf1
  have h2 : hasFlag (fieldWord s.reg.record s.cfg.layout.stateFlags) s.cfg.flag.successful = false := hf2
  rw [if_neg (by rw [h1]; simp), if_neg (by rw [h2]; simp)]
  refine pinsFail_read (recWord_run _ s hr) ?_
  rw [if_neg hl]
  generalize hpin : recordPin s.cfg s.reg.record = pin at *
  generalize hN : wrongDraws r = N at *
  have hN' : N = attemptDraws r.attempt + (53 + 159) := hN.symm
  generalize hK : attemptDraws r.attempt = K at *
  have hX : xLoginWrong s.cfg pin (s.face.randoms N) r = xPinAttempt s.cfg pin (s.face.randoms N) r.attempt
      ++ (xTestDigest s.cfg ((s.face.randoms N).drop K) r.testPair r.testGendig r.mac
        ++ xReadCounters s.cfg ((s.face.randoms N).drop (K + 53)) r.counters) := by
    rw [← hK]; rfl
  rw [hX] at hg ⊢
  unfold loginPin
  refine pinsFail_read (getCfg_run s) (pinsFail_read (recField_run _ s hr) ?_)
  rw [show (field s.reg.record s.cfg.layout.pin).take (fieldWord s.reg.record s.cfg.layout.pinLen).toNat = pin from hpin]
  refine pinsFail_eq (pinsFail_after (xs := xPinAttempt s.cfg pin (s.face.randoms N) r.attempt) (m := K) (v := false)
    (a := attemptDigest s.cfg pin r.attempt) (h := s.face.held) (n := 53 + 159) ?_ (fun t _ ht => ?_)) rfl hN'.symm rfl rfl
  · exact pins_first (x := pinHashAttempt pin) (s := s) (fun c D => xPinAttempt c pin D r.attempt)
      (fun _ _ => attemptDigest s.cfg pin r.attempt) K
      (n := N) (w := false) (fun c D => xPinAttempt_take c pin D _ (by omega)) (fun _ _ => rfl) (by omega)
      (grants_left hg) (fun hg' => by
        have h := pins_pinHashAttempt pin r.attempt s hc hk hp (by rw [hK]; exact hg')
        rw [hK] at h
        exact h)
  · have htx := (pin_state ht).1
    refine pinsFail_after (xs := xTestDigest s.cfg ((s.face.randoms N).drop K) r.testPair r.testGendig r.mac) (m := 53)
      (v := false) (a := false) (h := s.face.held) (n := 159) ?_ (fun u _ hu => ?_)
    · have := pins_later (x := testDigest (attemptDigest s.cfg pin r.attempt)) ht
        (fun c D => xTestDigest c D r.testPair r.testGendig r.mac)
        (fun c D => ctEqualBytes r.mac (testMac c (attemptDigest s.cfg pin r.attempt) D r.testGendig)) 53 (n := N)
        (w := false) (fun c D => xTestDigest_take c D _ _ _ (by omega)) (fun c D => by rw [testMac_take _ _ D _ (by omega)])
        (by omega) (grants_left (by rw [List.append_assoc]; exact hg)) (fun hg' =>
          pins_testDigest _ r.testPair r.testGendig r.mac t (by rw [htx]; exact hc) hg')
      refine pins_eq this ?_ rfl rfl rfl rfl
      rw [Bool.eq_false_iff]
      exact fun h => hm ((ctEqualBytes_iff _ _).mp h)
    · rw [if_neg (by simp)]
      rw [ht, pin_pin] at hu
      obtain ⟨u1, u2, u3, u4, u5, u6⟩ := pin_state hu
      have uD : u.face.randoms 159 = (s.face.randoms N).drop (K + 53) := by
        rw [pin_window (n := N) hu (by omega)]
        exact List.take_of_length_le (by simp [Face.randoms]; omega)
      have hf := pins_loginFailed r.counters u (u6.trans hr) (by rw [u1]; exact hc) (by
        rw [uD, u1, hu]
        exact pin_grants _ _ _ _ (by rw [List.append_assoc]; exact hg))
      rw [uD, u1, u2, u3] at hf
      refine pinsFail_eq hf rfl rfl rfl ?_
      rw [show u.reg.record = s.reg.record from u5]
      rfl

theorem runOrStop_of_pinsFail {α : Type} {x : Op α} {g : α → Value} {s : State} {e : Err} {xs : List Exchange} {n : Nat}
    {v : Bool} {h : Held} (hx : PinsFail x s e xs n v h) (he : ∀ w, e ≠ .stop w) :
    ∃ t tk, runOrStop x g s = .next t ∧ t.face = (s.face.pin xs n tk v h).ended (.error e) := by
  obtain ⟨t, tk, ht, hf⟩ := hx
  obtain ⟨u, hu, hg⟩ := runOrStop_of_fails (v := g) ⟨t, ht, hf⟩ he
  exact ⟨u, tk, hu, hg⟩

/-- The record an operation is given is written to `REC` first. -/
theorem pins_onRecord {x : Op Unit} {record : Bytes} {s : State} {xs : List Exchange} {n : Nat} {h : Held} {v : Bool}
    (hx : ∀ t, t.cfg = s.cfg → t.reg.bootSeed = s.reg.bootSeed → t.reg.record = record → t.reg.recHeld = true →
      t.reg.tkValid = s.reg.tkValid → t.face.held = s.face.held.withRecord record →
      (∀ k, t.face.randoms k = s.face.randoms k) → (∀ ys, s.face.grants ys → t.face.grants ys) → Pins x t () xs n v h) :
    Pins (do writeRec record; x) s () xs n v h := by
  refine pins_bind_still (pins_writeRec record s) (fun t _ ht => ?_)
  obtain ⟨t1, t2, t3, t4, t5, t6⟩ := pin_state ht
  refine hx t t1 t2 t5 t6 t4 t3 (fun k => ?_) (fun ys hg => ?_)
  · rw [ht, pin_randoms, Nat.zero_add, List.drop_zero]
  · rw [ht]
    exact pin_grants (xs := []) _ _ _ _ hg

theorem runOrStop_of_pins {α : Type} {x : Op α} {g : α → Value} {s : State} {a : α} {xs : List Exchange} {n : Nat} {v : Bool}
    {h : Held} (hx : Pins x s a xs n v h) :
    ∃ t tk, runOrStop x g s = .next t ∧ t.face = (s.face.pin xs n tk v h).ended (.success (g a)) := by
  obtain ⟨t, tk, ht, hf⟩ := hx
  obtain ⟨u, hu, hg⟩ := runOrStop_of_goes (v := g) ⟨t, ht, hf⟩
  exact ⟨u, tk, hu, hg⟩

/-- A blank login, whole (R165). -/
theorem loginBlank_run (s : State) (hr : s.reg.recHeld = true) :
    loginBlank s = .ok () { s with reg := { s.reg with
      digest := zeros 32, digestHeld := true, cache := maskDigest s.cfg s.reg.bootSeed (zeros 32), cacheHeld := true
      record := signedRecord s.cfg s.reg.bootSeed
        (withField s.reg.record s.cfg.layout.cachedMainPin (maskDigest s.cfg s.reg.bootSeed (zeros 32)))
      recHeld := true } } := by
  simp only [loginBlank, writeDigest, cacheSave, sign, recSignature, bind_run, getState_run, readDigest, if_true, writeCache, modifyReg_run, readCache,
      setRecField, getCfg_run, readRec, readHeld, hr, writeRec, pure_run]
  rfl

theorem pinsFail_onRecord {x : Op Unit} {record : Bytes} {s : State} {e : Err} {xs : List Exchange} {n : Nat} {h : Held}
    {v : Bool}
    (hx : ∀ t, t.cfg = s.cfg → t.reg.bootSeed = s.reg.bootSeed → t.reg.record = record → t.reg.recHeld = true →
      t.reg.tkValid = s.reg.tkValid → t.face.held = s.face.held.withRecord record →
      (∀ k, t.face.randoms k = s.face.randoms k) → (∀ ys, s.face.grants ys → t.face.grants ys) → PinsFail x t e xs n v h) :
    PinsFail (do writeRec record; x) s e xs n v h := by
  refine pinsFail_eq (pinsFail_after (pins_writeRec record s) (ys := xs) (n := n) (w := v) (i := h) (e := e) (fun t _ ht => ?_)) (List.nil_append _) (Nat.zero_add _) rfl rfl
  obtain ⟨t1, t2, t3, t4, t5, t6⟩ := pin_state ht
  refine hx t t1 t2 t5 t6 t4 t3 (fun k => ?_) (fun ys hg => ?_)
  · rw [ht, pin_randoms, Nat.zero_add, List.drop_zero]
  · rw [ht]
    exact pin_grants (xs := []) _ _ _ _ hg

/-- A login up to the updates, where the chip confirms the PIN (R165, R166). -/
theorem pins_loginToUpdates (record testPair testGendig : Bytes) (r : AttemptReply) (s : State)
    (hc : s.cfg.pulse0 ≠ s.cfg.pulse1) (hv : recordValid s.cfg record)
    (hs : recordVerifies s.cfg s.reg.bootSeed record)
    (hf1 : hasFlag (recordFlags s.cfg record) s.cfg.flag.isBlank = false)
    (hf2 : hasFlag (recordFlags s.cfg record) s.cfg.flag.successful = false)
    (hl : fieldWord record s.cfg.layout.pinLen ≠ 0)
    (hk : s.cfg.kdfIter = r.stretches.length) (hp : s.cfg.slot.pinAttempt ≠ s.cfg.slot.keyPlain)
    (D : Bytes) (hD : D = s.face.randoms (attemptDraws r + 53))
    (hg : s.face.grants (xPinAttempt s.cfg (recordPin s.cfg record) D r
      ++ xTestDigest s.cfg (D.drop (attemptDraws r)) testPair testGendig
        (testMac s.cfg (attemptDigest s.cfg (recordPin s.cfg record) r) (D.drop (attemptDraws r)) testGendig))) :
    Pins (loginToUpdates record) s true (xPinAttempt s.cfg (recordPin s.cfg record) D r
      ++ xTestDigest s.cfg (D.drop (attemptDraws r)) testPair testGendig
        (testMac s.cfg (attemptDigest s.cfg (recordPin s.cfg record) r) (D.drop (attemptDraws r)) testGendig))
      (attemptDraws r + 53) false (s.face.held.withRecord record) := by
  unfold loginToUpdates
  refine pins_bind_still (pins_writeRec record s) (fun t k ht => ?_)
  obtain ⟨t1, t2, t3, t4, t5, t6⟩ := pin_state ht
  have hD' : D = t.face.randoms (attemptDraws r + 53) := by rw [hD, ht, pin_randoms, Nat.zero_add, List.drop_zero]
  have hg' := pin_grants (xs := []) 0 k s.reg.tkValid (s.face.held.withRecord record) hg
  rw [← ht] at hg'
  rw [← t3]
  simp only [face_cfg, face_reg] at t1 t2
  clear hD hg ht t3 t4
  generalize s.cfg = c at *
  generalize s.reg.bootSeed = b at *
  change t.reg.record = record at t5
  change t.reg.recHeld = true at t6
  subst t1 t2 t5
  rename' hg' => hg
  refine pins_read (validate_run t t6 hv) (pins_read (verify_run t t6 hs) (pins_read (getCfg_run t)
    (pins_read (recWord_run _ t t6) ?_)))
  have h1 : hasFlag (fieldWord t.reg.record t.cfg.layout.stateFlags) t.cfg.flag.isBlank = false := hf1
  have h2 : hasFlag (fieldWord t.reg.record t.cfg.layout.stateFlags) t.cfg.flag.successful = false := hf2
  rw [if_neg (by rw [h1, h2]; simp)]
  refine pins_read (recWord_run _ t t6) ?_
  rw [if_neg hl]
  refine pins_read (recField_run _ t t6) ?_
  generalize hK : attemptDraws r = K at *
  generalize hN : K + 53 = N at *
  subst hD'
  generalize hd : attemptDigest t.cfg (recordPin t.cfg t.reg.record) r = d at *
  refine pins_eq (pins_bind (xs := xPinAttempt t.cfg (recordPin t.cfg t.reg.record) (t.face.randoms N) r)
    (m := K) (v := false) (a := d) (h := t.face.held)
    (n := 53) ?_ (fun u _ hu => ?_)) rfl rfl hN rfl rfl
  · exact pins_first (x := pinHashAttempt (recordPin t.cfg t.reg.record)) (s := t)
      (fun c D => xPinAttempt c (recordPin t.cfg t.reg.record) D r)
      (fun _ _ => d) K (n := N) (w := false)
      (fun c D => xPinAttempt_take c _ D _ (by omega)) (fun _ _ => rfl) (by omega) (grants_left hg)
      (fun hg' => by
        have h := pins_pinHashAttempt _ r t hc hk hp (by rw [hK]; exact hg')
        rwa [hd, hK] at h)
  · have hux := (pin_state hu).1
    exact pins_later (x := testDigest d) hu
      (fun c D => xTestDigest c D testPair testGendig
        (testMac t.cfg d D testGendig)) (fun _ _ => true) 53 (n := N) (w := false)
      (fun c D => by rw [xTestDigest_take c D _ _ _ (by omega), testMac_take _ _ D _ (by omega)]) (fun _ _ => rfl)
      (by omega) hg (fun hg' => by
        have h := pins_testDigest d testPair testGendig (testMac t.cfg d
          (u.face.randoms 53) testGendig) u (by rw [hux]; exact hc) hg'
        have e : ctEqualBytes (testMac t.cfg d (u.face.randoms 53) testGendig)
            (testMac u.cfg d (u.face.randoms 53) testGendig) = true := by
          rw [hux]; exact (ctEqualBytes_iff _ _).mpr rfl
        rwa [e] at h)

end Sys2Proof.Machine
end

