-- ==== Sys2Proof/Laws/Reset.lean ====
section
/-! SUPPORT. The chip reset (spec/42_selink.md R135, spec/70_reset_and_hazards.md R217): on a working line, and on any. -/

namespace Sys2Proof.Machine

/-- A chip reset on a working line. -/
theorem chipReset_goes (s : State) (hq : s.face.quiet 9) : Goes chipReset s () s.face.chipReset := by
  obtain ⟨h1, h2⟩ := (quiet_add _ 1 8).mp hq
  unfold chipReset swallowTimeout
  refine goes_bind (goes_catching (wake_goes s h1)) (fun t ht => ?_)
  have htr : t.reg = { s.reg with baudsel := false, lstate := .awake } := congrArg Face.reg ht
  have htc : t.cfg = s.cfg := congrArg Face.cfg ht
  refine goes_bind (goes_catching (sleep_goes t (by rw [ht]; exact h2))) (fun u hu => ?_)
  have := goes_modifyReg Regs.afterChipReset u
  rw [hu, ht, htr, htc] at this
  refine goes_face_eq ?_ this
  simp only [Face.chipReset, Face.withRegs, Face.transmitted, Face.sentAt, Face.sent, Face.pulsed, Regs.afterChipReset,
    face_cfg, face_reg, after_after, Nat.reduceAdd]

/-- What a chip reset leaves, whatever the line does: it always succeeds, with the registers of R40. -/
structure ResetLeaves (s t : State) : Prop where
  reg : ∃ l, t.reg = { s.reg.afterChipReset with baudsel := false, lstate := l }
  cfg : t.cfg = s.cfg
  host : t.host = s.host
  ctl : t.ctl = s.ctl
  rand : t.env.rand = s.env.rand
  delay : t.env.delay = s.env.delay

/-- The parts of a state that the sending of symbols leaves. -/
theorem sendSymbols_leaves (xs : List Symbol) (s : State) : ∃ e w, (e.rand = s.env.rand ∧ e.delay = s.env.delay) ∧
    (sendSymbols xs s = .ok () { s with env := e, wire := w }
      ∨ sendSymbols xs s = .error (.busTimeout .tx) { s with env := e, wire := w }) := by
  induction xs generalizing s with
  | nil => exact ⟨s.env, s.wire, ⟨rfl, rfl⟩, .inl rfl⟩
  | cons x xs ih =>
    cases hst : (s.env.stall.next Config.freeStall).1 with
    | true =>
      refine ⟨{ s.env with stall := (s.env.stall.next Config.freeStall).2 }, s.wire, ⟨rfl, rfl⟩, .inr ?_⟩
      simp only [sendSymbols, bind_run, drawStall, hst, if_true, raise_run]
    | false =>
      obtain ⟨e, w, he, h⟩ := ih { s with
        env := { s.env with stall := (s.env.stall.next Config.freeStall).2 }
        wire := { s.wire with trace := s.wire.trace ++ [.sym x s.reg.baudsel], inFlight := s.wire.inFlight ++ [x] } }
      refine ⟨e, w, he, ?_⟩
      simp only [sendSymbols, bind_run, drawStall, hst, Bool.false_eq_true, if_false, lineTx, modifyState_run]
      exact h

theorem chipReset_total (s : State) : ∃ t, chipReset s = .ok () t ∧ ResetLeaves s t := by
  -- waking
  have hw : ∃ e w ch l, (e.rand = s.env.rand ∧ e.delay = s.env.delay) ∧ swallowTimeout wake s = .ok () { s with
      env := e, wire := w, chip := ch, reg := { s.reg with baudsel := false, lstate := l } } := by
    cases hst : (s.env.stall.next Config.freeStall).1 with
    | true =>
      refine ⟨{ s.env with stall := (s.env.stall.next Config.freeStall).2 }, s.wire, s.chip, s.reg.lstate, ⟨rfl, rfl⟩, ?_⟩
      simp only [swallowTimeout, catching, wake, bind_run, modifyReg_run, drawStall, hst, if_true, raise_run, pure_run]
    | false =>
      refine ⟨{ s.env with stall := (s.env.stall.next Config.freeStall).2 },
        { s.wire with trace := s.wire.trace ++ [.low true], outMoves := (s.wire.outMoves.next Config.freeOutMove).2,
                      arrived := [] },
        s.chip.moved s.cfg (fun d => d.wakeUp s.cfg) (s.wire.outMoves.next Config.freeOutMove).1, .awake, ⟨rfl, rfl⟩, ?_⟩
      simp only [swallowTimeout, catching, wake, bind_run, modifyReg_run, drawStall, hst, Bool.false_eq_true, if_false,
        lineLow, modifyState_run, discardArrived]
  obtain ⟨e, w, ch, l, he, hw⟩ := hw
  -- sleeping
  have hs (u : State) : ∃ e w ch l, (e.rand = u.env.rand ∧ e.delay = u.env.delay) ∧ swallowTimeout sleep u = .ok () { u with
      env := e, wire := w, chip := ch, reg := { u.reg with tkValid := false, lstate := l } } := by
    let v : State := { u with reg := { u.reg with tkValid := false } }
    obtain ⟨e, w, he, h⟩ := sendSymbols_leaves (serializeBytes v.cfg [v.cfg.ioflagSleep]) v
    rcases h with h | h
    · refine ⟨e, ({ v with env := e, wire := w } : State).deliver.wire, ({ v with env := e, wire := w } : State).deliver.chip,
        .asleep, he, ?_⟩
      simp only [swallowTimeout, catching, sleep, clearTkValid, bind_run, modifyReg_run, getCfg_run]
      unfold send
      rw [h]
      rfl
    · refine ⟨e, ({ v with env := e, wire := w } : State).deliver.wire, ({ v with env := e, wire := w } : State).deliver.chip,
        u.reg.lstate, he, ?_⟩
      simp only [swallowTimeout, catching, sleep, clearTkValid, bind_run, modifyReg_run, getCfg_run]
      unfold send
      rw [h]
      rfl
  obtain ⟨e', w', ch', l', he', hs⟩ := hs { s with
      env := e, wire := w, chip := ch, reg := { s.reg with baudsel := false, lstate := l } }
  refine ⟨{ s with
      env := e', wire := w', chip := ch'
      reg := Regs.afterChipReset { s.reg with baudsel := false, tkValid := false, lstate := l' } }, ?_,
    ⟨⟨l', rfl⟩, rfl, rfl, rfl, he'.1.trans he.1, he'.2.trans he.2⟩⟩
  unfold chipReset
  rw [bind_run, hw]
  simp only [bind_run, hs, modifyReg_run]

/-! ### How the last operation ended is nothing to a chip reset -/

/-- A state with another note of how the last operation ended. -/
def State.noted (s : State) (c : Ctl) : State := { s with ctl := c }

/-- The same, of an outcome. -/
def Noted {α : Type} (c : Ctl) (x : Op α) : Prop :=
  ∀ s, x (s.noted c) = match x s with
    | .ok a t => .ok a (t.noted c)
    | .error e t => .error e (t.noted c)

theorem noted_bind {α β : Type} {c : Ctl} {x : Op α} {k : α → Op β} (hx : Noted c x) (hk : ∀ a, Noted c (k a)) :
    Noted c (x >>= k) := by
  intro s
  rw [bind_run, bind_run, hx s]
  cases x s with
  | ok a t => exact hk a t
  | error e t => rfl

theorem noted_catching {α : Type} {c : Ctl} {x : Op α} {h : Err → Op α} (hx : Noted c x) (hh : ∀ e, Noted c (h e)) :
    Noted c (catching x h) := by
  intro s
  unfold catching
  rw [hx s]
  cases x s with
  | ok a t => rfl
  | error e t => cases e <;> first | exact hh _ t | rfl

theorem noted_of {α : Type} {c : Ctl} {x : Op α} (f : State → α) (g : State → State) (hx : ∀ s, x s = .ok (f s) (g s))
    (hf : ∀ s, f (s.noted c) = f s) (hg : ∀ s, g (s.noted c) = (g s).noted c) : Noted c x := by
  intro s
  rw [hx, hx, hf, hg]

theorem noted_sendSymbols (c : Ctl) (xs : List Symbol) : Noted c (sendSymbols xs) := by
  induction xs with
  | nil => exact fun _ => rfl
  | cons x xs ih =>
    refine noted_bind (noted_of _ _ (fun _ => rfl) (fun _ => rfl) (fun _ => rfl)) (fun b => ?_)
    cases b
    · exact noted_bind (noted_of _ _ (fun _ => rfl) (fun _ => rfl) (fun _ => rfl)) (fun _ => ih)
    · exact fun _ => rfl

theorem noted_send (c : Ctl) (bs : Bytes) : Noted c (send bs) := by
  intro s
  have h := noted_sendSymbols c (serializeBytes s.cfg bs) s
  unfold send
  rw [show (s.noted c).cfg = s.cfg from rfl, h]
  cases sendSymbols (serializeBytes s.cfg bs) s <;> rfl

theorem noted_modifyReg (c : Ctl) (f : Regs → Regs) : Noted c (modifyReg f) :=
  noted_of _ _ (fun _ => rfl) (fun _ => rfl) (fun _ => rfl)

theorem noted_chipReset (c : Ctl) : Noted c chipReset := by
  have sw {x : Op Unit} (hx : Noted c x) : Noted c (swallowTimeout x) :=
    noted_catching hx (fun e => by cases e <;> exact fun _ => rfl)
  refine noted_bind (sw ?_) (fun _ => noted_bind (sw ?_) (fun _ => noted_modifyReg c _))
  · refine noted_bind (noted_modifyReg c _) (fun _ => noted_bind (noted_of _ _ (fun _ => rfl) (fun _ => rfl) (fun _ => rfl))
      (fun b => ?_))
    cases b
    · exact noted_bind (noted_of _ _ (fun _ => rfl) (fun _ => rfl) (fun _ => rfl)) (fun _ =>
        noted_bind (noted_modifyReg c _) (fun _ => noted_bind (noted_of _ _ (fun _ => rfl) (fun _ => rfl) (fun _ => rfl))
        (fun _ => noted_modifyReg c _)))
    · exact noted_bind (noted_modifyReg c _) (fun _ => fun _ => rfl)
  · exact noted_bind (noted_modifyReg c _) (fun _ => noted_bind (noted_of _ _ (fun _ => rfl) (fun _ => rfl) (fun _ => rfl))
      (fun _ => noted_bind (noted_send c _) (fun _ => noted_modifyReg c _)))

end Sys2Proof.Machine
end

