-- ==== Sys2Proof/Laws/Stable.lean ====
section
/-! SUPPORT. A relation between states that every small step of the machine keeps is kept by every operation, however the
operation ends. -/

namespace Sys2Proof.Machine

/-- A relation that the small steps keep: any write of BLOCK's registers but to `BOOT_SEED`, any draw, anything on the line,
what CHIP makes of what it hears, the host's buffer, the mark of R41. -/
structure Stable (R : State → State → Prop) : Prop where
  refl : ∀ s, R s s
  trans : ∀ s t u, R s t → R t u → R s u
  reg : ∀ s (r : Regs), r.bootSeed = s.reg.bootSeed → R s { s with reg := r }
  env : ∀ s (e : Env), R s { s with env := e }
  wire : ∀ s (w : Wire), R s { s with wire := w }
  hear : ∀ s (x : List Symbol), R s { s with chip := s.chip.hearSymbols s.cfg x }
  wakeUp : ∀ s, R s { s with chip := s.chip.wakeUp s.cfg }
  answer : ∀ s, R s { s with chip := (s.chip.answer s.cfg).2 }
  buf : ∀ s (b : Bytes), R s { s with host := { s.host with buf := b } }
  mark : ∀ s, R s s.markUnmeant

variable {R : State → State → Prop}

theorem relates_of_run {α : Type} {x : Op α} (f : State → α) (g : State → State) (hx : ∀ s, x s = .ok (f s) (g s))
    (h : ∀ s, R s (g s)) : Relates R x := fun s =>
  ⟨fun a t ht => by rw [hx] at ht; cases ht; exact h s, fun e t ht => by rw [hx] at ht; cases ht⟩

theorem relates_ite {α : Type} {p : Prop} [Decidable p] {x y : Op α} (hx : Relates R x) (hy : Relates R y) :
    Relates R (if p then x else y) := by split <;> assumption

theorem relates_modifyReg (hR : Stable R) {f : Regs → Regs} (hf : ∀ r, (f r).bootSeed = r.bootSeed) :
    Relates R (modifyReg f) :=
  relates_of_run (fun _ => ()) (fun s => { s with reg := f s.reg }) (fun _ => rfl) (fun s => hR.reg s _ (hf _))

theorem relates_getCfg (hR : Stable R) : Relates R getCfg := relates_read hR.refl _

theorem relates_getState (hR : Stable R) : Relates R getState := relates_read hR.refl _

theorem relates_bind' {α β : Type} (hR : Stable R) {x : Op α} {k : α → Op β} (hx : Relates R x)
    (hk : ∀ a, Relates R (k a)) : Relates R (x >>= k) := relates_bind hR.trans hx hk

theorem relates_map (hR : Stable R) {α β : Type} {x : Op α} (f : α → β) (hx : Relates R x) :
    Relates R (do let a ← x; pure (f a)) := relates_bind' hR hx (fun _ => relates_pure hR.refl _)

/-! ### The line -/

theorem relates_drawStall (hR : Stable R) : Relates R drawStall :=
  relates_of_run _ _ (fun _ => rfl) (fun s => hR.env s _)

theorem relates_drawJunk (hR : Stable R) : Relates R drawJunk :=
  relates_of_run _ _ (fun _ => rfl) (fun s => hR.env s _)

theorem relates_rand (hR : Stable R) (n : Nat) : Relates R (rand n) :=
  relates_of_run _ _ (fun _ => rfl) (fun s => hR.env s _)

theorem relates_randomDelay (hR : Stable R) (n : Nat) : Relates R (randomDelay n) :=
  relates_of_run _ _ (fun _ => rfl) (fun s => hR.env s _)

theorem relates_lineTx (hR : Stable R) (x : Symbol) : Relates R (lineTx x) := relates_modify (fun s => hR.wire s _)

theorem relates_deliver (hR : Stable R) (s : State) : R s s.deliver :=
  let w : Wire := { s.wire with inFlight := [], outMoves := (s.wire.outMoves.next Config.freeOutMove).2 }
  moved_of (P := fun d => R s { s with wire := w, chip := d }) s.cfg _ _ (hR.wire s w)
    (fun d h => hR.trans _ _ _ h (hR.hear { s with wire := w, chip := d } _))
    (fun d x h => hR.trans _ _ _ h (hR.hear { s with wire := w, chip := d } x))

theorem relates_lineLow (hR : Stable R) : Relates R lineLow :=
  relates_modify (fun s =>
    let w : Wire := { s.wire with
      trace := s.wire.trace ++ [.low s.reg.baudsel], outMoves := (s.wire.outMoves.next Config.freeOutMove).2 }
    moved_of (P := fun d => R s { s with wire := w, chip := d }) s.cfg _ _ (hR.wire s w)
      (fun d h => hR.trans _ _ _ h (hR.wakeUp { s with wire := w, chip := d }))
      (fun d x h => hR.trans _ _ _ h (hR.hear { s with wire := w, chip := d } x)))

theorem relates_lineRxBurst (hR : Stable R) : Relates R lineRxBurst := by
  intro s
  unfold lineRxBurst
  cases h : (s.wire.inMoves.next Config.freeInMove).1 with
  | inject b => simp only [h]; exact ⟨fun _ _ h => (by cases h; exact hR.wire s _), fun _ _ h => by cases h⟩
  | pass =>
    simp only [h]
    exact ⟨fun _ _ h => (by
      cases h
      exact hR.trans _ _ _ (hR.wire s _) (hR.answer { s with wire := { s.wire with inMoves := (s.wire.inMoves.next Config.freeInMove).2 } })), fun _ _ h => by cases h⟩

theorem relates_discardArrived (hR : Stable R) : Relates R discardArrived := relates_modify (fun s => hR.wire s _)

theorem relates_sendSymbols (hR : Stable R) (xs : List Symbol) : Relates R (sendSymbols xs) := by
  induction xs with
  | nil => exact relates_pure hR.refl _
  | cons x xs ih =>
    refine relates_bind' hR (relates_drawStall hR) (fun b => relates_ite (relates_raise hR.refl _) ?_)
    exact relates_bind' hR (relates_lineTx hR x) (fun _ => ih)

theorem relates_send (hR : Stable R) (bs : Bytes) : Relates R (send bs) := by
  intro s
  have h := relates_sendSymbols hR (serializeBytes s.cfg bs) s
  unfold send
  cases hs : sendSymbols (serializeBytes s.cfg bs) s with
  | ok a t =>
    exact ⟨fun _ _ h' => (by cases h'; exact hR.trans _ _ _ (h.1 _ _ hs) (relates_deliver hR t)), fun _ _ h' => by cases h'⟩
  | error e t =>
    exact ⟨fun _ _ h' => (by cases h'), fun _ _ h' => by cases h'; exact hR.trans _ _ _ (h.2 _ _ hs) (relates_deliver hR t)⟩

theorem relates_groupBits (hR : Stable R) (c : Config.Params) (xs : List Symbol) : Relates R (groupBits c xs) := by
  induction xs with
  | nil => exact relates_pure hR.refl _
  | cons x xs ih =>
    refine relates_bind' hR ?_ (fun b => relates_bind' hR ih (fun _ => relates_pure hR.refl _))
    exact relates_ite (relates_pure hR.refl _) (relates_ite (relates_pure hR.refl _) (relates_drawJunk hR))

theorem relates_readGroups (hR : Stable R) (c : Config.Params) (n : Nat) (xs : List Symbol) :
    Relates R (readGroups c n xs) := by
  induction n generalizing xs with
  | zero => exact relates_pure hR.refl _
  | succ n ih =>
    exact relates_bind' hR (relates_groupBits hR c _) (fun b => relates_bind' hR (ih _) (fun _ => relates_pure hR.refl _))

theorem relates_deserialize (hR : Stable R) (xs : List Symbol) (n : Nat) : Relates R (deserialize xs n) :=
  relates_bind' hR (relates_getCfg hR) (fun c => relates_readGroups hR c _ _)

theorem relates_receive (hR : Stable R) (n : Nat) : Relates R (receive n) := by
  refine relates_bind' hR (relates_modifyReg hR (fun _ => rfl)) (fun _ => relates_bind' hR (relates_discardArrived hR)
    (fun _ => relates_bind' hR ?_ (fun _ => relates_bind' hR (relates_lineRxBurst hR) (fun b =>
      relates_bind' hR (relates_modifyReg hR (fun _ => rfl)) (fun _ => relates_ite (relates_raise hR.refl _)
        (relates_bind' hR (relates_deserialize hR _ _) (fun _ => relates_bind' hR (relates_modifyReg hR (fun _ => rfl))
          (fun _ => relates_pure hR.refl _))))))))
  refine relates_bind' hR (relates_getCfg hR) (fun c => ?_)
  split
  · exact relates_send hR _
  · exact relates_pure hR.refl _

theorem relates_wake (hR : Stable R) : Relates R wake := by
  refine relates_bind' hR (relates_modifyReg hR (fun _ => rfl)) (fun _ => relates_bind' hR (relates_drawStall hR)
    (fun b => relates_ite ?_ ?_))
  · exact relates_bind' hR (relates_modifyReg hR (fun _ => rfl)) (fun _ => relates_raise hR.refl _)
  · exact relates_bind' hR (relates_lineLow hR) (fun _ => relates_bind' hR (relates_modifyReg hR (fun _ => rfl))
      (fun _ => relates_bind' hR (relates_discardArrived hR) (fun _ => relates_modifyReg hR (fun _ => rfl))))

theorem relates_idle (hR : Stable R) : Relates R idle :=
  relates_bind' hR (relates_getCfg hR) (fun _ => relates_bind' hR (relates_send hR _)
    (fun _ => relates_modifyReg hR (fun _ => rfl)))

theorem relates_sleep (hR : Stable R) : Relates R sleep :=
  relates_bind' hR (relates_modifyReg hR (fun _ => rfl)) (fun _ => relates_bind' hR (relates_getCfg hR)
    (fun _ => relates_bind' hR (relates_send hR _) (fun _ => relates_modifyReg hR (fun _ => rfl))))

/-! ### Frames and transactions -/

theorem relates_crc16 (hR : Stable R) (v : Word16) (b : Bytes) : Relates R (crc16 v b) :=
  relates_bind' hR (relates_getCfg hR) (fun _ => relates_bind' hR (relates_modifyReg hR (fun _ => rfl))
    (fun _ => relates_pure hR.refl _))

theorem relates_encodeCommand (hR : Stable R) (o p : Byte) (q : Word16) (d : Bytes) : Relates R (encodeCommand o p q d) :=
  relates_bind' hR (relates_getCfg hR) (fun _ => relates_bind' hR (relates_crc16 hR _ _)
    (fun _ => relates_bind' hR (relates_modifyReg hR (fun _ => rfl)) (fun _ => relates_pure hR.refl _)))

theorem relates_decodeResponse (hR : Stable R) (raw : Bytes) (n : Nat) : Relates R (decodeResponse raw n) := by
  unfold decodeResponse
  refine relates_ite (relates_raise hR.refl _) (relates_ite (relates_ite (relates_raise hR.refl _)
    (relates_raise hR.refl _)) (relates_ite (relates_raise hR.refl _) (relates_bind' hR (relates_getCfg hR)
    (fun _ => relates_bind' hR (relates_crc16 hR _ _) (fun _ => relates_ite (relates_raise hR.refl _)
      (relates_pure hR.refl _))))))

theorem relates_catching' {α : Type} (hR : Stable R) {x : Op α} {h : Err → Op α} (hx : Relates R x)
    (hh : ∀ e, Relates R (h e)) : Relates R (catching x h) := relates_catching hR.trans hx hh

theorem relates_unlessRetried {α : Type} (hR : Stable R) (p : Err → Bool) {x : Op α} (hx : Relates R x) :
    Relates R (unlessRetried p x) :=
  relates_catching' hR (relates_map hR _ hx) (fun _ => relates_ite (relates_pure hR.refl _) (relates_raise hR.refl _))

theorem relates_receiveAttempt (hR : Stable R) (e : Expect) : Relates R (receiveAttempt e) := by
  refine relates_bind' hR (relates_modifyReg hR (fun _ => rfl)) (fun _ =>
    relates_bind' hR (relates_unlessRetried hR _ (relates_receive hR _)) (fun got => ?_))
  cases got with
  | none => exact relates_pure hR.refl _
  | some r =>
    cases e with
    | raw n => exact relates_ite (relates_pure hR.refl _) (relates_pure hR.refl _)
    | status => exact relates_unlessRetried hR _ (relates_decodeResponse hR _ _)
    | data n => exact relates_unlessRetried hR _ (relates_decodeResponse hR _ _)

theorem relates_receiveLoop (hR : Stable R) (e : Expect) (n : Nat) : Relates R (receiveLoop e n) := by
  induction n with
  | zero => exact relates_raise hR.refl _
  | succ n ih =>
    refine relates_bind' hR (relates_receiveAttempt hR e) (fun got => ?_)
    cases got with
    | none => exact ih
    | some p => exact relates_pure hR.refl _

theorem relates_closeLine (hR : Stable R) (c : Close) : Relates R (closeLine c) := by
  cases c
  · exact relates_idle hR
  · exact relates_sleep hR

theorem relates_setPhase (hR : Stable R) (p : Phase) : Relates R (setPhase p) := relates_modifyReg hR (fun _ => rfl)

theorem relates_transact (hR : Stable R) (o p : Byte) (q : Word16) (d : Bytes) (e : Expect) (c : Close) :
    Relates R (transact o p q d e c) := by
  refine relates_catching' hR ?_ (fun _ => relates_bind' hR (relates_setPhase hR _) (fun _ => relates_raise hR.refl _))
  refine relates_bind' hR (relates_modifyReg hR (fun _ => rfl)) (fun _ => relates_bind' hR (relates_setPhase hR _)
    (fun _ => relates_bind' hR (relates_wake hR) (fun _ => relates_bind' hR (relates_setPhase hR _)
    (fun _ => relates_bind' hR (relates_encodeCommand hR _ _ _ _) (fun _ => relates_bind' hR (relates_send hR _)
    (fun _ => relates_bind' hR (relates_setPhase hR _) (fun _ => relates_bind' hR (relates_getCfg hR)
    (fun _ => relates_bind' hR (relates_receiveLoop hR _ _) (fun p => relates_ite (relates_raise hR.refl _) ?_)))))))))
  exact relates_bind' hR (relates_setPhase hR _) (fun _ => relates_bind' hR (relates_closeLine hR _)
    (fun _ => relates_bind' hR (relates_setPhase hR _) (fun _ => relates_pure hR.refl _)))

theorem relates_cfg_transact {α : Type} (hR : Stable R) (o p : Config.Params → Byte) (q : Config.Params → Word16)
    (d : Bytes) (e : Config.Params → Expect) (c : Close) (f : Bytes → α) :
    Relates R (do
      let x ← getCfg
      let r ← transact (o x) (p x) (q x) d (e x) c
      pure (f r)) :=
  relates_bind' hR (relates_getCfg hR) (fun _ => relates_map hR f (relates_transact hR _ _ _ _ _ _))

theorem relates_seRead (hR : Stable R) (sl : SlotId) (b : Nat) (c : Close) : Relates R (read sl b c) :=
  relates_bind' hR (relates_getCfg hR) (fun _ => relates_transact hR _ _ _ _ _ _)
theorem relates_nonce (hR : Stable R) (n : Bytes) (c : Close) : Relates R (nonce n c) :=
  relates_bind' hR (relates_getCfg hR) (fun _ => relates_transact hR _ _ _ _ _ _)
theorem relates_macGen (hR : Stable R) (k : SlotId) (c : Close) : Relates R (macGen k c) :=
  relates_bind' hR (relates_getCfg hR) (fun _ => relates_transact hR _ _ _ _ _ _)
theorem relates_info (hR : Stable R) (c : Close) : Relates R (info c) :=
  relates_bind' hR (relates_getCfg hR) (fun _ => relates_transact hR _ _ _ _ _ _)
theorem relates_keyedHashEnd (hR : Stable R) (m : Bytes) (c : Close) : Relates R (keyedHashEnd m c) :=
  relates_bind' hR (relates_getCfg hR) (fun _ => relates_transact hR _ _ _ _ _ _)
theorem relates_counterRead (hR : Stable R) (c : Close) : Relates R (counterRead c) := relates_cfg_transact hR _ _ _ _ _ _ _
theorem relates_counterIncr (hR : Stable R) (c : Close) : Relates R (counterIncr c) := relates_cfg_transact hR _ _ _ _ _ _ _
theorem relates_write (hR : Stable R) (sl : SlotId) (b : Nat) (d : Bytes) (c : Close) : Relates R (write sl b d c) :=
  relates_cfg_transact hR _ _ _ _ _ _ _
theorem relates_writeMac (hR : Stable R) (sl : SlotId) (b : Nat) (d m : Bytes) (c : Close) : Relates R
    (writeMac sl b d m c) :=
  relates_cfg_transact hR _ _ _ _ _ _ _
theorem relates_genDig (hR : Stable R) (sl : SlotId) (c : Close) : Relates R (genDig sl c) :=
  relates_cfg_transact hR _ _ _ _ _ _ _
theorem relates_genDigCounter (hR : Stable R) (sl : SlotId) (c : Close) : Relates R (genDigCounter sl c) :=
  relates_cfg_transact hR _ _ _ _ _ _ _
theorem relates_checkMac (hR : Stable R) (k : SlotId) (b : Bytes) (c : Close) : Relates R (checkMac k b c) :=
  relates_cfg_transact hR _ _ _ _ _ _ _
theorem relates_selfTest (hR : Stable R) (c : Close) : Relates R (selfTest c) := relates_cfg_transact hR _ _ _ _ _ _ _
theorem relates_lock (hR : Stable R) (p : Byte) (q : Word16) (c : Close) : Relates R (lock p q c) :=
  relates_bind' hR (relates_getCfg hR) (fun _ => relates_map hR _ (relates_transact hR _ _ _ _ _ _))
theorem relates_keyedHash (hR : Stable R) (k : SlotId) (m : Bytes) (c : Close) : Relates R (keyedHash k m c) :=
  relates_bind' hR (relates_cfg_transact hR _ _ _ _ _ _ _) (fun _ => relates_keyedHashEnd hR m c)

theorem relates_swallowTimeout (hR : Stable R) {x : Op Unit} (hx : Relates R x) : Relates R (swallowTimeout x) :=
  relates_catching' hR hx (fun e => by
    cases e <;> first | exact relates_pure hR.refl _ | exact relates_raise hR.refl _)

theorem relates_chipReset (hR : Stable R) : Relates R chipReset :=
  relates_bind' hR (relates_swallowTimeout hR (relates_wake hR)) (fun _ =>
    relates_bind' hR (relates_swallowTimeout hR (relates_sleep hR)) (fun _ => relates_modifyReg hR (fun _ => rfl)))

/-! ### Sessions -/

theorem relates_seCall {α : Type} (hR : Stable R) {x : Op α} (hx : Relates R x) : Relates R (seCall x) :=
  relates_catching' hR hx (fun _ => relates_bind' hR (relates_modifyReg hR (fun _ => rfl))
    (fun _ => relates_raise hR.refl _))

theorem relates_readHeld (hR : Stable R) (held : Regs → Bool) (value : Regs → Bytes) : Relates R (readHeld held value) :=
  fun s => by
    cases h : held s.reg with
    | true => rw [readHeld_held h]; exact ⟨fun _ _ e => (by cases e; exact hR.refl s), fun _ _ e => by cases e⟩
    | false => rw [readHeld_none h]; exact ⟨fun _ _ e => (by cases e), fun _ _ e => by cases e; exact hR.mark s⟩

theorem relates_writeTk (hR : Stable R) (v : Bytes) : Relates R (writeTk v) := relates_modifyReg hR (fun _ => rfl)
theorem relates_clearTkValid (hR : Stable R) : Relates R clearTkValid := relates_modifyReg hR (fun _ => rfl)

theorem relates_pickNonce (hR : Stable R) (n : Bytes) : Relates R (pickNonce n) :=
  relates_bind' hR (relates_seCall hR (relates_nonce hR _ _)) (fun _ => relates_bind' hR (relates_writeTk hR _)
    (fun _ => relates_readHeld hR _ _))

theorem relates_freshNonce (hR : Stable R) : Relates R freshNonce :=
  relates_bind' hR (relates_rand hR _) (fun _ => relates_seCall hR (relates_pickNonce hR _))

theorem relates_gendigSlot (hR : Stable R) (sl : SlotId) (p : Bytes) : Relates R (gendigSlot sl p) :=
  relates_bind' hR (relates_freshNonce hR) (fun _ => relates_bind' hR (relates_seCall hR (relates_genDig hR _ _))
    (fun _ => relates_bind' hR (relates_writeTk hR _) (fun _ => relates_readHeld hR _ _)))

theorem relates_gendigCounter (hR : Stable R) (v : Word32) : Relates R (gendigCounter v) :=
  relates_bind' hR (relates_freshNonce hR) (fun _ => relates_bind' hR (relates_getCfg hR) (fun _ =>
    relates_bind' hR (relates_seCall hR (relates_genDigCounter hR _ _)) (fun _ => relates_bind' hR (relates_writeTk hR _)
      (fun _ => relates_readHeld hR _ _))))

theorem relates_isCorrectTempkey (hR : Stable R) (e : Bytes) : Relates R (isCorrectTempkey e) :=
  relates_bind' hR (relates_clearTkValid hR) (fun _ => relates_bind' hR (relates_getCfg hR) (fun _ =>
    relates_bind' hR (relates_seCall hR (relates_macGen hR _ _)) (fun _ => relates_pure hR.refl _)))

theorem relates_checkmac (hR : Stable R) (k : SlotId) (b : Bytes) : Relates R (checkmac k b) :=
  relates_bind' hR (relates_freshNonce hR) (fun _ => relates_bind' hR (relates_rand hR _) (fun _ =>
    relates_bind' hR (relates_clearTkValid hR) (fun _ => relates_seCall hR (relates_checkMac hR _ _ _))))

theorem relates_pairUnlock (hR : Stable R) : Relates R pairUnlock :=
  relates_bind' hR (relates_getCfg hR) (fun _ => relates_seCall hR (relates_checkmac hR _ _))

theorem relates_requireTempkey (hR : Stable R) (d : Bytes) : Relates R (requireTempkey d) :=
  relates_bind' hR (relates_seCall hR (relates_isCorrectTempkey hR _)) (fun _ => relates_ite (relates_pure hR.refl _)
    (relates_bind' hR (relates_clearTkValid hR) (fun _ => relates_raise hR.refl _)))

theorem relates_readBlocks (hR : Stable R) (sl a : SlotId) (k : Bytes) (b n : Nat) : Relates R (readBlocks sl a k b n) := by
  induction n generalizing b with
  | zero => exact relates_pure hR.refl _
  | succ n ih =>
    exact relates_bind' hR (relates_seCall hR (relates_pairUnlock hR)) (fun _ =>
      relates_bind' hR (relates_seCall hR (relates_gendigSlot hR _ _)) (fun _ =>
      relates_bind' hR (relates_seCall hR (relates_seRead hR _ _ _)) (fun _ =>
      relates_bind' hR (relates_clearTkValid hR) (fun _ => relates_map hR _ (ih (b + 1))))))

theorem relates_encryptedRead (hR : Stable R) (sl a : SlotId) (k : Bytes) (n : Nat) : Relates R (encryptedRead sl a k n) :=
  relates_map hR _ (relates_readBlocks hR _ _ _ _ _)

theorem relates_writeBlocks (hR : Stable R) (sl a : SlotId) (k : Bytes) (b n : Nat) (d : Bytes) :
    Relates R (writeBlocks sl a k b n d) := by
  induction n generalizing b d with
  | zero => exact relates_pure hR.refl _
  | succ n ih =>
    exact relates_bind' hR (relates_seCall hR (relates_pairUnlock hR)) (fun _ =>
      relates_bind' hR (relates_seCall hR (relates_gendigSlot hR _ _)) (fun _ =>
      relates_bind' hR (relates_getCfg hR) (fun _ =>
      relates_bind' hR (relates_clearTkValid hR) (fun _ =>
      relates_bind' hR (relates_seCall hR (relates_writeMac hR _ _ _ _ _)) (fun _ => ih _ _)))))

theorem relates_encryptedWrite (hR : Stable R) (sl a : SlotId) (k d : Bytes) : Relates R (encryptedWrite sl a k d) :=
  relates_writeBlocks hR _ _ _ _ _ _

theorem relates_mixin (hR : Stable R) (k : SlotId) (b : Bytes) : Relates R (mixin k b) :=
  relates_bind' hR (relates_seCall hR (relates_pairUnlock hR)) (fun _ => relates_bind' hR (relates_getCfg hR) (fun _ =>
    relates_ite (relates_pure hR.refl _) (relates_map hR _ (relates_seCall hR (relates_keyedHash hR _ _ _)))))

theorem relates_stretch (hR : Stable R) (v : Bytes) (n : Nat) : Relates R (stretch v n) := by
  induction n generalizing v with
  | zero => exact relates_pure hR.refl _
  | succ n ih =>
    exact relates_bind' hR (relates_seCall hR (relates_pairUnlock hR)) (fun _ => relates_bind' hR (relates_getCfg hR)
      (fun _ => relates_bind' hR (relates_seCall hR (relates_keyedHash hR _ _ _)) (fun v => ih v)))

theorem relates_authReadSlot (hR : Stable R) (sl : SlotId) : Relates R (authReadSlot sl) :=
  relates_bind' hR (relates_seCall hR (relates_pairUnlock hR)) (fun _ =>
    relates_bind' hR (relates_seCall hR (relates_seRead hR _ _ _)) (fun _ =>
    relates_bind' hR (relates_seCall hR (relates_gendigSlot hR _ _)) (fun _ =>
    relates_bind' hR (relates_requireTempkey hR _) (fun _ => relates_pure hR.refl _))))

theorem relates_authReadCounter (hR : Stable R) : Relates R authReadCounter :=
  relates_bind' hR (relates_seCall hR (relates_pairUnlock hR)) (fun _ =>
    relates_bind' hR (relates_seCall hR (relates_counterRead hR _)) (fun _ =>
    relates_bind' hR (relates_seCall hR (relates_gendigCounter hR _)) (fun _ =>
    relates_bind' hR (relates_requireTempkey hR _) (fun _ => relates_pure hR.refl _))))

theorem relates_incrLoop (hR : Stable R) (n : Nat) (v : Word32) : Relates R (incrLoop n v) := by
  induction n generalizing v with
  | zero => exact relates_pure hR.refl _
  | succ n ih => exact relates_bind' hR (relates_seCall hR (relates_counterIncr hR _)) (fun v => ih v)

theorem relates_addCounter (hR : Stable R) (n : Nat) : Relates R (addCounter n) :=
  relates_bind' hR (relates_seCall hR (relates_pairUnlock hR)) (fun _ =>
    relates_bind' hR (relates_incrLoop hR _ _) (fun _ =>
    relates_bind' hR (relates_seCall hR (relates_gendigCounter hR _)) (fun _ =>
    relates_bind' hR (relates_requireTempkey hR _) (fun _ => relates_pure hR.refl _))))

/-! ### PIN operations -/

theorem relates_writeRec (hR : Stable R) (v : Bytes) : Relates R (writeRec v) := relates_modifyReg hR (fun _ => rfl)
theorem relates_releaseRec (hR : Stable R) : Relates R releaseRec := relates_modifyReg hR (fun _ => rfl)
theorem relates_writeDigest (hR : Stable R) (v : Bytes) : Relates R (writeDigest v) := relates_modifyReg hR (fun _ => rfl)
theorem relates_writeCache (hR : Stable R) (v : Bytes) : Relates R (writeCache v) := relates_modifyReg hR (fun _ => rfl)

theorem relates_recField (hR : Stable R) (f : Config.Layout → Config.FieldLoc) : Relates R (recField f) :=
  relates_bind' hR (relates_getCfg hR) (fun _ => relates_map hR _ (relates_readHeld hR _ _))

theorem relates_recWord (hR : Stable R) (f : Config.Layout → Config.FieldLoc) : Relates R (recWord f) :=
  relates_map hR _ (relates_recField hR f)

theorem relates_setRecField (hR : Stable R) (f : Config.Layout → Config.FieldLoc) (v : Bytes) :
    Relates R (setRecField f v) :=
  relates_bind' hR (relates_getCfg hR) (fun _ => relates_bind' hR (relates_readHeld hR _ _) (fun _ => relates_writeRec hR _))

theorem relates_setRecWord (hR : Stable R) (f : Config.Layout → Config.FieldLoc) (v : Word32) :
    Relates R (setRecWord f v) := relates_setRecField hR f _

theorem relates_validate (hR : Stable R) : Relates R validate :=
  relates_bind' hR (relates_getCfg hR) (fun _ => relates_bind' hR (relates_recWord hR _) (fun _ =>
    relates_bind' hR (relates_recWord hR _) (fun _ => relates_bind' hR (relates_recWord hR _) (fun _ =>
    relates_bind' hR (relates_recWord hR _) (fun _ => relates_ite (relates_raise hR.refl _)
    (relates_ite (relates_raise hR.refl _) (relates_ite (relates_raise hR.refl _) (relates_ite (relates_raise hR.refl _)
      (relates_pure hR.refl _)))))))))

theorem relates_recSignature (hR : Stable R) : Relates R recSignature :=
  relates_bind' hR (relates_getState hR) (fun _ => relates_map hR _ (relates_readHeld hR _ _))

theorem relates_sign (hR : Stable R) : Relates R sign :=
  relates_bind' hR (relates_recSignature hR) (fun _ => relates_setRecField hR _ _)

theorem relates_verify (hR : Stable R) : Relates R verify :=
  relates_bind' hR (relates_recSignature hR) (fun _ => relates_bind' hR (relates_recField hR _) (fun _ =>
    relates_bind' hR (relates_pure hR.refl _) (fun _ => relates_ite (relates_pure hR.refl _) (relates_raise hR.refl _))))

theorem relates_pinHashAttempt (hR : Stable R) (p : Bytes) : Relates R (pinHashAttempt p) :=
  relates_bind' hR (relates_getCfg hR) (fun _ => relates_bind' hR (relates_stretch hR _ _) (fun _ =>
    relates_bind' hR (relates_mixin hR _ _) (fun _ => relates_mixin hR _ _)))

theorem relates_readCounters (hR : Stable R) : Relates R readCounters :=
  relates_bind' hR (relates_getCfg hR) (fun _ => relates_bind' hR (relates_authReadCounter hR) (fun _ =>
    relates_bind' hR (relates_authReadSlot hR _) (fun _ => relates_bind' hR (relates_authReadSlot hR _) (fun _ =>
    relates_bind' hR (relates_setRecWord hR _ _) (fun _ => relates_setRecWord hR _ _)))))

theorem relates_goodLoginUpdates (hR : Stable R) (d : Bytes) : Relates R (goodLoginUpdates d) :=
  relates_bind' hR (relates_getCfg hR) (fun _ => relates_bind' hR (relates_authReadCounter hR) (fun _ =>
    relates_ite (relates_bind' hR (relates_encryptedWrite hR _ _ _ _) (fun _ => relates_bind' hR (relates_addCounter hR _)
      (fun _ => relates_encryptedWrite hR _ _ _ _))) (relates_raise hR.refl _)))

theorem relates_detectBlank (hR : Stable R) : Relates R detectBlank :=
  relates_bind' hR (relates_pairUnlock hR) (fun _ => relates_bind' hR (relates_getCfg hR) (fun _ =>
    relates_catching' hR (relates_bind' hR (relates_checkmac hR _ _) (fun _ => relates_pure hR.refl _))
      (fun _ => relates_ite (relates_pure hR.refl _) (relates_raise hR.refl _))))

theorem relates_cacheSave (hR : Stable R) : Relates R cacheSave :=
  relates_bind' hR (relates_getState hR) (fun _ => relates_bind' hR (relates_readHeld hR _ _) (fun _ =>
    relates_bind' hR (relates_writeCache hR _) (fun _ => relates_bind' hR (relates_readHeld hR _ _)
      (fun _ => relates_setRecField hR _ _))))

theorem relates_cacheRestore (hR : Stable R) : Relates R cacheRestore :=
  relates_bind' hR (relates_getState hR) (fun _ => relates_bind' hR (relates_recField hR _) (fun _ =>
    relates_bind' hR (relates_writeCache hR _) (fun _ => relates_bind' hR (relates_readHeld hR _ _)
      (fun _ => relates_bind' hR (relates_writeDigest hR _) (fun _ => relates_readHeld hR _ _)))))

theorem relates_clearRecord (hR : Stable R) : Relates R clearRecord :=
  relates_bind' hR (relates_setRecWord hR _ _) (fun _ => relates_bind' hR (relates_setRecWord hR _ _) (fun _ =>
    relates_bind' hR (relates_setRecWord hR _ _) (fun _ => relates_bind' hR (relates_setRecWord hR _ _) (fun _ =>
    relates_bind' hR (relates_setRecWord hR _ _) (fun _ => relates_bind' hR (relates_rand hR _) (fun _ =>
    relates_bind' hR (relates_setRecWord hR _ _) (fun _ => relates_bind' hR (relates_setRecField hR _ _) (fun _ =>
    relates_setRecField hR _ _))))))))

theorem relates_unlockOrBrick (hR : Stable R) : Relates R unlockOrBrick :=
  relates_catching' hR (relates_pairUnlock hR) (fun _ => relates_ite (relates_raise hR.refl _) (relates_raise hR.refl _))

theorem relates_loginBlank (hR : Stable R) : Relates R loginBlank :=
  relates_bind' hR (relates_writeDigest hR _) (fun _ => relates_bind' hR (relates_cacheSave hR) (fun _ => relates_sign hR))

theorem relates_setup (hR : Stable R) : Relates R setup :=
  relates_bind' hR (relates_validate hR) (fun _ => relates_bind' hR (relates_clearRecord hR) (fun _ =>
    relates_bind' hR (relates_unlockOrBrick hR) (fun _ => relates_bind' hR (relates_readCounters hR) (fun _ =>
    relates_bind' hR (relates_detectBlank hR) (fun b => by
      cases b
      · exact relates_sign hR
      · exact relates_bind' hR (relates_getCfg hR) (fun _ => relates_bind' hR (relates_setRecWord hR _ _)
          (fun _ => relates_loginBlank hR)))))))

theorem relates_loginFailed (hR : Stable R) : Relates R loginFailed :=
  relates_bind' hR (relates_readCounters hR) (fun _ => relates_bind' hR (relates_sign hR) (fun _ => relates_raise hR.refl _))

theorem relates_testDigest (hR : Stable R) (d : Bytes) : Relates R (testDigest d) :=
  relates_bind' hR (relates_getCfg hR) (fun _ => relates_bind' hR (relates_pairUnlock hR) (fun _ =>
    relates_bind' hR (relates_gendigSlot hR _ _) (fun _ => relates_isCorrectTempkey hR _)))

theorem relates_loginPin (hR : Stable R) (n : Word32) : Relates R (loginPin n) :=
  relates_bind' hR (relates_getCfg hR) (fun _ => relates_bind' hR (relates_recField hR _) (fun _ =>
    relates_bind' hR (relates_pinHashAttempt hR _) (fun _ => relates_bind' hR (relates_testDigest hR _) (fun _ =>
    relates_ite (relates_bind' hR (relates_goodLoginUpdates hR _) (fun _ => relates_bind' hR (relates_writeDigest hR _)
      (fun _ => relates_bind' hR (relates_cacheSave hR) (fun _ => relates_bind' hR (relates_encryptedRead hR _ _ _ _)
      (fun _ => relates_bind' hR (relates_setRecWord hR _ _) (fun _ => relates_bind' hR (relates_setRecWord hR _ _)
      (fun _ => relates_bind' hR (relates_setRecWord hR _ _) (fun _ => relates_sign hR))))))))
      (relates_loginFailed hR)))))

theorem relates_login (hR : Stable R) : Relates R login :=
  relates_bind' hR (relates_validate hR) (fun _ => relates_bind' hR (relates_verify hR) (fun _ =>
    relates_bind' hR (relates_getCfg hR) (fun _ => relates_bind' hR (relates_recWord hR _) (fun _ =>
    relates_ite (relates_ite (relates_loginBlank hR) (relates_raise hR.refl _)) (relates_ite (relates_raise hR.refl _)
      (relates_bind' hR (relates_recWord hR _) (fun _ => relates_ite (relates_raise hR.refl _) (relates_loginPin hR _))))))))

theorem relates_changeSecret (hR : Stable R) (d : Bytes) : Relates R (changeSecret d) :=
  relates_bind' hR (relates_getCfg hR) (fun _ => relates_bind' hR (relates_recField hR _) (fun _ =>
    relates_bind' hR (relates_recWord hR _) (fun _ => relates_bind' hR (relates_setRecWord hR _ _)
      (fun _ => relates_encryptedWrite hR _ _ _ _))))

theorem relates_changePin (hR : Stable R) (d : Bytes) : Relates R (changePin d) :=
  relates_bind' hR (relates_getCfg hR) (fun _ => relates_bind' hR (relates_recField hR _) (fun _ =>
    relates_bind' hR (relates_recWord hR _) (fun _ => relates_bind' hR (relates_pinHashAttempt hR _) (fun _ =>
    relates_bind' hR (relates_encryptedWrite hR _ _ _ _) (fun _ => relates_bind' hR (relates_goodLoginUpdates hR _) (fun _ =>
    relates_bind' hR (relates_writeDigest hR _) (fun _ => relates_bind' hR (relates_cacheSave hR) (fun _ =>
    relates_bind' hR (relates_recWord hR _) (fun _ => relates_bind' hR (relates_setRecWord hR _ _) (fun _ =>
    relates_bind' hR (relates_setRecWord hR _ _) (fun _ => relates_setRecWord hR _ _)))))))))))

theorem relates_oldDigest (hR : Stable R) (b : Bool) (n : Word32) : Relates R (oldDigest b n) :=
  relates_ite (relates_pure hR.refl _) (relates_bind' hR (relates_recField hR _) (fun _ =>
    relates_bind' hR (relates_pinHashAttempt hR _) (fun _ => relates_bind' hR (relates_testDigest hR _) (fun _ =>
    relates_ite (relates_pure hR.refl _) (relates_bind' hR (relates_sign hR) (fun _ => relates_raise hR.refl _))))))

theorem relates_changeDigest (hR : Stable R) (cf fl : Word32) : Relates R (changeDigest cf fl) :=
  relates_bind' hR (relates_getCfg hR) (fun _ => relates_ite (relates_bind' hR (relates_recWord hR _) (fun _ =>
    relates_bind' hR (relates_recWord hR _) (fun _ => relates_ite (relates_raise hR.refl _)
      (relates_ite (relates_raise hR.refl _) (relates_ite (relates_raise hR.refl _) (relates_oldDigest hR _ _))))))
    (relates_cacheRestore hR))

theorem relates_change (hR : Stable R) : Relates R change := by
  refine relates_bind' hR (relates_validate hR) (fun _ => relates_bind' hR (relates_verify hR) (fun _ =>
    relates_bind' hR (relates_getCfg hR) (fun _ => relates_bind' hR (relates_recWord hR _) (fun _ =>
    relates_bind' hR (relates_recWord hR _) (fun cf => relates_ite (relates_raise hR.refl _)
    (relates_ite (relates_raise hR.refl _) (relates_bind' hR (relates_changeDigest hR _ _) (fun _ =>
    relates_bind' hR (relates_writeDigest hR _) (fun _ => ?_)))))))))
  have hlast (cf : Word32) (c : Config.Params) (d : Bytes) : Relates R (do
      if hasFlag cf c.flag.changeWalletPin then changePin d else pure ()
      sign) := by
    split
    · exact relates_bind' hR (relates_changePin hR _) (fun _ => relates_sign hR)
    · exact relates_sign hR
  exact relates_ite (relates_bind' hR (relates_changeSecret hR _) (fun _ => hlast _ _ _)) (hlast _ _ _)

theorem relates_fetchSecret (hR : Stable R) : Relates R fetchSecret :=
  relates_bind' hR (relates_validate hR) (fun _ => relates_bind' hR (relates_verify hR) (fun _ =>
    relates_bind' hR (relates_getCfg hR) (fun _ => relates_bind' hR (relates_recWord hR _) (fun _ =>
    relates_ite (relates_bind' hR (relates_cacheRestore hR) (fun _ => relates_bind' hR (relates_encryptedRead hR _ _ _ _)
      (fun _ => relates_bind' hR (relates_setRecField hR _ _) (fun _ => relates_bind' hR (relates_setRecWord hR _ _)
      (fun _ => relates_sign hR))))) (relates_raise hR.refl _)))))

/-! ### The boundary -/

theorem relates_outcomeOf {α : Type} (hR : Stable R) {x : Op α} (hx : Relates R x) : Relates R (outcomeOf x) :=
  relates_catching' hR (relates_map hR _ hx) (fun _ => relates_pure hR.refl _)

theorem relates_hostRead (hR : Stable R) (i n : Nat) : Relates R (hostRead i n) :=
  relates_of_run _ id (fun _ => rfl) (fun s => hR.refl s)

theorem relates_hostWrite (hR : Stable R) (v : Bytes) : Relates R (hostWrite v) := relates_modify (fun s => hR.buf s _)

theorem relates_pinOperation (hR : Stable R) (c : Config.Params) (a : Word32) : Relates R (pinOperation c a) :=
  relates_ite (relates_setup hR) (relates_ite (relates_login hR) (relates_ite (relates_change hR)
    (relates_ite (relates_fetchSecret hR) (relates_raise hR.refl _))))

theorem relates_propagate (hR : Stable R) (o : Except Err Unit) : Relates R (propagate o) := by
  cases o
  · exact relates_raise hR.refl _
  · exact relates_pure hR.refl _

theorem relates_pinControl (hR : Stable R) (n : Nat) (a : Word32) : Relates R (pinControl n a) := by
  refine relates_bind' hR (relates_getCfg hR) (fun _ => relates_ite (relates_raise hR.refl _)
    (relates_ite (relates_raise hR.refl _) (relates_bind' hR (relates_hostRead hR _ _) (fun _ =>
    relates_bind' hR (relates_writeRec hR _) (fun _ => relates_bind' hR (relates_outcomeOf hR (relates_pinOperation hR _ _))
    (fun o => ?_))))))
  split
  · exact relates_bind' hR (relates_readHeld hR _ _) (fun _ => relates_bind' hR (relates_hostWrite hR _) (fun _ =>
      relates_bind' hR (relates_releaseRec hR) (fun _ => relates_propagate hR _)))
  · exact relates_bind' hR (relates_releaseRec hR) (fun _ => relates_propagate hR _)

theorem relates_readSeSlot (hR : Stable R) (n : Nat) (a : Word32) : Relates R (readSeSlot n a) :=
  relates_bind' hR (relates_getCfg hR) (fun _ => relates_ite (relates_raise hR.refl _)
    (relates_ite (relates_raise hR.refl _) (relates_bind' hR (relates_pairUnlock hR) (fun _ =>
    relates_bind' hR (relates_seCall hR (relates_seRead hR _ _ _)) (fun _ => relates_hostWrite hR _)))))

theorem relates_getRandomBytes (hR : Stable R) (n : Nat) : Relates R (getRandomBytes n) :=
  relates_ite (relates_pure hR.refl _) (relates_bind' hR (relates_rand hR _) (fun _ => relates_hostWrite hR _))

theorem relates_dispatchBody (hR : Stable R) (m : Word32) (n : Nat) (a : Word32) : Relates R (dispatchBody m n a) :=
  relates_bind' hR (relates_getCfg hR) (fun _ => relates_ite (relates_raise hR.refl _)
    (relates_bind' hR (relates_randomDelay hR _) (fun _ => relates_ite (relates_pinControl hR _ _)
    (relates_ite (relates_readSeSlot hR _ _) (relates_ite (relates_getRandomBytes hR _)
    (relates_ite (relates_unlockOrBrick hR) (relates_raise hR.refl _)))))))

theorem relates_seDispatch (hR : Stable R) (m : Word32) (n : Nat) (a : Word32) : Relates R (seDispatch m n a) :=
  relates_bind' hR (relates_outcomeOf hR (relates_dispatchBody hR _ _ _)) (fun _ =>
    relates_bind' hR (relates_modifyReg hR (fun _ => rfl)) (fun _ => relates_bind' hR (relates_chipReset hR)
    (fun _ => relates_map hR _ (relates_getCfg hR))))

theorem relates_boot (hR : Stable R) : Relates R boot :=
  relates_bind' hR (relates_getCfg hR) (fun _ => relates_bind' hR (relates_randomDelay hR _) (fun _ => relates_chipReset hR))

/-! ### Every instruction -/

theorem run_related {α : Type} {x : Op α} {v : α → Value} {s t : State} (hx : Relates R x) (h : run x v s = .next t) :
    ∃ u e, R s u ∧ t = u.endWith e := by
  unfold run at h
  cases hs : x s with
  | ok a u => rw [hs] at h; cases h; exact ⟨u, _, (hx s).1 _ _ hs, rfl⟩
  | error e u => rw [hs] at h; cases h; exact ⟨u, _, (hx s).2 _ _ hs, rfl⟩

theorem runOrStop_related {α : Type} {x : Op α} {v : α → Value} {s t : State} (hx : Relates R x)
    (h : runOrStop x v s = .next t) : ∃ u e, R s u ∧ t = u.endWith e := by
  unfold runOrStop at h
  cases hs : x s with
  | ok a u => rw [hs] at h; cases h; exact ⟨u, _, (hx s).1 _ _ hs, rfl⟩
  | error e u =>
    rw [hs] at h
    cases e <;> first | (cases h; exact ⟨u, _, (hx s).2 _ _ hs, rfl⟩) | cases h

/-- Whatever the small steps keep, every instruction that goes on keeps, its ending apart. -/
theorem exec_related (hR : Stable R) (i : Instr) (s t : State) (h : exec i s = .next t) :
    ∃ u e, R s u ∧ t = u.endWith e := by
  cases i with
  | serialize b => exact run_related (relates_bind' hR (relates_getCfg hR) (fun _ => relates_pure hR.refl _)) h
  | deserialize symbols maxLen => exact run_related (relates_deserialize hR _ _) h
  | send bytes => exact run_related (relates_send hR _) h
  | receive maxLen => exact run_related (relates_receive hR _) h
  | wake => exact run_related (relates_wake hR) h
  | idle => exact run_related (relates_idle hR) h
  | sleep => exact run_related (relates_sleep hR) h
  | crc16 seed bytes => exact run_related (relates_crc16 hR _ _) h
  | encodeCommand opcode p1 p2 data =>
    simp only [exec, execEncodeCommand] at h
    split at h
    · exact run_related (relates_encodeCommand hR _ _ _ _) h
    · cases h
  | decodeResponse raw expectedLen => exact run_related (relates_decodeResponse hR _ _) h
  | transact opcode p1 p2 data expect close =>
    simp only [exec, execTransact] at h
    split at h
    · exact run_related (relates_transact hR _ _ _ _ _ _) h
    · cases h
  | read slot block close => exact run_related (relates_seRead hR _ _ _) h
  | write slot block data close => exact run_related (relates_write hR _ _ _ _) h
  | writeMac slot block data mac close => exact run_related (relates_writeMac hR _ _ _ _ _) h
  | nonce numin close => exact run_related (relates_nonce hR _ _) h
  | genDig slot close => exact run_related (relates_genDig hR _ _) h
  | genDigCounter id close => exact run_related (relates_genDigCounter hR _ _) h
  | checkMac keynum body close => exact run_related (relates_checkMac hR _ _ _) h
  | macGen keynum close => exact run_related (relates_macGen hR _ _) h
  | counterRead close => exact run_related (relates_counterRead hR _) h
  | counterIncr close => exact run_related (relates_counterIncr hR _) h
  | selfTest close => exact run_related (relates_selfTest hR _) h
  | lock p1 p2 close => exact run_related (relates_lock hR _ _ _) h
  | info close => exact run_related (relates_info hR _) h
  | keyedHash keynum msg close => exact run_related (relates_keyedHash hR _ _ _) h
  | keyedHashEnd msg close => exact run_related (relates_keyedHashEnd hR _ _) h
  | chipReset => exact run_related (relates_chipReset hR) h
  | pickNonce numin => exact runOrStop_related (relates_pickNonce hR _) h
  | gendigSlot slot plaintext => exact runOrStop_related (relates_gendigSlot hR _ _) h
  | ctEqual a b => exact run_related (relates_pure hR.refl _) h
  | isCorrectTempkey expected => exact runOrStop_related (relates_isCorrectTempkey hR _) h
  | checkmac keynum secret => exact runOrStop_related (relates_checkmac hR _ _) h
  | pairUnlock => exact runOrStop_related (relates_pairUnlock hR) h
  | encryptedRead slot authSlot authSecret n => exact runOrStop_related (relates_encryptedRead hR _ _ _ _) h
  | encryptedWrite slot authSlot authSecret data => exact runOrStop_related (relates_encryptedWrite hR _ _ _ _) h
  | mixin keynum start => exact runOrStop_related (relates_mixin hR _ _) h
  | stretch start iterations => exact runOrStop_related (relates_stretch hR _ _) h
  | authReadSlot slot => exact runOrStop_related (relates_authReadSlot hR _) h
  | authReadCounter => exact runOrStop_related (relates_authReadCounter hR) h
  | addCounter n => exact runOrStop_related (relates_addCounter hR _) h
  | gendigCounter value => exact runOrStop_related (relates_gendigCounter hR _) h
  | setup record => exact runOrStop_related (relates_bind' hR (relates_writeRec hR _) (fun _ => relates_setup hR)) h
  | login record => exact runOrStop_related (relates_bind' hR (relates_writeRec hR _) (fun _ => relates_login hR)) h
  | change record => exact runOrStop_related (relates_bind' hR (relates_writeRec hR _) (fun _ => relates_change hR)) h
  | fetchSecret record =>
    exact runOrStop_related (relates_bind' hR (relates_writeRec hR _) (fun _ => relates_fetchSecret hR)) h
  | seDispatch method len arg2 => exact runOrStop_related (relates_seDispatch hR _ _ _) h
  | cmdReadSeSlot len arg2 => exact runOrStop_related (relates_readSeSlot hR _ _) h
  | cmdGetRandomBytes len => exact run_related (relates_getRandomBytes hR _) h
  | cmdIsBricked => exact runOrStop_related (relates_unlockOrBrick hR) h

end Sys2Proof.Machine
end

