-- ==== Sys2Proof/Laws/Boundary.lean ====
section
/-! SUPPORT. What is rejected before any traffic (spec/44_pinengine.md R156, R158), and the dispatch boundary run to its end
(spec/45_dispatch.md R177, R180, R184). -/

namespace Sys2Proof.Machine

/-! ### Refusals -/

theorem validate_refuses (s : State) (hr : s.reg.recHeld = true) (hv : ¬ recordValid s.cfg s.reg.record) :
    validate s = .error .badRequest s := by
  simp only [validate, bind_run, getCfg_run, recWord_run _ s hr]
  unfold recordValid at hv
  split_ifs with h1 h2 h3 h4 <;> try rfl
  exact absurd ⟨not_not.mp h1, Nat.not_lt.mp h2, Nat.not_lt.mp h3, Nat.not_lt.mp h4⟩ hv

theorem verify_refuses (s : State) (hr : s.reg.recHeld = true) (hv : ¬ recordVerifies s.cfg s.reg.bootSeed s.reg.record) :
    verify s = .error .hmacFail s := by
  have h : ctEqualBytes (field s.reg.record s.cfg.layout.hmac) (signatureOf s.cfg s.reg.bootSeed s.reg.record) = false := by
    rw [← Bool.not_eq_true]
    exact fun h => hv ((ctEqualBytes_iff _ _).mp h)
  simp only [verify, bind_run, recSignature_run s hr, recField_run _ s hr, ctEqual, pure_run, h, Bool.false_eq_true, if_false, raise_run]

theorem runOrStop_error {α : Type} {x : Op α} {v : α → Value} {s t : State} {e : Err} (h : x s = .error e t)
    (he : ∀ f, e ≠ .stop f) :
    runOrStop x v s = .next (t.endWith (.error e)) := by
  rw [runOrStop, h]
  cases e <;> first | rfl | exact absurd rfl (he _)

theorem bind_ok {α β : Type} {x : Op α} {k : α → Op β} {s t : State} {a : α} (h : x s = .ok a t) : (x >>= k) s = k a t := by
  rw [bind_run, h]

/-! ### The boundary -/

theorem outcome_ok {α} {x : Op α} {s t : State} {a : α} (h : x s = .ok a t) : outcomeOf x s = .ok (.ok a) t := by
  unfold outcomeOf
  exact catching_ok (by rw [bind_run, h]; rfl)

theorem outcome_error {α} {x : Op α} {s t : State} {e : Err} (h : x s = .error e t) (he : ∀ f, e ≠ .stop f) :
    outcomeOf x s = .ok (.error e) t := by
  unfold outcomeOf
  rw [catching_error (by rw [bind_run, h]) he]; rfl

theorem releaseRec_run (s : State) : releaseRec s = .ok () s.released := rfl

theorem dispatch_of {m : Word32} {len : Nat} {arg2 : Word32} {s t u : State} {o : Except Err Unit}
    (h : outcomeOf (dispatchBody m len arg2) s = .ok o t)
    (hu : chipReset t.released = .ok () u) : exec (.seDispatch m len arg2) s = .next
    (u.endWith (.success (.code (resultCode u.cfg.code o)))) := by
  show runOrStop (seDispatch m len arg2) .code s = _
  have : seDispatch m len arg2 s = .ok (resultCode u.cfg.code o) u := by
    unfold seDispatch
    simp only [bind_run, h, releaseRec_run, hu, getCfg_run, pure_run]
  rw [runOrStop, this]

theorem dispatch_goes {m : Word32} {len : Nat} {arg2 : Word32} {s t : State} {o : Except Err Unit}
    (h : outcomeOf (dispatchBody m len arg2) s = .ok o t)
    (hq : t.face.quiet 9) : ∃ u, exec (.seDispatch m len arg2) s = .next u ∧ u.face = t.face.dispatched.ended
    (.success (.code (resultCode t.cfg.code o))) := by
  obtain ⟨u, hu, hf⟩ := chipReset_goes t.released hq
  refine ⟨_, dispatch_of h hu, ?_⟩
  have hc : u.cfg = t.cfg := congrArg Face.cfg hf
  have hd : t.released.face.chipReset = t.face.dispatched := rfl
  rw [hc, ← hd, ← hf]; rfl

theorem dispatch_stop {m : Word32} {len : Nat} {arg2 : Word32} {s t : State} {f : Fault}
    (h : dispatchBody m len arg2 s = .error (.stop f) t) :
    exec (.seDispatch m len arg2) s = .fault f := by
  show runOrStop (seDispatch m len arg2) .code s = _
  have : seDispatch m len arg2 s = .error (.stop f) t := by
    unfold seDispatch outcomeOf
    rw [bind_run, catching_stop (by rw [bind_run, h])]
  rw [runOrStop, this]

theorem pinInstr_exec {c : Config.Params} {arg2 : Word32} (h : isPinMethod c arg2 = true) (r : Bytes) (s : State) :
    exec (pinInstr c arg2 r) s = runOrStop (do writeRec r; pinOperation c arg2) (fun _ => .unit) s := by
  unfold pinInstr pinOperation
  simp only [isPinMethod, Bool.or_eq_true, decide_eq_true_eq] at h
  split_ifs <;> first | rfl | tauto

/-- `pin_control` once its checks pass: the operation on the record taken in, the record given back or not, released (R180).
-/
theorem pinControl_run {s t : State} {len : Nat} {arg2 : Word32} {o : Except Err Unit} {r : Bytes}
    (hm : isPinMethod s.cfg arg2 = true)
    (hl : 276 ≤ len) (hr : hostBytes s.host.buf 0 276 = r)
    (hx : outcomeOf (pinOperation s.cfg arg2) { s with reg := { s.reg with record := r, recHeld := true } } = .ok o t)
    (ht : t.reg.recHeld = true) :
    pinControl len arg2 s = propagate o { t with
      host := if returnsRecord o then { t.host with buf := hostOverwrite t.host.buf t.reg.record } else t.host
      reg := { t.reg with record := zeros 276, recHeld := false } } := by
  unfold pinControl
  rw [bind_ok (getCfg_run s), if_neg (by rw [hm]; simp), if_neg (show ¬ len < Config.recordLen from Nat.not_lt.mpr hl)]
  rw [bind_ok (show hostRead 0 Config.recordLen s = .ok r s by rw [← hr]; rfl)]
  rw [bind_ok (show writeRec r s = .ok () { s with reg := { s.reg with record := r, recHeld := true } } from rfl)]
  rw [bind_ok hx]
  cases h : returnsRecord o with
  | true =>
    rw [if_pos rfl]
    rw [bind_ok (show readRec t = .ok t.reg.record t from readHeld_held ht)]
    rw [bind_ok (show hostWrite t.reg.record t = .ok () _ from rfl)]
    rfl
  | false => rfl

theorem pinControl_stop {s t : State} {len : Nat} {arg2 : Word32} {f : Fault} {r : Bytes} (hm : isPinMethod s.cfg arg2 = true)
    (hl : 276 ≤ len) (hr : hostBytes s.host.buf 0 276 = r)
    (hx : pinOperation s.cfg arg2 { s with reg := { s.reg with record := r, recHeld := true } } = .error (.stop f) t) :
    pinControl len arg2 s = .error (.stop f) t := by
  unfold pinControl
  rw [bind_ok (getCfg_run s), if_neg (by rw [hm]; simp), if_neg (show ¬ len < Config.recordLen from Nat.not_lt.mpr hl)]
  rw [bind_ok (show hostRead 0 Config.recordLen s = .ok r s by rw [← hr]; rfl)]
  rw [bind_ok (show writeRec r s = .ok () { s with reg := { s.reg with record := r, recHeld := true } } from rfl)]
  rw [bind_run]
  have : outcomeOf (pinOperation s.cfg arg2) { s with reg := { s.reg with record := r, recHeld := true } } = .error (.stop f) t := by
    unfold outcomeOf
    rw [catching_stop (by rw [bind_run, hx])]
  rw [this]

/-- A PIN operation leaves the record held, however it ends. -/
theorem pinOperation_held (c : Config.Params) (arg2 : Word32) (s : State) (hs : s.reg.recHeld = true) :
    (∀ a t, pinOperation c arg2 s = .ok a t → t.reg.recHeld = true)
    ∧ ∀ e t, pinOperation c arg2 s = .error e t → t.reg.recHeld = true := by
  have hk : PinKeeps True (fun _ => True) c arg2 := by
    have hJ := (keeps_trivial).held
    unfold PinKeeps pinOperation
    refine triple_ite (fun _ => triple_conseq (triple_setup hJ) (fun _ h => h) (fun _ _ h => h) (fun _ _ h => h)) (fun _ => ?_)
    refine triple_ite (fun _ => triple_login hJ (fun _ _ _ _ _ _ _ => trivial) (fun _ => trivial)) (fun _ => ?_)
    refine triple_ite (fun _ => triple_change hJ (fun _ _ _ _ _ _ _ => trivial) (fun _ => trivial)) (fun _ => ?_)
    exact triple_ite (fun _ => triple_fetchSecret hJ) (fun _ => triple_pinRaise (by simp))
  obtain ⟨h1, h2⟩ := hk s ⟨trivial, hs⟩
  exact ⟨fun a t h => (h1 a t h).2, fun e t h => (h2 e t h).1.2⟩

/-- The parameters are written by nothing. -/
theorem cfg_stable : Stable (fun a b : State => b.cfg = a.cfg) := by
  constructor
  case trans => exact fun _ _ _ h1 h2 => h2.trans h1
  all_goals intros; rfl

/-- `BOOT_SEED` is written by no operation (R32). -/
theorem seed_stable : Stable (fun a b : State => b.reg.bootSeed = a.reg.bootSeed) := by
  constructor
  case trans => exact fun _ _ _ h1 h2 => h2.trans h1
  case reg => exact fun _ _ h => h
  all_goals intros; rfl

/-- A method whose routine ends, dispatched: on every line. -/
theorem dispatch_method {s : State} {m : Word32} {len : Nat} {arg2 : Word32} {i : Instr} {x : Op Unit}
    (hx : ∀ u, exec i u = runOrStop x (fun _ => .unit) u) (hb : dispatchBody m len arg2 s = x s.delayed)
    (hR : Relates (fun a b : State => b.cfg = a.cfg) x) (hn : ∀ e t, x s.delayed = .error e t → ∀ f, e ≠ .stop f) :
    ∃ t u, exec i s.delayed = .next t ∧ exec .chipReset t.released = .next u
      ∧ exec (.seDispatch m len arg2) s = .next (u.endWith (.success (.code (codeOf s.cfg.code t.ctl.ending)))) := by
  have done (t : State) (o : Except Err Unit) (e : Ending) (hout : outcomeOf (dispatchBody m len arg2) s = .ok o t)
      (htc : t.cfg = s.cfg) (hc : ∀ c, codeOf c e = resultCode c o) :
      ∃ v, exec .chipReset (t.endWith e).released = .next v
        ∧ exec (.seDispatch m len arg2) s = .next (v.endWith (.success (.code (codeOf s.cfg.code (t.endWith e).ctl.ending)))) := by
    obtain ⟨v, hv, hl⟩ := chipReset_total t.released
    have hn := noted_chipReset { t.ctl with ending := e } t.released
    rw [hv] at hn
    refine ⟨(v.noted { t.ctl with ending := e }).endWith (.success .unit), ?_, ?_⟩
    · show run chipReset _ _ = _
      rw [run, show (t.endWith e).released = t.released.noted { t.ctl with ending := e } from rfl, hn]
    · rw [dispatch_of hout hv, hl.cfg]
      show Host.Outcome.next (State.endWith _ (.success (.code (resultCode t.cfg.code o)))) = Host.Outcome.next (State.endWith _ (.success (.code (codeOf s.cfg.code e))))
      rw [hc, htc]
      have hb : v.ctl = t.ctl := hl.ctl
      simp only [State.endWith, State.noted, hb]
  rw [hx, runOrStop]
  have hcfg := hR s.delayed
  cases h : x s.delayed with
  | ok a t =>
    obtain ⟨v, h1, h2⟩ := done t (.ok a) (.success .unit) (outcome_ok (hb.trans h)) (hcfg.1 a t h) (fun _ => rfl)
    exact ⟨_, v, rfl, h1, h2⟩
  | error e t =>
    have hne := hn e t h
    obtain ⟨v, h1, h2⟩ := done t (.error e) (.error e) (outcome_error (hb.trans h) hne) (hcfg.2 e t h) (fun _ => rfl)
    refine ⟨t.endWith (.error e), v, ?_, h1, h2⟩
    cases e <;> first | rfl | exact absurd rfl (hne _)

end Sys2Proof.Machine
end

