-- ==== Sys2Proof/Laws/Call.lean ====
section
/-! SUPPORT. Each reader of operands takes exactly what the encoder of its kind puts, and leaves the rest. -/

namespace Sys2Proof

open Sys2Proof.Machine

/-- A reader that succeeds hands what it read, and what is left, to the one after it. -/
theorem reader_bind {α β : Type} {x : Reader α} {k : α → Reader β} {b r : Bytes} {a : α} (h : x b = .ok (a, r)) :
    (x >>= k) b = k a r := by
  simp only [bind, StateT.bind, h, Except.bind]

theorem reader_pure {α : Type} (a : α) (b : Bytes) : (pure a : Reader α) b = .ok (a, b) := rfl

theorem getByte_cons (v : Byte) (r : Bytes) : getByte (v :: r) = .ok (v, r) := rfl

theorem getByte_single (v : Byte) (r : Bytes) : getByte ([v] ++ r) = .ok (v, r) := rfl

theorem getWord16_put (v : Word16) (r : Bytes) : getWord16 (u16le v ++ r) = .ok (v, r) := by
  show Except.ok (word16 (v.extractLsb' 0 8) (v.extractLsb' 8 8), r) = _
  rw [word16_u16le]

theorem getWord32_put (v : Word32) (r : Bytes) : getWord32 (u32le v ++ r) = .ok (v, r) := by
  have := le32_u32le v
  show Except.ok (le32 (u32le v), r) = _
  rw [this]

theorem getNat_put {n : Nat} (h : fits32 n = true) (r : Bytes) : getNat (putNat n ++ r) = .ok (n, r) := by
  have hn : n < 2 ^ 32 := of_decide_eq_true h
  unfold getNat putNat
  rw [reader_bind (getWord32_put _ r), reader_pure, BitVec.toNat_ofNat, Nat.mod_eq_of_lt hn]

theorem getFixed_put {n : Nat} {b : Bytes} (h : b.length = n) (r : Bytes) : getFixed n (b ++ r) = .ok (b, r) := by
  subst h
  unfold getFixed
  rw [if_pos (by simp), List.take_left, List.drop_left]

theorem getBytes_put {b : Bytes} (h : lenFits b = true) (r : Bytes) : getBytes (putBytes b ++ r) = .ok (b, r) := by
  unfold getBytes putBytes
  rw [List.append_assoc, reader_bind (getNat_put h _), getFixed_put rfl]

theorem getClose_put (c : Close) (r : Bytes) : getClose (putClose c ++ r) = .ok (c, r) := by
  cases c <;> rfl

theorem getExpect_put {e : Expect} (h : e.wf = true) (r : Bytes) : getExpect (putExpect e ++ r) = .ok (e, r) := by
  cases e with
  | status => rfl
  | data n =>
    have hn : fits32 n = true := (Bool.and_eq_true _ _ ▸ h : _ ∧ _).2
    exact (reader_bind (getByte_cons 1 _)).trans (reader_bind (getNat_put hn r))
  | raw n =>
    have hn : fits32 n = true := (Bool.and_eq_true _ _ ▸ h : _ ∧ _).2
    exact (reader_bind (getByte_cons 2 _)).trans (reader_bind (getNat_put hn r))

end Sys2Proof
end

