-- ==== Sys2Proof/Laws/Params.lean ====
section
/-! SUPPORT. What well-formed parameters give, one constraint each (spec/00_scope.md R8, spec/10_state.md R18, R20, R21). -/

namespace Sys2Proof

open Sys2Proof.Config (Params Layout)

variable {c : Params}

theorem wf_pulses (h : c.wf = true) : c.pulse0 ≠ c.pulse1 := by
  simp only [Params.wf, Bool.and_eq_true, decide_eq_true_eq] at h
  tauto

theorem wf_flagBytes (h : c.wf = true) :
    ([some c.ioflagCmd, some c.ioflagIdle, some c.ioflagSleep, c.ioflagTx] : List (Option Byte)).Nodup := by
  simp only [Params.wf, Bool.and_eq_true, decide_eq_true_eq] at h
  tauto

theorem wf_dataLen (h : c.wf = true) : c.maxDataLen ≤ 248 := by
  simp only [Params.wf, Bool.and_eq_true, decide_eq_true_eq] at h
  tauto

theorem wf_infoLen (h : c.wf = true) : 1 ≤ c.infoRawLen := by
  simp only [Params.wf, Bool.and_eq_true, decide_eq_true_eq] at h
  tauto

theorem wf_opcodes (h : c.wf = true) : ([c.op.read, c.op.write, c.op.nonce, c.op.genDig, c.op.checkMac, c.op.counter,
    c.op.selfTest, c.op.lock, c.op.info] : List Byte).Nodup := by
  simp only [Params.wf, Bool.and_eq_true, decide_eq_true_eq] at h
  tauto

theorem wf_status (h : c.wf = true) : ([0, c.st.miscompare, c.st.parse, c.st.eccFault, c.st.selfTest, c.st.exec, c.st.wake,
    c.st.watchdog, c.st.comm] : List Byte).Nodup := by
  simp only [Params.wf, Bool.and_eq_true, decide_eq_true_eq] at h
  tauto

theorem wf_slots (h : c.wf = true) : ([c.slot.pairing, c.slot.kdf, c.slot.pinHash, c.slot.pinAttempt, c.slot.lastgood,
    c.slot.matchCount, c.slot.seed, c.slot.keyPlain] : List SlotId).Nodup := by
  simp only [Params.wf, Bool.and_eq_true, decide_eq_true_eq] at h
  tauto

theorem wf_methods (h : c.wf = true) : ([c.method.pinControl, c.method.readSeSlot, c.method.getRandomBytes,
    c.method.isBricked] : List Word32).Nodup := by
  simp only [Params.wf, Bool.and_eq_true, decide_eq_true_eq] at h
  tauto

theorem wf_pinFields (h : c.wf = true) : c.maxPinLen ≤ c.layout.pin.size ∧ c.maxPinLen ≤ c.layout.oldPin.size
    ∧ c.maxPinLen ≤ c.layout.newPin.size := by
  simp only [Params.wf, Bool.and_eq_true, decide_eq_true_eq] at h
  tauto

theorem wf_secrets (h : c.wf = true) : c.rom.pairingSecret.length = Config.pairingLen
    ∧ c.rom.seSerial.length = Config.seSerialLen ∧ c.rom.otpKey.length = Config.otpKeyLen
    ∧ c.rom.hashCacheSecret.length = Config.hashCacheLen := by
  simp only [Params.wf, Bool.and_eq_true, decide_eq_true_eq] at h
  tauto

theorem wf_secretField {l : Layout} (h : l.wf = true) : l.secret.size = 72 ∧ l.secret.off + l.secret.size ≤ 276 := by
  simp only [Layout.wf, Bool.and_eq_true, decide_eq_true_eq, List.all_eq_true] at h
  exact ⟨h.2.2.2, h.1.1.1.2 _ (by simp [Layout.fields])⟩

end Sys2Proof
end

