-- ==== Sys2Proof/Laws/ExecKeeps.lean ====
section
/-! SUPPORT. What every operation keeps, if a transaction and the small writes around it keep it: one law for all the arms of
`exec`, and what a stop can be. -/

namespace Sys2Proof.Machine

/-! ### One operation run to its end -/

theorem kept_run {α : Type} {J : State → Prop} {x : Op α} {v : α → Value} {s t : State} {Q : α → State → Prop}
    {E : Err → State → Prop} (hx : Triple J x Q E) (hQ : ∀ a t, Q a t → J t) (hE : ∀ e t, E e t → J t)
    (hJ : ∀ s e, J s → J (s.endWith e)) (hs : J s) (h : run x v s = .next t) : J t := by
  unfold run at h
  injection h with h
  subst h
  cases hxs : x s with
  | ok a u => exact hJ _ _ (hQ _ _ ((hx s hs).1 a u hxs))
  | error e u => exact hJ _ _ (hE _ _ ((hx s hs).2 e u hxs))

theorem kept_runOrStop {α : Type} {J : State → Prop} {x : Op α} {v : α → Value} {s t : State} {Q : α → State → Prop}
    {E : Err → State → Prop} (hx : Triple J x Q E) (hQ : ∀ a t, Q a t → J t) (hE : ∀ e t, E e t → J t)
    (hJ : ∀ s e, J s → J (s.endWith e)) (hs : J s) (h : runOrStop x v s = .next t) : J t := by
  unfold runOrStop at h
  cases hxs : x s with
  | ok a u =>
    rw [hxs] at h
    injection h with h
    subst h
    exact hJ _ _ (hQ _ _ ((hx s hs).1 a u hxs))
  | error e u =>
    rw [hxs] at h
    have : J u := hE _ _ ((hx s hs).2 e u hxs)
    cases e <;> first | (injection h with h; subst h; exact hJ _ _ this) | cases h

theorem stops_runOrStop {α : Type} {J : State → Prop} {x : Op α} {v : α → Value} {s : State} {f : Fault}
    {Q : α → State → Prop} {E : Err → State → Prop} (hx : Triple J x Q E)
    {B : Prop} (hE : ∀ f t, E (.stop f) t → B) (hs : J s) (h : runOrStop x v s = .fault f) : B := by
  unfold runOrStop at h
  cases hxs : x s with
  | ok a u => rw [hxs] at h; cases h
  | error e u =>
    rw [hxs] at h
    have := (hx s hs).2 e u hxs
    cases e <;> first | (cases h; exact hE _ _ this) | cases h

variable {W : Prop} {A : Config.Params → Byte → Word16 → Prop} {M : Bytes → Prop} {J : State → Prop}

/-- What an operation's operands must admit: the message a `send` sends, the block a `Write` names. -/
def Admits (A : Config.Params → Byte → Word16 → Prop) (M : Bytes → Prop) (J : State → Prop) : Instr → Prop
  | .send bytes => M bytes
  | .transact opcode _ p2 _ _ _ => ∀ s, J s → A s.cfg opcode p2
  | .write slot block _ _ => ∀ s, J s → A s.cfg s.cfg.op.write (p2Addr s.cfg slot block)
  | .writeMac slot block _ _ _ => ∀ s, J s → A s.cfg s.cfg.op.write (p2Addr s.cfg slot block)
  | .encryptedWrite slot _ _ data => ∀ s i, J s → i < data.length / 32 → A s.cfg s.cfg.op.write (p2Addr s.cfg slot i)
  | .login _ => Stores A (fun s => J s ∧ s.reg.recHeld = true) updateBlocks
  | .change _ => Stores A (fun s => J s ∧ s.reg.recHeld = true) changeBlocks
  | .seDispatch method _ arg2 => ∀ s t, J s → J t → method = s.cfg.method.pinControl → PinKeeps True J t.cfg arg2
  | _ => True

/-- Every operation that goes on keeps what its pieces keep. -/
theorem exec_keeps (hH : KeepsHost W A J) (hL : LineOps W M J)
    (hT : ∀ o p q d e c, (W → d.length ≤ 248) → (∀ s, J s → A s.cfg o q) →
      Triple J (transact o p q d e c) (fun _ t => J t) (fun _ t => J t))
    (hJ : ∀ s e, J s → J (s.endWith e)) (i : Instr) (hi : W → i.wf = true) (hA : Admits A M J i) (s t : State) (hs : J s)
    (h : exec i s = .next t) : J t := by
  have hK := hH.toKeeps
  have line {α : Type} {x : Op α} {v : α → Value} {Q : α → State → Prop} (hx : Triple J x Q (LineFail J))
      (hQ : ∀ a t, Q a t → J t) (h : run x v s = .next t) : J t := kept_run hx hQ (fun _ _ h => h.1) hJ hs h
  have link {α : Type} {x : Op α} {v : α → Value} {Q : α → State → Prop} (hx : Triple J x Q (LinkFail J))
      (hQ : ∀ a t, Q a t → J t) (h : run x v s = .next t) : J t := kept_run hx hQ (fun _ _ h => h.1) hJ hs h
  have ses {α : Type} {x : Op α} {v : α → Value} {Q : α → State → Prop} (hx : Triple J x Q (SessionFail J))
      (hQ : ∀ a t, Q a t → J t) (h : runOrStop x v s = .next t) : J t := kept_runOrStop hx hQ (fun _ _ h => h.1) hJ hs h
  have pin {x : Op Unit} {r : Bytes} (hr : W → r.length = 276)
      (hx : Triple (fun s => J s ∧ s.reg.recHeld = true) x (fun _ t => J t ∧ t.reg.recHeld = true)
        (PinFail True (fun t => J t ∧ t.reg.recHeld = true)))
      (h : runOrStop (do writeRec r; x) (fun _ => .unit) s = .next t) : J t :=
    kept_runOrStop (triple_onRecord hK r hr hx) (fun _ _ h => h.1) (fun _ _ h => h.1.1) hJ hs h
  have hR := hK.held
  have blk {b : Bytes} (h : isBlock b = true) : b.length = 32 := of_decide_eq_true h
  cases i with
  | serialize b =>
    exact kept_run (E := fun _ t => J t) (triple_bind (Q := fun _ t => J t) (triple_getCfg (fun _ h => h))
      (fun _ => triple_pure (Q := fun _ t => J t) (fun _ h => h))) (fun _ _ h => h) (fun _ _ h => h) hJ hs h
  | deserialize => exact kept_run (E := fun _ t => J t) (triple_deserialize hL _ _) (fun _ _ h => h.1) (fun _ _ h => h) hJ hs h
  | send bytes => exact line (hL.send bytes hA) (fun _ _ h => h) h
  | receive n =>
    exact line (triple_receive hL n) (fun _ _ h => h.1) h
  | wake => exact line hL.wake (fun _ _ h => h) h
  | idle => exact line (triple_idle hL) (fun _ _ h => h) h
  | sleep => exact line (triple_sleep hL) (fun _ _ h => h) h
  | crc16 => exact kept_run (E := fun _ t => J t) (triple_crc16 hL _ _) (fun _ _ h => h) (fun _ _ h => h) hJ hs h
  | encodeCommand o p q d =>
    simp only [exec, execEncodeCommand] at h
    split at h
    · exact kept_run (E := fun _ t => J t) (triple_encodeCommand hL o p q d (fun w => by
        have := wf_dataLen (hH.wide w s hs).1
        omega)) (fun _ _ h => h.1) (fun _ _ h => h) hJ hs h
    · cases h
  | decodeResponse => exact kept_run (triple_decodeResponse hL _ _) (fun _ _ h => h.1) (fun _ _ h => h.1) hJ hs h
  | transact o p q d e c =>
    simp only [exec, execTransact] at h
    split at h
    · exact kept_run (hT o p q d e c (fun w => by
        have := wf_dataLen (hH.wide w s hs).1
        omega) hA)
        (fun _ _ h => h) (fun _ _ h => h) hJ hs h
    · cases h
  | read => exact link (triple_read hK _ _ _) (fun _ _ h => h.1) h
  | write sl b d c =>
    exact link (triple_write hK sl b d c (fun w => by
      have := hi w
      simp only [Instr.wf, Bool.and_eq_true] at this
      rw [blk this.2]
      omega) hA) (fun _ _ h => h) h
  | writeMac sl b d m c =>
    exact link (triple_writeMac hK sl b d m c (fun w => by
      have := hi w
      simp only [Instr.wf, Bool.and_eq_true] at this
      rw [List.length_append, blk this.1.2, blk this.2]
      omega) hA) (fun _ _ h => h) h
  | nonce n c =>
    exact link (triple_nonce hK n c (fun w => Nat.le_trans (Nat.le_of_eq (of_decide_eq_true (hi w))) (by decide)))
      (fun _ _ h => h.1) h
  | genDig => exact link (triple_genDig hK _ _) (fun _ _ h => h) h
  | genDigCounter => exact link (triple_genDigCounter hK _ _) (fun _ _ h => h) h
  | checkMac k b c =>
    exact link (triple_checkMac hK k b c (fun w => Nat.le_trans (Nat.le_of_eq (of_decide_eq_true (hi w))) (by decide)))
      (fun _ _ h => h) h
  | macGen => exact link (triple_macGen hK _ _) (fun _ _ h => h.1) h
  | counterRead => exact link (triple_counterRead hK _) (fun _ _ h => h) h
  | counterIncr => exact link (triple_counterIncr hK _) (fun _ _ h => h) h
  | selfTest => exact link (triple_selfTest hK _) (fun _ _ h => h) h
  | lock => exact link (triple_lock hK _ _ _) (fun _ _ h => h) h
  | info c =>
    exact link (triple_info hK c) (fun _ _ h => h) h
  | keyedHash k m c =>
    exact link (triple_keyedHash hK k m c (fun w => by rw [blk (hi w)]; omega)) (fun _ _ h => h.1) h
  | keyedHashEnd m c =>
    exact link (triple_keyedHashEnd hK m c (fun w => by rw [blk (hi w)]; omega)) (fun _ _ h => h.1) h
  | chipReset => exact kept_run hH.reset (fun _ _ h => h) (fun _ _ h => h.elim) hJ hs h
  | pickNonce n =>
    exact ses (triple_pickNonce hK n (fun w => Nat.le_trans (Nat.le_of_eq (of_decide_eq_true (hi w))) (by decide)))
      (fun _ _ h => h.1) h
  | gendigSlot => exact ses (triple_gendigSlot hK _ _) (fun _ _ h => h.1) h
  | ctEqual a b =>
    exact kept_run (E := fun _ t => J t) (triple_pure (Q := fun _ t => J t) (fun _ h => h)) (fun _ _ h => h) (fun _ _ h => h)
      hJ hs h
  | isCorrectTempkey => exact ses (triple_isCorrectTempkey hK _) (fun _ _ h => h) h
  | checkmac => exact ses (triple_checkmac hK _ _) (fun _ _ h => h) h
  | pairUnlock => exact ses (triple_pairUnlock hK) (fun _ _ h => h) h
  | encryptedRead => exact ses (triple_encryptedRead hK _ _ _ _) (fun _ _ h => h) h
  | encryptedWrite sl a k d => exact ses (triple_encryptedWrite hK sl a k d hA) (fun _ _ h => h) h
  | mixin k b =>
    exact ses (triple_mixin hK k b (fun w => by rw [blk (hi w)]; omega)) (fun _ _ h => h.1) h
  | stretch v n =>
    exact ses (triple_stretch hK v n (fun w => by
      have := hi w
      simp only [Instr.wf, Bool.and_eq_true] at this
      rw [blk this.1]
      omega)) (fun _ _ h => h.1) h
  | authReadSlot => exact ses (triple_authReadSlot hK _) (fun _ _ h => h) h
  | authReadCounter => exact ses (triple_authReadCounter hK) (fun _ _ h => h) h
  | addCounter => exact ses (triple_addCounter hK _) (fun _ _ h => h) h
  | gendigCounter => exact ses (triple_gendigCounter hK _) (fun _ _ h => h.1) h
  | setup r => exact pin (fun w => of_decide_eq_true (hi w)) (triple_setup hR) h
  | login r => exact pin (fun w => of_decide_eq_true (hi w)) (triple_login hR hA (fun _ => trivial)) h
  | change r => exact pin (fun w => of_decide_eq_true (hi w)) (triple_change hR hA (fun _ => trivial)) h
  | fetchSecret r => exact pin (fun w => of_decide_eq_true (hi w)) (triple_fetchSecret hR) h
  | seDispatch m n a =>
    exact kept_runOrStop (triple_seDispatch hH m n a hA) (fun _ _ h => h) (fun _ _ h => h.1) hJ hs h
  | cmdReadSeSlot => exact kept_runOrStop (triple_readSeSlot (B := True) hH _ _) (fun _ _ h => h) (fun _ _ h => h.1) hJ hs h
  | cmdGetRandomBytes =>
    exact kept_run (E := fun _ t => J t) (triple_getRandomBytes hH _) (fun _ _ h => h) (fun _ _ h => h) hJ hs h
  | cmdIsBricked => exact kept_runOrStop (triple_unlockOrBrick (B := True) hK) (fun _ _ h => h) (fun _ _ h => h.1) hJ hs h

/-! ### Three that are used -/

theorem host_trivial : KeepsHost False AnyCommand (fun _ => True) :=
  { toKeeps := keeps_trivial, buf := fun _ _ _ => trivial, release := fun _ _ => trivial, reset := fun s _ => by
      obtain ⟨t, h, _⟩ := chipReset_total s
      rw [h]; exact ⟨fun _ _ _ => trivial, fun _ _ e => by cases e⟩ }

/-- Every PIN operation keeps what admits every command. -/
theorem pinKeeps_any {W : Prop} {J : State → Prop} (hJ : KeepsRec W AnyCommand (fun s => J s ∧ s.reg.recHeld = true))
    (c : Config.Params) (arg2 : Word32) : PinKeeps True J c arg2 := by
  unfold PinKeeps pinOperation
  refine triple_ite (fun _ => triple_setup hJ) (fun _ => ?_)
  refine triple_ite (fun _ => triple_login hJ (fun _ _ _ _ _ _ _ => trivial) (fun _ => trivial)) (fun _ => ?_)
  refine triple_ite (fun _ => triple_change hJ (fun _ _ _ _ _ _ _ => trivial) (fun _ => trivial)) (fun _ => ?_)
  exact triple_ite (fun _ => triple_fetchSecret hJ) (fun _ => triple_pinRaise (by simp))

theorem good_end (s : State) (e : Ending) (h : Good s) : Good (s.endWith e) := good_of h (fun h => { h with }) rfl rfl rfl

theorem host_good : KeepsHost True AnyCommand Good :=
  { toKeeps := keeps_good
    buf := fun _ _ h => good_of h (fun h => { h with }) rfl rfl rfl
    release := fun _ h => good_of h (fun h => { h with record := zeros_len 276 }) rfl rfl rfl
    reset := triple_chipReset line_good.ops good_afterChipReset }

/-! ### The parameters, and the mark of R41 -/

theorem seq_cfg (c : Config.Params) : SeqKeeps False (fun s => s.cfg = c) := by
  constructor
  case toLineKeeps => constructor <;> intros <;> assumption
  all_goals intros; assumption

theorem keeps_cfg (c : Config.Params) : Keeps False AnyCommand (fun s => s.cfg = c) where
  wide h := h.elim
  plain _ _ _ _ _ := trivial
  transact o p q d e cl _ s hs := triple_transact (seq_cfg c) o p q d e cl (fun h => h.elim) s hs.1
  env _ _ h := h
  tk _ _ _ h := h
  clear _ h := h
  digest _ _ _ h := h
  cache _ _ _ h := h
  record _ _ _ h := h

theorem host_cfg (c : Config.Params) : KeepsHost False AnyCommand (fun s => s.cfg = c) where
  toKeeps := keeps_cfg c
  buf _ _ h := h
  release _ h := h
  reset := fun s hs => by
    obtain ⟨v, hv, hl⟩ := chipReset_total s
    rw [hv]
    exact ⟨fun _ _ e => (by cases e; exact hl.cfg.trans hs), fun _ _ e => by cases e⟩

theorem seq_unmeant (c : Bool) : SeqKeeps False (fun s => s.ctl.unmeant = c) := by
  constructor
  case toLineKeeps => constructor <;> intros <;> assumption
  all_goals intros; assumption

theorem keeps_unmeant (c : Bool) : Keeps False AnyCommand (fun s => s.ctl.unmeant = c) where
  wide h := h.elim
  plain _ _ _ _ _ := trivial
  transact o p q d e cl _ s hs := triple_transact (seq_unmeant c) o p q d e cl (fun h => h.elim) s hs.1
  env _ _ h := h
  tk _ _ _ h := h
  clear _ h := h
  digest _ _ _ h := h
  cache _ _ _ h := h
  record _ _ _ h := h

theorem host_unmeant (c : Bool) : KeepsHost False AnyCommand (fun s => s.ctl.unmeant = c) where
  toKeeps := keeps_unmeant c
  buf _ _ h := h
  release _ h := h
  reset := triple_chipReset (seq_unmeant c).toLineKeeps.ops (fun _ h => h)

/-- The decoder gives well-formed operations. -/
theorem decode_wf {words : Bytes} {i : Instr} (h : decode words = .ok i) : i.wf = true := by
  unfold decode at h
  split at h
  · cases h
  next j rest hp =>
    cases h
    unfold decodePrefix at hp
    split at hp
    · cases hp
    · split at hp
      · cases hp
      · split at hp
        · cases hp; assumption
        · cases hp

end Sys2Proof.Machine
end

