-- ==== Sys2Proof/Laws/Frame.lean ====
section
/-! SUPPORT. Under an honest WIRE the slots change only where a Write command of the block's own names them
(spec/20_memory.md R52, R60). -/

namespace Sys2Proof.Machine

open Sys2Proof.Config (Params OutMove)

/-! ### Draws counted -/

/-- How far a stream has been drawn. -/
def Draws.drawn {α : Type} (d : Draws α) : Int := d.taken - d.script.length

theorem drawn_next {α : Type} (free : Nat → α) (d : Draws α) : (d.next free).2.drawn = d.drawn + 1 := by
  unfold Draws.next Draws.drawn
  cases d.script with
  | nil => simp
  | cons x xs => simp only [List.length_cons]; omega

theorem drawn_after {α : Type} (free : Nat → α) (n : Nat) (d : Draws α) : (d.after free n).drawn = d.drawn + n := by
  induction n generalizing d with
  | zero => simp [Draws.after, Draws.nextMany]
  | succ n ih => rw [after_succ, ih, drawn_next]; omega

theorem after_inj {α : Type} {free : Nat → α} {m n : Nat} {d : Draws α} (h : d.after free m = d.after free n) : m = n := by
  have h1 := drawn_after free m d
  rw [h, drawn_after] at h1
  omega

/-! ### What a message says to the chip -/

theorem parse_prefix {c : Params} {o p : Byte} {q : Word16} {d : Bytes} {n : Nat} {cmd : Command}
    (h : parseCommand c ((commandFrame c o p q d).take n) = some cmd) : cmd.opcode = o ∧ cmd.p2 = q := by
  have e : commandFrame c o p q d = c.ioflagCmd :: BitVec.ofNat 8 (d.length + 7) :: o :: p :: q.extractLsb' 0 8
      :: q.extractLsb' 8 8 :: (d ++ u16le (frameCrc c (commandBody o p q d))) := rfl
  rw [e] at h
  match n with
  | 0 => cases h
  | 1 => cases h
  | 2 => cases h
  | 3 => cases h
  | 4 => cases h
  | 5 => cases h
  | n + 6 =>
    simp only [List.take_succ_cons, parseCommand] at h
    split at h
    · cases h
      exact ⟨rfl, word16_u16le q⟩
    · cases h

theorem parse_token {c : Params} {b : Byte} {n : Nat} : parseCommand c ([b].take n) = none := by
  cases n with
  | zero => rfl
  | succ n => rw [List.take_succ_cons, List.take_nil]; rfl

theorem cleanBytes_prefix {c : Params} (hc : c.pulse0 ≠ c.pulse1) (bs : Bytes) (k n : Nat) (msg : Bytes)
    (h : cleanBytes c k ((serializeBytes c bs).take n) = some msg) : ∃ m, msg = bs.take m := by
  induction bs generalizing k n msg with
  | nil =>
    refine ⟨0, ?_⟩
    rw [serializeBytes_nil, List.take_nil] at h
    cases k with
    | zero => cases h; rfl
    | succ k => cases h; rfl
  | cons b bs ih =>
    cases k with
    | zero =>
      simp only [cleanBytes] at h
      split at h
      · cases h; exact ⟨0, rfl⟩
      · cases h
    | succ k =>
      simp only [cleanBytes] at h
      split at h
      · cases h; exact ⟨0, rfl⟩
      split at h
      · cases h
      next hne hlt =>
      have hn : 8 ≤ n := by
        rw [List.length_take] at hlt
        simp only [Config.pulsesPerByte] at hlt
        omega
      obtain ⟨m, rfl⟩ : ∃ m, n = 8 + m := ⟨n - 8, by omega⟩
      have h8 : (serializeByte c b).length = 8 := serializeByte_length c b
      have e1 : ((serializeBytes c (b :: bs)).take (8 + m)).take Config.pulsesPerByte = serializeByte c b := by
        rw [show Config.pulsesPerByte = 8 from rfl, List.take_take, Nat.min_eq_left (by omega), serializeBytes_cons, List.take_append_of_le_length (by omega),
          List.take_of_length_le (by omega)]
      have e2 : ((serializeBytes c (b :: bs)).take (8 + m)).drop Config.pulsesPerByte = (serializeBytes c bs).take m := by
        rw [show Config.pulsesPerByte = 8 from rfl, List.drop_take, Nat.add_sub_cancel_left, serializeBytes_cons, ← h8, List.drop_left]
      split at h
      · split at h
        · next rest hr =>
          cases h
          rw [e2] at hr
          obtain ⟨m', rfl⟩ := ih k m rest hr
          refine ⟨m' + 1, ?_⟩
          rw [e1, bits_of_serializeByte hc, byteOfBits_bits, List.take_succ_cons]
        · cases h
      · cases h

/-! ### What the chip stores -/

theorem memByte_store {m : List Host.Cell} (hm : memWf m = true) {p2 : Word16} {v : Bytes} (hv : v.length ≤ 32) {a : Nat}
    (ha : ¬ inBlock p2 a) : memByte (memWrite m (blockBase p2) v) a = memByte m a := by
  rw [memByte_memWrite hm, if_neg]
  rintro ⟨h1, h2⟩
  exact ha ⟨h1, by simp only [Config.blockLen]; omega⟩

theorem slots_ite {p : Prop} [Decidable p] {x y : Reply × Chip} {m : List Host.Cell} {a : Nat}
    (hx : p → memByte x.2.slots a = memByte m a) (hy : ¬ p → memByte y.2.slots a = memByte m a) :
    memByte (if p then x else y).2.slots a = memByte m a := by
  split
  · exact hx ‹_›
  · exact hy ‹_›

/-- A command stores to the block it names, if it is a Write, and nowhere else (R52, R60). -/
theorem perform_slots (c : Params) (ch : Chip) (cmd : Command) (hm : memWf ch.slots = true) {a : Nat}
    (ha : cmd.opcode = c.op.write → ¬ inBlock cmd.p2 a) : memByte (ch.perform c cmd).2.slots a = memByte ch.slots a := by
  have same (k : Chip) (hk : k.slots = ch.slots) : memByte k.slots a = memByte ch.slots a := by rw [hk]
  unfold Chip.perform
  refine slots_ite (fun _ => rfl) (fun _ => slots_ite (fun _ => same _ ?_) (fun _ => slots_ite (fun h => ?_) (fun _ =>
    slots_ite (fun h => ?_) (fun _ => slots_ite (fun _ => same _ ?_) (fun _ => slots_ite (fun _ => same _ ?_) (fun _ =>
    slots_ite (fun _ => same _ ?_) (fun _ => slots_ite (fun _ => same _ ?_) (fun _ => slots_ite (fun _ => same _ ?_)
    (fun _ => slots_ite (fun _ => same _ ?_) (fun _ => slots_ite (fun _ => same _ ?_) (fun _ => slots_ite (fun _ => same _ ?_)
    (fun _ => slots_ite (fun _ => same _ ?_) (fun _ => slots_ite (fun _ => same _ ?_) (fun _ => slots_ite (fun _ => same _ ?_)
    (fun _ => slots_ite (fun _ => same _ ?_) (fun _ => rfl))))))))))))))))
  · unfold Chip.doRead
    dsimp only
    split
    · split
      · rfl
      · split <;> rfl
      · rfl
    · rfl
  · refine slots_ite (fun h' => memByte_store hm (Nat.le_of_eq h'.2.2) (ha h.1)) (fun _ => rfl)
  · refine slots_ite (fun h' => slots_ite (fun _ => memByte_store hm ?_ (ha h.1)) (fun _ => rfl)) (fun _ => rfl)
    simp only [xorBytes, List.length_zipWith, List.length_take, Config.blockLen]
    omega
  · unfold Chip.doNonce; split <;> rfl
  · unfold Chip.doGenDig; split <;> rfl
  · unfold Chip.doGenDigCounter; split <;> rfl
  · unfold Chip.doCheckMac; split
    · dsimp only; split <;> rfl
    · rfl
  · unfold Chip.doMacGen; split <;> rfl
  · unfold Chip.doCounterRead; split <;> rfl
  · unfold Chip.doCounterIncr; split <;> rfl
  · rfl
  · rfl
  · rfl
  · unfold Chip.doHashStart; split
    · split
      · split <;> rfl
      · rfl
    · rfl
  · unfold Chip.doHashEnd; split
    · split <;> rfl
    · rfl

theorem hearAwake_slots (c : Params) (ch : Chip) (msg : Bytes) (hm : memWf ch.slots = true) {a : Nat}
    (ha : ∀ cmd, parseCommand c msg = some cmd → cmd.opcode = c.op.write → ¬ inBlock cmd.p2 a) :
    memByte (ch.hearAwake c msg).slots a = memByte ch.slots a := by
  unfold Chip.hearAwake
  split
  · rfl
  split
  · rfl
  split
  · rfl
  split
  · next cmd hcmd =>
    have hp (k : Chip) (hk : k.slots = ch.slots) : memByte (k.perform c cmd).2.slots a = memByte ch.slots a := by
      rw [← hk]
      exact perform_slots c k cmd (by rw [hk]; exact hm) (ha cmd hcmd)
    unfold Chip.command
    dsimp only
    split
    · exact hp _ rfl
    · next executed lost _ =>
      cases executed <;> cases lost <;> first | rfl | exact hp _ rfl
    · next executed answers _ =>
      cases executed <;> cases answers <;> first | rfl | exact hp _ rfl
  · split <;> rfl

theorem hear_slots (c : Params) (ch : Chip) (msg : Bytes) (hm : memWf ch.slots = true) {a : Nat}
    (ha : ∀ cmd, parseCommand c msg = some cmd → cmd.opcode = c.op.write → ¬ inBlock cmd.p2 a) :
    memByte (ch.hear c msg).slots a = memByte ch.slots a := by
  unfold Chip.hear
  split
  · dsimp only
    split
    · rfl
    · exact hearAwake_slots c ch.drawLapse.2 msg hm ha
  · rfl
  · rfl

theorem hearSymbols_slots (c : Params) (ch : Chip) (hc : c.pulse0 ≠ c.pulse1) (bs : Bytes) (n : Nat)
    (hm : memWf ch.slots = true) {a : Nat}
    (ha : ∀ m cmd, parseCommand c (bs.take m) = some cmd → cmd.opcode = c.op.write → ¬ inBlock cmd.p2 a) :
    memByte (ch.hearSymbols c ((serializeBytes c bs).take n)).slots a = memByte ch.slots a := by
  unfold Chip.hearSymbols
  split
  · next msg h =>
    obtain ⟨m, rfl⟩ := cleanBytes_prefix hc bs _ n msg h
    exact hear_slots c ch _ hm (ha m)
  · rfl

/-! ### Kept by every operation -/

/-- Since `s0`, WIRE was drawn on so many times; if it let everything through, the slots differ only inside `X`. -/
structure Honest (X : Nat → Prop) (s0 t : State) : Prop where
  inFlight : t.wire.inFlight = []
  cfg : t.cfg = s0.cfg
  wf : memWf t.chip.slots = true
  moves : ∃ n, t.wire.outMoves = s0.wire.outMoves.after Config.freeOutMove n
    ∧ (s0.wire.outMoves.ahead Config.freeOutMove n = List.replicate n OutMove.pass →
      ∀ a, ¬ X a → memByte t.chip.slots a = memByte s0.chip.slots a)

/-- A change that leaves the line's symbols, WIRE's moves and the slots. -/
theorem Honest.of {X : Nat → Prop} {s0 s t : State} (h : Honest X s0 s) (h1 : t.wire.inFlight = s.wire.inFlight)
    (h2 : t.cfg = s.cfg) (h3 : t.chip.slots = s.chip.slots) (h4 : t.wire.outMoves = s.wire.outMoves) : Honest X s0 t :=
  ⟨h1.trans h.inFlight, h2.trans h.cfg, by rw [h3]; exact h.wf, by rw [h3, h4]; exact h.moves⟩

/-- One more of WIRE's moves. -/
theorem Honest.move {X : Nat → Prop} {s0 s t : State} (h : Honest X s0 s) (h1 : t.wire.inFlight = []) (h2 : t.cfg = s.cfg)
    (h3 : memWf t.chip.slots = true) (h4 : t.wire.outMoves = (s.wire.outMoves.next Config.freeOutMove).2)
    (h5 : (s.wire.outMoves.next Config.freeOutMove).1 = OutMove.pass →
      ∀ a, ¬ X a → memByte t.chip.slots a = memByte s.chip.slots a) : Honest X s0 t := by
  obtain ⟨n, hn, hp⟩ := h.moves
  refine ⟨h1, h2.trans h.cfg, h3, n + 1, ?_, fun hall a ha => ?_⟩
  · rw [h4, hn, ← after_one, after_after]
  · rw [ahead_add, ahead_one, List.replicate_succ', ← hn] at hall
    obtain ⟨ha1, ha2⟩ := List.append_inj' hall rfl
    rw [h5 (List.cons.inj ha2).1 a ha, hp ha1 a ha]

/-- The messages that store only inside `X`. -/
def StoresIn (X : Nat → Prop) (c : Params) (bs : Bytes) : Prop :=
  ∀ m cmd, parseCommand c (bs.take m) = some cmd → cmd.opcode = c.op.write → ∀ a, inBlock cmd.p2 a → X a

theorem sendSymbols_prefix (xs : List Symbol) (s : State) : ∃ e w n, w.inFlight = s.wire.inFlight ++ xs.take n
    ∧ w.outMoves = s.wire.outMoves
    ∧ (sendSymbols xs s = .ok () { s with env := e, wire := w }
      ∨ sendSymbols xs s = .error (.busTimeout .tx) { s with env := e, wire := w }) := by
  induction xs generalizing s with
  | nil => exact ⟨s.env, s.wire, 0, by simp, rfl, .inl rfl⟩
  | cons x xs ih =>
    cases hst : (s.env.stall.next Config.freeStall).1 with
    | true =>
      refine ⟨{ s.env with stall := (s.env.stall.next Config.freeStall).2 }, s.wire, 0, by simp, rfl, .inr ?_⟩
      simp only [sendSymbols, bind_run, drawStall, hst, if_true, raise_run]
    | false =>
      obtain ⟨e, w, n, h1, h2, h⟩ := ih { s with
        env := { s.env with stall := (s.env.stall.next Config.freeStall).2 }
        wire := { s.wire with trace := s.wire.trace ++ [.sym x s.reg.baudsel], inFlight := s.wire.inFlight ++ [x] } }
      refine ⟨e, w, n + 1, by rw [h1, List.take_succ_cons, List.append_assoc]; rfl, h2, ?_⟩
      simp only [sendSymbols, bind_run, drawStall, hst, Bool.false_eq_true, if_false, lineTx, modifyState_run]
      exact h

theorem honest_send {X : Nat → Prop} {s0 : State} (hc : s0.cfg.pulse0 ≠ s0.cfg.pulse1) (bs : Bytes)
    (hb : StoresIn X s0.cfg bs) : Triple (Honest X s0) (send bs) (fun _ t => Honest X s0 t) (LineFail (Honest X s0)) := by
  intro s hs
  obtain ⟨e, w, n, h1, h2, h⟩ := sendSymbols_prefix (serializeBytes s.cfg bs) s
  rw [hs.inFlight, List.nil_append] at h1
  have hj : Honest X s0 (State.deliver { s with env := e, wire := w }) := by
    refine hs.move rfl rfl ?_ ?_ ?_
    · exact (moved_kept _ _ (fun d => hearSymbols_kept _ d _) _ _).wf hs.wf
    · simp only [State.deliver, h2]
    · intro hp a ha
      simp only [State.deliver, h2, hp, h1, Chip.moved]
      exact hearSymbols_slots s.cfg s.chip (by rw [hs.cfg]; exact hc) bs n hs.wf
        (fun m cmd hm ho hin => ha (hb m cmd (by rw [← hs.cfg]; exact hm) (by rw [← hs.cfg]; exact ho) a hin))
  rcases h with h | h
  · have : send bs s = .ok () (State.deliver { s with env := e, wire := w }) := by unfold send; rw [h]
    rw [this]
    exact ⟨fun _ _ e => (by cases e; exact hj), fun _ _ e => by cases e⟩
  · have : send bs s = .error (.busTimeout .tx) (State.deliver { s with env := e, wire := w }) := by unfold send; rw [h]
    rw [this]
    exact ⟨fun _ _ e => (by cases e), fun _ _ e => by cases e; exact ⟨hj, _, rfl⟩⟩

theorem wakeUp_slots (c : Params) (ch : Chip) : (ch.wakeUp c).slots = ch.slots := by
  unfold Chip.wakeUp
  split
  · dsimp only
    split
    · rfl
    · split <;> rfl
  · rfl
  · rfl

theorem answer_slots (c : Params) (ch : Chip) : (ch.answer c).2.slots = ch.slots := by
  unfold Chip.answer
  split
  · split
    · dsimp only
      split <;> rfl
    · rfl
  · rfl
  · rfl

theorem honest_wake {X : Nat → Prop} {s0 : State} :
    Triple (Honest X s0) wake (fun _ t => Honest X s0 t) (LineFail (Honest X s0)) := by
  intro s hs
  cases hst : (s.env.stall.next Config.freeStall).1 with
  | true =>
    have : wake s = .error (.busTimeout .tx) { s with
        env := { s.env with stall := (s.env.stall.next Config.freeStall).2 }, reg := { s.reg with baudsel := false } } := by
      simp only [wake, bind_run, modifyReg_run, drawStall, hst, if_true, raise_run]
    rw [this]
    exact ⟨fun _ _ e => (by cases e), fun _ _ e => by cases e; exact ⟨hs.of rfl rfl rfl rfl, _, rfl⟩⟩
  | false =>
    have : wake s = .ok () { s with
        env := { s.env with stall := (s.env.stall.next Config.freeStall).2 }
        wire := { s.wire with
          trace := s.wire.trace ++ [.low true]
          outMoves := (s.wire.outMoves.next Config.freeOutMove).2
          arrived := [] }
        chip := s.chip.moved s.cfg (fun d => d.wakeUp s.cfg) (s.wire.outMoves.next Config.freeOutMove).1
        reg := { s.reg with baudsel := false, lstate := .awake } } := by
      simp only [wake, bind_run, modifyReg_run, drawStall, hst, Bool.false_eq_true, if_false, lineLow, modifyState_run,
        discardArrived]
    rw [this]
    refine ⟨fun _ _ e => ?_, fun _ _ e => by cases e⟩
    cases e
    refine hs.move hs.inFlight rfl ((moved_kept _ _ (fun d => wakeUp_kept _ d) _ _).wf hs.wf) rfl (fun hp a _ => ?_)
    simp only [hp, Chip.moved, wakeUp_slots]

theorem seq_honest {X : Nat → Prop} {s0 : State} (hc : s0.cfg.pulse0 ≠ s0.cfg.pulse1) :
    SeqOps False (StoresIn X s0.cfg) (Honest X s0) where
  env _ _ h := h.of rfl rfl rfl rfl
  tof _ _ h := h.of rfl rfl rfl rfl
  crc _ _ h := h.of rfl rfl rfl rfl
  lstate _ _ h := h.of rfl rfl rfl rfl
  clear _ h := h.of rfl rfl rfl rfl
  tx _ _ _ h := h.of rfl rfl rfl rfl
  rx _ _ _ h := h.of rfl rfl rfl rfl
  arrived _ _ h := h.of rfl rfl rfl rfl
  inMoves _ _ h := h.of rfl rfl rfl rfl
  answer s h := h.of rfl rfl (answer_slots _ _) rfl
  token b := fun m cmd hm => by rw [parse_token] at hm; cases hm
  send bs hb := honest_send hc bs hb
  wake := honest_wake
  phase _ _ h := h.of rfl rfl rfl rfl
  retry _ _ h := h.of rfl rfl rfl rfl
  calls _ h := h.of rfl rfl rfl rfl

/-- The commands that store only inside `X`. -/
def CommandIn (X : Nat → Prop) (c : Params) (o : Byte) (q : Word16) : Prop := o = c.op.write → ∀ a, inBlock q a → X a

theorem command_in {X : Nat → Prop} {c : Params} {o p : Byte} {q : Word16} {d : Bytes} (h : CommandIn X c o q) :
    StoresIn X c (commandFrame c o p q d) := by
  intro m cmd hm ho a ha
  obtain ⟨h1, h2⟩ := parse_prefix hm
  exact h (h1 ▸ ho) a (h2 ▸ ha)

theorem keeps_honest {X : Nat → Prop} {s0 : State} (hc : s0.cfg.pulse0 ≠ s0.cfg.pulse1)
    (hw : s0.cfg.op.write ∉ plainOps s0.cfg) : KeepsHost False (CommandIn X) (Honest X s0) where
  wide h := h.elim
  plain s o q h ho e := absurd (h.cfg ▸ e ▸ ho) hw
  transact o p q d e c _ := by
    rintro s ⟨hs, hA⟩
    refine triple_command (seq_honest hc) o p q d e c (fun t ht => ?_) (fun h => h.elim) s hs
    rw [ht.cfg]
    exact command_in (by rw [← hs.cfg]; exact hA)
  env _ _ h := h.of rfl rfl rfl rfl
  tk _ _ _ h := h.of rfl rfl rfl rfl
  clear _ h := h.of rfl rfl rfl rfl
  digest _ _ _ h := h.of rfl rfl rfl rfl
  cache _ _ _ h := h.of rfl rfl rfl rfl
  record _ _ _ h := h.of rfl rfl rfl rfl
  buf _ _ h := h.of rfl rfl rfl rfl
  release _ h := h.of rfl rfl rfl rfl
  reset := triple_chipReset (seq_honest hc).toLineOps (fun _ h => h.of rfl rfl rfl rfl)

theorem honest_self (X : Nat → Prop) (s : State) (h1 : s.wire.inFlight = []) (h2 : memWf s.chip.slots = true) :
    Honest X s s := ⟨h1, rfl, h2, 0, rfl, fun _ _ _ => rfl⟩

/-- What an honest WIRE leaves of the slots. -/
theorem Honest.slots {X : Nat → Prop} {s t : State} (h : Honest X s t) (hp : passedAll s t) {a : Nat} (ha : ¬ X a) :
    memByte t.chip.slots a = memByte s.chip.slots a := by
  obtain ⟨n, hn, hall⟩ := h.moves
  obtain ⟨m, hm, ht⟩ := hp
  have : n = m := after_inj (hn.symm.trans ht)
  exact hall (this ▸ hm) a ha

end Sys2Proof.Machine
end

