-- ==== Sys2Proof/Laws/Granted.lean ====
section
/-! SUPPORT. Machines whose next draws are scripted, so that the environment grants what a statement asks of it; and which
exchanges complete (spec/42_selink.md R119): what the witnesses of Tests/Slice0.lean are made of. -/

namespace Sys2Proof.Machine

open Sys2Proof.Config (Params)

/-- A booted machine whose next transmit-ready draws and next bursts are the ones given; everything else as after reset. -/
def scripted (stalls : List Bool) (bursts : List (List Symbol)) : State :=
  { State.reset with
    ctl := { booted := true, ending := .none }
    env := { State.reset.env with stall := { script := stalls, taken := 0 } }
    wire := { State.reset.wire with inMoves := { script := bursts.map Config.InMove.inject, taken := 0 } } }

theorem scripted_quiet (n : Nat) (rest : List Bool) (b : List (List Symbol)) :
    (scripted (List.replicate n false ++ rest) b).face.quiet n := quiet_of_script rfl

theorem scripted_hears (l : List Bool) (b : List (List Symbol)) : (scripted l b).face.hears b :=
  hears_of_script (rest := []) (by rw [List.append_nil]; rfl)

theorem scripted_stalls (n : Nat) (b : List (List Symbol)) :
    (scripted (List.replicate n false ++ [true]) b).face.stallsAfter n := by
  have h := (ahead_script Config.freeStall (List.replicate n false ++ [true]) [] 0 none).1
  rw [List.length_append, List.length_replicate, List.append_nil] at h
  exact h

/-- A machine whose environment grants these exchanges. -/
def granted (xs : List Exchange) : State :=
  scripted (List.replicate ((xs.map (fun x => x.cost Config.defaults)).sum) false)
    (xs.flatMap (fun x => x.bursts Config.defaults))

/-- Every exchange of the list completes. -/
def AllComplete (c : Params) (xs : List Exchange) : Prop := ∀ x ∈ xs, x.completes c

theorem granted_grants {xs : List Exchange} (h : AllComplete Config.defaults xs) : (granted xs).face.grants xs :=
  ⟨quiet_of_script (rest := []) (by rw [List.append_nil]; rfl), scripted_hears _ _, h⟩

/-! ### Which exchanges complete -/

variable {c : Params}

theorem completes_nil : AllComplete c [] := fun _ h => absurd h (List.not_mem_nil)

theorem completes_append {a b : List Exchange} (ha : AllComplete c a) (hb : AllComplete c b) : AllComplete c (a ++ b) :=
  fun x hx => (List.mem_append.mp hx).elim (ha x) (hb x)

theorem completes_cons {x : Exchange} {b : List Exchange} (ha : x.completes c) (hb : AllComplete c b) :
    AllComplete c (x :: b) := completes_append (a := [x]) (fun _ h => List.mem_singleton.mp h ▸ ha) hb

theorem completes_status (h0 : 0 < c.retryMax) (o p : Byte) (q : Word16) (d : Bytes) (cl : Close) :
    (⟨o, p, q, d, .status, cl, [], [0]⟩ : Exchange).completes c := ⟨h0, rfl, fun _ h => absurd h (List.not_mem_nil)⟩

theorem completes_data (h0 : 0 < c.retryMax) (o p : Byte) (q : Word16) (d : Bytes) (cl : Close) (n : Nat) (r : Bytes)
    (h2 : 2 ≤ n) (hn : n ≤ 252) (hr : r.length = n) : (⟨o, p, q, d, .data n, cl, [], r⟩ : Exchange).completes c :=
  ⟨h0, ⟨hr, h2, hn⟩, fun _ h => absurd h (List.not_mem_nil)⟩

theorem completes_pair (h0 : 0 < c.retryMax) (draws rng : Bytes) (hr : rng.length = 32) : AllComplete c (xPair c draws rng) :=
  completes_cons (completes_data h0 _ _ _ _ _ 32 rng (by omega) (by omega) hr)
    (completes_cons (completes_status h0 _ _ _ _ _) completes_nil)

theorem completes_checkmac (h0 : 0 < c.retryMax) (k : SlotId) (sec n od rng : Bytes) (hr : rng.length = 32) :
    AllComplete c (xCheckmac c k sec n od rng) :=
  completes_cons (completes_data h0 _ _ _ _ _ 32 rng (by omega) (by omega) hr)
    (completes_cons (completes_status h0 _ _ _ _ _) completes_nil)

theorem completes_gendigSlot (h0 : 0 < c.retryMax) (sl : SlotId) (n rng : Bytes) (hr : rng.length = 32) :
    AllComplete c (xGendigSlot c sl n rng) :=
  completes_cons (completes_data h0 _ _ _ _ _ 32 rng (by omega) (by omega) hr)
    (completes_cons (completes_status h0 _ _ _ _ _) completes_nil)

theorem completes_gendigCounter (h0 : 0 < c.retryMax) (n rng : Bytes) (hr : rng.length = 32) :
    AllComplete c (xGendigCounter c n rng) :=
  completes_cons (completes_data h0 _ _ _ _ _ 32 rng (by omega) (by omega) hr)
    (completes_cons (completes_status h0 _ _ _ _ _) completes_nil)

theorem completes_keyedHash (h0 : 0 < c.retryMax) (k : SlotId) (m h : Bytes) (hr : h.length = 32) :
    AllComplete c (xKeyedHash c k m h) :=
  completes_cons (completes_status h0 _ _ _ _ _)
    (completes_cons (completes_data h0 _ _ _ _ _ 32 h (by omega) (by omega) hr) completes_nil)

theorem completes_read (h0 : 0 < c.retryMax) (sl : SlotId) (b : Nat) (v : Bytes) (hv : v.length = 32) :
    AllComplete c [xRead c sl b v] :=
  completes_cons (completes_data h0 _ _ _ _ _ 32 v (by omega) (by omega) hv) completes_nil

theorem completes_macGen (h0 : 0 < c.retryMax) (m : Bytes) (hm : m.length = 32) : AllComplete c [xMacGen c m] :=
  completes_cons (completes_data h0 _ _ _ _ _ 32 m (by omega) (by omega) hm) completes_nil

theorem completes_incr (h0 : 0 < c.retryMax) (v : Word32) : (xCounterIncr c v).completes c :=
  completes_data h0 _ _ _ _ _ 4 _ (by omega) (by omega) rfl

theorem tempkeyMac_length (c : Params) (d : Bytes) : (tempkeyMac c d).length = 32 := sha256_length _

theorem completes_authReadSlot (h0 : 0 < c.retryMax) (sl : SlotId) (draws a v g : Bytes) (ha : a.length = 32)
    (hv : v.length = 32) (hg : g.length = 32) : AllComplete c (xAuthReadSlot c sl draws a v g) :=
  completes_append (completes_append (completes_append (completes_pair h0 _ _ ha) (completes_read h0 _ _ _ hv))
    (completes_gendigSlot h0 _ _ _ hg)) (completes_macGen h0 _ (tempkeyMac_length _ _))

theorem completes_counterCheck (h0 : 0 < c.retryMax) (v : Word32) (n g : Bytes) (hg : g.length = 32) :
    AllComplete c (xCounterCheck c v n g) :=
  completes_append (completes_gendigCounter h0 _ _ hg) (completes_macGen h0 _ (tempkeyMac_length _ _))

theorem completes_authReadCounter (h0 : 0 < c.retryMax) (v : Word32) (draws a g : Bytes) (ha : a.length = 32)
    (hg : g.length = 32) : AllComplete c (xAuthReadCounter c v draws a g) :=
  completes_append (completes_append (completes_pair h0 _ _ ha)
    (completes_cons (completes_data h0 _ _ _ _ _ 4 _ (by omega) (by omega) rfl) completes_nil))
    (completes_counterCheck h0 _ _ _ hg)

theorem completes_addCounter (h0 : 0 < c.retryMax) (vs : List Word32) (last : Word32) (draws a g : Bytes)
    (ha : a.length = 32) (hg : g.length = 32) : AllComplete c (xAddCounter c vs last draws a g) :=
  completes_append (completes_append (completes_append (completes_pair h0 _ _ ha)
    (fun x hx => by obtain ⟨v, _, rfl⟩ := List.mem_map.mp hx; exact completes_incr h0 v))
    (completes_cons (completes_incr h0 last) completes_nil)) (completes_counterCheck h0 _ _ _ hg)

theorem completes_withMac (h0 : 0 < c.retryMax) {xs : List Exchange} (h : AllComplete c xs) (m : Bytes)
    (hm : m.length = 32) : AllComplete c (withMac c xs m) :=
  completes_append (fun x hx => h x (List.dropLast_subset xs hx)) (completes_macGen h0 m hm)

/-- A reply of 32 zero bytes to everything, for one block of an encrypted read. -/
def zeroRead : ReadReply := ⟨zeros 32, zeros 32, zeros 32⟩
/-- The same, of an encrypted write. -/
def zeroWrite : WriteReply := ⟨zeros 32, zeros 32⟩
/-- The same, of an iteration of `stretch`. -/
def zeroStretch : StretchReply := ⟨zeros 32, zeros 32⟩

theorem completes_encryptedRead (h0 : 0 < c.retryMax) (sl a : SlotId) (n b : Nat) (draws : Bytes) :
    AllComplete c (xEncryptedRead c sl a b draws (List.replicate n zeroRead)) := by
  induction n generalizing b draws with
  | zero => exact completes_nil
  | succ n ih =>
    exact completes_append (completes_append (completes_append (completes_pair h0 _ _ rfl)
      (completes_gendigSlot h0 _ _ _ rfl)) (completes_read h0 _ _ _ rfl)) (ih _ _)

theorem completes_encryptedWrite (h0 : 0 < c.retryMax) (sl a : SlotId) (k : Bytes) (n b : Nat) (data draws : Bytes) :
    AllComplete c (xEncryptedWrite c sl a k b data draws (List.replicate n zeroWrite)) := by
  induction n generalizing b data draws with
  | zero => exact completes_nil
  | succ n ih =>
    exact completes_append (completes_append (completes_append (completes_pair h0 _ _ rfl)
      (completes_gendigSlot h0 _ _ _ rfl)) (completes_cons (completes_status h0 _ _ _ _ _) completes_nil)) (ih _ _ _)

theorem completes_stretch (h0 : 0 < c.retryMax) (v : Bytes) (n : Nat) (draws : Bytes) :
    AllComplete c (xStretch c v draws (List.replicate n zeroStretch)) := by
  induction n generalizing v draws with
  | zero => exact completes_nil
  | succ n ih =>
    exact completes_append (completes_append (completes_pair h0 _ _ rfl) (completes_keyedHash h0 _ _ _ rfl)) (ih _ _)

/-- An attempt of `n` iterations, everything answered with zeros. -/
def zeroAttempt (n : Nat) : AttemptReply := ⟨List.replicate n zeroStretch, zeros 32, zeros 32, zeros 32⟩

theorem completes_attempt (h0 : 0 < c.retryMax) (pin draws : Bytes) (n : Nat) :
    AllComplete c (xPinAttempt c pin draws (zeroAttempt n)) :=
  completes_append (completes_append (completes_stretch h0 _ _ _) (completes_pair h0 _ _ rfl))
    (completes_append (completes_pair h0 _ _ rfl) (completes_keyedHash h0 _ _ _ rfl))

theorem completes_test (h0 : 0 < c.retryMax) (draws mac : Bytes) (hm : mac.length = 32) :
    AllComplete c (xTestDigest c draws (zeros 32) (zeros 32) mac) :=
  completes_append (completes_append (completes_pair h0 _ _ rfl) (completes_gendigSlot h0 _ _ _ rfl))
    (completes_macGen h0 _ hm)

/-- The updates after a good login with the increments given, everything else answered with zeros. -/
def zeroUpdates (vs : List Word32) : UpdateReply := ⟨zeros 32, zeros 32, zeroWrite, vs, zeros 32, zeros 32, zeroWrite⟩

theorem completes_updates (h0 : 0 < c.retryMax) (d : Bytes) (v last : Word32) (draws : Bytes) (vs : List Word32) :
    AllComplete c (xUpdates c d v last draws (zeroUpdates vs)) :=
  completes_append (completes_append (completes_append (completes_authReadCounter h0 _ _ _ _ rfl rfl)
    (completes_encryptedWrite h0 _ _ _ 1 _ _ _)) (completes_addCounter h0 _ _ _ _ _ rfl rfl))
    (completes_encryptedWrite h0 _ _ _ 1 _ _ _)

/-- The counters read with the value given, everything else answered with zeros. -/
def zeroCounters (v : Word32) : CountersReply :=
  ⟨zeros 32, v, zeros 32, zeros 32, zeros 32, zeros 32, zeros 32, zeros 32, zeros 32⟩

theorem completes_counters (h0 : 0 < c.retryMax) (draws : Bytes) (v : Word32) :
    AllComplete c (xReadCounters c draws (zeroCounters v)) :=
  completes_append (completes_append (completes_authReadCounter h0 _ _ _ _ rfl rfl)
    (completes_authReadSlot h0 _ _ _ _ _ rfl rfl rfl)) (completes_authReadSlot h0 _ _ _ _ _ rfl rfl rfl)

/-! ### Records under the default layout -/

/-- A record of zeros but for its magic value, flags, change flags and PIN lengths. -/
def plainRecord (flags change pinLen oldLen newLen : Word32) : Bytes :=
  let l := Config.layoutK21
  withFieldWord (withFieldWord (withFieldWord (withFieldWord (withFieldWord (withFieldWord (zeros 276)
    l.magicValue Config.defaults.paMagic) l.stateFlags flags) l.changeFlags change) l.pinLen pinLen) l.oldPinLen oldLen)
    l.newPinLen newLen

/-- That record with a signature that verifies in the boot session of `scripted`. -/
def goodRecord (flags change pinLen oldLen newLen : Word32) : Bytes :=
  signedRecord Config.defaults State.reset.reg.bootSeed (plainRecord flags change pinLen oldLen newLen)

/-- The same with every bit of the signature inverted. -/
def forgedRecord (flags change pinLen oldLen newLen : Word32) : Bytes :=
  let r := plainRecord flags change pinLen oldLen newLen
  withField r Config.layoutK21.hmac ((signatureOf Config.defaults State.reset.reg.bootSeed r).map (fun x => ~~~x))

theorem plainRecord_length (flags change pinLen oldLen newLen : Word32) :
    (plainRecord flags change pinLen oldLen newLen).length = 276 := by
  have h (r : Bytes) (f : Config.FieldLoc) (v : Word32) (hr : r.length = 276) (hf : f.off + 4 ≤ 276) :
      (withFieldWord r f v).length = 276 := (splice_length (by rw [hr]; exact hf)).trans hr
  exact h _ _ _ (h _ _ _ (h _ _ _ (h _ _ _ (h _ _ _ (h _ _ _ List.length_replicate (by decide)) (by decide)) (by decide))
    (by decide)) (by decide)) (by decide)

theorem recordMac_length (a b d : Bytes) : (recordMac a b d).length = 32 := List.length_ofFn ..

theorem hmac_field {r v : Bytes} (hr : r.length = 276) (hv : v.length = 32) :
    field (withField r Config.layoutK21.hmac v) Config.layoutK21.hmac = v := by
  show slice (splice r 64 v) 64 32 = v
  have := slice_splice_same (b := r) (v := v) (i := 64) (by omega)
  rwa [hv] at this

theorem hmac_signature {r v : Bytes} (b : Bytes) (hr : r.length = 276) (hv : v.length = 32) :
    signatureOf Config.defaults b (withField r Config.layoutK21.hmac v) = signatureOf Config.defaults b r := by
  unfold signatureOf
  congr 1
  show slice (splice r 64 v) 0 64 ++ slice (splice r 64 v) 244 32 = slice r 0 64 ++ slice r 244 32
  rw [slice_splice_other (by omega) (by omega), slice_splice_other (by omega) (by omega)]

theorem goodRecord_verifies (flags change pinLen oldLen newLen : Word32) :
    recordVerifies Config.defaults State.reset.reg.bootSeed (goodRecord flags change pinLen oldLen newLen) :=
  (hmac_field (plainRecord_length ..) (recordMac_length _ _ _)).trans
    (hmac_signature _ (plainRecord_length ..) (recordMac_length _ _ _)).symm

theorem forgedRecord_refused (flags change pinLen oldLen newLen : Word32) :
    ¬ recordVerifies Config.defaults State.reset.reg.bootSeed (forgedRecord flags change pinLen oldLen newLen) := by
  have hl : (signatureOf Config.defaults State.reset.reg.bootSeed (plainRecord flags change pinLen oldLen newLen)).length = 32 :=
    recordMac_length _ _ _
  intro h
  have e : List.map (fun x => ~~~x) _ = _ := (hmac_field (plainRecord_length ..) (by rw [List.length_map]; exact hl)).symm.trans
    (h.trans (hmac_signature _ (plainRecord_length ..) (by rw [List.length_map]; exact hl)))
  generalize signatureOf Config.defaults State.reset.reg.bootSeed (plainRecord flags change pinLen oldLen newLen) = v at e hl
  cases v with
  | nil => cases hl
  | cons x v =>
    have := congrArg (fun y : Byte => y.getLsbD 0) (List.cons.inj e).1
    simp at this

end Sys2Proof.Machine
end

