-- ==== Sys2Proof/Laws/HonestChip.lean ====
section
/-! SUPPORT. A chip behind an honest WIRE: what it hears of a message is the message (spec/30_encoding.md R78, R97), and what
the block gets of its answer is the answer (spec/40_bitbus.md R103). -/

namespace Sys2Proof.Machine

open Sys2Proof.Config (Params OutMove InMove)

/-! ### Messages -/

/-- A frame of `encode_command` is parsed to what went into it (R97, R117). -/
theorem parse_frame (c : Params) (o p : Byte) (q : Word16) (d : Bytes) (hd : d.length ≤ 248) :
    parseCommand c (commandFrame c o p q d) = some { opcode := o, p1 := p, p2 := q, data := d } := by
  have hl : (BitVec.ofNat 8 (d.length + 7)).toNat = d.length + 7 := by
    rw [BitVec.toNat_ofNat]; omega
  have e : commandFrame c o p q d = c.ioflagCmd :: BitVec.ofNat 8 (d.length + 7) :: o :: p :: q.extractLsb' 0 8
      :: q.extractLsb' 8 8 :: (d ++ u16le (frameCrc c (commandBody o p q d))) := rfl
  rw [e]
  unfold parseCommand
  simp only [hl, Nat.add_sub_cancel]
  rw [List.take_left' rfl, List.drop_left' rfl, if_pos]
  · simp
  · refine ⟨trivial, by omega, by simp, ?_⟩
    rfl

/-- The symbols of a byte string are heard as the byte string (R78). -/
theorem cleanBytes_serialized {c : Params} (hc : c.pulse0 ≠ c.pulse1) (bs : Bytes) (k : Nat) (hk : bs.length ≤ k) :
    cleanBytes c k (serializeBytes c bs) = some bs := by
  induction bs generalizing k with
  | nil => cases k <;> rfl
  | cons b bs ih =>
    obtain ⟨k, rfl⟩ : ∃ j, k = j + 1 := ⟨k - 1, by simp only [List.length_cons] at hk; omega⟩
    have h8 : (serializeByte c b).length = 8 := serializeByte_length c b
    have e1 : (serializeBytes c (b :: bs)).take Config.pulsesPerByte = serializeByte c b := by
      rw [show Config.pulsesPerByte = 8 from rfl, serializeBytes_cons, ← h8, List.take_left]
    have e2 : (serializeBytes c (b :: bs)).drop Config.pulsesPerByte = serializeBytes c bs := by
      rw [show Config.pulsesPerByte = 8 from rfl, serializeBytes_cons, ← h8, List.drop_left]
    have hlen : (serializeBytes c (b :: bs)).length = 8 * (bs.length + 1) := serializeBytes_length c (b :: bs)
    simp only [cleanBytes, e1, e2]
    rw [if_neg (by intro h; rw [h] at hlen; simp at hlen), if_neg (by rw [hlen]; simp only [Config.pulsesPerByte]; omega),
      if_pos (by
        rw [List.all_eq_true]
        intro x hx
        exact isPulse_of_mem_serializeByte hx),
      ih k (by simp only [List.length_cons] at hk; omega), bits_of_serializeByte hc, byteOfBits_bits]

theorem hearSymbols_serialized {c : Params} (hc : c.pulse0 ≠ c.pulse1) (ch : Chip) (bs : Bytes) :
    ch.hearSymbols c (serializeBytes c bs) = ch.hear c bs := by
  unfold Chip.hearSymbols
  rw [cleanBytes_serialized hc bs _ (by rw [serializeBytes_length]; omega)]

/-! ### Runs with nothing disturbed -/

/-- The chip, and how many draws ahead disturb nothing. -/
structure Clear (c : Params) (ch : Chip) (n m k : Nat) (t : State) : Prop where
  cfg : t.cfg = c
  chip : t.chip = ch
  quiet : t.face.quiet n
  out : t.wire.outMoves.ahead Config.freeOutMove m = List.replicate m OutMove.pass
  inn : t.wire.inMoves.ahead Config.freeInMove k = List.replicate k InMove.pass
  inFlight : t.wire.inFlight = []

/-- From every state with `P`, `x` ends with the result `a` in a state with `Q`. -/
def Leads {α : Type} (x : Op α) (P : State → Prop) (a : α) (Q : State → Prop) : Prop :=
  ∀ s, P s → ∃ t, x s = .ok a t ∧ Q t

theorem leads_bind {α β : Type} {x : Op α} {y : α → Op β} {P Q R : State → Prop} {a : α} {b : β} (hx : Leads x P a Q)
    (hy : Leads (y a) Q b R) : Leads (x >>= y) P b R := by
  intro s hs
  obtain ⟨t, ht, hq⟩ := hx s hs
  obtain ⟨u, hu, hr⟩ := hy t hq
  exact ⟨u, by rw [bind_run, ht]; exact hu, hr⟩

theorem leads_catching {α : Type} {x : Op α} {h : Err → Op α} {P Q : State → Prop} {a : α} (hx : Leads x P a Q) :
    Leads (catching x h) P a Q := by
  intro s hs
  obtain ⟨t, ht, hq⟩ := hx s hs
  exact ⟨t, catching_ok ht, hq⟩

theorem leads_pure {α : Type} (a : α) (P : State → Prop) : Leads (pure a : Op α) P a P := fun s hs => ⟨s, rfl, hs⟩

variable {c : Params} {ch : Chip} {n m k : Nat}

theorem leads_reg (f : Regs → Regs) : Leads (modifyReg f) (Clear c ch n m k) () (Clear c ch n m k) :=
  fun _ hs => ⟨_, rfl, ⟨hs.cfg, hs.chip, hs.quiet, hs.out, hs.inn, hs.inFlight⟩⟩

theorem leads_cfg : Leads getCfg (Clear c ch n m k) c (Clear c ch n m k) :=
  fun s hs => ⟨s, by rw [getCfg_run, hs.cfg], hs⟩

theorem leads_arrived : Leads discardArrived (Clear c ch n m k) () (Clear c ch n m k) :=
  fun _ hs => ⟨_, rfl, ⟨hs.cfg, hs.chip, hs.quiet, hs.out, hs.inn, hs.inFlight⟩⟩

/-- One draw of many that pass. -/
theorem passes_next {α : Type} {free : Nat → α} {d : Draws α} {v : α} {m : Nat}
    (h : d.ahead free (m + 1) = List.replicate (m + 1) v) :
    (d.next free).1 = v ∧ (d.next free).2.ahead free m = List.replicate m v := by
  rw [ahead_succ, List.replicate_succ] at h
  exact List.cons.inj h

/-- The low pulse reaches the chip (R104). -/
theorem leads_wake : Leads wake (Clear c ch (1 + n) (m + 1) k) () (Clear c (ch.wakeUp c) n m k) := by
  intro s hs
  obtain ⟨hq1, hq2⟩ := (quiet_add _ 1 n).mp hs.quiet
  obtain ⟨ho1, ho2⟩ := passes_next hs.out
  have h1 : (s.env.stall.next Config.freeStall).1 = false := (quiet_one _).mp hq1
  refine ⟨{ s with
    env := { s.env with stall := (s.env.stall.next Config.freeStall).2 }
    wire := { s.wire with
      trace := s.wire.trace ++ [.low true], outMoves := (s.wire.outMoves.next Config.freeOutMove).2, arrived := [] }
    chip := ch.wakeUp c
    reg := { s.reg with baudsel := false, lstate := .awake } }, ?_, ⟨hs.cfg, rfl, hq2, ho2, hs.inn, hs.inFlight⟩⟩
  simp only [wake, bind_run, modifyReg_run, drawStall, h1, Bool.false_eq_true, if_false, lineLow, modifyState_run,
    discardArrived, ho1, hs.chip, hs.cfg, Chip.moved]

/-- A message reaches the chip (R101). -/
theorem leads_send (hc : c.pulse0 ≠ c.pulse1) (bs : Bytes) :
    Leads (send bs) (Clear c ch (8 * bs.length + n) (m + 1) k) () (Clear c (ch.hear c bs) n m k) := by
  intro s hs
  obtain ⟨hq1, hq2⟩ := (quiet_add _ (8 * bs.length) n).mp hs.quiet
  obtain ⟨ho1, ho2⟩ := passes_next hs.out
  refine ⟨(s.sending (serializeBytes s.cfg bs)).deliver, ?_, ⟨hs.cfg, ?_, ?_, ho2, hs.inn, rfl⟩⟩
  · unfold send
    rw [sendSymbols_quiet _ _ (by rwa [serializeBytes_length])]
  · have : (s.sending (serializeBytes s.cfg bs)).deliver.chip
        = s.chip.hearSymbols s.cfg (s.wire.inFlight ++ serializeBytes s.cfg bs) := by
      show s.chip.moved s.cfg (fun d => d.hearSymbols s.cfg (s.wire.inFlight ++ serializeBytes s.cfg bs))
        (s.wire.outMoves.next Config.freeOutMove).1 = _
      rw [ho1]
      rfl
    rw [this, hs.inFlight, hs.cfg, hs.chip, List.nil_append, hearSymbols_serialized hc]
  · have e : (s.sending (serializeBytes s.cfg bs)).deliver.env.stall = s.env.stall.after Config.freeStall (8 * bs.length) := by
      show s.env.stall.after Config.freeStall (serializeBytes s.cfg bs).length = _
      rw [serializeBytes_length]
    show ((s.sending (serializeBytes s.cfg bs)).deliver.env.stall).ahead Config.freeStall n = _
    rw [e]
    exact hq2

/-- A close token reaches the chip (R105, R106, R121). -/
theorem leads_close (hc : c.pulse0 ≠ c.pulse1) (close : Close) :
    Leads (closeLine close) (Clear c ch (8 + n) (m + 1) k) () (Clear c (ch.hear c [closeToken c close]) n m k) := by
  cases close
  · exact leads_bind leads_cfg (leads_bind (leads_send hc [c.ioflagIdle]) (leads_reg _))
  · exact leads_bind (leads_reg _) (leads_bind leads_cfg (leads_bind (leads_send hc [c.ioflagSleep]) (leads_reg _)))

/-- The chip once it has heard a prompt, where there is one (R79, R102). -/
def Chip.asked (c : Params) (ch : Chip) : Chip :=
  match c.ioflagTx with
  | some t => ch.hear c [t]
  | none => ch

theorem leads_prompt (hc : c.pulse0 ≠ c.pulse1) : Leads sendPrompt
    (Clear c ch (8 * (promptBytes c).length + n) (m + (promptBytes c).length) k) () (Clear c (ch.asked c) n m k) := by
  unfold sendPrompt promptBytes Chip.asked
  refine leads_bind leads_cfg ?_
  cases h : c.ioflagTx with
  | none => rw [show 8 * (none : Option Byte).toList.length + n = n by simp]; exact leads_pure () _
  | some t => exact leads_send hc [t]

/-- The chip's answer reaches the block (R103). -/
theorem leads_burst : Leads lineRxBurst (Clear c ch n m (k + 1)) (serializeBytes c (ch.answer c).1)
    (Clear c (ch.answer c).2 n m k) := by
  intro s hs
  obtain ⟨h1, h2⟩ := passes_next hs.inn
  refine ⟨{ s with wire := { s.wire with inMoves := (s.wire.inMoves.next Config.freeInMove).2 }, chip := (ch.answer c).2 }, ?_,
    ⟨hs.cfg, rfl, hs.quiet, hs.out, h2, hs.inFlight⟩⟩
  simp only [lineRxBurst, h1, hs.chip, hs.cfg]

/-- A receive that gets the chip's answer (R102). -/
theorem leads_receive (hc : c.pulse0 ≠ c.pulse1) (want : Nat) (r : Bytes) (ch' : Chip) (ha : (ch.asked c).answer c = (r, ch'))
    (hr : r ≠ []) : Leads (receive want)
      (Clear c ch (8 * (promptBytes c).length + n) (m + (promptBytes c).length) (k + 1)) (r.take want)
    (Clear c ch' n m k) := by
  refine leads_bind (leads_reg _) (leads_bind leads_arrived (leads_bind (leads_prompt hc) (leads_bind leads_burst
    (leads_bind (leads_reg _) ?_))))
  rw [ha, if_neg (by
    intro h
    have := congrArg List.length h
    rw [serializeBytes_length, List.length_nil] at this
    dsimp only at this
    exact hr (List.length_eq_zero_iff.mp (by omega)))]
  refine leads_bind (a := r.take want) (Q := Clear c ch' n m k) ?_ (leads_bind (leads_reg _) (leads_pure _ _))
  intro s hs
  have := deserialize_serialized (s := s) (by rw [hs.cfg]; exact hc) (j := []) (by simp) r [] (by simp) want
  rw [hs.cfg, List.nil_append, List.append_nil] at this
  exact ⟨s, this, hs⟩

theorem leads_decode (p : Bytes) (h1 : 1 ≤ p.length) (h2 : p.length ≤ 252) :
    Leads (decodeResponse (responseFrame c p) p.length) (Clear c ch n m k) p (Clear c ch n m k) := by
  intro s hs
  refine ⟨{ s with reg := { s.reg with crc := frameCrc s.cfg (BitVec.ofNat 8 (p.length + 3) :: p) } }, ?_,
    ⟨hs.cfg, hs.chip, hs.quiet, hs.out, hs.inn, hs.inFlight⟩⟩
  rw [← hs.cfg]
  exact decodeResponse_frame p h1 h2 s

theorem leads_unless {α : Type} {r : Err → Bool} {x : Op α} {P Q : State → Prop} {a : α} (hx : Leads x P a Q) :
    Leads (unlessRetried r x) P (some a) Q := leads_catching (leads_bind hx (leads_pure _ _))

theorem leads_congr {α : Type} {x y : Op α} {P Q : State → Prop} {a : α} (h : ∀ s, x s = y s) (hy : Leads y P a Q) :
    Leads x P a Q := fun s hs => by rw [h]; exact hy s hs

/-- The opening of a transaction: the low pulse and the command frame reach the chip (R119). -/
theorem leads_opening (hc : c.pulse0 ≠ c.pulse1) (o p1 : Byte) (q : Word16) (d : Bytes) : Leads (transactOpening o p1 q d)
    (Clear c ch (1 + (8 * (d.length + 8) + n)) (m + 1 + 1) k) ()
    (Clear c ((ch.wakeUp c).hear c (commandFrame c o p1 q d)) n m k) := by
  have hl : (commandFrame c o p1 q d).length = d.length + 8 := commandFrame_length ..
  refine leads_bind (leads_reg _) (leads_bind (leads_reg _) (leads_bind leads_wake (leads_bind (leads_reg _) ?_)))
  refine leads_bind (a := commandFrame c o p1 q d) (Q := Clear c (ch.wakeUp c) (8 * (d.length + 8) + n) (m + 1) k) ?_ ?_
  · intro s hs
    refine ⟨{ s with reg := { s.reg with txbuf := commandFrame c o p1 q d, crc := frameCrc c (commandBody o p1 q d) } }, ?_,
      ⟨hs.cfg, hs.chip, hs.quiet, hs.out, hs.inn, hs.inFlight⟩⟩
    have h := encodeCommand_run o p1 q d s
    simp only [hs.cfg] at h
    simpa only [hs.cfg] using h
  · rw [← hl]
    exact leads_bind (leads_send hc _) (leads_reg _)

/-- A receive attempt that gets the frame of a payload of the length expected (R119). -/
theorem leads_attempt (hc : c.pulse0 ≠ c.pulse1) (e : Expect) (p : Bytes) (ch' : Chip) (hw : Expect.want e = p.length + 3)
    (h1 : 1 ≤ p.length) (h2 : p.length ≤ 252) (hraw : ∀ j, e ≠ .raw j) (ha : (ch.asked c).answer c = (responseFrame c p, ch')) :
    Leads (receiveAttempt e) (Clear c ch (8 * (promptBytes c).length + n) (m + (promptBytes c).length) (k + 1)) (some p)
      (Clear c ch' n m k) := by
  have hfl : (responseFrame c p).length = p.length + 3 := responseFrame_length _ _
  refine leads_bind (leads_reg _) (leads_bind (leads_unless (leads_receive hc _ _ _ ha (by
    intro h; rw [h] at hfl; simp at hfl))) ?_)
  rw [List.take_of_length_le (by rw [hfl, hw])]
  have hn : Expect.want e - 3 = p.length := by omega
  cases e with
  | raw j => exact absurd rfl (hraw j)
  | status => exact leads_unless (hn ▸ leads_decode p h1 h2)
  | data j => exact leads_unless (hn ▸ leads_decode p h1 h2)

/-- The draws of an undisturbed transaction, as its parts take them. -/
theorem transaction_draws (c : Params) (d : Bytes) :
    1 + 8 * (d.length + 8 + (promptBytes c).length + 1) = 1 + (8 * (d.length + 8) + (8 * (promptBytes c).length + (8 + 0)))
    ∧ 3 + (promptBytes c).length = 0 + 1 + (promptBytes c).length + 1 + 1 := ⟨by omega, by omega⟩

/-- A transaction in which the chip's answer is the frame of a payload that is accepted (R119). -/
theorem leads_transact (hc : c.pulse0 ≠ c.pulse1) (hm : 0 < c.retryMax) (o p1 : Byte) (q : Word16) (d : Bytes) (e : Expect)
    (close : Close) (p : Bytes) (ch' : Chip) (he : expectAccepts e p) (hraw : ∀ j, e ≠ .raw j)
    (ha : (((ch.wakeUp c).hear c (commandFrame c o p1 q d)).asked c).answer c = (responseFrame c p, ch')) :
    Leads (transact o p1 q d e close)
      (Clear c ch (1 + 8 * (d.length + 8 + (promptBytes c).length + 1)) (3 + (promptBytes c).length) 1) p
      (Clear c (ch'.hear c [closeToken c close]) 0 0 0) := by
  have hlen : Expect.want e = p.length + 3 ∧ 1 ≤ p.length ∧ p.length ≤ 252 := by
    cases e with
    | status => rw [show p = [0] from he]; decide
    | data j => obtain ⟨h1, h2, h3⟩ := he; simp only [Expect.want]; omega
    | raw j => exact absurd rfl (hraw j)
  rw [(transaction_draws c d).1, (transaction_draws c d).2]
  refine leads_catching (leads_congr (transactBody_split o p1 q d e close) (leads_bind (leads_opening hc o p1 q d)
    (leads_bind leads_cfg (leads_bind (a := p) (Q := Clear c ch' (8 + 0) (0 + 1) 0) ?_ ?_))))
  · obtain ⟨j, hj⟩ : ∃ j, c.retryMax = j + 1 := ⟨c.retryMax - 1, by omega⟩
    rw [hj]
    exact leads_bind (leads_attempt hc e p ch' hlen.1 hlen.2.1 hlen.2.2 hraw ha) (leads_pure _ _)
  · unfold transactClosing
    rw [if_neg (by
      rintro ⟨h1, h2⟩
      rw [h1] at he
      rw [show p = [0] from he] at h2
      exact h2 rfl)]
    exact leads_bind (leads_reg _) (leads_bind (leads_close hc close) (leads_bind (leads_reg _) (leads_pure _ _)))

/-! ### A transaction that the chip refuses -/

/-- From every state with `P`, `x` ends with the error `e` in a state with `Q`. -/
def Breaks {α : Type} (x : Op α) (P : State → Prop) (e : Err) (Q : State → Prop) : Prop :=
  ∀ s, P s → ∃ t, x s = .error e t ∧ Q t

theorem breaks_bind {α β : Type} {x : Op α} {y : α → Op β} {P Q : State → Prop} {e : Err} (hx : Breaks x P e Q) :
    Breaks (x >>= y) P e Q := fun s hs => by
  obtain ⟨t, ht, hq⟩ := hx s hs
  exact ⟨t, by rw [bind_run, ht], hq⟩

theorem breaks_after {α β : Type} {x : Op α} {y : α → Op β} {P Q R : State → Prop} {a : α} {e : Err} (hx : Leads x P a Q)
    (hy : Breaks (y a) Q e R) : Breaks (x >>= y) P e R := fun s hs => by
  obtain ⟨t, ht, hq⟩ := hx s hs
  obtain ⟨u, hu, hr⟩ := hy t hq
  exact ⟨u, by rw [bind_run, ht]; exact hu, hr⟩

theorem breaks_raise {α : Type} (e : Err) (P : State → Prop) : Breaks (raise e : Op α) P e P := fun s hs => ⟨s, rfl, hs⟩

theorem breaks_catching {α : Type} {x : Op α} {h : Err → Op α} {P Q R : State → Prop} {e e' : Err} (hx : Breaks x P e Q)
    (he : ∀ f, e ≠ .stop f) (hh : Breaks (h e) Q e' R) : Breaks (catching x h) P e' R := fun s hs => by
  obtain ⟨t, ht, hq⟩ := hx s hs
  obtain ⟨u, hu, hr⟩ := hh t hq
  exact ⟨u, by rw [catching_error ht he]; exact hu, hr⟩

theorem breaks_congr {α : Type} {x y : Op α} {P Q : State → Prop} {e : Err} (h : ∀ s, x s = y s) (hy : Breaks y P e Q) :
    Breaks x P e Q := fun s hs => by rw [h]; exact hy s hs

/-- An error that the retry loop does not catch passes it (R120). -/
theorem breaks_unless {α : Type} {r : Err → Bool} {x : Op α} {P Q : State → Prop} {e : Err} (hx : Breaks x P e Q)
    (hr : r e = false) (he : ∀ f, e ≠ .stop f) : Breaks (unlessRetried r x) P e Q :=
  breaks_catching (breaks_bind hx) he (by rw [if_neg (by rw [hr]; decide)]; exact breaks_raise _ _)

/-- A transaction in which the chip answers with an error status: that error, nothing sent after it (R120, R122). -/
theorem breaks_transact (hc : c.pulse0 ≠ c.pulse1) (hm : 0 < c.retryMax) (o p1 : Byte) (q : Word16) (d : Bytes) (e : Expect)
    (close : Close) (code : Byte) (ch' : Chip) (h0 : code ≠ 0) (he : e = .status ∨ ∃ j, e = .data j ∧ 2 ≤ j)
    (ha : (((ch.wakeUp c).hear c (commandFrame c o p1 q d)).asked c).answer c = (statusFrame c code, ch')) :
    Breaks (transact o p1 q d e close)
      (Clear c ch (1 + 8 * (d.length + 8 + (promptBytes c).length + 1)) (3 + (promptBytes c).length) 1) (.chipError code)
      (Clear c ch' 8 1 0) := by
  have hfl : (statusFrame c code).length = 4 := responseFrame_length _ _
  obtain ⟨j, hj⟩ : ∃ j, c.retryMax = j + 1 := ⟨c.retryMax - 1, by omega⟩
  rw [(transaction_draws c d).1, (transaction_draws c d).2]
  refine breaks_catching (e := .chipError code) (Q := Clear c ch' 8 1 0) ?_ (by simp)
    (breaks_after (leads_reg _) (breaks_raise _ _))
  refine breaks_congr (transactBody_split o p1 q d e close) (breaks_after (leads_opening hc o p1 q d)
    (breaks_after leads_cfg ?_))
  rw [hj]
  rcases he with rfl | ⟨w, rfl, hw⟩
  · refine breaks_after (a := [code]) (Q := Clear c ch' (8 + 0) (0 + 1) 0) (leads_bind (leads_attempt hc .status [code] ch' rfl
      (Nat.le_refl 1) (by simp) (by simp) ha) (leads_pure _ _)) ?_
    unfold transactClosing
    rw [if_pos ⟨rfl, by simpa [stOk] using h0⟩]
    exact breaks_raise _ _
  · refine breaks_bind (breaks_bind (breaks_after (leads_reg _) (breaks_after (leads_unless (leads_receive hc _ _ _ ha (by
      intro h; rw [h] at hfl; simp at hfl))) ?_)))
    rw [List.take_of_length_le (by rw [hfl]; simp only [Expect.want]; omega)]
    refine breaks_unless (fun s hs => ⟨s, ?_, hs⟩) rfl (by simp)
    exact decodeResponse_chipError w (statusFrame c code) s (by rw [hfl]) rfl (by omega) h0

end Sys2Proof.Machine
end

