-- ==== Sys2Proof/Laws/KeyedHash.lean ====
section
/-! SUPPORT. A keyed hash is its two commands one after the other (spec/42_selink.md R134): how the last operation ended is
nothing to a transaction, so the second may as well be called by itself. -/

namespace Sys2Proof.Machine

variable {c : Ctl}

theorem noted_pure {α : Type} (a : α) : Noted c (pure a : Op α) := fun _ => rfl

theorem noted_raise {α : Type} (e : Err) : Noted c (raise e : Op α) := fun _ => rfl

theorem noted_ite {α : Type} {p : Prop} [Decidable p] {x y : Op α} (hx : Noted c x) (hy : Noted c y) :
    Noted c (if p then x else y) := by
  split
  · exact hx
  · exact hy

theorem noted_cfg : Noted c getCfg := fun _ => rfl

theorem noted_unless {α : Type} {r : Err → Bool} {x : Op α} (hx : Noted c x) : Noted c (unlessRetried r x) :=
  noted_catching (noted_bind hx (fun _ => noted_pure _)) (fun _ => noted_ite (noted_pure _) (noted_raise _))

theorem noted_wake : Noted c wake := by
  refine noted_bind (noted_modifyReg c _) (fun _ => noted_bind (fun _ => rfl) (fun b => noted_ite ?_ ?_))
  · exact noted_bind (noted_modifyReg c _) (fun _ => noted_raise _)
  · exact noted_bind (fun _ => rfl) (fun _ => noted_bind (noted_modifyReg c _) (fun _ => noted_bind (fun _ => rfl)
      (fun _ => noted_modifyReg c _)))

theorem noted_prompt : Noted c sendPrompt :=
  noted_bind noted_cfg (fun p => by
    cases p.ioflagTx with
    | none => exact noted_pure _
    | some t => exact noted_send c [t])

theorem noted_burst : Noted c lineRxBurst := by
  intro s
  unfold lineRxBurst
  dsimp only
  rw [show (s.noted c).wire = s.wire from rfl]
  cases h : (s.wire.inMoves.next Config.freeInMove).1 <;> rfl

theorem noted_bits (p : Config.Params) (xs : List Symbol) : Noted c (groupBits p xs) := by
  induction xs with
  | nil => exact noted_pure _
  | cons x xs ih =>
    exact noted_bind (noted_ite (noted_pure _) (noted_ite (noted_pure _) (fun _ => rfl))) (fun _ => noted_bind ih
      (fun _ => noted_pure _))

theorem noted_groups (p : Config.Params) (n : Nat) (xs : List Symbol) : Noted c (readGroups p n xs) := by
  induction n generalizing xs with
  | zero => exact noted_pure _
  | succ n ih => exact noted_bind (noted_bits p _) (fun _ => noted_bind (ih _) (fun _ => noted_pure _))

theorem noted_receive (n : Nat) : Noted c (receive n) :=
  noted_bind (noted_modifyReg c _) (fun _ => noted_bind (fun _ => rfl) (fun _ => noted_bind noted_prompt (fun _ =>
    noted_bind noted_burst (fun _ => noted_bind (noted_modifyReg c _) (fun _ => noted_ite (noted_raise _)
    (noted_bind (noted_bind noted_cfg (fun _ => noted_groups _ _ _)) (fun _ => noted_bind (noted_modifyReg c _)
    (fun _ => noted_pure _))))))))

theorem noted_crc16 (seed : Word16) (bs : Bytes) : Noted c (crc16 seed bs) := by
  intro s
  rw [crc16_run, crc16_run]
  rfl

theorem noted_decode (raw : Bytes) (n : Nat) : Noted c (decodeResponse raw n) :=
  noted_ite (noted_raise _) (noted_ite (noted_ite (noted_raise _) (noted_raise _)) (noted_ite (noted_raise _)
    (noted_bind noted_cfg (fun _ => noted_bind (noted_crc16 _ _) (fun _ => noted_ite (noted_raise _) (noted_pure _))))))

theorem noted_attempt (e : Expect) : Noted c (receiveAttempt e) :=
  noted_bind (noted_modifyReg c _) (fun _ => noted_bind (noted_unless (noted_receive _)) (fun got => by
    cases got with
    | none => exact noted_pure _
    | some r =>
      cases e with
      | raw n => exact noted_ite (noted_pure _) (noted_pure _)
      | status => exact noted_unless (noted_decode _ _)
      | data n => exact noted_unless (noted_decode _ _)))

theorem noted_loop (e : Expect) (n : Nat) : Noted c (receiveLoop e n) := by
  induction n with
  | zero => exact noted_raise _
  | succ n ih =>
    refine noted_bind (noted_attempt e) (fun got => ?_)
    cases got with
    | none => exact ih
    | some p => exact noted_pure p

theorem noted_close (close : Close) : Noted c (closeLine close) := by
  cases close with
  | idle => exact noted_bind noted_cfg (fun _ => noted_bind (noted_send c _) (fun _ => noted_modifyReg c _))
  | sleep =>
    exact noted_bind (noted_modifyReg c _) (fun _ => noted_bind noted_cfg (fun _ => noted_bind (noted_send c _)
      (fun _ => noted_modifyReg c _)))

/-- How the last operation ended is nothing to a transaction. -/
theorem noted_transact (o p1 : Byte) (q : Word16) (d : Bytes) (e : Expect) (close : Close) :
    Noted c (transact o p1 q d e close) := by
  have hr (f : Regs → Regs) := noted_modifyReg c f
  refine noted_catching ?_ (fun _ => noted_bind (hr _) (fun _ => noted_raise _))
  refine noted_bind (hr _) (fun _ => noted_bind (hr _) (fun _ => noted_bind noted_wake (fun _ => noted_bind (hr _) (fun _ =>
    noted_bind (fun s => ?_) (fun _ => noted_bind (noted_send c _) (fun _ => noted_bind (hr _) (fun _ =>
    noted_bind noted_cfg (fun _ => noted_bind (noted_loop _ _) (fun _ => noted_ite (noted_raise _)
    (noted_bind (hr _) (fun _ => noted_bind (noted_close close) (fun _ => noted_bind (hr _) (fun _ => noted_pure _)))))))))))))
  rw [encodeCommand_run, encodeCommand_run]
  rfl

/-- An operation run from a state whose note of the last ending is another one: the same. -/
theorem run_noted {α : Type} {x : Op α} {v : α → Value} (s : State) (hx : ∀ c, Noted c x) (e : Ending) :
    run x v (s.endWith e) = run x v s := by
  have key : ∀ w : Ctl, run x v (s.noted { w with ending := e }) = run x v (s.noted w) := by
    intro w
    unfold run
    rw [hx _ s, hx w s]
    cases x s with
    | ok a t => rfl
    | error f t => rfl
  exact key s.ctl

/-- A keyed hash whose first command is accepted goes on as its second command by itself (R134). -/
theorem keyedHash_second (k : SlotId) (msg : Bytes) (close : Close) (s t : State)
    (h : exec (.transact s.cfg.op.keyedHash s.cfg.p1.keyedHashStart k [] .status .idle) s = .next t)
    (hb : t.ctl.ending = .success (.bytes [0])) :
    exec (.keyedHash k msg close) s = exec (.keyedHashEnd msg close) t := by
  have hx : exec (.transact s.cfg.op.keyedHash s.cfg.p1.keyedHashStart k [] .status .idle) s
      = run (transact s.cfg.op.keyedHash s.cfg.p1.keyedHashStart k [] .status .idle) .bytes s :=
    if_pos (c := ([] : Bytes).length ≤ s.cfg.maxDataLen) (e := .refused .dataTooLong) (Nat.zero_le _)
  rw [hx, run] at h
  injection h with h
  cases hr : transact s.cfg.op.keyedHash s.cfg.p1.keyedHashStart k [] .status .idle s with
  | error e u =>
    rw [hr] at h
    rw [← h] at hb
    injection hb
  | ok a u =>
    rw [hr] at h
    subst h
    have hs : keyedHashStart k s = .ok () u := by
      simp only [keyedHashStart, bind_run, getCfg_run, hr, pure_run]
    show run (keyedHash k msg close) .bytes s = run (keyedHashEnd msg close) .bytes (u.endWith _)
    rw [run_noted (x := keyedHashEnd msg close) u
      (fun c => noted_bind noted_cfg (fun _ => noted_transact _ _ _ _ _ _)), run, run]
    simp only [keyedHash, bind_run, hs]

end Sys2Proof.Machine
end

