-- ==== Sys2Proof/Laws/PinChange.lean ====
section
/-! SUPPORT. The change of the secret and of the PIN (spec/44_pinengine.md R170 to R172). -/

namespace Sys2Proof.Machine

open Sys2Proof.Config (Params FieldLoc Layout)

/-! ### Changing the secret (R172) -/

theorem pins_changeSecretOp (oldD : Bytes) (rs : List WriteReply) (s : State) (hr : s.reg.recHeld = true)
    (hc : s.cfg.pulse0 ≠ s.cfg.pulse1) (hn : rs.length = 3)
    (hl : (maskSecret s.cfg (field s.reg.record s.cfg.layout.secret)).length = 72)
    (hg : s.face.grants (xEncryptedWrite s.cfg s.cfg.slot.seed s.cfg.slot.pinHash oldD 0
      (maskSecret s.cfg (field s.reg.record s.cfg.layout.secret) ++ zeros 24) (s.face.randoms 159) rs)) :
    Pins (changeSecret oldD) s () (xEncryptedWrite s.cfg s.cfg.slot.seed s.cfg.slot.pinHash oldD 0
      (maskSecret s.cfg (field s.reg.record s.cfg.layout.secret) ++ zeros 24) (s.face.randoms 159) rs) 159 false
      (s.face.held.withRecord (secretChanged s.cfg s.reg.record true)) := by
  unfold changeSecret
  refine pins_read (getCfg_run s) (pins_read (recField_run _ s hr) (pins_read (recWord_run _ s hr) ?_))
  refine pins_bind_still (pins_setRecWord _ _ s hr) (fun l _ hl' => ?_)
  have lD : l.face.randoms 159 = s.face.randoms 159 := by
    rw [hl', pin_randoms, Nat.zero_add, List.drop_zero]
  obtain ⟨l1, l2, l3, l4, l5, l6⟩ := pin_state hl'
  have e159 : 53 * rs.length = 159 := by omega
  have := pins_encryptedWrite s.cfg.slot.seed s.cfg.slot.pinHash oldD
    (maskSecret s.cfg (field s.reg.record s.cfg.layout.secret) ++ zeros 24) rs l (by rw [l1]; exact hc)
    (by rw [List.length_append, hl, hn]; rfl) (by rintro rfl; cases hn) (by
      rw [e159, lD, l1, hl']
      exact pin_grants (xs := []) _ _ _ _ hg)
  rw [e159, lD, l1] at this
  exact pins_eq this rfl rfl rfl rfl l3

theorem pins_changeSecret (rs : List WriteReply) (s : State) (hr : s.reg.recHeld = true) (hc : s.cfg.pulse0 ≠ s.cfg.pulse1)
    (hv : recordValid s.cfg s.reg.record) (hs : recordVerifies s.cfg s.reg.bootSeed s.reg.record)
    (hf : hasFlag (recordFlags s.cfg s.reg.record) s.cfg.flag.successful = true)
    (hbad : badChangeFlags s.cfg (fieldWord s.reg.record s.cfg.layout.changeFlags) = false)
    (hsec : hasFlag (fieldWord s.reg.record s.cfg.layout.changeFlags) s.cfg.flag.changeSecret = true)
    (hpin : hasFlag (fieldWord s.reg.record s.cfg.layout.changeFlags) s.cfg.flag.changeWalletPin = false)
    (hn : rs.length = 3)
    (hl : (maskSecret s.cfg (field s.reg.record s.cfg.layout.secret)).length = 72)
    (hg : s.face.grants (xEncryptedWrite s.cfg s.cfg.slot.seed s.cfg.slot.pinHash
      (cachedDigest s.cfg s.reg.bootSeed s.reg.record) 0
      (maskSecret s.cfg (field s.reg.record s.cfg.layout.secret) ++ zeros 24) (s.face.randoms 159) rs)) :
    Pins change s () (xEncryptedWrite s.cfg s.cfg.slot.seed s.cfg.slot.pinHash
      (cachedDigest s.cfg s.reg.bootSeed s.reg.record) 0
      (maskSecret s.cfg (field s.reg.record s.cfg.layout.secret) ++ zeros 24) (s.face.randoms 159) rs) 159 false
      (heldChangeSecret s.cfg s.reg.bootSeed s.face.held) := by
  unfold change
  refine pins_read (validate_run s hr hv) (pins_read (verify_run s hr hs) (pins_read (getCfg_run s)
    (pins_read (recWord_run _ s hr) (pins_read (recWord_run _ s hr) ?_))))
  rw [if_neg (fun h => h hf), if_neg (by rw [hbad]; simp)]
  have hcd : Pins (changeDigest (fieldWord s.reg.record s.cfg.layout.changeFlags) (recordFlags s.cfg s.reg.record)) s
      (cachedDigest s.cfg s.reg.bootSeed s.reg.record) [] 0 s.reg.tkValid
      (s.face.held.restored s.cfg s.reg.bootSeed) := by
    unfold changeDigest
    refine pins_read (getCfg_run s) ?_
    rw [if_neg (by rw [hpin]; simp)]
    exact pins_cacheRestore s hr
  refine pins_bind_still hcd (fun f _ hf => ?_)
  obtain ⟨f1, f2, f3, f4, f5, f6⟩ := pin_state hf
  refine pins_bind_still (pins_writeDigest _ f) (fun g _ hgg => ?_)
  rw [f3, hf, pin_pin, List.append_nil, Nat.add_zero] at hgg
  obtain ⟨g1, g2, g3, g4, g5, g6⟩ := pin_state hgg
  have g5' : g.reg.record = s.reg.record := g5
  have hrg : g.reg.recHeld = true := g6.trans hr
  have gD : g.face.randoms 159 = s.face.randoms 159 := by
    rw [hgg, pin_randoms, Nat.zero_add, List.drop_zero]
  rw [if_pos hsec]
  have hcs := pins_changeSecretOp (cachedDigest s.cfg s.reg.bootSeed s.reg.record) rs g hrg (by rw [g1]; exact hc) hn
    (by rw [g1, g5']; exact hl) (by
      rw [gD, g1, g5', hgg]
      exact pin_grants (xs := []) _ _ _ _ hg)
  rw [gD, g1, g5', g3] at hcs
  refine pins_bind_last hcs (fun i _ hi => ?_)
  obtain ⟨i1, i2, i3, i4, i5, i6⟩ := pin_state hi
  rw [if_neg (by rw [hpin]; simp)]
  refine pins_eq (pins_sign i i6) rfl rfl rfl i4 ?_
  simp only [i3, i1, i2, face_cfg, face_reg, g1, g2]
  rfl

/-! ### Changing the PIN (R170, R171) -/

theorem xOld_take (c : Params) (pin D : Bytes) (o : Option OldReply) {k : Nat} (h : oldDraws o ≤ k) :
    xOld c pin (D.take k) o = xOld c pin D o := by
  cases o with
  | none => rfl
  | some r =>
    simp only [oldDraws] at h
    simp only [xOld]
    rw [xPinAttempt_take c pin D _ (by omega), List.drop_take, xTestDigest_take c _ _ _ _ (by omega),
      testMac_take c _ _ _ (by omega)]

/-- The old PIN's check, passed (R170). -/
theorem pins_oldDigest (o : Option OldReply) (s : State) (hr : s.reg.recHeld = true) (hc : s.cfg.pulse0 ≠ s.cfg.pulse1)
    (hk : ∀ r, o = some r → s.cfg.kdfIter = r.attempt.stretches.length) (hp : s.cfg.slot.pinAttempt ≠ s.cfg.slot.keyPlain)
    (hg : s.face.grants (xOld s.cfg (recordOldPin s.cfg s.reg.record) (s.face.randoms (oldDraws o)) o)) :
    Pins (oldDigest (decide (o = none)) (fieldWord s.reg.record s.cfg.layout.oldPinLen)) s
      (oldDigestOf s.cfg (recordOldPin s.cfg s.reg.record) o)
      (xOld s.cfg (recordOldPin s.cfg s.reg.record) (s.face.randoms (oldDraws o)) o) (oldDraws o)
      (s.reg.tkValid && decide (o = none)) s.face.held := by
  unfold oldDigest
  cases o with
  | none =>
    rw [if_pos (by simp)]
    exact pins_eq (pins_pure (zeros 32) s) rfl rfl rfl (by simp) rfl
  | some r =>
    rw [if_neg (by simp)]
    generalize hpin : recordOldPin s.cfg s.reg.record = pin at *
    refine pins_read (recField_run _ s hr) ?_
    rw [show (field s.reg.record s.cfg.layout.oldPin).take (fieldWord s.reg.record s.cfg.layout.oldPinLen).toNat = pin
      from hpin]
    simp only [oldDraws, xOld, oldDigestOf] at hg ⊢
    generalize hK : attemptDraws r.attempt = K at *
    generalize hd : attemptDigest s.cfg pin r.attempt = d at *
    refine pins_eq (pins_bind (xs := xPinAttempt s.cfg pin (s.face.randoms (K + 53)) r.attempt) (m := K) (v := false)
      (a := d) (h := s.face.held) (n := 53) (w := false) (i := s.face.held) (b := d)
      (ys := xTestDigest s.cfg ((s.face.randoms (K + 53)).drop K) r.testPair r.testGendig
        (testMac s.cfg d ((s.face.randoms (K + 53)).drop K) r.testGendig)) ?_ (fun t _ ht => ?_)) rfl rfl rfl (by simp) rfl
    · exact pins_first (x := pinHashAttempt pin) (s := s) (fun c D => xPinAttempt c pin D r.attempt) (fun _ _ => d) K
        (n := K + 53) (w := false) (fun c D => xPinAttempt_take c pin D _ (by omega)) (fun _ _ => rfl) (by omega)
        (grants_left hg) (fun hg' => by
          have h := pins_pinHashAttempt pin r.attempt s hc (hk r rfl) hp (by rw [hK]; exact hg')
          rw [hd, hK] at h
          exact h)
    · have htx := (pin_state ht).1
      refine pins_bind_last (v := false) (a := true) (h := s.face.held) ?_ (fun u _ hu => ?_)
      · exact pins_later (x := testDigest d) ht (fun c D => xTestDigest c D r.testPair r.testGendig
            (testMac s.cfg d D r.testGendig)) (fun _ _ => true) 53 (n := K + 53) (w := false)
          (fun c D => by rw [xTestDigest_take c D _ _ _ (by omega), testMac_take _ _ D _ (by omega)]) (fun _ _ => rfl)
          (by omega) hg (fun hg' => by
            have h := pins_testDigest d r.testPair r.testGendig (testMac s.cfg d (t.face.randoms 53) r.testGendig) t
              (by rw [htx]; exact hc) hg'
            have e : ctEqualBytes (testMac s.cfg d (t.face.randoms 53) r.testGendig)
                (testMac t.cfg d (t.face.randoms 53) r.testGendig) = true := by
              rw [htx]; exact (ctEqualBytes_iff _ _).mpr rfl
            rwa [e] at h)
      · rw [ht, pin_pin] at hu
        obtain ⟨u1, u2, u3, u4, u5, u6⟩ := pin_state hu
        rw [if_pos rfl]
        exact pins_eq (pins_pure d u) rfl rfl rfl u4 u3

/-- The new PIN's part of a change (R171). -/
theorem pins_changePinOp (oldD : Bytes) (a : AttemptReply) (w : WriteReply) (v last : Word32) (up : UpdateReply) (s : State)
    (hr : s.reg.recHeld = true) (hc : s.cfg.pulse0 ≠ s.cfg.pulse1) (hk : s.cfg.kdfIter = a.stretches.length)
    (hp : s.cfg.slot.pinAttempt ≠ s.cfg.slot.keyPlain) (hb : budgetFits s.cfg v = true)
    (hi : bumpOf s.cfg v = up.increments.length + 1) (pin d : Bytes) (hpin : recordNewPin s.cfg s.reg.record = pin)
    (hd : attemptDigest s.cfg pin a = d) (K N : Nat) (hK : attemptDraws a = K) (hN : N = K + (53 + 212))
    (hg : s.face.grants (xPinAttempt s.cfg pin (s.face.randoms N) a
      ++ (xEncryptedWrite s.cfg s.cfg.slot.pinHash s.cfg.slot.pinHash oldD 0 d ((s.face.randoms N).drop K) [w]
      ++ xUpdates s.cfg d v last ((s.face.randoms N).drop (K + 53)) up))) :
    Pins (changePin oldD) s () (xPinAttempt s.cfg pin (s.face.randoms N) a
      ++ (xEncryptedWrite s.cfg s.cfg.slot.pinHash s.cfg.slot.pinHash oldD 0 d ((s.face.randoms N).drop K) [w]
      ++ xUpdates s.cfg d v last ((s.face.randoms N).drop (K + 53)) up)) N false
      (let h' := s.face.held.caching s.cfg s.reg.bootSeed d
       h'.withRecord (withFieldWord (withFieldWord (withFieldWord h'.record s.cfg.layout.stateFlags
        (clearFlag (recordFlags s.cfg h'.record) s.cfg.flag.isBlank)) s.cfg.layout.numFails 0) s.cfg.layout.attemptsLeft
        (BitVec.ofNat 32 s.cfg.maxAttempts))) := by
  have hdl : d.length = 32 := by rw [← hd]; exact sha256_length ..
  unfold changePin
  refine pins_read (getCfg_run s) (pins_read (recField_run _ s hr) (pins_read (recWord_run _ s hr) ?_))
  rw [show (field s.reg.record s.cfg.layout.newPin).take (fieldWord s.reg.record s.cfg.layout.newPinLen).toNat = pin
    from hpin]
  refine pins_eq (pins_bind (xs := xPinAttempt s.cfg pin (s.face.randoms N) a) (m := K) (v := false) (a := d)
    (h := s.face.held) (n := 53 + 212) ?_ (fun t _ ht => ?_)) rfl rfl hN.symm rfl rfl
  · exact pins_first (x := pinHashAttempt pin) (s := s) (fun c D => xPinAttempt c pin D a) (fun _ _ => d) K
      (n := N) (w := false) (fun c D => xPinAttempt_take c pin D _ (by omega)) (fun _ _ => rfl) (by omega)
      (grants_left hg) (fun hg' => by
        have h := pins_pinHashAttempt pin a s hc hk hp (by rw [hK]; exact hg')
        rw [hd, hK] at h
        exact h)
  · have htx := (pin_state ht).1
    refine pins_bind (xs := xEncryptedWrite s.cfg s.cfg.slot.pinHash s.cfg.slot.pinHash oldD 0 d
      ((s.face.randoms N).drop K) [w]) (m := 53) (v := false) (a := ()) (h := s.face.held) (n := 212) ?_ (fun u _ hu => ?_)
    · exact pins_later ht (fun c D => xEncryptedWrite c s.cfg.slot.pinHash s.cfg.slot.pinHash oldD 0 d D [w])
        (fun _ _ => ()) 53 (n := N) (fun c D => xEncryptedWrite_take c _ _ _ _ _ D _ (by simp)) (fun _ _ => rfl)
        (by omega) (grants_left (by rw [List.append_assoc]; exact hg)) (fun hg' =>
          pins_encryptedWrite s.cfg.slot.pinHash s.cfg.slot.pinHash oldD d [w] t (by rw [htx]; exact hc)
            (by rw [hdl]; rfl) (by simp) hg')
    · rw [ht, pin_pin] at hu
      obtain ⟨u1, u2, u3, u4, u5, u6⟩ := pin_state hu
      refine pins_bind_last (a := ()) (v := false) (h := s.face.held) ?_ (fun x _ hx => ?_)
      · exact pins_later hu (fun c D => xUpdates c d v last D up) (fun _ _ => ()) 212 (n := N)
          (fun c D => xUpdates_take c _ _ _ D _ (by omega)) (fun _ _ => rfl) (by omega)
          (by simpa only [List.append_assoc, face_cfg] using hg)
          (fun hg' => pins_updates d v last up u (by rw [u1]; exact hc) (by rw [u1]; exact hb) (by rw [u1]; exact hi) hg')
      · rw [hu, pin_pin] at hx
        obtain ⟨x1, x2, x3, x4, x5, x6⟩ := pin_state hx
        refine pins_bind_still (pins_writeDigest d x) (fun y _ hy => ?_)
        obtain ⟨y1, y2, y3, y4, y5, y6⟩ := pin_state hy
        have hyd : y.reg.digestHeld = true := congrArg (fun g : Face => g.reg.digestHeld) hy
        have hyv : y.reg.digest = d := congrArg (fun g : Face => g.reg.digest) hy
        refine pins_bind_still (pins_cacheSave y (y6.trans (x6.trans hr)) hyd) (fun z _ hz => ?_)
        obtain ⟨z1, z2, z3, z4, z5, z6⟩ := pin_state hz
        have hzr : z.reg.recHeld = true := z6
        refine pins_read (recWord_run _ z hzr) ?_
        refine pins_bind_still (pins_setRecWord _ _ z hzr) (fun e _ he => ?_)
        obtain ⟨e1, e2, e3, e4, e5, e6⟩ := pin_state he
        refine pins_bind_still (pins_setRecWord _ _ e e6) (fun f _ hf => ?_)
        obtain ⟨f1, f2, f3, f4, f5, f6⟩ := pin_state hf
        refine pins_eq (pins_setRecWord Layout.attemptsLeft _ f f6) rfl rfl rfl (f4.trans (e4.trans (z4.trans (y4.trans x4)))) ?_
        simp only [f3, f1, f5, face_cfg, face_reg, e1, e3, e5, z1, z3, z5, y1, y2, y3, hyv, x1, x2, x3]
        rfl

/-- A change of PIN, with or without the secret (R170, R171). -/
theorem pins_change_pin (r : ChangeReply) (s : State) (hr : s.reg.recHeld = true) (hc : s.cfg.pulse0 ≠ s.cfg.pulse1)
    (hv : recordValid s.cfg s.reg.record) (hs : recordVerifies s.cfg s.reg.bootSeed s.reg.record)
    (hf : hasFlag (recordFlags s.cfg s.reg.record) s.cfg.flag.successful = true)
    (hbad : badChangeFlags s.cfg (fieldWord s.reg.record s.cfg.layout.changeFlags) = false)
    (hpin : hasFlag (fieldWord s.reg.record s.cfg.layout.changeFlags) s.cfg.flag.changeWalletPin = true)
    (hnew : fieldWord s.reg.record s.cfg.layout.newPinLen ≠ 0)
    (hold : fieldWord s.reg.record s.cfg.layout.oldPinLen = 0 ↔ r.old = none)
    (hblank : hasFlag (recordFlags s.cfg s.reg.record) s.cfg.flag.isBlank = decide (r.old = none))
    (hn : r.secret.length
      = if hasFlag (fieldWord s.reg.record s.cfg.layout.changeFlags) s.cfg.flag.changeSecret then 3 else 0)
    (hl : (maskSecret s.cfg (field s.reg.record s.cfg.layout.secret)).length = 72)
    (hko : ∀ o, r.old = some o → s.cfg.kdfIter = o.attempt.stretches.length)
    (hk : s.cfg.kdfIter = r.attempt.stretches.length) (hp : s.cfg.slot.pinAttempt ≠ s.cfg.slot.keyPlain)
    (hb : budgetFits s.cfg r.counter = true) (hi : bumpOf s.cfg r.counter = r.updates.increments.length + 1)
    (hg : s.face.grants (xChange s.cfg s.reg.record (s.face.randoms (changeDraws r)) r)) :
    Pins change s () (xChange s.cfg s.reg.record (s.face.randoms (changeDraws r)) r) (changeDraws r) false
      (heldChange s.cfg s.reg.bootSeed s.face.held r) := by
  unfold change
  refine pins_read (validate_run s hr hv) (pins_read (verify_run s hr hs) (pins_read (getCfg_run s)
    (pins_read (recWord_run _ s hr) (pins_read (recWord_run _ s hr) ?_))))
  rw [if_neg (fun h => h hf), if_neg (by rw [hbad]; simp)]
  obtain ⟨N, hN⟩ : ∃ N, N = changeDraws r := ⟨_, rfl⟩
  obtain ⟨O, hO⟩ : ∃ O, O = oldDraws r.old := ⟨_, rfl⟩
  obtain ⟨K, hK⟩ : ∃ K, K = attemptDraws r.attempt := ⟨_, rfl⟩
  obtain ⟨d, hd⟩ : ∃ d, d = oldDigestOf s.cfg (recordOldPin s.cfg s.reg.record) r.old := ⟨_, rfl⟩
  have hNe : N = O + (53 * r.secret.length + (K + (53 + 212))) := by rw [hN, hO, hK]; rfl
  have hX : ∀ D, xChange s.cfg s.reg.record D r = xOld s.cfg (recordOldPin s.cfg s.reg.record) D r.old
      ++ (xEncryptedWrite s.cfg s.cfg.slot.seed s.cfg.slot.pinHash d 0
          (maskSecret s.cfg (field s.reg.record s.cfg.layout.secret) ++ zeros 24) (D.drop O) r.secret
        ++ (xPinAttempt s.cfg (recordNewPin s.cfg (secretChanged s.cfg s.reg.record (decide (r.secret ≠ []))))
            (D.drop (O + 53 * r.secret.length)) r.attempt
          ++ (xEncryptedWrite s.cfg s.cfg.slot.pinHash s.cfg.slot.pinHash d 0 (newDigestOf s.cfg s.reg.record r)
              (D.drop (O + 53 * r.secret.length + K)) [r.pinWrite]
            ++ xUpdates s.cfg (newDigestOf s.cfg s.reg.record r) r.counter r.lastCounter
              (D.drop (O + 53 * r.secret.length + K + 53)) r.updates))) := by
    intro D; rw [hO, hK, hd]; rfl
  rw [hX] at hg ⊢
  rw [← hN] at hg ⊢
  have hcd : Pins (changeDigest (fieldWord s.reg.record s.cfg.layout.changeFlags) (recordFlags s.cfg s.reg.record)) s
      d (xOld s.cfg (recordOldPin s.cfg s.reg.record) (s.face.randoms N) r.old) O
      (s.reg.tkValid && decide (r.old = none)) s.face.held := by
    unfold changeDigest
    refine pins_read (getCfg_run s) ?_
    rw [if_pos hpin]
    refine pins_read (recWord_run _ s hr) (pins_read (recWord_run _ s hr) ?_)
    rw [hblank, if_neg hnew, if_neg (by simp only [decide_eq_true_eq, ne_eq, hold]; exact fun h => h.2 h.1),
      if_neg (by simp only [decide_eq_true_eq, hold]; exact fun h => h.1 h.2)]
    have h := pins_first (x := oldDigest (decide (r.old = none)) (fieldWord s.reg.record s.cfg.layout.oldPinLen)) (s := s)
      (fun c D => xOld c (recordOldPin s.cfg s.reg.record) D r.old) (fun _ _ => d) O (n := N)
      (w := s.reg.tkValid && decide (r.old = none)) (fun c D => xOld_take c _ D _ (by omega)) (fun _ _ => rfl) (by omega)
      (grants_left hg) (fun hg' => by
        rw [hO, hd] at *
        exact pins_oldDigest r.old s hr hc hko hp hg')
    exact h
  refine pins_eq (pins_bind hcd (fun f _ hf => ?_) (ys := xEncryptedWrite s.cfg s.cfg.slot.seed s.cfg.slot.pinHash d 0
          (maskSecret s.cfg (field s.reg.record s.cfg.layout.secret) ++ zeros 24) ((s.face.randoms N).drop O) r.secret
        ++ (xPinAttempt s.cfg (recordNewPin s.cfg (secretChanged s.cfg s.reg.record (decide (r.secret ≠ []))))
            ((s.face.randoms N).drop (O + 53 * r.secret.length)) r.attempt
          ++ (xEncryptedWrite s.cfg s.cfg.slot.pinHash s.cfg.slot.pinHash d 0 (newDigestOf s.cfg s.reg.record r)
              ((s.face.randoms N).drop (O + 53 * r.secret.length + K)) [r.pinWrite]
            ++ xUpdates s.cfg (newDigestOf s.cfg s.reg.record r) r.counter r.lastCounter
              ((s.face.randoms N).drop (O + 53 * r.secret.length + K + 53)) r.updates)))
    (n := 53 * r.secret.length + (K + (53 + 212))) (b := ()) (w := false)
    (i := heldChange s.cfg s.reg.bootSeed s.face.held r)) rfl rfl hNe.symm rfl rfl
  obtain ⟨f1, f2, f3, f4, f5, f6⟩ := pin_state hf
  refine pins_bind_still (pins_writeDigest d f) (fun g _ hgg => ?_)
  rw [f3, hf, pin_pin, List.append_nil, Nat.add_zero] at hgg
  obtain ⟨g1, g2, g3, g4, g5, g6⟩ := pin_state hgg
  have hrg : g.reg.recHeld = true := g6.trans hr
  have g5' : g.reg.record = s.reg.record := g5
  -- the secret's part
  have hsec : Pins (if hasFlag (fieldWord s.reg.record s.cfg.layout.changeFlags) s.cfg.flag.changeSecret
      then changeSecret d else pure ()) g () (xEncryptedWrite s.cfg s.cfg.slot.seed s.cfg.slot.pinHash d 0
          (maskSecret s.cfg (field s.reg.record s.cfg.layout.secret) ++ zeros 24) ((s.face.randoms N).drop O) r.secret)
      (53 * r.secret.length) (if r.secret = [] then g.reg.tkValid else false)
      (g.face.held.withRecord (secretChanged s.cfg s.reg.record (decide (r.secret ≠ [])))) := by
    by_cases hcs : hasFlag (fieldWord s.reg.record s.cfg.layout.changeFlags) s.cfg.flag.changeSecret = true
    · rw [if_pos hcs] at hn ⊢
      have hne : r.secret ≠ [] := by intro h; rw [h] at hn; cases hn
      have e159 : 53 * r.secret.length = 159 := by omega
      have gD : g.face.randoms 159 = ((s.face.randoms N).drop O).take 159 := pin_window hgg (by omega)
      have h := pins_changeSecretOp d r.secret g hrg (by rw [g1]; exact hc) hn (by rw [g1, g5']; exact hl) (by
        rw [gD, g1, g5', xEncryptedWrite_take _ _ _ _ _ _ _ _ (by omega), hgg]
        exact grants_left (pin_grants _ _ _ _ hg))
      rw [gD, g1, g5', xEncryptedWrite_take _ _ _ _ _ _ _ _ (by omega)] at h
      refine pins_eq h rfl rfl e159.symm (by rw [if_neg hne]) (by rw [decide_eq_true hne]; rfl)
    · rw [if_neg hcs] at hn ⊢
      have he : r.secret = [] := List.length_eq_zero_iff.mp hn
      rw [he]
      refine pins_eq (pins_pure () g) rfl rfl rfl (by simp) ?_
      have : g.face.held = g.face.held.withRecord g.reg.record := by
        simp only [Face.held, Held.withRecord, face_reg, hrg]
      rw [this, g5']
      rfl
  have flat {p : Prop} [Decidable p] {x k : Op Unit} :
      (if p then (do x; k) else k) = ((if p then x else pure ()) >>= fun _ => k) := by split <;> rfl
  show Pins (if hasFlag (fieldWord s.reg.record s.cfg.layout.changeFlags) s.cfg.flag.changeSecret then (do
      changeSecret d
      if hasFlag (fieldWord s.reg.record s.cfg.layout.changeFlags) s.cfg.flag.changeWalletPin then (do changePin d; sign)
        else sign)
    else (if hasFlag (fieldWord s.reg.record s.cfg.layout.changeFlags) s.cfg.flag.changeWalletPin then (do changePin d; sign)
        else sign)) g () _ _ _ _
  rw [flat]
  refine pins_bind hsec (fun i _ hii => ?_)
  rw [hgg, pin_pin] at hii
  obtain ⟨i1, i2, i3, i4, i5, i6⟩ := pin_state hii
  rw [if_pos hpin]
  have hri : i.reg.recHeld = true := i6
  have hM : O + 53 * r.secret.length + (K + (53 + 212)) ≤ N := by rw [hNe, Nat.add_assoc]
  have iD : i.face.randoms (K + (53 + 212)) = (s.face.randoms N).drop (O + 53 * r.secret.length) := by
    rw [pin_window (N := K + (53 + 212)) hii hM]
    exact List.take_of_length_le (by rw [List.length_drop, randoms_length, hNe, ← Nat.add_assoc O, Nat.add_sub_cancel_left])
  have i5' : i.reg.record = secretChanged s.cfg s.reg.record (decide (r.secret ≠ [])) := i5
  have hch := pins_changePinOp d r.attempt r.pinWrite r.counter r.lastCounter r.updates i hri (by rw [i1]; exact hc)
    (by rw [i1]; exact hk) (by rw [i1]; exact hp) (by rw [i1]; exact hb) (by rw [i1]; exact hi) _
    (newDigestOf s.cfg s.reg.record r) rfl (by rw [i1, i5']; rfl) K (K + (53 + 212)) hK.symm rfl (by
      rw [iD, i1, i5', hii, List.drop_drop, List.drop_drop]
      simp only [← Nat.add_assoc]
      exact pin_grants _ _ _ _ (by rw [List.append_assoc]; exact hg))
  rw [iD, i1, i2, i3, i5', List.drop_drop, List.drop_drop] at hch
  simp only [← Nat.add_assoc] at hch ⊢
  refine pins_bind_last hch (fun j _ hj => ?_)
  obtain ⟨j1, j2, j3, j4, j5, j6⟩ := pin_state hj
  refine pins_eq (pins_sign j j6) rfl rfl rfl j4 ?_
  simp only [j1, j2, j3, i1, i2, face_cfg, face_reg]
  rfl

/-- A masked secret has its length (R8, R172). -/
theorem maskSecret_length {c : Config.Params} (hw : c.wf = true) (hl : c.layout.wf = true) {r : Bytes} (hr : r.length = 276) :
    (maskSecret c (field r c.layout.secret)).length = 72 := by
  have h1 : c.rom.otpKey.length = 72 := by
    exact (wf_secrets hw).2.2.1
  have h2 := wf_secretField hl
  unfold maskSecret
  split
  · rfl
  · simp [field, slice, xorBytes, h1]; omega

end Sys2Proof.Machine
end

