-- ==== Sys2Proof/Laws/PinFailures.lean ====
section
/-! SUPPORT. Two ways a PIN operation fails on the way: a `setup` whose warm-up pairing fails (spec/44_pinengine.md R163), a
`change` whose old PIN the chip does not confirm (R170). -/

namespace Sys2Proof.Machine

open Sys2Proof.Config (Params FieldLoc Layout)

/-- `REC` cleared, whole (R163). -/
theorem clearRecord_run (s : State) (hr : s.reg.recHeld = true) :
    clearRecord s = .ok () { s with
      env := { s.env with rand := s.env.rand.after Config.freeRand 4 }
      reg := { s.reg with record := clearedRecord s.cfg s.reg.record (s.face.randoms 4) } } := by
  simp only [clearRecord, setRecWord, setRecField, bind_run, getCfg_run, readRec, readHeld, hr, if_true, writeRec,
    modifyReg_run, rand]
  rfl

/-- A `setup` whose warm-up pairing fails: `Brick`, with what the pairing left (R163, R198). -/
theorem setup_brick (s t : State) (hr : s.reg.recHeld = true) (hv : recordValid s.cfg s.reg.record)
    (h : pairUnlock { s with
      env := { s.env with rand := s.env.rand.after Config.freeRand 4 }
      reg := { s.reg with record := clearedRecord s.cfg s.reg.record (s.face.randoms 4) } } = .error .seFailure t) :
    setup s = .error .brick t := by
  unfold setup
  rw [bind_run, validate_run s hr hv]
  show (clearRecord >>= _) s = _
  rw [bind_run, clearRecord_run s hr]
  show (unlockOrBrick >>= _) _ = _
  rw [bind_run, show unlockOrBrick _ = .error .brick t from catching_error h (by simp)]

/-- The old PIN's check, not passed: the record signed again (R170). -/
theorem pinsFail_oldDigest (r : OldReply) (mac : Bytes) (s : State) (hr : s.reg.recHeld = true)
    (hc : s.cfg.pulse0 ≠ s.cfg.pulse1) (hk : s.cfg.kdfIter = r.attempt.stretches.length)
    (hp : s.cfg.slot.pinAttempt ≠ s.cfg.slot.keyPlain)
    (hm : mac ≠ testMac s.cfg (attemptDigest s.cfg (recordOldPin s.cfg s.reg.record) r.attempt)
      ((s.face.randoms (attemptDraws r.attempt + 53)).drop (attemptDraws r.attempt)) r.testGendig)
    (hg : s.face.grants (xOldWrong s.cfg (recordOldPin s.cfg s.reg.record) (s.face.randoms (attemptDraws r.attempt + 53)) r
      mac)) :
    PinsFail (oldDigest false (fieldWord s.reg.record s.cfg.layout.oldPinLen)) s .oldAuthFail
      (xOldWrong s.cfg (recordOldPin s.cfg s.reg.record) (s.face.randoms (attemptDraws r.attempt + 53)) r mac)
      (attemptDraws r.attempt + 53) false (s.face.held.signed s.cfg s.reg.bootSeed) := by
  unfold oldDigest
  rw [if_neg (by simp)]
  generalize hpin : recordOldPin s.cfg s.reg.record = pin at *
  refine pinsFail_read (recField_run _ s hr) ?_
  rw [show (field s.reg.record s.cfg.layout.oldPin).take (fieldWord s.reg.record s.cfg.layout.oldPinLen).toNat = pin
    from hpin]
  unfold xOldWrong at hg ⊢
  generalize hK : attemptDraws r.attempt = K at *
  generalize hd : attemptDigest s.cfg pin r.attempt = d at *
  refine pinsFail_after (xs := xPinAttempt s.cfg pin (s.face.randoms (K + 53)) r.attempt) (m := K) (v := false)
    (a := d) (h := s.face.held) (n := 53) ?_ (fun t _ ht => ?_)
  · exact pins_first (x := pinHashAttempt pin) (s := s) (fun c D => xPinAttempt c pin D r.attempt) (fun _ _ => d) K
      (n := K + 53) (w := false) (fun c D => xPinAttempt_take c pin D _ (by omega)) (fun _ _ => rfl) (by omega)
      (grants_left hg) (fun hg' => by
        have h := pins_pinHashAttempt pin r.attempt s hc hk hp (by rw [hK]; exact hg')
        rw [hd, hK] at h
        exact h)
  · have htx := (pin_state ht).1
    refine pinsFail_eq (pinsFail_after (xs := xTestDigest s.cfg ((s.face.randoms (K + 53)).drop K) r.testPair r.testGendig mac)
      (m := 53) (v := false) (a := false) (h := s.face.held) (ys := []) (n := 0) ?_ (fun u _ hu => ?_)) (List.append_nil _) rfl
      rfl rfl
    · have := pins_later (x := testDigest d) ht
        (fun c D => xTestDigest c D r.testPair r.testGendig mac)
        (fun c D => ctEqualBytes mac (testMac c d D r.testGendig)) 53 (n := K + 53)
        (w := false) (fun c D => xTestDigest_take c D _ _ _ (by omega)) (fun c D => by rw [testMac_take _ _ D _ (by omega)])
        (by omega) hg (fun hg' => pins_testDigest _ r.testPair r.testGendig mac t (by rw [htx]; exact hc) hg')
      refine pins_eq this ?_ rfl rfl rfl rfl
      rw [Bool.eq_false_iff]
      exact fun h => hm ((ctEqualBytes_iff _ _).mp h)
    · rw [if_neg (by simp)]
      rw [ht, pin_pin] at hu
      obtain ⟨u1, u2, u3, u4, u5, u6⟩ := pin_state hu
      refine pinsFail_eq (pinsFail_after (pins_sign u (u6.trans hr)) (ys := []) (n := 0) (w := false) (fun x _ hx => ?_)) rfl rfl rfl rfl
      obtain ⟨-, -, x3, x4, -, -⟩ := pin_state hx
      refine pinsFail_eq (pinsFail_raise .oldAuthFail x) rfl rfl (x4.trans u4) ?_
      rw [x3, u1, u2, u3]
      rfl

/-- A change of PIN whose old PIN the chip does not confirm (R170, R197). -/
theorem pins_change_wrong (r : OldReply) (mac : Bytes) (s : State) (hr : s.reg.recHeld = true)
    (hc : s.cfg.pulse0 ≠ s.cfg.pulse1)
    (hv : recordValid s.cfg s.reg.record) (hs : recordVerifies s.cfg s.reg.bootSeed s.reg.record)
    (hf : hasFlag (recordFlags s.cfg s.reg.record) s.cfg.flag.successful = true)
    (hbad : badChangeFlags s.cfg (fieldWord s.reg.record s.cfg.layout.changeFlags) = false)
    (hpin : hasFlag (fieldWord s.reg.record s.cfg.layout.changeFlags) s.cfg.flag.changeWalletPin = true)
    (hnew : fieldWord s.reg.record s.cfg.layout.newPinLen ≠ 0) (hold : fieldWord s.reg.record s.cfg.layout.oldPinLen ≠ 0)
    (hblank : hasFlag (recordFlags s.cfg s.reg.record) s.cfg.flag.isBlank = false)
    (hk : s.cfg.kdfIter = r.attempt.stretches.length) (hp : s.cfg.slot.pinAttempt ≠ s.cfg.slot.keyPlain)
    (hm : mac ≠ testMac s.cfg (attemptDigest s.cfg (recordOldPin s.cfg s.reg.record) r.attempt)
      ((s.face.randoms (attemptDraws r.attempt + 53)).drop (attemptDraws r.attempt)) r.testGendig)
    (hg : s.face.grants (xOldWrong s.cfg (recordOldPin s.cfg s.reg.record) (s.face.randoms (attemptDraws r.attempt + 53)) r
      mac)) :
    PinsFail change s .oldAuthFail
      (xOldWrong s.cfg (recordOldPin s.cfg s.reg.record) (s.face.randoms (attemptDraws r.attempt + 53)) r mac)
      (attemptDraws r.attempt + 53) false (s.face.held.signed s.cfg s.reg.bootSeed) := by
  have hcd : PinsFail (changeDigest (fieldWord s.reg.record s.cfg.layout.changeFlags) (recordFlags s.cfg s.reg.record)) s
      .oldAuthFail (xOldWrong s.cfg (recordOldPin s.cfg s.reg.record) (s.face.randoms (attemptDraws r.attempt + 53)) r mac)
      (attemptDraws r.attempt + 53) false (s.face.held.signed s.cfg s.reg.bootSeed) := by
    unfold changeDigest
    refine pinsFail_read (getCfg_run s) ?_
    rw [if_pos hpin]
    refine pinsFail_read (recWord_run _ s hr) (pinsFail_read (recWord_run _ s hr) ?_)
    rw [hblank, if_neg hnew, if_neg (by simp), if_neg (fun h => hold h.2)]
    exact pinsFail_oldDigest r mac s hr hc hk hp hm hg
  unfold change
  refine pinsFail_read (validate_run s hr hv) (pinsFail_read (verify_run s hr hs) (pinsFail_read (getCfg_run s)
    (pinsFail_read (recWord_run _ s hr) (pinsFail_read (recWord_run _ s hr) ?_))))
  rw [if_neg (fun h => h hf), if_neg (by rw [hbad]; simp)]
  obtain ⟨t, tk, ht, hft⟩ := hcd
  exact ⟨t, tk, by rw [bind_run]; exact (by rw [show changeDigest _ (fieldWord s.reg.record s.cfg.layout.stateFlags) s = _ from ht]), hft⟩

end Sys2Proof.Machine
end

