-- ==== Sys2Proof/Laws/PinSetup.lean ====
section
/-! SUPPORT. `setup` of a personalised chip: the `CheckMac` with the all-zero secret is refused, which reads as "not blank"
(spec/44_pinengine.md R163, R164). -/

namespace Sys2Proof.Machine

open Sys2Proof.Config (Params)

/-- The face after a command that the chip answers with an error status at the first attempt, from a layer that turns it
into `SeFailure` (R122, R138). -/
def Face.refusedBy (f : Face) (frame : Bytes) (crc0 : Word16) (rx : Bytes) (crc : Word16) : Face :=
  let g := (f.commanded frame crc0).retried 1 rx crc
  g.withRegs { g.reg with phase := .ready, tkValid := false }

theorem session_quiet (f : Face) (xs : List Exchange) (n : Nat) (tk : Bytes) (v : Bool) (k : Nat) :
    (f.session xs n tk v).quiet k = (f.exchanges xs).quiet k := rfl

theorem session_hears (f : Face) (xs : List Exchange) (n : Nat) (tk : Bytes) (v : Bool) (bs : List (List Symbol)) :
    (f.session xs n tk v).hears bs = (f.exchanges xs).hears bs := rfl

theorem pin_stall (f : Face) (xs : List Exchange) (n : Nat) (tk : Bytes) (v : Bool) (h : Held) :
    (f.pin xs n tk v h).env.stall = (f.exchanges xs).env.stall := rfl

theorem pin_inMoves (f : Face) (xs : List Exchange) (n : Nat) (tk : Bytes) (v : Bool) (h : Held) :
    (f.pin xs n tk v h).inMoves = (f.exchanges xs).inMoves := rfl

/-- How many transmit-ready draws a `CheckMac` takes that the chip answers at once and that is not closed. -/
def checkMacCost (c : Params) : Nat := 1 + 8 * (77 + 8) + 8 * (promptBytes c).length

theorem quiet_of_stall {f g : Face} (h : f.env.stall = g.env.stall) {k : Nat} (hg : g.quiet k) : f.quiet k := by
  unfold Face.quiet at *
  rw [h]
  exact hg

theorem hears_of_moves {f g : Face} (h : f.inMoves = g.inMoves) {bs : List (List Symbol)} (hg : g.hears bs) : f.hears bs := by
  unfold Face.hears at *
  rw [h]
  exact hg

/-- Exchanges take the same draws after faces that agree on them. -/
theorem exchanges_same {f g : Face} (hc : f.cfg = g.cfg) (hs : f.env.stall = g.env.stall) (hm : f.inMoves = g.inMoves)
    (ys : List Exchange) : (f.exchanges ys).env.stall = (g.exchanges ys).env.stall
      ∧ (f.exchanges ys).inMoves = (g.exchanges ys).inMoves := by
  constructor
  · rw [exchanges_env f, exchanges_env g]
    dsimp only
    rw [hc, hs]
  · rw [exchanges_inMoves f, exchanges_inMoves g, hc, hm]

theorem checkmac_refused (keynum : SlotId) (secret rng : Bytes) (code : Byte) (s : State) (hc : s.cfg.pulse0 ≠ s.cfg.pulse1)
    (hcode : code ≠ 0) (hm : 0 < s.cfg.retryMax) (hg : s.face.grants [xNonce s.cfg (s.face.randoms 20) rng])
    (hq : (s.face.exchanges [xNonce s.cfg (s.face.randoms 20) rng]).quiet (checkMacCost s.cfg))
    (hh : (s.face.exchanges [xNonce s.cfg (s.face.randoms 20) rng]).hears [serializeBytes s.cfg (statusFrame s.cfg code)]) :
    ∃ rx crc0 crc, Fails (checkmac keynum secret) s .seFailure ((s.face.session [xNonce s.cfg (s.face.randoms 20) rng] 33
      (sha256 (nonceMsg rng (s.face.randoms 20))) false).refusedBy
      (commandFrame s.cfg s.cfg.op.checkMac s.cfg.p1.checkMac keynum (checkMacBody
        (sha256 (checkMacMsg secret (sha256 (nonceMsg rng (s.face.randoms 20))) ((s.face.randoms (20 + 13)).drop 20)))
        ((s.face.randoms (20 + 13)).drop 20))) crc0 rx crc) := by
  obtain ⟨t, ht, htf⟩ := freshNonce_goes rng s hc hg
  obtain ⟨u, hu, huf⟩ := goes_rand 13 t
  obtain ⟨v, hv, hvf⟩ := goes_clearTkValid u
  rw [htf] at huf hu
  rw [session_randoms] at hu
  have hur : u.reg = _ := congrArg Face.reg huf
  rw [huf, hur] at hvf
  have hv' : v.face = s.face.session [xNonce s.cfg (s.face.randoms 20) rng] 33
      (sha256 (nonceMsg rng (s.face.randoms 20))) false := by
    rw [hvf]
    have : (s.face.session [xNonce s.cfg (s.face.randoms 20) rng] 20 (sha256 (nonceMsg rng (s.face.randoms 20))) true).drew 13
        = s.face.session [xNonce s.cfg (s.face.randoms 20) rng] (20 + 13) (sha256 (nonceMsg rng (s.face.randoms 20))) true := by
      simp only [Face.session, Face.drew, Face.withRegs, after_after]
    rw [this]
    rfl
  have hvc : v.cfg = s.cfg := (congrArg Face.cfg hv').trans (session_cfg ..)
  obtain ⟨body, hb⟩ : ∃ b, b = checkMacBody
      (sha256 (checkMacMsg secret (sha256 (nonceMsg rng (s.face.randoms 20))) ((s.face.randoms (20 + 13)).drop 20)))
      ((s.face.randoms (20 + 13)).drop 20) := ⟨_, rfl⟩
  rw [← hb]
  have hbl : body.length = 77 := by
    rw [hb]
    simp [checkMacBody, randoms_length, Config.blockLen]
  obtain ⟨rx, crc, w, hw, hwf⟩ := transact_chipError s.cfg.op.checkMac s.cfg.p1.checkMac keynum body .status .idle [] code
    (statusFrame s.cfg code) v (by rw [hvc]; exact hc) (by rw [hvc]; exact hm) (by simp)
    (by rw [hvc]; exact ⟨hcode, rfl⟩) (by
      rw [hv', hvc, hbl, session_quiet]
      simpa only [List.length_nil, Nat.zero_add, one_mul, checkMacCost] using hq)
    (by
      rw [hv', hvc, session_hears]
      simpa only [List.nil_append, List.map_cons, List.map_nil] using hh)
  have hcm : checkMac keynum body .idle v = .error (.chipError code) w := by
    simp only [checkMac, bind_run, getCfg_run, hvc, hw]
  refine ⟨rx, frameCrc s.cfg (commandBody s.cfg.op.checkMac s.cfg.p1.checkMac keynum body), crc,
    { w with reg := { w.reg with tkValid := false } }, ?_, ?_⟩
  · unfold checkmac
    simp only [bind_run, ht, show Config.otherDataLen = 13 from rfl, hu, hv, ← hb]
    unfold seCall
    rw [catching_error hcm (by simp)]
    rfl
  · have : ({ w with reg := { w.reg with tkValid := false } } : State).face
        = w.face.withRegs { w.face.reg with tkValid := false } := rfl
    rw [this, hwf, hv', hvc]
    rfl

/-- `detect_blank` when the chip refuses the all-zero key (R164). -/
theorem detectBlank_refused (pairRng checkRng : Bytes) (code : Byte) (s : State) (hc : s.cfg.pulse0 ≠ s.cfg.pulse1)
    (hcode : code ≠ 0) (hm : 0 < s.cfg.retryMax) {D : Bytes} (hD : s.face.randoms 66 = D)
    (hg : s.face.grants (xPair s.cfg D pairRng ++ [xNonce s.cfg (slice D 33 20) checkRng]))
    (hq : (s.face.exchanges (xPair s.cfg D pairRng ++ [xNonce s.cfg (slice D 33 20) checkRng])).quiet (checkMacCost s.cfg))
    (hh : (s.face.exchanges (xPair s.cfg D pairRng ++ [xNonce s.cfg (slice D 33 20) checkRng])).hears
      [serializeBytes s.cfg (statusFrame s.cfg code)]) :
    ∃ tk rx crc0 crc, Goes detectBlank s false ((s.face.session
      (xPair s.cfg D pairRng ++ [xNonce s.cfg (slice D 33 20) checkRng]) 66 tk false).refusedBy
      (commandFrame s.cfg s.cfg.op.checkMac s.cfg.p1.checkMac s.cfg.slot.pinHash (checkMacBody
        (sha256 (checkMacMsg (zeros 32) (sha256 (nonceMsg checkRng (slice D 33 20))) (slice D 53 13)))
        (slice D 53 13))) crc0 rx crc) := by
  have hp : xPair s.cfg D pairRng = xPair s.cfg (s.face.randoms 33) pairRng := by
    rw [← hD, ← randoms_take s.face (show 33 ≤ 66 by omega), xPair_take _ _ _ (by omega)]
  rw [hp] at hg hq hh ⊢
  obtain ⟨t, ht, htf⟩ := pairUnlock_goes pairRng s hc ((grants_append _ _ _).mp hg).1
  have htc : t.cfg = s.cfg := (congrArg Face.cfg htf).trans (session_cfg ..)
  have e20 : t.face.randoms 20 = slice D 33 20 := by
    rw [htf, session_randoms, ← hD, randoms_slice _ _ _ _ (by omega)]
  have e33 : (t.face.randoms (20 + 13)).drop 20 = slice D 53 13 := by
    rw [htf, session_randoms, List.drop_drop, ← hD, randoms_slice _ _ _ _ (by omega)]
  have hx (ys : List Exchange) : (t.face.exchanges ys).env.stall = (s.face.exchanges
        (xPair s.cfg (s.face.randoms 33) pairRng ++ ys)).env.stall
      ∧ (t.face.exchanges ys).inMoves = (s.face.exchanges (xPair s.cfg (s.face.randoms 33) pairRng ++ ys)).inMoves := by
    rw [exchanges_append]
    refine exchanges_same ?_ ?_ ?_ ys
    · rw [htf, session_cfg, exchanges_cfg]
    · rw [htf, session_pin, pin_stall]
    · rw [htf, session_pin, pin_inMoves]
  obtain ⟨rx, crc0, crc, w, hw, hwf⟩ := checkmac_refused s.cfg.slot.pinHash (zeros 32) checkRng code t (by rw [htc]; exact hc)
    hcode (by rw [htc]; exact hm) (by rw [htc, e20, htf]; exact grants_session _ _ _ hg)
    (by
      simp only [htc, e20]
      exact quiet_of_stall (hx [xNonce s.cfg (slice D 33 20) checkRng]).1 hq) (by
      simp only [htc, e20]
      exact hears_of_moves (hx [xNonce s.cfg (slice D 33 20) checkRng]).2 hh)
  refine ⟨sha256 (nonceMsg checkRng (slice D 33 20)), rx, crc0, crc, w, ?_, ?_⟩
  · unfold detectBlank
    simp only [bind_run, ht, getCfg_run, htc]
    rw [catching_error (e := .seFailure) (s' := w) (by
      simp only [bind_run]
      rw [show checkmac s.cfg.slot.pinHash (zeros Config.blockLen) t = .error .seFailure w from hw]) (by simp)]
    rfl
  · rw [hwf, htc, e20, e33, htf, session_session]

theorem sign_goes (s : State) (hr : s.reg.recHeld = true) :
    Goes sign s () (s.face.withHeld (s.face.held.signed s.cfg s.reg.bootSeed)) := by
  refine ⟨{ s with reg := { s.reg with record := signedRecord s.cfg s.reg.bootSeed s.reg.record, recHeld := true } }, ?_, rfl⟩
  simp only [sign, setRecField, bind_run, recSignature_run s hr, getCfg_run, readRec, readHeld, hr, if_true]
  rfl

theorem refusedBy_held (f : Face) (frame rx : Bytes) (crc0 crc : Word16) : (f.refusedBy frame crc0 rx crc).held =
    f.held := rfl

theorem refusedBy_cfg (f : Face) (frame rx : Bytes) (crc0 crc : Word16) : (f.refusedBy frame crc0 rx crc).cfg = f.cfg := rfl

theorem refusedBy_bootSeed (f : Face) (frame rx : Bytes) (crc0 crc : Word16) :
    (f.refusedBy frame crc0 rx crc).reg.bootSeed = f.reg.bootSeed := rfl

theorem refusedBy_withHeld (f : Face) (h i : Held) (frame rx : Bytes) (crc0 crc : Word16) :
    ((f.withHeld h).refusedBy frame crc0 rx crc).withHeld i = (f.refusedBy frame crc0 rx crc).withHeld i := rfl

/-- `setup` of a chip that refuses the all-zero key (R163): its face is that of the refused `CheckMac`, the record signed. -/
theorem setup_personal (r : SetupReply) (code : Byte) (s : State) (hr : s.reg.recHeld = true)
    (hc : s.cfg.pulse0 ≠ s.cfg.pulse1)
    (hcode : code ≠ 0) (hm : 0 < s.cfg.retryMax) (hv : recordValid s.cfg s.reg.record)
    (hg : s.face.grants (xSetupStart s.cfg (s.face.randoms 262) r))
    (hq : (s.face.exchanges (xSetupStart s.cfg (s.face.randoms 262) r)).quiet (checkMacCost s.cfg))
    (hh : (s.face.exchanges (xSetupStart s.cfg (s.face.randoms 262) r)).hears [serializeBytes s.cfg (statusFrame s.cfg code)]) :
    ∃ tk rx crc0 crc, Goes setup s () (((s.face.session (xSetupStart s.cfg (s.face.randoms 262) r) 262 tk false).refusedBy
      (blankFrame s.cfg (s.face.randoms 262) r) crc0 rx crc).withHeld
        (heldSetupPersonal s.cfg s.reg.bootSeed (s.face.randoms 262) s.face.held r)) := by
  obtain ⟨D, hD⟩ : ∃ D, s.face.randoms 262 = D := ⟨_, rfl⟩
  rw [hD] at hg hq hh ⊢
  unfold xSetupStart at hg hq hh ⊢
  obtain ⟨b, tb, hb, hbf⟩ := pins_clearRecord s hr
  rw [← randoms_take s.face (show 4 ≤ 262 by omega), hD] at hbf
  obtain ⟨b1, b2, b3, b4, b5, b6⟩ := pin_state hbf
  have wb : b.face.randoms 33 = ((D.drop 4).take 33) := by rw [pin_window (n := 262) hbf (by omega), hD]
  obtain ⟨d, hd, hdf⟩ := goes_catching (h := fun e => if e = .seFailure then raise .brick else raise e)
    (pairUnlock_goes r.warmRng b (by rw [b1]; exact hc) (by
      rw [b1, wb, xPair_take _ _ _ (by omega), hbf]
      exact pin_grants (xs := []) _ _ _ _ (grants_left hg)))
  have hdf : d.face = s.face.pin (xPair s.cfg (D.drop 4) r.warmRng) 37 (pairTk (b.face.randoms 33) r.warmRng) false b.face.held := by
    rw [hdf, b1, wb, xPair_take _ _ _ (by omega), hbf, pin_session]
    rfl
  obtain ⟨d1, d2, d3, d4, d5, d6⟩ := pin_state hdf
  have hdr : d.reg.recHeld = true := d6.trans b6
  have wd : d.face.randoms 159 = ((D.drop 37).take 159) := by rw [pin_window (n := 262) hdf (by omega), hD]
  obtain ⟨e, te, he, hef⟩ := pins_readCounters r.counters d hdr (by rw [d1]; exact hc) (by
    rw [d1, wd, xReadCounters_take _ _ _ (by omega), hdf]
    exact grants_left (pin_grants _ _ _ _ hg))
  rw [d1, wd, xReadCounters_take _ _ _ (by omega)] at hef
  have e6 := (pin_state hef).2.2.2.2.2
  rw [hdf, pin_pin] at hef
  obtain ⟨e1, e2, e3, e4, e5, -⟩ := pin_state hef
  have her : e.reg.recHeld = true := e6
  have we : e.face.randoms 66 = D.drop 196 := by
    rw [pin_window (n := 262) hef (by omega), hD]
    exact List.take_of_length_le (by rw [← hD]; simp [randoms_length])
  have s1 : slice (D.drop 196) 33 20 = slice D 229 20 := by simp only [slice, List.drop_drop, Nat.reduceAdd]
  have s2 : slice (D.drop 196) 53 13 = slice D 249 13 := by simp only [slice, List.drop_drop, Nat.reduceAdd]
  have hx (ys : List Exchange) : (e.face.exchanges ys).env.stall = (s.face.exchanges (xPair s.cfg (D.drop 4) r.warmRng
        ++ (xReadCounters s.cfg (D.drop 37) r.counters ++ ys))).env.stall
      ∧ (e.face.exchanges ys).inMoves = (s.face.exchanges (xPair s.cfg (D.drop 4) r.warmRng
        ++ (xReadCounters s.cfg (D.drop 37) r.counters ++ ys))).inMoves := by
    rw [← List.append_assoc, exchanges_append]
    refine exchanges_same ?_ ?_ ?_ ys
    · rw [hef, pin_cfg, exchanges_cfg]
    · rw [hef, pin_stall, face_cfg]
    · rw [hef, pin_inMoves, face_cfg]
  obtain ⟨tk, rx, crc0, crc, f, hf, hff⟩ := detectBlank_refused r.blankPair r.blankRng code e (by rw [e1]; exact hc) hcode
    (by rw [e1]; exact hm) we
    (by
      rw [e1, s1, hef]
      simp only [face_cfg]
      exact pin_grants _ _ _ _ (by rw [List.append_assoc]; exact hg))
    (by
      simp only [e1, s1]
      exact quiet_of_stall (hx (xPair s.cfg (D.drop 196) r.blankPair ++ [xNonce s.cfg (slice D 229 20) r.blankRng])).1 hq) (by
      simp only [e1, s1]
      exact hears_of_moves (hx (xPair s.cfg (D.drop 196) r.blankPair ++ [xNonce s.cfg (slice D 229 20) r.blankRng])).2 hh)
  have hfh : f.face.held = e.face.held := by rw [hff, refusedBy_held, session_held]
  have hfr : f.reg.recHeld = true := (congrArg Held.recHeld hfh).trans her
  have hfc : f.cfg = s.cfg := by
    have : f.face.cfg = e.face.cfg := by rw [hff, refusedBy_cfg, session_cfg]
    exact this.trans e1
  have hfb : f.reg.bootSeed = s.reg.bootSeed := by
    have : f.face.reg.bootSeed = e.face.reg.bootSeed := by rw [hff, refusedBy_bootSeed, session_pin, pin_bootSeed]
    exact this.trans e2
  obtain ⟨t, ht, htf⟩ := sign_goes f hfr
  refine ⟨tk, rx, crc0, crc, t, ?_, ?_⟩
  · unfold setup unlockOrBrick
    rw [bind_run, validate_run s hr hv]
    simp only [bind_run, hb, hd, he, hf, Bool.false_eq_true, if_false]
    exact ht
  · rw [htf, hfh, hfc, hfb, hff, e1, s1, s2, hef, pin_session, List.append_assoc]
    show (((s.face.session _ _ _ _).withHeld _).refusedBy _ _ _ _).withHeld _ = _
    rw [refusedBy_withHeld]
    have hheld : (s.face.pin (xPair s.cfg (D.drop 4) r.warmRng ++ xReadCounters s.face.cfg (D.drop 37) r.counters) (37 + 159) te
        false ((s.face.pin (xPair s.cfg (D.drop 4) r.warmRng) 37 (pairTk (b.face.randoms 33) r.warmRng) false
          b.face.held).held.withRecord (withCounters s.face.cfg d.reg.record r.counters))).held
        = s.face.held.withRecord (withCounters s.cfg (clearedRecord s.cfg s.reg.record (D.take 4)) r.counters) := by
      rw [pin_held, pin_held, b3, d5, b3]
      rfl
    rw [hheld]
    rfl

/-! ### The parts of such a face -/

theorem exchanges_busCalls (f : Face) (xs : List Exchange) : (f.exchanges xs).reg.busCalls = f.reg.busCalls + xs.length := by
  induction xs generalizing f with
  | nil => rfl
  | cons x xs ih => rw [exchanges_cons, ih]; show f.reg.busCalls + 1 + _ = _; simp; omega

theorem exchanges_host (f : Face) (xs : List Exchange) : (f.exchanges xs).host = f.host := by
  induction xs generalizing f with
  | nil => rfl
  | cons x xs ih => rw [exchanges_cons, ih]; rfl

theorem exchanges_trace_same {f g : Face} (hc : f.cfg = g.cfg) (ht : f.trace = g.trace) (xs : List Exchange) :
    (f.exchanges xs).trace = (g.exchanges xs).trace := by
  induction xs generalizing f g with
  | nil => exact ht
  | cons x xs ih =>
    rw [exchanges_cons, exchanges_cons]
    refine ih hc ?_
    show (f.trace ++ _) ++ _ = (g.trace ++ _) ++ _
    rw [ht, hc]

/-- The parts of the face that a refused `setup` leaves. -/
theorem refused_parts (f : Face) (xs : List Exchange) (n : Nat) (tk fr rx : Bytes) (crc0 crc : Word16) (h : Held) (F : Face)
    (hf : F = (((f.session xs n tk false).refusedBy fr crc0 rx crc).withHeld h)) :
    F.held = h ∧ F.reg.tkValid = false ∧ F.reg.busCalls = f.reg.busCalls + (xs.length + 1) ∧ F.reg.retry = 1
    ∧ F.reg.phase = .ready
    ∧ F.trace = (f.exchanges xs).trace ++ [.low true] ++ (serializeBytes f.cfg (fr ++ promptBytes f.cfg)).map
    (fun y => .sym y false)
    ∧ F.cfg = f.cfg ∧ F.host = f.host ∧ F.reg.bootSeed = f.reg.bootSeed ∧ F.env.rand =
    f.env.rand.after Config.freeRand n := by
  subst hf
  have hcfg := exchanges_cfg f xs
  have hhost := exchanges_host f xs
  have hboot := exchanges_bootSeed f xs
  have hbus := exchanges_busCalls f xs
  have hrand := exchanges_rand f xs
  unfold Face.session
  generalize f.exchanges xs = g at *
  refine ⟨rfl, rfl, ?_, rfl, rfl, ?_, hcfg, hhost, hboot, ?_⟩
  · show g.reg.busCalls + 1 = _
    rw [hbus]; omega
  · simp only [Face.withHeld, Face.refusedBy, Face.retried, Face.commanded, Face.withRegs, hcfg, Face.drew, Face.sent, Face.sentAt, Face.transmitted, Face.heard, Face.pulsed, serializeBytes_append, List.map_append, List.append_assoc, List.replicate_one, List.flatten_cons, List.flatten_nil, List.append_nil]
  · show (g.env.rand.after _ _) = _
    rw [hrand]



theorem onRecord_grants (s : State) (record : Bytes) (xs : List Exchange) (u : State)
    (hu : u.face = s.face.pin [] 0 s.reg.tk s.reg.tkValid (s.face.held.withRecord record)) (hg : s.face.grants xs) :
    u.face.grants xs := by
  rw [hu]
  exact pin_grants (xs := []) (ys := xs) _ _ _ _ hg

/-- `setup` of a personalised chip, whole (R163). -/
theorem setup_personal_run (s : State) (record : Bytes) (r : SetupReply) (code : Byte) (hc : s.cfg.pulse0 ≠ s.cfg.pulse1)
    (hv : recordValid s.cfg record)
    (h0 : code ≠ 0) (hm : 0 < s.cfg.retryMax) (D : Bytes) (hD : s.face.randoms 262 = D) (xs : List Exchange)
    (hxs : xSetupStart s.cfg D r = xs)
    (hg : s.face.grants xs) (hq : (s.face.exchanges xs).quiet (checkMacCost s.cfg))
    (hh : (s.face.exchanges xs).hears [serializeBytes s.cfg (statusFrame s.cfg code)]) :
    ∃ t, exec (.setup record) s = .next t ∧ t.ctl.ending = .success .unit
      ∧ t.face.held = heldSetupPersonal s.cfg s.reg.bootSeed D (s.face.held.withRecord record) r
      ∧ t.reg.tkValid = false ∧ t.reg.busCalls = s.reg.busCalls + (xs.length + 1) ∧ t.reg.retry = 1 ∧ t.reg.phase = .ready
      ∧ t.wire.trace = (s.face.exchanges xs).trace ++ [.low true]
        ++ (serializeBytes s.cfg (blankFrame s.cfg D r ++ promptBytes s.cfg)).map (fun y => .sym y false)
      ∧ t.cfg = s.cfg ∧ t.host = s.host ∧ t.reg.bootSeed = s.reg.bootSeed
      ∧ t.env.rand = s.env.rand.after Config.freeRand 262 := by
  let u : State := { s with reg := { s.reg with record := record, recHeld := true } }
  have hru : u.face.randoms 262 = D := hD
  have hx := exchanges_same (f := u.face) (g := s.face) rfl rfl rfl xs
  have htu : (u.face.exchanges xs).trace = (s.face.exchanges xs).trace := exchanges_trace_same (f := u.face) (g := s.face) rfl rfl xs
  have key := setup_personal r code u rfl hc h0 hm hv
  rw [hru, show xSetupStart u.cfg D r = xs from hxs] at key
  obtain ⟨tk, rx, crc0, crc, t, ht, hf⟩ := key (onRecord_grants s record xs u rfl hg) (quiet_of_stall hx.1 hq) (hears_of_moves hx.2 hh)
  have hx : exec (.setup record) s = .next (t.endWith (.success .unit)) := by
    show runOrStop (do writeRec record; setup) _ s = _
    have : (do writeRec record; setup : Op Unit) s = .ok () t := ht
    rw [runOrStop, this]
  obtain ⟨h1, h2, h3, h4, h5, h6, h7, h8, h9, h10⟩ := refused_parts _ _ _ _ _ _ _ _ _ _ hf
  rw [htu] at h6
  exact ⟨_, hx, rfl, h1, h2, h3, h4, h5, h6, h7, h8, h9, h10⟩

end Sys2Proof.Machine
end

