-- ==== Sys2Proof/Laws/Stalls.lean ====
section
/-! SUPPORT. How a transaction ends on a line that stalls (spec/42_selink.md R119 to R121): at the low pulse, in the command,
in the close token. -/

namespace Sys2Proof.Machine

open Sys2Proof.Config (Params InMove)

/-- A stall later on: quiet until then. -/
theorem stallsAfter_add (f : Face) (m n : Nat) (h : f.stallsAfter (m + n)) :
    f.quiet m ∧ (f.transmitted m).stallsAfter n := by
  have e : f.env.stall.ahead Config.freeStall (m + (n + 1))
      = List.replicate m false ++ (List.replicate n false ++ [true]) := by
    rw [← Nat.add_assoc, ← List.append_assoc, List.replicate_append_replicate]
    exact h
  rw [ahead_add] at e
  exact List.append_inj e (by rw [ahead_length, List.length_replicate])

/-- Whatever the body of a transaction raises, it raises, `PHASE` back at `READY` (R119). -/
theorem transact_fails {opcode p1 : Byte} {p2 : Word16} {data : Bytes} {expect : Expect} {close : Close} {s : State} {e : Err}
    {g : Face} (he : ∀ w, e ≠ .stop w) (h : Fails (do
      transactOpening opcode p1 p2 data
      let c ← getCfg
      let p ← receiveLoop expect c.retryMax
      transactClosing expect close p : Op Bytes) s e g) :
    Fails (transact opcode p1 p2 data expect close) s e (g.withRegs { g.reg with phase := .ready }) := by
  have hb : Fails (transactBody opcode p1 p2 data expect close) s e g := by
    obtain ⟨t, ht, hft⟩ := h
    exact ⟨t, by rw [transactBody_split]; exact ht, hft⟩
  refine fails_caught hb he (fun t ht => ?_)
  refine fails_after (goes_setPhase _ t) (fun u hu => ?_)
  rw [ht] at hu
  have := fails_raise (α := Bytes) e u
  rwa [hu] at this

/-- The registers of a transaction begun. -/
def Regs.begun (r : Regs) : Regs := { r with busCalls := r.busCalls + 1, retry := 0, phase := .ready, baudsel := false }

/-- The low pulse stalls: nothing went out (R104, R119). -/
theorem transact_wake_stalls (opcode p1 : Byte) (p2 : Word16) (data : Bytes) (expect : Expect) (close : Close) (s : State)
    (hq : s.face.stallsAfter 0) : Fails (transact opcode p1 p2 data expect close) s (.busTimeout .tx)
      ((s.face.transmitted 1).withRegs s.reg.begun) := by
  refine fails_face_eq ?_ (transact_fails (g := { s.face.transmitted 1 with
    reg := { s.reg.begun with phase := .waking } }) (by intro w h; cases h) ?_)
  · rfl
  · apply fails_bind
    unfold transactOpening
    refine fails_after (goes_modifyReg _ s) (fun t ht => ?_)
    refine fails_after (goes_setPhase _ t) (fun u hu => ?_)
    rw [ht] at hu
    have hur : u.reg = _ := congrArg Face.reg hu
    apply fails_bind
    have := wake_stalls u (by rw [hu]; exact hq)
    rw [hu, hur] at this
    exact this

/-- The command stalls after so many symbols (R101, R119). -/
theorem transact_send_stalls (opcode p1 : Byte) (p2 : Word16) (data : Bytes) (expect : Expect) (close : Close) (s : State)
    (n : Nat) (hn : n < 8 * (data.length + 8)) (hq : s.face.stallsAfter (1 + n)) :
    Fails (transact opcode p1 p2 data expect close) s (.busTimeout .tx)
      { (s.face.pulsed.sent ((serializeBytes s.cfg (commandFrame s.cfg opcode p1 p2 data)).take n)).transmitted (1 + n + 1) with
        arrived := []
        reg := { s.reg.begun with
          lstate := .awake, txbuf := commandFrame s.cfg opcode p1 p2 data, crc := frameCrc s.cfg (commandBody opcode p1 p2 data) } } := by
  obtain ⟨hq1, hq2⟩ := stallsAfter_add _ _ _ hq
  refine fails_face_eq ?_ (transact_fails (g := { (s.face.pulsed.sent ((serializeBytes s.cfg (commandFrame s.cfg opcode p1 p2 data)).take n)).transmitted (1 + n + 1) with
    arrived := []
    reg := { s.reg.begun with
      phase := .sending, lstate := .awake, txbuf := commandFrame s.cfg opcode p1 p2 data, crc := frameCrc s.cfg (commandBody opcode p1 p2 data) } })
    (by intro w h; cases h) ?_)
  · rfl
  · apply fails_bind
    unfold transactOpening
    refine fails_after (goes_modifyReg _ s) (fun t ht => ?_)
    refine fails_after (goes_setPhase _ t) (fun u hu => ?_)
    rw [ht] at hu
    refine fails_after (wake_goes u (by rw [hu]; exact hq1)) (fun v hv => ?_)
    have hur : u.reg = _ := congrArg Face.reg hu
    rw [hu, hur] at hv
    refine fails_after (goes_setPhase _ v) (fun w hw => ?_)
    rw [hv] at hw
    have hwc : w.cfg = s.cfg := congrArg Face.cfg hw
    refine fails_after ⟨_, encodeCommand_run opcode p1 p2 data w, rfl⟩ (fun y hy => ?_)
    have hyf := hy.trans (congrArg (fun f : Face => { f with reg := { f.reg with
      crc := frameCrc w.cfg (commandBody opcode p1 p2 data), txbuf := commandFrame w.cfg opcode p1 p2 data } }) hw)
    rw [hwc] at hyf ⊢
    have hyc : y.cfg = s.cfg := congrArg Face.cfg hyf
    have hyr : y.reg = _ := congrArg Face.reg hyf
    apply fails_bind
    have := send_stalls (commandFrame s.cfg opcode p1 p2 data) y n (by rw [commandFrame_length]; exact hn)
      (by rw [hyf]; exact hq2)
    rw [hyf, hyr, hyc] at this
    refine fails_face_eq ?_ this
    simp only [Face.withRegs, Face.sent, Face.sentAt, Face.transmitted, Face.pulsed, Regs.begun, after_after, face_cfg, face_reg,
      Nat.add_assoc]

/-- The close token stalls after so many symbols; `TK_VALID` is cleared before a sleep token all the same (R106). -/
theorem closeLine_stalls (close : Close) (s : State) (n : Nat) (hb : s.reg.baudsel = false) (hn : n < 8)
    (hq : s.face.stallsAfter n) : Fails (closeLine close) s (.busTimeout .tx)
      (((s.face.sent ((serializeBytes s.cfg [closeToken s.cfg close]).take n)).transmitted (n + 1)).withRegs
        { s.reg with tkValid := s.reg.tkValid && decide (close = .idle) }) := by
  cases close with
  | idle =>
    have := idle_stalls s n hn hq
    rw [hb] at this
    refine fails_face_eq ?_ this
    simp [Face.sent, closeToken, Face.withRegs, Face.sentAt, Face.transmitted]
  | sleep =>
    have := sleep_stalls s n hn hq
    rw [hb] at this
    simpa only [closeLine, Face.sent, closeToken, reduceCtorEq, decide_false, Bool.and_false] using this

/-- The close token of a transaction stalls after so many of its symbols: the reply was accepted, the chip not put to sleep
(R119, R121). -/
theorem transact_close_stalls (x : Exchange) (s : State) (n : Nat) (hc : s.cfg.pulse0 ≠ s.cfg.pulse1)
    (hx : x.completes s.cfg) (hn8 : n < 8) (hq : s.face.stallsAfter (x.cost s.cfg - 8 + n))
    (hh : s.face.hears (x.bursts s.cfg)) :
    Fails (transact x.opcode x.p1 x.p2 x.data x.expect x.close) s (.busTimeout .tx)
      { ((s.face.pulsed.sent ((x.symbols s.cfg).take ((x.symbols s.cfg).length - 8 + n))).transmitted
            (x.cost s.cfg - 8 + n + 1)).heard x.attempts with
          arrived := [], reg := { x.regs s.cfg s.reg with lstate := .awake } } := by
  obtain ⟨hn, ha, hf⟩ := hx
  have hcost : x.cost s.cfg = (1 + 8 * (x.data.length + 8)) + (8 * (x.attempts * (promptBytes s.cfg).length) + 8) := by
    rw [Exchange.cost, symbols_length]; ring
  have hcost8 : x.cost s.cfg - 8 + n = (1 + 8 * (x.data.length + 8)) + (8 * (x.attempts * (promptBytes s.cfg).length) + n) := by
    omega
  rw [hcost8] at hq
  obtain ⟨hq1, hq23⟩ := stallsAfter_add _ _ _ hq
  obtain ⟨hq2, hq3⟩ := stallsAfter_add _ _ _ hq23
  have hl : (commandFrame s.cfg x.opcode x.p1 x.p2 x.data).length = x.data.length + 8 := commandFrame_length ..
  let d := s.face.commanded (commandFrame s.cfg x.opcode x.p1 x.p2 x.data) (frameCrc s.cfg (commandBody x.opcode x.p1 x.p2 x.data))
  let l := d.looped x.attempts (x.reply s.cfg) (x.crc s.cfg)
  let k := l.withRegs { l.reg with phase := .closing }
  refine fails_face_eq ?_ (transact_fails (g := ((k.sent ((serializeBytes s.cfg [closeToken s.cfg x.close]).take n)).transmitted
    (n + 1)).withRegs { k.reg with tkValid := k.reg.tkValid && decide (x.close = .idle) }) (by intro w h; cases h) ?_)
  · have e1 : (x.symbols s.cfg).take ((x.symbols s.cfg).length - 8 + n) = serializeBytes s.cfg (x.frame s.cfg ++ (List.replicate x.attempts (promptBytes s.cfg)).flatten)
        ++ (serializeBytes s.cfg [closeToken s.cfg x.close]).take n := by
      unfold Exchange.symbols
      have h8 : (serializeBytes s.cfg [closeToken s.cfg x.close]).length = 8 := serializeBytes_length ..
      rw [serializeBytes_append, List.length_append, h8, Nat.add_sub_cancel, List.take_length_add_append]
    rw [e1, hcost8]
    simp only [k, l, d, Exchange.regs, Face.withRegs, Face.looped, Face.commanded, Face.sent, Face.sentAt,
      Face.transmitted, Face.heard, Face.pulsed, Exchange.frame,
      serializeBytes_append, List.map_append, List.append_assoc, after_after, hl, Regs.starting, Nat.zero_add,
      face_cfg, face_reg, Nat.add_assoc]
  refine fails_after (transactOpening_goes _ _ _ _ s hq1) (fun t ht => fails_after (goes_cfg t) (fun u hu => ?_))
  rw [ht] at hu
  have htc : t.face.cfg = s.cfg := congrArg Face.cfg ht
  have huc : u.cfg = s.cfg := congrArg Face.cfg hu
  have hur : u.reg = _ := congrArg Face.reg hu
  rw [htc]
  have hloop := receiveLoop_goes x u s.cfg.retryMax (by rw [huc]; exact hc) (by rw [hur]; rfl)
    (congrArg Face.inFlight hu) hn ha (by rw [huc]; exact hf)
    (by
      rw [huc, hu]
      simp only [Face.commanded, hl]
      exact hq2)
    (by rw [huc, hu]; exact hh)
  rw [huc, hu] at hloop
  refine fails_after hloop (fun v hv => ?_)
  have hvc : v.cfg = s.cfg := congrArg Face.cfg hv
  have hok : ¬ (x.expect = .status ∧ x.payload.getD 0 0 ≠ stOk) := by
    rintro ⟨h1, h2⟩
    rw [h1] at ha
    have : x.payload = [0] := ha
    rw [this] at h2
    exact h2 rfl
  unfold transactClosing
  rw [if_neg hok]
  refine fails_after (goes_setPhase _ v) (fun w hw => ?_)
  rw [hv] at hw
  have hwc : w.cfg = s.cfg := congrArg Face.cfg hw
  have hwr : w.reg = _ := congrArg Face.reg hw
  have hq3' : w.face.stallsAfter n := by
    rw [hw]
    simp only [Face.stallsAfter, Face.looped, Face.commanded, Face.transmitted, Face.withRegs, Face.heard, Face.sent, Face.sentAt,
      Face.pulsed, after_after, hl] at hq3 ⊢
    exact hq3
  apply fails_bind
  have hclose := closeLine_stalls x.close w n (by rw [hwr]; rfl) hn8 hq3'
  rw [hw, hwc, hwr] at hclose
  have hcrc : Exchange.heardCrc s.cfg x u.reg.crc = x.crc s.cfg := by
    rw [hur]
    unfold Exchange.heardCrc Exchange.crc
    cases x.expect <;> rfl
  rw [hcrc] at hclose
  exact hclose

end Sys2Proof.Machine
end

