-- ==== Sys2Proof/Laws/Retries.lean ====
section
/-! SUPPORT. The retry loop where prompts may stall as well (spec/40_bitbus.md R107, spec/42_selink.md R119, R120): what any
run of failed attempts leaves, and a whole transaction with such attempts. -/

namespace Sys2Proof.Machine

open Sys2Proof.Config (Params InMove)

/-- Draws one after the other. -/
theorem stallsAs_append (f : Face) (a b : List Bool) : f.stallsAs (a ++ b) ↔ f.stallsAs a ∧ (f.transmitted a.length).stallsAs b := by
  unfold Face.stallsAs Face.transmitted
  rw [List.length_append, ahead_add]
  constructor
  · intro h
    exact List.append_inj h (by simp)
  · rintro ⟨h1, h2⟩
    rw [h1, h2]

theorem stallsAs_quiet (f : Face) (n : Nat) : f.stallsAs (List.replicate n false) ↔ f.quiet n := by
  unfold Face.stallsAs Face.quiet
  rw [List.length_replicate]

theorem stallsAs_stalls (f : Face) (n : Nat) : f.stallsAs (List.replicate n false ++ [true]) ↔ f.stallsAfter n := by
  unfold Face.stallsAs Face.stallsAfter
  rw [List.length_append, List.length_replicate, List.length_singleton]

/-! ### One attempt that stalls -/

/-- The face of a receive whose prompt stalled after so many symbols (R102, R107). -/
def Face.promptStalled (f : Face) (n : Nat) : Face :=
  { (f.sentAt f.reg.baudsel ((serializeBytes f.cfg (promptBytes f.cfg)).take n)).transmitted (n + 1) with
    reg := { f.reg with tof := false }, arrived := [] }

theorem receive_stalls (maxLen : Nat) (s : State) (n : Nat) (hn : n < 8 * (promptBytes s.cfg).length)
    (hs : s.face.stallsAfter n) : Fails (receive maxLen) s (.busTimeout .tx) (s.face.promptStalled n) := by
  obtain ⟨b, hb⟩ : ∃ b, s.cfg.ioflagTx = some b := by
    cases h : s.cfg.ioflagTx with
    | none => simp [promptBytes, h] at hn
    | some b => exact ⟨b, rfl⟩
  have hp : promptBytes s.cfg = [b] := by simp [promptBytes, hb]
  rw [hp] at hn
  obtain ⟨t, ht, hf⟩ := send_stalls [b] { s with reg := { s.reg with tof := false }, wire := { s.wire with arrived := [] } } n hn hs
  refine ⟨t, ?_, ?_⟩
  · unfold receive sendPrompt
    simp only [bind_run, modifyReg_run, discardArrived, modifyState_run, getCfg_run, hb]
    rw [show send [b] _ = _ from ht]
  · rw [hf]
    unfold Face.promptStalled
    rw [show promptBytes s.face.cfg = [b] from hp]
    rfl

/-- An attempt whose prompt stalls is a failed attempt (R107, R120). -/
theorem receiveAttempt_stalled (e : Expect) (s : State) (n : Nat) (hn : n < 8 * (promptBytes s.cfg).length)
    (hs : s.face.stallsAfter n) : Goes (receiveAttempt e) s none ((s.face.promptStalled n).withRegs
      { s.reg with retry := s.reg.retry + 1, tof := false }) := by
  unfold receiveAttempt
  refine goes_bind (goes_modifyReg _ s) (fun t ht => ?_)
  have hct : t.cfg = s.cfg := congrArg Face.cfg ht
  have hrt : t.reg = { s.reg with retry := s.reg.retry + 1 } := congrArg Face.reg ht
  refine goes_bind (unlessRetried_caught (r := retriedReceive) (receive_stalls _ t n (by rw [hct]; exact hn)
    (by rw [ht]; exact hs)) rfl (by intro w h; cases h)) (fun u hu => ?_)
  have := goes_pure (none : Option Bytes) u
  rw [hu, ht] at this
  exact this

/-! ### Attempts one after the other -/

/-- The face after those failed attempts. -/
def Face.tried (f : Face) (failed : List FailedAttempt) (rx : Bytes) (crc : Word16) : Face :=
  { ((f.sent (failed.flatMap (FailedAttempt.symbols f.cfg))).transmitted
      (failed.flatMap (FailedAttempt.stalls f.cfg)).length).heard (failed.flatMap (FailedAttempt.bursts f.cfg)).length with
    reg := { f.reg with retry := f.reg.retry + failed.length, tof := tofAfter f.reg.tof failed, rxbuf := rx, crc := crc }
    arrived := [] }

/-- The loop gets past failed attempts, whatever made each fail (R107, R120). -/
theorem receiveLoop_past (e : Expect) (failed : List FailedAttempt) (m : Nat) (s : State) (hc : s.cfg.pulse0 ≠ s.cfg.pulse1)
    (hb : s.reg.baudsel = false) (hi : s.wire.inFlight = []) (ha : s.wire.arrived = [])
    (hf : ∀ a ∈ failed, a.fails s.cfg e) (hq : s.face.stallsAs (failed.flatMap (FailedAttempt.stalls s.cfg)))
    (hh : s.face.hears (failed.flatMap (FailedAttempt.bursts s.cfg))) :
    ∃ rx crc, (∀ n, e = .raw n → crc = s.reg.crc)
      ∧ Reaches (receiveLoop e (failed.length + m)) s (receiveLoop e m) (s.face.tried failed rx crc) := by
  induction failed generalizing s with
  | nil =>
    refine ⟨s.reg.rxbuf, s.reg.crc, fun _ _ => rfl, s, by rw [List.length_nil, Nat.zero_add], ?_⟩
    have h1 : s.face.inFlight = [] := hi
    have h2 : s.face.arrived = [] := ha
    have h3 : s.face.inMoves = s.wire.inMoves := rfl
    simp only [Face.tried, Face.sent, Face.sentAt, Face.transmitted, Face.heard, List.flatMap_nil, List.map_nil, List.append_nil,
      List.length_nil, Nat.add_zero, tofAfter, after_zero]
    simp only [State.face, hi, ha]
  | cons a failed ih =>
    have hstep : ∃ rx crc, (∀ n, e = .raw n → crc = s.reg.crc)
        ∧ Goes (receiveAttempt e) s none (s.face.tried [a] rx crc) := by
      rw [List.flatMap_cons] at hq hh
      have hq1 := ((stallsAs_append _ _ _).mp hq).1
      have hh1 := ((hears_append _ _ _).mp hh).1
      have hfa := hf a List.mem_cons_self
      cases a with
      | heard raw =>
        obtain ⟨v, hv, hg⟩ := receiveAttempt_failed e s raw hc hfa.1 hfa.2 ((stallsAs_quiet _ _).mp hq1) hh1
        refine ⟨if raw = [] then s.reg.rxbuf else rxHeld raw, v, hv, goes_face_eq ?_ hg⟩
        have h1 : s.face.inFlight = [] := hi
        have h2 : s.face.reg.baudsel = false := hb
        simp only [Face.attempted, Face.tried, Face.listened, Face.sent, Face.sentAt, Face.transmitted, Face.heard, h1, h2,
          ite_self, List.flatMap_cons, List.flatMap_nil, List.append_nil, FailedAttempt.symbols, FailedAttempt.stalls,
          FailedAttempt.bursts, List.length_replicate, List.length_cons, List.length_nil, tofAfter, Nat.zero_add]
        rfl
      | stalled n =>
        have hg := receiveAttempt_stalled e s n hfa ((stallsAs_stalls _ _).mp hq1)
        refine ⟨s.reg.rxbuf, s.reg.crc, fun _ _ => rfl, goes_face_eq ?_ hg⟩
        have h2 : s.face.reg.baudsel = false := hb
        simp only [Face.promptStalled, Face.tried, Face.sent, Face.sentAt, Face.transmitted, Face.heard, Face.withRegs, h2, hb,
          List.flatMap_cons, List.flatMap_nil, List.append_nil, FailedAttempt.symbols, FailedAttempt.stalls,
          FailedAttempt.bursts, List.length_append, List.length_replicate, List.length_cons, List.length_nil, tofAfter,
          Nat.zero_add, after_zero]
        rfl
    obtain ⟨rx, crc, hcrc, t, ht, hft⟩ := hstep
    have hct : t.cfg = s.cfg := congrArg Face.cfg hft
    have hrt : t.reg = (s.face.tried [a] rx crc).reg := congrArg Face.reg hft
    obtain ⟨rx', crc', hcrc', u, hu, hfu⟩ := ih t (by rw [hct]; exact hc) (by rw [hrt]; exact hb) (congrArg Face.inFlight hft)
      (congrArg Face.arrived hft) (by rw [hct]; exact fun b hb => hf b (List.mem_cons_of_mem a hb))
      (by
        rw [hct, hft]
        have := ((stallsAs_append _ _ _).mp (by rw [List.flatMap_cons] at hq; exact hq)).2
        simp only [Face.stallsAs, Face.tried, Face.sent, Face.sentAt, Face.transmitted, Face.heard, List.flatMap_cons,
          List.flatMap_nil, List.append_nil] at this ⊢
        exact this)
      (by
        rw [hct, hft]
        have := ((hears_append _ _ _).mp (by rw [List.flatMap_cons] at hh; exact hh)).2
        simp only [Face.hears, Face.tried, Face.sent, Face.sentAt, Face.transmitted, Face.heard, List.flatMap_cons,
          List.flatMap_nil, List.append_nil] at this ⊢
        exact this)
    refine ⟨rx', crc', fun n hn => (hcrc' n hn).trans (by rw [hrt]; exact hcrc n hn), u, ?_, ?_⟩
    · rw [List.length_cons, Nat.add_right_comm]
      rw [receiveLoop, bind_run, ht]
      exact hu
    · rw [hfu, hft]
      have tof : tofAfter (tofAfter s.face.reg.tof [a]) failed = tofAfter s.face.reg.tof (a :: failed) := by cases a <;> rfl
      simp only [Face.tried, Face.sent, Face.sentAt, Face.transmitted, Face.heard, List.flatMap_cons, List.flatMap_nil,
        List.append_nil, List.map_append, List.append_assoc, List.length_append, List.length_cons, List.length_nil, after_after,
        tof, Nat.add_assoc, Nat.zero_add, Nat.add_comm failed.length 1]

/-! ### A whole transaction -/

/-- The opening of a transaction whose draws are `ready` as far as that takes, up to its retry loop (R119). -/
theorem transact_reaches_loop (opcode p1 : Byte) (p2 : Word16) (data : Bytes) (expect : Expect) (close : Close) (s : State)
    (hq : s.face.quiet (1 + 8 * (data.length + 8))) : Reaches (do
      transactOpening opcode p1 p2 data
      let c ← getCfg
      let p ← receiveLoop expect c.retryMax
      transactClosing expect close p : Op Bytes) s (do
      let p ← receiveLoop expect s.cfg.retryMax
      transactClosing expect close p)
      (s.face.commanded (commandFrame s.cfg opcode p1 p2 data) (frameCrc s.cfg (commandBody opcode p1 p2 data))) := by
  refine reaches_bind (transactOpening_goes _ _ _ _ s hq) (fun t ht => reaches_bind (goes_cfg t) (fun u hu => ?_))
  have htc : t.face.cfg = s.cfg := congrArg Face.cfg ht
  rw [htc]
  exact reaches_self _ (hu.trans ht)

/-- `RETRY_MAX` failed attempts, whatever made each fail: `RetriesExhausted`, nothing sent after the last (R107, R120). -/
theorem transact_attempts_exhausted (opcode p1 : Byte) (p2 : Word16) (data : Bytes) (expect : Expect) (close : Close)
    (failed : List FailedAttempt) (s : State) (hc : s.cfg.pulse0 ≠ s.cfg.pulse1) (hn : failed.length = s.cfg.retryMax)
    (hf : ∀ a ∈ failed, a.fails s.cfg expect) (hq : s.face.stallsAs (attemptStalls s.cfg data.length failed))
    (hh : s.face.hears (failed.flatMap (FailedAttempt.bursts s.cfg))) :
    ∃ rx crc, Fails (transact opcode p1 p2 data expect close) s .retriesExhausted
      { ((s.face.pulsed.sent (serializeBytes s.cfg (commandFrame s.cfg opcode p1 p2 data)
          ++ failed.flatMap (FailedAttempt.symbols s.cfg))).transmitted
            (attemptStalls s.cfg data.length failed).length).heard (failed.flatMap (FailedAttempt.bursts s.cfg)).length with
        arrived := []
        reg := { s.reg with
          busCalls := s.reg.busCalls + 1, retry := s.cfg.retryMax, phase := .ready, lstate := .awake, baudsel := false
          txbuf := commandFrame s.cfg opcode p1 p2 data, rxbuf := rx, crc := crc, tof := tofAfter s.reg.tof failed } } := by
  obtain ⟨hq1, hq2⟩ := (stallsAs_append _ _ _).mp hq
  rw [stallsAs_quiet] at hq1
  rw [List.length_replicate] at hq2
  have hl : (commandFrame s.cfg opcode p1 p2 data).length = data.length + 8 := commandFrame_length ..
  obtain ⟨t, ht, hft⟩ := transact_reaches_loop opcode p1 p2 data expect close s hq1
  have hct : t.cfg = s.cfg := congrArg Face.cfg hft
  have hrt : t.reg = _ := congrArg Face.reg hft
  obtain ⟨rx, crc, -, u, hu, hfu⟩ := receiveLoop_past expect failed 0 t (by rw [hct]; exact hc) (by rw [hrt]; rfl)
    (congrArg Face.inFlight hft) (congrArg Face.arrived hft) (by rw [hct]; exact hf)
    (by
      rw [hct, hft]
      simp only [Face.stallsAs, Face.commanded, Face.transmitted, Face.sent, Face.sentAt, Face.pulsed, hl] at hq2 ⊢
      exact hq2)
    (by rw [hct, hft]; exact hh)
  refine ⟨rx, crc, fails_face_eq ?_ (transact_fails (g := u.face) (by intro w h; cases h) ⟨u, ?_, rfl⟩)⟩
  · rw [hfu, hft]
    simp only [Face.tried, Face.commanded, Face.withRegs, Face.sent, Face.sentAt, Face.transmitted, Face.heard, Face.pulsed,
      attemptStalls, List.map_append, List.append_assoc, List.length_append, List.length_replicate, after_after, hl,
      Regs.starting, Nat.zero_add, hn, face_cfg, face_reg]
  · rw [ht, ← hn, bind_run, show receiveLoop expect failed.length t = _ from hu]
    rfl

/-- A transaction that completes after failed attempts, whatever made each fail (R107, R119, R120). -/
theorem transact_attempts_goes (x : Exchange) (failed : List FailedAttempt) (s : State) (hc : s.cfg.pulse0 ≠ s.cfg.pulse1)
    (hn : failed.length < s.cfg.retryMax) (ha : expectAccepts x.expect x.payload) (hf : ∀ a ∈ failed, a.fails s.cfg x.expect)
    (hq : s.face.stallsAs (x.stalls s.cfg failed))
    (hh : s.face.hears (failed.flatMap (FailedAttempt.bursts s.cfg) ++ [serializeBytes s.cfg (x.reply s.cfg)])) :
    Goes (transact x.opcode x.p1 x.p2 x.data x.expect x.close) s x.payload (s.face.exchangeAfter x failed) := by
  obtain ⟨hq12, hq34⟩ := (stallsAs_append _ _ _).mp hq
  obtain ⟨hq1, hq2⟩ := (stallsAs_append _ _ _).mp hq12
  rw [stallsAs_quiet] at hq1 hq34
  rw [List.length_replicate] at hq2
  obtain ⟨hq3, hq4⟩ := (quiet_add _ _ _).mp hq34
  obtain ⟨hh1, hh2⟩ := (hears_append _ _ _).mp hh
  have hl : (commandFrame s.cfg x.opcode x.p1 x.p2 x.data).length = x.data.length + 8 := commandFrame_length ..
  have hlen : (attemptStalls s.cfg x.data.length failed).length
      = 1 + 8 * (x.data.length + 8) + (failed.flatMap (FailedAttempt.stalls s.cfg)).length := by
    rw [attemptStalls, List.length_append, List.length_replicate]
  have hall : (x.stalls s.cfg failed).length = 1 + 8 * (x.data.length + 8)
      + ((failed.flatMap (FailedAttempt.stalls s.cfg)).length + (8 * (promptBytes s.cfg).length + 8)) := by
    rw [Exchange.stalls, List.length_append, List.length_replicate, hlen]; ring
  apply goes_catching
  suffices h : Goes (do
      transactOpening x.opcode x.p1 x.p2 x.data
      let c ← getCfg
      let p ← receiveLoop x.expect c.retryMax
      transactClosing x.expect x.close p : Op Bytes) s x.payload (s.face.exchangeAfter x failed) by
    obtain ⟨t, ht, hft⟩ := h
    exact ⟨t, by rw [transactBody_split]; exact ht, hft⟩
  refine goes_reached (transact_reaches_loop x.opcode x.p1 x.p2 x.data x.expect x.close s hq1) (fun t hft => ?_)
  have hct : t.cfg = s.cfg := congrArg Face.cfg hft
  have hrt : t.reg = _ := congrArg Face.reg hft
  obtain ⟨m, hm⟩ : ∃ m, s.cfg.retryMax = failed.length + (m + 1) := ⟨s.cfg.retryMax - failed.length - 1, by omega⟩
  obtain ⟨rx, crc, hcrc, u, hu, hfu⟩ := receiveLoop_past x.expect failed (m + 1) t (by rw [hct]; exact hc) (by rw [hrt]; rfl)
    (congrArg Face.inFlight hft) (congrArg Face.arrived hft) (by rw [hct]; exact hf)
    (by
      rw [hct, hft]
      simp only [Face.stallsAs, Face.commanded, Face.transmitted, Face.sent, Face.sentAt, Face.pulsed, hl] at hq2 ⊢
      exact hq2)
    (by rw [hct, hft]; exact hh1)
  rw [hft] at hfu
  have huc : u.cfg = s.cfg := congrArg Face.cfg hfu
  have hur : u.reg = _ := congrArg Face.reg hfu
  have hattempt := receiveAttempt_accepted x u (by rw [huc]; exact hc) ha
    (by
      rw [huc, hfu]
      simp only [Face.quiet, Face.tried, Face.commanded, Face.transmitted, Face.heard, Face.sent, Face.sentAt, Face.pulsed,
        after_after, hl, hlen] at hq3 ⊢
      exact hq3)
    (by rw [huc, hfu]; exact hh2)
  have hloop : Goes (receiveLoop x.expect s.cfg.retryMax) t x.payload
      (u.face.attempted (x.reply u.cfg) (x.heardCrc u.cfg u.reg.crc)) := by
    obtain ⟨v, hv, hfv⟩ := hattempt
    refine ⟨v, ?_, hfv⟩
    rw [hm, hu, receiveLoop, bind_run, hv]
    rfl
  rw [attempted_eq_looped (by rw [hfu]; rfl) (by rw [hfu]; rfl) (by rw [huc]; exact (reply_fits s.cfg x ha).2), huc, hfu] at hloop
  refine goes_bind hloop (fun v hv => ?_)
  have hvc : v.cfg = s.cfg := congrArg Face.cfg hv
  have hok : ¬ (x.expect = .status ∧ x.payload.getD 0 0 ≠ stOk) := by
    rintro ⟨h1, h2⟩
    rw [h1] at ha
    have : x.payload = [0] := ha
    rw [this] at h2
    exact h2 rfl
  unfold transactClosing
  rw [if_neg hok]
  refine goes_bind (goes_setPhase _ v) (fun w hw => ?_)
  rw [hv] at hw
  have hwc : w.cfg = s.cfg := congrArg Face.cfg hw
  have hwr : w.reg = _ := congrArg Face.reg hw
  have hclose := closeLine_goes x.close w (by rw [hwr]; rfl) (by
    rw [hw]
    simp only [Face.quiet, Face.looped, Face.tried, Face.commanded, Face.transmitted, Face.withRegs, Face.heard, Face.sent,
      Face.sentAt, Face.pulsed, after_after, hl, hlen, Nat.one_mul] at hq4 ⊢
    exact hq4)
  rw [hw, hwc, hwr] at hclose
  refine goes_bind hclose (fun y hy => ?_)
  refine goes_bind (goes_setPhase _ y) (fun z hz => ?_)
  rw [hy] at hz
  have hend := goes_pure x.payload z
  rw [hz] at hend
  refine goes_face_eq ?_ hend
  have hc' : Exchange.heardCrc s.cfg x u.reg.crc = x.crc s.cfg := by
    unfold Exchange.heardCrc Exchange.crc
    cases hx : x.expect with
    | raw n =>
      dsimp only
      rw [hur]
      show crc = _
      rw [hcrc n hx, hrt]
      rfl
    | status => rfl
    | data n => rfl
  simp only [Face.exchangeAfter, Exchange.regs, Face.withRegs, Face.looped, Face.tried, Face.commanded, Face.sent, Face.sentAt,
    Face.transmitted, Face.heard, Face.pulsed, hall, Exchange.frame, List.replicate_one, List.flatten_cons, List.flatten_nil,
    List.append_nil, serializeBytes_append, List.map_append, List.append_assoc, after_after, hl, Regs.starting, hc', Nat.zero_add,
    Nat.add_assoc, Nat.one_mul, face_cfg, face_reg]

end Sys2Proof.Machine
end

