-- ==== Sys2Proof/Laws/Served.lean ====
section
/-! SUPPORT. One transaction with an honest chip that nothing disturbs: what the block gets is what the chip's contract
answers the command with, and the chip is then what the contract makes of it (spec/20_memory.md R53 to R60). -/

namespace Sys2Proof.Machine

open Sys2Proof.Config (Params)

variable {c : Params}

/-- Two chips in the same power state, with the same watchdog draws ahead. -/
def Chip.SameDuty (a b : Chip) : Prop := b.power = a.power ∧ b.lapse = a.lapse

theorem duty_ite {a : Chip} {p : Prop} [Decidable p] {x y : Reply × Chip} (hx : a.SameDuty x.2)
    (hy : a.SameDuty y.2) : a.SameDuty (if p then x else y).2 := by
  split
  · exact hx
  · exact hy

/-- No command changes the chip's power state or draws on its watchdog. -/
theorem perform_duty (a : Chip) (cmd : Command) : a.SameDuty (a.perform c cmd).2 := by
  refine duty_ite ⟨rfl, rfl⟩ ?_
  refine duty_ite ?_ ?_
  · unfold Chip.doRead
    refine duty_ite ?_ ⟨rfl, rfl⟩
    split
    · exact ⟨rfl, rfl⟩
    · exact duty_ite ⟨rfl, rfl⟩ ⟨rfl, rfl⟩
    · exact ⟨rfl, rfl⟩
  refine duty_ite (duty_ite ⟨rfl, rfl⟩ ⟨rfl, rfl⟩) ?_
  refine duty_ite (duty_ite (duty_ite ⟨rfl, rfl⟩ ⟨rfl, rfl⟩) ⟨rfl, rfl⟩) ?_
  refine duty_ite (duty_ite ⟨rfl, rfl⟩ ⟨rfl, rfl⟩) ?_
  refine duty_ite (duty_ite ⟨rfl, rfl⟩ ⟨rfl, rfl⟩) ?_
  refine duty_ite (duty_ite ⟨rfl, rfl⟩ ⟨rfl, rfl⟩) ?_
  refine duty_ite (duty_ite (duty_ite ⟨rfl, rfl⟩ ⟨rfl, rfl⟩) ⟨rfl, rfl⟩) ?_
  refine duty_ite (duty_ite ⟨rfl, rfl⟩ ⟨rfl, rfl⟩) ?_
  refine duty_ite (duty_ite ⟨rfl, rfl⟩ ⟨rfl, rfl⟩) ?_
  refine duty_ite (duty_ite ⟨rfl, rfl⟩ ⟨rfl, rfl⟩) ?_
  refine duty_ite ⟨rfl, rfl⟩ ?_
  refine duty_ite ⟨rfl, rfl⟩ ?_
  refine duty_ite ⟨rfl, rfl⟩ ?_
  refine duty_ite (duty_ite (duty_ite (duty_ite ⟨rfl, rfl⟩ ⟨rfl, rfl⟩) ⟨rfl, rfl⟩) ⟨rfl, rfl⟩) ?_
  refine duty_ite ?_ ⟨rfl, rfl⟩
  unfold Chip.doHashEnd
  split
  · exact duty_ite ⟨rfl, rfl⟩ ⟨rfl, rfl⟩
  · exact ⟨rfl, rfl⟩

/-- The chip after a low pulse, where it was not awake (R104, R214). -/
theorem wakeUp_of_not_awake {ch : Chip} (h : ch.power ≠ .awake) :
    ch.wakeUp c = { ch.holdReply (statusFrame c c.st.wake) with power := .awake } := by
  unfold Chip.wakeUp
  cases hp : ch.power
  · rfl
  · exact absurd hp h
  · rfl

/-- An awake chip whose watchdog did not run out meanwhile. -/
theorem hear_awake {ch : Chip} (hp : ch.power = .awake) (hl : ch.drawLapse.1 = false) {msg : Bytes} :
    ch.hear c msg = ch.drawLapse.2.hearAwake c msg := by
  unfold Chip.hear
  rw [hp]
  dsimp only
  rw [if_neg (by rw [hl]; decide)]

/-- An awake chip that hears a command frame performs it, where its watchdog is quiet (R97, R59). -/
theorem hear_command {ch : Chip} (hp : ch.power = .awake) (cmd : Command) (hd : cmd.data.length ≤ 248)
    (hw : ch.drawWatchdog.1 = .quiet) (hlap : ch.drawLapse.1 = false) :
    ch.hear c (commandFrame c cmd.opcode cmd.p1 cmd.p2 cmd.data)
      = (ch.drawLapse.2.drawWatchdog.2.perform c cmd).2.holdReply
        ((ch.drawLapse.2.drawWatchdog.2.perform c cmd).1.toBytes c) := by
  have hl : (commandFrame c cmd.opcode cmd.p1 cmd.p2 cmd.data).length = cmd.data.length + 8 := commandFrame_length ..
  have hne (b : Byte) : commandFrame c cmd.opcode cmd.p1 cmd.p2 cmd.data ≠ [b] := by
    intro h
    rw [h] at hl
    simp only [List.length_cons, List.length_nil] at hl
    omega
  rw [hear_awake hp hlap]
  unfold Chip.hearAwake
  rw [if_neg (by
    cases h : c.ioflagTx with
    | none => simp
    | some t => exact fun he => hne t (Option.some.inj he)), if_neg (hne _), if_neg (hne _), parse_frame c _ _ _ _ hd]
  dsimp only
  unfold Chip.command
  rw [show ch.drawLapse.2.drawWatchdog = (Config.Watchdog.quiet, ch.drawLapse.2.drawWatchdog.2) from Prod.ext hw rfl]

/-- A prompted chip that is awake and ready answers with what it holds (R103); no watchdog of it runs out. -/
theorem asked_answer {ch : Chip} (hp : ch.power = .awake) (hc : ch.drawCoin.1 = false) {r : Bytes} (hr : ch.reply = some r)
    (hl : ch.lapse.ahead Config.freeLapse ((promptBytes c).length + 1) = List.replicate ((promptBytes c).length + 1) false) :
    ∃ ch', (ch.asked c).answer c = (r, ch') ∧ ch'.power = .awake ∧ ch'.drawLapse.1 = false ∧ ch'.slots = ch.slots
      ∧ ch'.counter0 = ch.counter0 ∧ ch'.tempKey = ch.tempKey ∧ ch'.tempKeyValid = ch.tempKeyValid := by
  have key (d : Chip) (hd : d.power = .awake) (hq : d.prompted = true ∨ c.ioflagTx = none) (hcoin : d.drawCoin.1 = false)
      (hrep : d.reply = some r) : d.answer c = (r, { d.drawCoin.2 with prompted := false }) := by
    unfold Chip.answer
    rw [hd]
    dsimp only
    rw [if_pos hq, show d.drawCoin = (false, d.drawCoin.2) from Prod.ext hcoin rfl]
    dsimp only
    rw [if_neg (by decide)]
    show ((d.reply).getD [], _) = _
    rw [hrep]
    rfl
  cases h : c.ioflagTx with
  | none =>
    have e : ch.asked c = ch := by unfold Chip.asked; rw [h]
    have hl' : ch.drawLapse.1 = false := by
      rw [show (promptBytes c).length = 0 by unfold promptBytes; rw [h]; rfl] at hl
      exact (passes_next (m := 0) hl).1
    rw [e]
    exact ⟨_, key ch hp (.inr h) hc hr, hp, hl', rfl, rfl, rfl, rfl⟩
  | some t =>
    rw [show (promptBytes c).length = 1 by unfold promptBytes; rw [h]; rfl] at hl
    obtain ⟨h1, h2⟩ := passes_next (m := 1) hl
    have e : ch.asked c = { ch.drawLapse.2 with prompted := true } := by
      unfold Chip.asked
      rw [h]
      dsimp only
      rw [hear_awake hp h1]
      unfold Chip.hearAwake
      rw [h]
      exact if_pos rfl
    rw [e]
    exact ⟨_, key _ hp (.inl rfl) hc hr, hp, (passes_next (m := 0) h2).1, rfl, rfl, rfl, rfl⟩

/-- What a close token leaves of an awake chip (R59, R79). -/
theorem hear_close (hwf : c.wf = true) {ch : Chip} (hp : ch.power = .awake) (hl : ch.drawLapse.1 = false) (close : Close) :
    (ch.hear c [closeToken c close]).slots = ch.slots ∧ (ch.hear c [closeToken c close]).counter0 = ch.counter0
    ∧ (ch.hear c [closeToken c close]).tempKey = ch.tempKey
    ∧ (close = .idle → (ch.hear c [closeToken c close]).tempKeyValid = ch.tempKeyValid) := by
  have hn := wf_flagBytes hwf
  simp only [List.nodup_cons, List.mem_cons, not_or, List.not_mem_nil, not_false_eq_true] at hn
  obtain ⟨-, ⟨h1, h2, -⟩, ⟨h3, -⟩, -⟩ := hn
  have hne (b : Byte) (hb : some b ≠ c.ioflagTx) : some [b] ≠ c.ioflagTx.map (fun t => [t]) := by
    cases h : c.ioflagTx with
    | none => simp
    | some t =>
      intro he
      rw [h] at hb
      simp only [Option.map_some, Option.some.injEq, List.cons.injEq, and_true] at he
      exact hb (by rw [he])
  rw [hear_awake hp hl]
  unfold Chip.hearAwake
  cases close with
  | idle =>
    simp only [closeToken, if_neg (hne _ h2), if_pos]
    exact ⟨rfl, rfl, rfl, fun _ => rfl⟩
  | sleep =>
    have h4 : [c.ioflagSleep] ≠ [c.ioflagIdle] := fun h => h1 (by rw [(List.cons.inj h).1])
    simp only [closeToken, if_neg (hne _ h3), if_neg h4, if_pos]
    exact ⟨rfl, rfl, rfl, fun h => by cases h⟩

/-- What the chip makes of a command in a transaction that nothing disturbs, and how it answers the prompt (R59, R97, R103). -/
theorem served_answer {s : State} (cmd : Command) (hd : cmd.data.length ≤ 248) (hu : s.undisturbed cmd.data.length cmd) :
    ∃ ch', (((s.chip.wakeUp s.cfg).hear s.cfg (commandFrame s.cfg cmd.opcode cmd.p1 cmd.p2 cmd.data)).asked s.cfg).answer s.cfg
        = ((s.chip.served s.cfg cmd).1.toBytes s.cfg, ch')
      ∧ ch'.power = .awake ∧ ch'.drawLapse.1 = false ∧ ch'.slots = (s.chip.served s.cfg cmd).2.slots
      ∧ ch'.counter0 = (s.chip.served s.cfg cmd).2.counter0 ∧ ch'.tempKey = (s.chip.served s.cfg cmd).2.tempKey
      ∧ ch'.tempKeyValid = (s.chip.served s.cfg cmd).2.tempKeyValid := by
  obtain ⟨-, -, -, hp, hw, hlapse, hcoin⟩ := hu
  rw [show 2 + (promptBytes s.cfg).length = ((promptBytes s.cfg).length + 1) + 1 by omega] at hlapse
  obtain ⟨hl1, hl2⟩ := passes_next hlapse
  have hwake : (s.chip.wakeUp s.cfg).power = .awake := by rw [wakeUp_of_not_awake hp]
  have hw' : (s.chip.wakeUp s.cfg).drawWatchdog.1 = .quiet := by rw [wakeUp_of_not_awake hp]; exact hw
  have hl' : (s.chip.wakeUp s.cfg).drawLapse.1 = false := by rw [wakeUp_of_not_awake hp]; exact hl1
  obtain ⟨hd1, hd2⟩ := perform_duty (c := s.cfg) (s.chip.readied s.cfg) cmd
  have hpow : (s.chip.served s.cfg cmd).2.power = .awake := hd1.trans hwake
  have hlap : (s.chip.served s.cfg cmd).2.lapse = (s.chip.lapse.next Config.freeLapse).2 := by
    refine hd2.trans ?_
    unfold Chip.readied
    rw [wakeUp_of_not_awake hp]
    rfl
  rw [hear_command (c := s.cfg) hwake cmd hd hw' hl']
  exact asked_answer (c := s.cfg)
    (ch := (s.chip.served s.cfg cmd).2.holdReply ((s.chip.served s.cfg cmd).1.toBytes s.cfg)) hpow hcoin rfl
    (by rw [show (Chip.holdReply _ _).lapse = (s.chip.served s.cfg cmd).2.lapse from rfl, hlap]; exact hl2)

/-- A transaction that nothing disturbs, with a chip whose contract answers the command with a payload that is accepted. -/
theorem transact_served {s : State} (hwf : s.cfg.wf = true) (hm : 0 < s.cfg.retryMax) (cmd : Command) (e : Expect)
    (close : Close) (p : Bytes) (hd : cmd.data.length ≤ 248) (hu : s.undisturbed cmd.data.length cmd)
    (he : expectAccepts e p) (hraw : ∀ j, e ≠ .raw j)
    (hr : (s.chip.served s.cfg cmd).1.toBytes s.cfg = responseFrame s.cfg p) :
    ∃ t, transact cmd.opcode cmd.p1 cmd.p2 cmd.data e close s = .ok p t ∧ t.cfg = s.cfg
      ∧ t.chip.slots = (s.chip.served s.cfg cmd).2.slots ∧ t.chip.counter0 = (s.chip.served s.cfg cmd).2.counter0
      ∧ t.chip.tempKey = (s.chip.served s.cfg cmd).2.tempKey
      ∧ (close = .idle → t.chip.tempKeyValid = (s.chip.served s.cfg cmd).2.tempKeyValid) := by
  obtain ⟨ch', ha, g1, g0, g2, g3, g4, g5⟩ := served_answer cmd hd hu
  obtain ⟨hq, ⟨ho, hi⟩, hf, -⟩ := hu
  obtain ⟨t, ht, hc⟩ := leads_transact (c := s.cfg) (ch := s.chip) (wf_pulses hwf) hm cmd.opcode cmd.p1 cmd.p2 cmd.data e close p
    ch' he hraw (by rw [ha, hr]) s ⟨rfl, rfl, hq, ho, hi, hf⟩
  obtain ⟨k1, k2, k3, k4⟩ := hear_close hwf g1 g0 close
  refine ⟨t, ht, hc.cfg, ?_, ?_, ?_, ?_⟩
  · rw [hc.chip, k1, g2]
  · rw [hc.chip, k2, g3]
  · rw [hc.chip, k3, g4]
  · intro h
    rw [hc.chip, k4 h, g5]

/-- A transaction that nothing disturbs, with a chip whose contract refuses the command: its error status, and the chip as the
contract left it (R57, R58, R60, R193). -/
theorem transact_refused {s : State} (hwf : s.cfg.wf = true) (hm : 0 < s.cfg.retryMax) (cmd : Command) (e : Expect)
    (close : Close) (code : Byte) (hd : cmd.data.length ≤ 248) (hu : s.undisturbed cmd.data.length cmd) (h0 : code ≠ 0)
    (he : e = .status ∨ ∃ j, e = .data j ∧ 2 ≤ j) (hr : (s.chip.served s.cfg cmd).1 = .status code) :
    ∃ t, transact cmd.opcode cmd.p1 cmd.p2 cmd.data e close s = .error (.chipError code) t
      ∧ t.chip.slots = (s.chip.served s.cfg cmd).2.slots ∧ t.chip.counter0 = (s.chip.served s.cfg cmd).2.counter0 := by
  obtain ⟨ch', ha, -, -, g2, g3, -, -⟩ := served_answer cmd hd hu
  obtain ⟨hq, ⟨ho, hi⟩, hf, -⟩ := hu
  obtain ⟨t, ht, hc⟩ := breaks_transact (c := s.cfg) (ch := s.chip) (wf_pulses hwf) hm cmd.opcode cmd.p1 cmd.p2 cmd.data e close
    code ch' h0 he (by rw [ha, hr]; rfl) s ⟨rfl, rfl, hq, ho, hi, hf⟩
  exact ⟨t, ht, by rw [hc.chip, g2], by rw [hc.chip, g3]⟩

end Sys2Proof.Machine
end

