-- ==== Sys2Proof/Laws/Stops.lean ====
section
/-! SUPPORT. Where an operation stops: `login` and `change` exactly where they come to the updates of a good login and the
counter read there breaks R174's precondition (spec/44_pinengine.md R165, R166, R170, R171, R174). -/

namespace Sys2Proof.Machine

/-- The operation stops. -/
def Stops {α : Type} (x : Op α) (s : State) : Prop := ∃ t, x s = .error (.stop .counterBudget) t

/-- The operation gives `a`, in a state with `P`. -/
def Comes {α : Type} (x : Op α) (s : State) (a : α) (P : State → Prop) : Prop := ∃ u, x s = .ok a u ∧ P u

/-- From a state whose `REC` holds a record, the operation does not stop, and the record stays held. -/
def NeverStops {α : Type} (x : Op α) : Prop :=
  Triple (fun s => s.reg.recHeld = true) x (fun _ t => t.reg.recHeld = true)
    (fun e t => t.reg.recHeld = true ∧ ∀ f, e ≠ .stop f)

theorem neverStops_of_pin {α : Type} {x : Op α} {Q : α → State → Prop}
    (h : Triple (fun s => s.reg.recHeld = true) x Q (PinFail False (fun t => t.reg.recHeld = true)))
    (hQ : ∀ a t, Q a t → t.reg.recHeld = true) : NeverStops x :=
  triple_conseq h (fun _ h => h) hQ (fun _ _ h => ⟨h.1, fun f hf => h.2 f hf⟩)

theorem neverStops_of_session {α : Type} {x : Op α} {Q : α → State → Prop}
    (h : Triple (fun s => s.reg.recHeld = true) x Q (SessionFail (fun t => t.reg.recHeld = true)))
    (hQ : ∀ a t, Q a t → t.reg.recHeld = true) : NeverStops x := neverStops_of_pin (triple_session h) hQ

theorem neverStops_not {α : Type} {x : Op α} (h : NeverStops x) {s : State} (hs : s.reg.recHeld = true) : ¬ Stops x s := by
  rintro ⟨t, ht⟩
  exact ((h s hs).2 _ _ ht).2 _ rfl

/-- After a piece that does not stop, the rest does or the whole does not. -/
theorem stops_after {α β : Type} {x : Op α} {k : α → Op β} (hx : NeverStops x) {s : State} (hs : s.reg.recHeld = true) :
    Stops (x >>= k) s ↔ ∃ a u, x s = .ok a u ∧ u.reg.recHeld = true ∧ Stops (k a) u := by
  unfold Stops
  rw [bind_run]
  constructor
  · rintro ⟨t, ht⟩
    cases hr : x s with
    | ok a u => rw [hr] at ht; exact ⟨a, u, rfl, (hx s hs).1 a u hr, t, ht⟩
    | error e u =>
      rw [hr] at ht
      cases ht
      exact absurd rfl (((hx s hs).2 _ _ hr).2 _)
  · rintro ⟨a, u, hr, -, t, ht⟩
    exact ⟨t, by rw [hr]; exact ht⟩

/-- Two operations that begin with the same piece: the one stops where the other comes out, if that holds of the rest. -/
theorem stops_iff_comes {α β γ : Type} {x : Op α} {k : α → Op β} {k' : α → Op γ} {b : γ} {P : State → Prop} (hx : NeverStops x)
    {s : State} (hs : s.reg.recHeld = true) (hk : ∀ a u, u.reg.recHeld = true → (Stops (k a) u ↔ Comes (k' a) u b P)) :
    Stops (x >>= k) s ↔ Comes (x >>= k') s b P := by
  rw [stops_after hx hs]
  unfold Comes
  constructor
  · rintro ⟨a, u, hr, hu, h⟩
    obtain ⟨w, hw, hp⟩ := (hk a u hu).mp h
    exact ⟨w, by rw [bind_run, hr]; exact hw, hp⟩
  · rintro ⟨w, hw, hp⟩
    rw [bind_run] at hw
    cases hr : x s with
    | ok a u =>
      rw [hr] at hw
      have hu := (hx s hs).1 a u hr
      exact ⟨a, u, rfl, hu, (hk a u hu).mpr ⟨w, hw, hp⟩⟩
    | error e u => rw [hr] at hw; cases hw

/-- What follows never stops: the whole does where its first piece does. -/
theorem stops_before {α β : Type} {x : Op α} {k : α → Op β} {s : State}
    (hk : ∀ a u, x s = .ok a u → ¬ Stops (k a) u) : Stops (x >>= k) s ↔ Stops x s := by
  unfold Stops
  rw [bind_run]
  cases hr : x s with
  | ok a u =>
    constructor
    · exact fun h => absurd h (hk a u hr)
    · rintro ⟨t, ht⟩; cases ht
  | error e u =>
    constructor
    · rintro ⟨t, ht⟩; injection ht with h1 h2; exact ⟨t, by rw [h1, h2]⟩
    · rintro ⟨t, ht⟩; injection ht with h1 h2; exact ⟨t, by rw [h1, h2]⟩

theorem comes_raise {α : Type} {e : Err} {s : State} {a : α} {P : State → Prop} : ¬ Comes (raise e : Op α) s a P := by
  rintro ⟨u, hu, -⟩
  cases hu

theorem stops_raise {α : Type} {e : Err} (he : ∀ f, e ≠ .stop f) {s : State} : ¬ Stops (raise e : Op α) s := by
  rintro ⟨u, hu⟩
  cases hu
  exact absurd rfl (he _)

/-! ### The pieces -/

theorem any_stores {P : Config.Params → SlotId → Nat → Prop} {J : State → Prop} : Stores AnyCommand J P :=
  fun _ _ _ _ _ _ _ => trivial

theorem budgetFits_not (c : Config.Params) (v : Word32) :
    ¬ budgetFits c v = true ↔ 2 ^ 32 ≤ v.toNat + c.maxAttempts + c.quant.toNat := by
  unfold budgetFits
  rw [decide_eq_true_eq, Nat.not_lt]

/-- The same read, as the operation. -/
theorem readsOverspent_iff (s : State) :
    readsOverspent s ↔ ∃ v w, authReadCounter s = .ok v w ∧ ¬ budgetFits s.cfg v = true := by
  have hx : exec .authReadCounter s = runOrStop authReadCounter .word32 s := rfl
  unfold readsOverspent
  rw [hx, runOrStop]
  constructor
  · rintro ⟨v, t, ht, hend, hb⟩
    cases hr : authReadCounter s with
    | error e u =>
      rw [hr] at ht
      cases e with
      | stop f => injection ht
      | _ => injection ht with ht; rw [← ht] at hend; injection hend
    | ok v' u =>
      rw [hr] at ht
      injection ht with ht
      rw [← ht] at hend
      injection hend with hend
      injection hend with hend
      exact ⟨v', u, rfl, (budgetFits_not _ _).mpr (hend ▸ hb)⟩
  · rintro ⟨v, w, hv, hb⟩
    exact ⟨v, w.endWith (.success (.word32 v)), by rw [hv], rfl, (budgetFits_not _ _).mp hb⟩

/-- The rest of the updates, once the counter read gave a value that fits. -/
theorem updates_rest (c : Config.Params) (d : Bytes) (v : Word32) : NeverStops (do
    encryptedWrite c.slot.matchCount c.slot.pinHash d (matchCountBlock (newMatchCount c v))
    let c2 ← addCounter (bumpOf c v)
    encryptedWrite c.slot.lastgood c.slot.pinHash d (lastgoodBlock c2)) :=
  have hK := keeps_held.toKeeps
  neverStops_of_session (Q := fun _ t => t.reg.recHeld = true) (triple_bind
    (triple_encryptedWrite hK _ _ _ _ (fun _ _ _ _ => trivial)) (fun _ => triple_bind
    (triple_addCounter hK _) (fun _ => triple_encryptedWrite hK _ _ _ _ (fun _ _ _ _ => trivial)))) (fun _ _ h => h)

/-- The updates of a good login stop exactly where their counter read breaks R174's precondition (U22). -/
theorem goodLoginUpdates_stops (d : Bytes) {s : State} (hs : s.reg.recHeld = true) :
    Stops (goodLoginUpdates d) s ↔ readsOverspent s := by
  have h1 : NeverStops authReadCounter :=
    neverStops_of_session (triple_authReadCounter keeps_held.toKeeps) (fun _ _ h => h)
  have e : goodLoginUpdates d s = (do
      let c ← authReadCounter
      if budgetFits s.cfg c then do
        encryptedWrite s.cfg.slot.matchCount s.cfg.slot.pinHash d (matchCountBlock (newMatchCount s.cfg c))
        let c2 ← addCounter (bumpOf s.cfg c)
        encryptedWrite s.cfg.slot.lastgood s.cfg.slot.pinHash d (lastgoodBlock c2)
      else raise (.stop .counterBudget) : Op Unit) s := by
    unfold goodLoginUpdates
    rw [bind_run, getCfg_run]
  rw [readsOverspent_iff, Stops, e]
  refine (stops_after h1 hs).trans ⟨?_, ?_⟩
  · rintro ⟨v, w, hv, hw, hstop⟩
    refine ⟨v, w, hv, fun hb => ?_⟩
    rw [if_pos hb] at hstop
    exact neverStops_not (updates_rest s.cfg d v) hw hstop
  · rintro ⟨v, w, hv, hb⟩
    refine ⟨v, w, hv, (h1 s hs).1 v w hv, ?_⟩
    rw [if_neg hb]
    exact ⟨w, rfl⟩

theorem neverStops_validate : NeverStops validate := neverStops_of_pin (triple_validate keeps_held) (fun _ _ h => h)
theorem neverStops_verify : NeverStops verify := neverStops_of_pin (triple_verify keeps_held) (fun _ _ h => h)
theorem neverStops_cfg : NeverStops getCfg := triple_getCfg (fun _ h => h)
theorem neverStops_word (f : Config.Layout → Config.FieldLoc) : NeverStops (recWord f) := triple_recWord keeps_held f
theorem neverStops_field (f : Config.Layout → Config.FieldLoc) : NeverStops (recField f) := triple_recFieldAny keeps_held f
theorem neverStops_attempt (p : Bytes) : NeverStops (pinHashAttempt p) :=
  neverStops_of_session (triple_pinHashAttempt keeps_held p) (fun _ _ h => h.1)
theorem neverStops_test (d : Bytes) : NeverStops (testDigest d) :=
  neverStops_of_session (triple_testDigest keeps_held d) (fun _ _ h => h)
theorem neverStops_digest (cf fl : Word32) : NeverStops (changeDigest cf fl) :=
  neverStops_of_pin (triple_changeDigest keeps_held cf fl) (fun _ _ h => h.1)
theorem neverStops_writeDigest (d : Bytes) : NeverStops (writeDigest d) := triple_writeDigest keeps_held d (fun h => h.elim)
theorem neverStops_secret (d : Bytes) : NeverStops (changeSecret d) :=
  neverStops_of_pin (triple_changeSecret keeps_held any_stores d) (fun _ _ h => h)
theorem neverStops_encryptedWrite (a b : SlotId) (d p : Bytes) : NeverStops (encryptedWrite a b d p) :=
  neverStops_of_session (triple_encryptedWrite keeps_held.toKeeps a b d p (fun _ _ _ _ => trivial)) (fun _ _ h => h)

/-- What follows the updates in a run that stops: nothing that could stop. -/
theorem updates_then (d : Bytes) {k : Op Unit} (hk : NeverStops k) {s : State} (hs : s.reg.recHeld = true) :
    Stops (do goodLoginUpdates d; k) s ↔ readsOverspent s := by
  rw [← goodLoginUpdates_stops d hs]
  refine stops_before (fun a u hu => neverStops_not hk ?_)
  exact ((triple_goodLoginUpdates (B := True) keeps_held any_stores (fun _ => trivial) d) s hs).1 a u hu

/-! ### login, change, se_dispatch -/

/-- `login` stops exactly where it comes to the updates and their counter read breaks R174's precondition. -/
theorem login_stops (record : Bytes) (s : State) :
    Stops (do writeRec record; login) s ↔ Comes (loginToUpdates record) s true readsOverspent := by
  have hK := keeps_held
  let s1 : State := { s with reg := { s.reg with record := record, recHeld := true } }
  show Stops login s1 ↔ Comes (do
    validate
    verify
    let c ← getCfg
    let flags ← recWord Config.Layout.stateFlags
    if hasFlag flags c.flag.isBlank ∨ hasFlag flags c.flag.successful then raise .badRequest
    else do
      let pinLen ← recWord Config.Layout.pinLen
      if pinLen = 0 then raise .badRequest
      else do
        let pin ← recField Config.Layout.pin
        let d ← pinHashAttempt (pin.take pinLen.toNat)
        testDigest d) s1 true readsOverspent
  refine stops_iff_comes neverStops_validate rfl (fun _ u hu => stops_iff_comes neverStops_verify hu (fun _ u hu =>
    stops_iff_comes neverStops_cfg hu (fun c u hu => stops_iff_comes (neverStops_word _) hu (fun fl u hu => ?_))))
  by_cases hb : hasFlag fl c.flag.isBlank = true
  · rw [if_pos hb, if_pos (Or.inl hb)]
    refine iff_of_false ?_ comes_raise
    split
    · exact neverStops_not (triple_conseq (E := fun _ _ => False) (triple_loginBlank hK) (fun _ h => h) (fun _ _ h => h)
        (fun _ _ h => h.elim)) hu
    · exact stops_raise (by simp)
  by_cases hsu : hasFlag fl c.flag.successful = true
  · rw [if_neg hb, if_pos hsu, if_pos (Or.inr hsu)]
    exact iff_of_false (stops_raise (by simp)) comes_raise
  rw [if_neg hb, if_neg hsu, if_neg (by tauto)]
  refine stops_iff_comes (neverStops_word _) hu (fun n u hu => ?_)
  by_cases hn : n = 0
  · rw [if_pos hn, if_pos hn]
    exact iff_of_false (stops_raise (by simp)) comes_raise
  rw [if_neg hn, if_neg hn]
  have hcfg : Stops (loginPin n) u ↔ Stops (do
      let pin ← recField Config.Layout.pin
      let d ← pinHashAttempt (pin.take n.toNat)
      let ok ← testDigest d
      if ok then do
        goodLoginUpdates d
        writeDigest d
        cacheSave
        let z ← encryptedRead u.cfg.slot.seed u.cfg.slot.pinHash d Config.secretLen
        setRecWord Config.Layout.stateFlags
          (if allZero z then setFlag u.cfg.flag.successful u.cfg.flag.zeroSecret else u.cfg.flag.successful)
        setRecWord Config.Layout.numFails 0
        setRecWord Config.Layout.attemptsLeft (BitVec.ofNat 32 u.cfg.maxAttempts)
        sign
      else loginFailed : Op Unit) u := by
    unfold Stops loginPin
    rw [bind_run, getCfg_run]
  rw [hcfg]
  generalize u.cfg = c'
  refine stops_iff_comes (neverStops_field _) hu (fun p u hu => stops_iff_comes (neverStops_attempt _) hu (fun d u hu => ?_))
  rw [stops_after (neverStops_test d) hu]
  unfold Comes
  have hend : NeverStops (do
        writeDigest d
        cacheSave
        let z ← encryptedRead c'.slot.seed c'.slot.pinHash d Config.secretLen
        setRecWord Config.Layout.stateFlags
          (if allZero z then setFlag c'.flag.successful c'.flag.zeroSecret else c'.flag.successful)
        setRecWord Config.Layout.numFails 0
        setRecWord Config.Layout.attemptsLeft (BitVec.ofNat 32 c'.maxAttempts)
        sign : Op Unit) :=
    neverStops_of_pin (Q := fun _ t => t.reg.recHeld = true) (triple_cacheThen hK d (fun h => h.elim)
      (triple_bind (triple_session (triple_encryptedRead hK.toKeeps _ _ _ _)) (fun _ =>
      triple_bind (triple_setFlags hK _) (fun _ => triple_bind (triple_setNumFails hK _) (fun _ =>
      triple_bind (triple_setAttempts hK _) (fun _ => triple_sign hK)))))) (fun _ _ h => h)
  constructor
  · rintro ⟨ok, w, hr, hw, hst⟩
    cases ok with
    | false =>
      exact absurd hst (neverStops_not (neverStops_of_pin (triple_loginFailed hK) (fun _ _ h => h)) hw)
    | true => exact ⟨w, hr, (updates_then d hend hw).mp hst⟩
  · rintro ⟨w, hr, hp⟩
    have hw := ((neverStops_test d) u hu).1 _ _ hr
    exact ⟨true, w, hr, hw, (updates_then d hend hw).mpr hp⟩

/-- `change_pin` stops exactly where it comes to the updates and their counter read breaks R174's precondition. -/
theorem changePin_stops (d : Bytes) {s : State} (hs : s.reg.recHeld = true) :
    Stops (do changePin d; sign) s ↔ Comes (newPinToUpdates d) s () readsOverspent := by
  have hK := keeps_held
  refine (stops_before (fun a u hu => neverStops_not (triple_sign hK)
    (((triple_changePin (B := True) hK any_stores (fun _ => trivial) d) s hs).1 a u hu))).trans ?_
  unfold changePin newPinToUpdates
  refine stops_iff_comes neverStops_cfg hs (fun c u hu => stops_iff_comes (neverStops_field _) hu (fun p u hu =>
    stops_iff_comes (neverStops_word _) hu (fun n u hu => stops_iff_comes (neverStops_attempt _) hu (fun e u hu => ?_))))
  have hend : NeverStops (do
      writeDigest e
      cacheSave
      let flags ← recWord Config.Layout.stateFlags
      setRecWord Config.Layout.stateFlags (clearFlag flags c.flag.isBlank)
      setRecWord Config.Layout.numFails 0
      setRecWord Config.Layout.attemptsLeft (BitVec.ofNat 32 c.maxAttempts)) :=
    triple_cacheThen hK e (fun h => h.elim) (triple_bind (triple_recWord hK _) (fun _ => triple_bind (triple_setFlags hK _)
      (fun _ => triple_bind (triple_setNumFails hK _) (fun _ => triple_setAttempts hK _))))
  refine (stops_after (neverStops_encryptedWrite _ _ _ _) hu).trans ⟨?_, ?_⟩
  · rintro ⟨_, w, hr, hw, hst⟩
    exact ⟨w, hr, (updates_then e hend hw).mp hst⟩
  · rintro ⟨w, hr, hp⟩
    have hw := (neverStops_encryptedWrite _ _ _ _ u hu).1 _ _ hr
    exact ⟨(), w, hr, hw, (updates_then e hend hw).mpr hp⟩

/-- `change` stops exactly where it comes to the updates and their counter read breaks R174's precondition. -/
theorem change_stops (record : Bytes) (s : State) :
    Stops (do writeRec record; change) s ↔ Comes (changeToUpdates record) s () readsOverspent := by
  have hK := keeps_held
  let s1 : State := { s with reg := { s.reg with record := record, recHeld := true } }
  have e : Comes (changeToUpdates record) s () readsOverspent ↔ Comes (do
    validate
    verify
    let c ← getCfg
    let flags ← recWord Config.Layout.stateFlags
    let cf ← recWord Config.Layout.changeFlags
    if ¬ hasFlag flags c.flag.successful ∨ badChangeFlags c cf ∨ ¬ hasFlag cf c.flag.changeWalletPin then raise .badRequest
    else do
      let oldD ← changeDigest cf flags
      writeDigest oldD
      if hasFlag cf c.flag.changeSecret then changeSecret oldD else pure ()
      newPinToUpdates oldD) s1 () readsOverspent := by
    unfold Comes changeToUpdates
    rw [bind_run, writeRec, modifyReg_run]
  rw [e]
  show Stops change s1 ↔ _
  unfold change
  refine stops_iff_comes neverStops_validate rfl (fun _ u hu => stops_iff_comes neverStops_verify hu (fun _ u hu =>
    stops_iff_comes neverStops_cfg hu (fun c u hu => stops_iff_comes (neverStops_word _) hu (fun fl u hu =>
    stops_iff_comes (neverStops_word _) hu (fun cf u hu => ?_)))))
  by_cases h1 : hasFlag fl c.flag.successful = true
  swap
  · rw [if_pos h1, if_pos (Or.inl h1)]
    exact iff_of_false (stops_raise (by simp)) comes_raise
  by_cases h2 : badChangeFlags c cf = true
  · rw [if_neg (not_not.mpr h1), if_pos h2, if_pos (Or.inr (Or.inl h2))]
    exact iff_of_false (stops_raise (by simp)) comes_raise
  rw [if_neg (not_not.mpr h1), if_neg h2]
  by_cases h3 : hasFlag cf c.flag.changeWalletPin = true
  swap
  · rw [if_pos (Or.inr (Or.inr h3))]
    refine iff_of_false ?_ comes_raise
    simp only [if_neg h3]
    rw [stops_after (neverStops_digest cf fl) hu]
    rintro ⟨d, w, -, hw, hst⟩
    rw [stops_after (neverStops_writeDigest d) hw] at hst
    obtain ⟨_, w, -, hw, hst⟩ := hst
    revert hst
    split
    · rw [stops_after (neverStops_secret d) hw]
      rintro ⟨_, w, -, hw, hst⟩
      exact neverStops_not (triple_sign hK) hw hst
    · exact fun hst => neverStops_not (triple_sign hK) hw hst
  rw [if_neg (by tauto)]
  simp only [if_pos h3]
  refine stops_iff_comes (neverStops_digest cf fl) hu (fun d u hu => stops_iff_comes (neverStops_writeDigest d) hu (fun _ u hu => ?_))
  by_cases h4 : hasFlag cf c.flag.changeSecret = true
  · simp only [if_pos h4]
    exact stops_iff_comes (neverStops_secret d) hu (fun _ u hu => changePin_stops d hu)
  · simp only [if_neg h4]
    exact changePin_stops d hu

/-- Every error outcome is a stop or none. -/
theorem stop_or_not (e : Err) : e = .stop .counterBudget ∨ ∀ f, e ≠ .stop f := by
  cases e with
  | stop f => cases f; exact .inl rfl
  | _ => exact .inr (by simp)

/-- What the boundary catches is no stop: it stops where the operation inside does. -/
theorem outcomeOf_stops {α : Type} {x : Op α} {s : State} : Stops (outcomeOf x) s ↔ Stops x s := by
  unfold Stops
  cases hr : x s with
  | ok a u =>
    rw [outcome_ok hr]
    constructor <;> (rintro ⟨t, ht⟩; injection ht)
  | error e u =>
    rcases stop_or_not e with rfl | he
    · unfold outcomeOf
      rw [catching_stop (by rw [bind_run, hr])]
      constructor <;> (rintro ⟨t, ht⟩; injection ht with h1 h2; exact ⟨t, by rw [h2]⟩)
    · rw [outcome_error hr he]
      refine ⟨?_, ?_⟩
      · rintro ⟨t, ht⟩; injection ht
      · rintro ⟨t, ht⟩; injection ht with h1; exact absurd h1 (he _)

/-- The operation that a sub-method names stops exactly where it comes to the updates and their counter read breaks R174's
precondition. -/
theorem pinOperation_stops (c : Config.Params) (arg2 : Word32) (record : Bytes) (s : State) :
    Stops (do writeRec record; pinOperation c arg2) s ↔ arg2 ≠ c.pinMethod.setup
      ∧ (arg2 = c.pinMethod.attempt ∧ Comes (loginToUpdates record) s true readsOverspent
        ∨ arg2 ≠ c.pinMethod.attempt ∧ arg2 = c.pinMethod.change ∧ Comes (changeToUpdates record) s () readsOverspent) := by
  have hK := keeps_held
  let s1 : State := { s with reg := { s.reg with record := record, recHeld := true } }
  unfold pinOperation
  by_cases h1 : arg2 = c.pinMethod.setup
  · rw [if_pos h1]
    refine iff_of_false ?_ (fun h => h.1 h1)
    exact neverStops_not (s := s1) (neverStops_of_pin (triple_setup hK) (fun _ _ h => h)) rfl
  by_cases h2 : arg2 = c.pinMethod.attempt
  · rw [if_neg h1, if_pos h2, login_stops]
    exact ⟨fun h => ⟨h1, .inl ⟨h2, h⟩⟩, fun h => h.2.elim (fun h => h.2) (fun h => absurd h2 h.1)⟩
  by_cases h3 : arg2 = c.pinMethod.change
  · rw [if_neg h1, if_neg h2, if_pos h3, change_stops]
    exact ⟨fun h => ⟨h1, .inr ⟨h2, h3, h⟩⟩, fun h => h.2.elim (fun h => absurd h.1 h2) (fun h => h.2.2)⟩
  rw [if_neg h1, if_neg h2, if_neg h3]
  refine iff_of_false ?_ (fun h => h.2.elim (fun h => h2 h.1) (fun h => h3 h.2.1))
  refine neverStops_not (s := s1) ?_ rfl
  exact triple_ite (fun _ => neverStops_of_pin (triple_fetchSecret hK) (fun _ _ h => h))
    (fun _ => triple_raise (fun _ h => ⟨h, by simp⟩))

/-- `pin_control` stops where the operation it routes to does. -/
theorem pinControl_stops (len : Nat) (arg2 : Word32) (s : State) (hm : isPinMethod s.cfg arg2 = true) (hl : 276 ≤ len) :
    Stops (pinControl len arg2) s ↔ Stops (do writeRec (hostBytes s.host.buf 0 276); pinOperation s.cfg arg2) s := by
  let u : State := { s with reg := { s.reg with record := hostBytes s.host.buf 0 276, recHeld := true } }
  have hheld := pinOperation_held s.cfg arg2 u rfl
  show _ ↔ Stops (pinOperation s.cfg arg2) u
  unfold Stops
  cases hr : pinOperation s.cfg arg2 u with
  | ok a v =>
    rw [pinControl_run hm hl rfl (outcome_ok hr) (hheld.1 a v hr)]
    constructor <;> (rintro ⟨t, ht⟩; injection ht)
  | error e v =>
    rcases stop_or_not e with rfl | he
    · rw [pinControl_stop hm hl rfl hr]
    · rw [pinControl_run hm hl rfl (outcome_error hr he) (hheld.2 e v hr)]
      constructor <;> (rintro ⟨t, ht⟩; injection ht with h1; exact absurd h1 (he _))

/-- `se_dispatch` stops exactly where it routes to an operation that does (R177, R180). -/
theorem dispatch_stops (method : Word32) (len : Nat) (arg2 : Word32) (s : State) :
    Stops (seDispatch method len arg2) s ↔ ∃ u, comesToUpdates s u (.seDispatch method len arg2) ∧ readsOverspent u := by
  have h1 : Stops (seDispatch method len arg2) s ↔ Stops (dispatchBody method len arg2) s := by
    refine (stops_before (fun o u _ => ?_)).trans outcomeOf_stops
    rintro ⟨w, hw⟩
    obtain ⟨v, hv, -⟩ := chipReset_total { u with reg := { u.reg with record := zeros Config.recordLen, recHeld := false } }
    simp only [bind_run, releaseRec, modifyReg_run, hv, getCfg_run, pure_run] at hw
    injection hw
  rw [h1]
  unfold dispatchBody Stops
  rw [bind_run, getCfg_run]
  dsimp only
  by_cases hl : s.cfg.lenInMax < len
  · rw [if_pos hl]
    exact iff_of_false (stops_raise (by simp)) (by rintro ⟨u, h, -⟩; exact Nat.not_lt.mpr h.2.2.1 hl)
  rw [if_neg hl]
  show Stops (if method = s.cfg.method.pinControl then pinControl len arg2
    else if method = s.cfg.method.readSeSlot then readSeSlot len arg2
    else if method = s.cfg.method.getRandomBytes then getRandomBytes len
    else if method = s.cfg.method.isBricked then isBricked
    else raise .badRequest) s.delayed ↔ _
  by_cases hm : method = s.cfg.method.pinControl
  swap
  · rw [if_neg hm]
    refine iff_of_false ?_ (by rintro ⟨u, h, -⟩; exact hm h.1)
    have : Triple (fun _ => True) (if method = s.cfg.method.readSeSlot then readSeSlot len arg2
        else if method = s.cfg.method.getRandomBytes then getRandomBytes len
        else if method = s.cfg.method.isBricked then isBricked
        else raise .badRequest) (fun _ _ => True) (PinFail False (fun _ => True)) :=
      triple_ite (fun _ => triple_readSeSlot host_trivial _ _) (fun _ => triple_ite (fun _ => triple_getRandomBytes host_trivial _)
        (fun _ => triple_ite (fun _ => triple_unlockOrBrick keeps_trivial) (fun _ => triple_pinRaise (by simp))))
    rintro ⟨t, ht⟩
    exact ((this s.delayed trivial).2 _ t ht).2 _ rfl
  rw [if_pos hm]
  by_cases hp : isPinMethod s.cfg arg2 = true ∧ 276 ≤ len
  · rw [pinControl_stops len arg2 s.delayed hp.1 hp.2, pinOperation_stops]
    show arg2 ≠ s.cfg.pinMethod.setup ∧ _ ↔ _
    constructor
    · rintro ⟨h1, ⟨h2, u, hu, hb⟩ | ⟨h2, h3, u, hu, hb⟩⟩
      · exact ⟨u, ⟨hm, hp.2, Nat.not_lt.mp hl, h1, .inl ⟨h2, hu⟩⟩, hb⟩
      · exact ⟨u, ⟨hm, hp.2, Nat.not_lt.mp hl, h1, .inr ⟨h2, h3, hu⟩⟩, hb⟩
    · rintro ⟨u, ⟨-, -, -, h1, ⟨h2, hu⟩ | ⟨h2, h3, hu⟩⟩, hb⟩
      · exact ⟨h1, .inl ⟨h2, u, hu, hb⟩⟩
      · exact ⟨h1, .inr ⟨h2, h3, u, hu, hb⟩⟩
  · have hno : ¬ ∃ u, comesToUpdates s u (.seDispatch method len arg2) ∧ readsOverspent u := by
      rintro ⟨u, ⟨-, h276, -, -, h⟩, -⟩
      refine hp ⟨?_, h276⟩
      simp only [isPinMethod, Bool.or_eq_true, decide_eq_true_eq]
      tauto
    refine iff_of_false ?_ hno
    rintro ⟨t, ht⟩
    unfold pinControl at ht
    rw [bind_run, getCfg_run] at ht
    dsimp only at ht
    by_cases hq : isPinMethod s.cfg arg2 = true
    · rw [if_neg (by
        show ¬ ¬ isPinMethod s.cfg arg2 = true
        exact not_not.mpr hq), if_pos (show len < Config.recordLen from
        Nat.not_le.mp (fun h => hp ⟨hq, h⟩))] at ht
      injection ht with h; cases h
    · rw [if_pos (show ¬ isPinMethod s.delayed.cfg arg2 = true from hq)] at ht
      injection ht with h; cases h

end Sys2Proof.Machine
end

