-- ==== Sys2Proof/Laws/Symbols.lean ====
section
/-! SUPPORT. What `deserialize` makes of any list of symbols (spec/40_bitbus.md R100): every bit, every junk draw. -/

namespace Sys2Proof.Machine

open Sys2Proof.Config (Params)

theorem junkIn_append (c : Params) (a b : List Symbol) : junkIn c (a ++ b) = junkIn c a + junkIn c b := List.countP_append

/-- One symbol of a group reads as its bit, with a draw taken where it is junk (R100). -/
theorem symbolBit_run (c : Params) (x : Symbol) (rest : List Symbol) (s : State) :
    symbolBit c x s = .ok (readBit c s.env.junk (x :: rest) 0)
      { s with env := { s.env with junk := s.env.junk.after Config.freeJunk (junkIn c [x]) } } := by
  unfold symbolBit readBit junkIn
  by_cases h1 : x = c.pulse1
  · rw [if_pos h1]; simp [h1, isPulse]
  · rw [if_neg h1]
    by_cases h0 : x = c.pulse0
    · rw [if_pos h0]; subst h0; simp [h1, isPulse]
    · rw [if_neg h0]; simp [h1, h0, isPulse]; rfl

/-- The symbols before are behind: their junk draws are taken. -/
theorem readBit_shift (c : Params) (d : Draws Bool) (pre xs : List Symbol) (j : Nat) :
    readBit c (d.after Config.freeJunk (junkIn c pre)) xs j = readBit c d (pre ++ xs) (pre.length + j) := by
 
  have h1 : (pre ++ xs)[pre.length + j]? = xs[j]? := by simp [List.getElem?_append_right]
  have h2 : (pre ++ xs).take (pre.length + j) = pre ++ xs.take j := by simp [List.take_append]
  unfold readBit
  rw [← after_add, ← junkIn_append, h1, h2]

/-- The bits of a list of symbols, in line order. -/
theorem groupBits_run (c : Params) (xs : List Symbol) (s : State) :
    groupBits c xs s = .ok ((List.range xs.length).map (readBit c s.env.junk xs))
      { s with env := { s.env with junk := s.env.junk.after Config.freeJunk (junkIn c xs) } } := by
  induction xs generalizing s with
  | nil => rfl
  | cons x xs ih =>
    simp only [groupBits, bind_run, symbolBit_run c x xs, ih, pure_run]
    congr 1
    · rw [List.length_cons, List.range_succ_eq_map, List.map_cons, List.map_map]
      congr 1
      refine List.map_congr_left fun j _ => ?_
      have := readBit_shift c s.env.junk [x] xs j
      rw [this]; simp [Nat.add_comm]
    · rw [← after_add, ← junkIn_append]; rfl

/-- What comes after does not matter. -/
theorem readBit_append (c : Params) (d : Draws Bool) (xs ys : List Symbol) (j : Nat) (h : j < xs.length) :
    readBit c d (xs ++ ys) j = readBit c d xs j := by
  unfold readBit
  simp [List.getElem?_append_left h, List.take_append_of_le_length (Nat.le_of_lt h)]

/-- `n` whole groups, each a byte with bit 0 first (R100). -/
theorem readGroups_run (c : Params) (n : Nat) (xs : List Symbol) (s : State) (h : 8 * n ≤ xs.length) :
    readGroups c n xs s = .ok ((List.range n).map (fun k => byteOfBits ((List.range 8).map (fun i => readBit c s.env.junk xs (8 * k + i)))))
      { s with env := { s.env with junk := s.env.junk.after Config.freeJunk (junkIn c (xs.take (8 * n))) } } := by
  induction n generalizing xs s with
  | zero => rfl
  | succ n ih =>
    have h8 : (xs.take 8).length = 8 := by simp; omega
    simp only [readGroups, Config.pulsesPerByte, bind_run, groupBits_run, pure_run]
    rw [ih (xs.drop 8) _ (by simp; omega)]
    simp only
    congr 1
    · rw [List.range_succ_eq_map (n := n), List.map_cons, List.map_map, h8]
      congr 1
      · congr 1
        refine List.map_congr_left fun j hj => ?_
        have hj := List.mem_range.mp hj
        have := readBit_append c s.env.junk (xs.take 8) (xs.drop 8) j (by omega)
        rw [List.take_append_drop] at this
        rw [← this]; congr 1; omega
      · refine List.map_congr_left fun k _ => ?_
        simp only [Function.comp]
        congr 1
        refine List.map_congr_left fun j _ => ?_
        rw [readBit_shift, List.take_append_drop, h8]
        congr 1; omega
    · rw [← after_add, ← junkIn_append, ← List.take_add]
      rw [show 8 * (n + 1) = 8 + 8 * n by omega]

/-- `deserialize` on every list of symbols: all it can do (R100). -/
theorem deserialize_run (symbols : List Symbol) (n : Nat) (s : State) :
    let body := skipJunk s.cfg symbols
    let m := groupCount n body
    deserialize symbols n s = .ok ((List.range m).map (fun k =>
        byteOfBits ((List.range 8).map (fun i => readBit s.cfg s.env.junk body (8 * k + i)))))
      { s with env := { s.env with junk := s.env.junk.after Config.freeJunk (junkIn s.cfg (body.take (8 * m))) } } :=
  readGroups_run s.cfg _ _ s (by unfold groupCount Config.pulsesPerByte; omega)

end Sys2Proof.Machine
end

