-- ==== Sys2Proof/Tests/Slice0.lean ====
section
/-! SUPPORT. Tests: ill-formed operations refused, a call of every operation decoded from words written out, the vectors of
spec/95_test_vectors.md that need no hash, and for every statement that has hypotheses a witness that meets them. -/

namespace Sys2Proof.Tests

-- One theorem after another: evaluated side by side, each holds a thread and its stack.
set_option Elab.async false

open Sys2Proof.Machine
open Sys2Proof.Config (defaults)

/-! ### What is ill-formed -/

theorem test_wf_deserialize : (Instr.deserialize [] (2 ^ 32)).wf = false := by decide
theorem test_wf_send : (Instr.send []).wf = false := by decide
theorem test_wf_receive : (Instr.receive 0).wf = false ∧ (Instr.receive 257).wf = true ∧ (Instr.receive (2 ^ 32)).wf = false := by
  decide
theorem test_wf_decodeResponse : (Instr.decodeResponse [] 0).wf = false := by decide
theorem test_wf_transact : (Instr.transact 0 0 0 [] (.data 1) .idle).wf = false
    ∧ (Instr.transact 0 0 0 [] (.data 254) .idle).wf = true ∧ (Instr.transact 0 0 0 [] (.raw 0) .idle).wf = false
    ∧ (Instr.transact 0 0 0 [] (.raw 257) .idle).wf = true ∧ (Instr.transact 0 0 0 [] (.raw (2 ^ 32)) .idle).wf = false := by
  decide
theorem test_wf_read : (Instr.read 0 (2 ^ 32) .idle).wf = false := by decide
theorem test_wf_write : (Instr.write 0 0 (zeros 31) .idle).wf = false
    ∧ (Instr.write 0 (2 ^ 32) (zeros 32) .idle).wf = false := by decide
theorem test_wf_writeMac : (Instr.writeMac 0 0 (zeros 32) (zeros 31) .idle).wf = false
    ∧ (Instr.writeMac 0 0 (zeros 33) (zeros 32) .idle).wf = false := by decide
theorem test_wf_nonce : (Instr.nonce (zeros 19) .idle).wf = false ∧ (Instr.pickNonce (zeros 21)).wf = false := by decide
theorem test_wf_checkMac : (Instr.checkMac 1 (zeros 76) .idle).wf = false := by decide +kernel
theorem test_wf_blocks : (Instr.keyedHash 0 (zeros 31) .idle).wf = false ∧ (Instr.keyedHashEnd [] .idle).wf = false
    ∧ (Instr.gendigSlot 0 []).wf = false ∧ (Instr.isCorrectTempkey []).wf = false ∧ (Instr.checkmac 0 []).wf = false
    ∧ (Instr.mixin 0 []).wf = false ∧ (Instr.stretch [] 1).wf = false := by decide
theorem test_wf_ctEqual : (Instr.ctEqual [0] []).wf = false := by decide
theorem test_wf_encryptedRead : (Instr.encryptedRead 9 3 (zeros 32) 0).wf = false := by decide
theorem test_wf_encryptedWrite : (Instr.encryptedWrite 5 3 (zeros 32) []).wf = false
    ∧ (Instr.encryptedWrite 5 3 (zeros 32) (zeros 33)).wf = false := by decide
theorem test_wf_addCounter : (Instr.addCounter 0).wf = false := by decide
theorem test_wf_records : (Instr.setup (zeros 275)).wf = false ∧ (Instr.login []).wf = false
    ∧ (Instr.change (zeros 277)).wf = false ∧ (Instr.fetchSecret []).wf = false := by decide +kernel
theorem test_wf_lengths : (Instr.seDispatch 1 (2 ^ 32) 0).wf = false ∧ (Instr.cmdReadSeSlot (2 ^ 32) 0).wf = false
    ∧ (Instr.cmdGetRandomBytes (2 ^ 32)).wf = false := by decide
/-- The decoder refuses an ill-formed call, words that end too soon, and bytes that are no choice, each by name. -/
theorem test_decode_refuses : decode [0x02, 0xA0, 0, 0, 0, 0] = .error .illFormed
    ∧ decode [0x00, 0x24] = .error .truncated ∧ decode [0x00, 0x24, 2] = .error (.badClose 2)
    ∧ decode ([0x00, 0xA2] ++ zeros 8 ++ [3, 0]) = .error (.badExpect 3)
    ∧ decode [0x06, 0xA5] = .error (.unknownHead 0xA506) := by decide +kernel
theorem test_params_wf : defaults.wf = true ∧ ({ defaults with pulse1 := 0x7D } : Config.Params).wf = false
    ∧ ({ defaults with infoRawLen := 0 } : Config.Params).wf = false
    ∧ ({ defaults with maxPinLen := 33 } : Config.Params).wf = false
    ∧ ({ defaults with flag := { defaults.flag with isBlank := 3 } } : Config.Params).wf = false
    ∧ ({ defaults with maxDataLen := 249 } : Config.Params).wf = false
    ∧ ({ defaults with maxAttempts := 0 } : Config.Params).wf = false := by decide +kernel
theorem test_params_modes : defaults.modesDiffer = true
    ∧ ({ defaults with p1 := { defaults.p1 with counterIncr := defaults.p1.counterRead } } : Config.Params).modesDiffer = false
    ∧ ({ defaults with p1 := { defaults.p1 with genDigCounter := defaults.p1.genDigData } } : Config.Params).modesDiffer
      = false := by decide

/-! ### One call of every operation, its words written out (log 2; the heads of SeLink are R98's) -/

theorem test_decode_bitbus : decode [0x00, 0xA0, 0xA5] = .ok (.serialize 0xA5)
    ∧ decode [0x01, 0xA0, 1, 0, 0, 0, 0x7D, 4, 0, 0, 0] = .ok (.deserialize [0x7D] 4)
    ∧ decode [0x02, 0xA0, 1, 0, 0, 0, 0xCC] = .ok (.send [0xCC])
    ∧ decode [0x03, 0xA0, 4, 0, 0, 0] = .ok (.receive 4) ∧ decode [0x04, 0xA0] = .ok .wake
    ∧ decode [0x05, 0xA0] = .ok .idle ∧ decode [0x06, 0xA0] = .ok .sleep := by decide +kernel
theorem test_decode_frames : decode [0x00, 0xA1, 0x34, 0x12, 1, 0, 0, 0, 0x04] = .ok (.crc16 0x1234 [4])
    ∧ decode [0x01, 0xA1, 0x16, 0x07, 0x34, 0x12, 1, 0, 0, 0, 9] = .ok (.encodeCommand 0x16 0x07 0x1234 [9])
    ∧ decode [0x02, 0xA1, 1, 0, 0, 0, 7, 4, 0, 0, 0] = .ok (.decodeResponse [7] 4) := by decide +kernel
theorem test_decode_transact :
    decode [0x00, 0xA2, 0x24, 0x01, 0x34, 0x12, 1, 0, 0, 0, 9, 1, 4, 0, 0, 0, 1]
      = .ok (.transact 0x24 0x01 0x1234 [9] (.data 4) .sleep)
    ∧ decode [0x00, 0xA2, 0x30, 0, 0, 0, 0, 0, 0, 0, 2, 5, 0, 0, 0, 0] = .ok (.transact 0x30 0 0 [] (.raw 5) .idle)
    ∧ decode [0x01, 0xA2] = .ok .chipReset := by decide +kernel
theorem test_decode_memory : decode [0x82, 0x02, 5, 1, 2, 0, 0, 0, 1] = .ok (.read 0x0105 2 .sleep)
    ∧ decode ([0x82, 0x12, 5, 0, 2, 0, 0, 0] ++ List.replicate 32 7 ++ [1]) = .ok (.write 5 2 (List.replicate 32 7) .sleep)
    ∧ decode ([0xC2, 0x12, 5, 0, 2, 0, 0, 0] ++ List.replicate 32 7 ++ List.replicate 32 8 ++ [0])
      = .ok (.writeMac 5 2 (List.replicate 32 7) (List.replicate 32 8) .idle) := by decide +kernel
theorem test_decode_session : decode ([0x00, 0x16] ++ List.replicate 20 7 ++ [1]) = .ok (.nonce (List.replicate 20 7) .sleep)
    ∧ decode [0x02, 0x15, 5, 1, 0] = .ok (.genDig 0x0105 .idle) ∧ decode [0x04, 0x15, 5, 1, 1] = .ok (.genDigCounter 0x0105 .sleep)
    ∧ decode ([0x01, 0x28, 1, 0] ++ List.replicate 77 7 ++ [1]) = .ok (.checkMac 1 (List.replicate 77 7) .sleep)
    ∧ decode [0x41, 0x08, 1, 0, 0] = .ok (.macGen 1 .idle) := by decide +kernel
theorem test_decode_counters : decode [0x00, 0x24, 1] = .ok (.counterRead .sleep)
    ∧ decode [0x01, 0x24, 0] = .ok (.counterIncr .idle) ∧ decode [0x3B, 0x77, 1] = .ok (.selfTest .sleep)
    ∧ decode [0x80, 0x17, 0x34, 0x12, 0] = .ok (.lock 0x80 0x1234 .idle) ∧ decode [0x00, 0x30, 1] = .ok (.info .sleep)
    ∧ decode ([0x04, 0x47, 4, 0] ++ List.replicate 32 7 ++ [1]) = .ok (.keyedHash 4 (List.replicate 32 7) .sleep)
    ∧ decode ([0xC2, 0x47] ++ List.replicate 32 7 ++ [0]) = .ok (.keyedHashEnd (List.replicate 32 7) .idle) := by
  decide +kernel
theorem test_decode_crypto1 : decode ([0x00, 0xA3] ++ List.replicate 20 7) = .ok (.pickNonce (List.replicate 20 7))
    ∧ decode ([0x01, 0xA3, 5, 0] ++ List.replicate 32 7) = .ok (.gendigSlot 5 (List.replicate 32 7))
    ∧ decode [0x02, 0xA3, 1, 0, 0, 0, 8, 1, 0, 0, 0, 9] = .ok (.ctEqual [8] [9])
    ∧ decode ([0x03, 0xA3] ++ List.replicate 32 7) = .ok (.isCorrectTempkey (List.replicate 32 7))
    ∧ decode ([0x04, 0xA3, 3, 0] ++ List.replicate 32 7) = .ok (.checkmac 3 (List.replicate 32 7))
    ∧ decode [0x05, 0xA3] = .ok .pairUnlock
    ∧ decode ([0x06, 0xA3, 9, 0, 3, 0] ++ List.replicate 32 7 ++ [72, 0, 0, 0])
      = .ok (.encryptedRead 9 3 (List.replicate 32 7) 72) := by decide +kernel
theorem test_decode_crypto2 : decode ([0x07, 0xA3, 5, 0, 3, 0] ++ List.replicate 32 7 ++ [32, 0, 0, 0] ++ List.replicate 32 8)
      = .ok (.encryptedWrite 5 3 (List.replicate 32 7) (List.replicate 32 8))
    ∧ decode ([0x08, 0xA3, 4, 0] ++ List.replicate 32 7) = .ok (.mixin 4 (List.replicate 32 7))
    ∧ decode ([0x09, 0xA3] ++ List.replicate 32 7 ++ [8, 0, 0, 0]) = .ok (.stretch (List.replicate 32 7) 8)
    ∧ decode [0x0A, 0xA3, 5, 0] = .ok (.authReadSlot 5) ∧ decode [0x0B, 0xA3] = .ok .authReadCounter
    ∧ decode [0x0C, 0xA3, 30, 0, 0, 0] = .ok (.addCounter 30)
    ∧ decode [0x0D, 0xA3, 0x78, 0x56, 0x34, 0x12] = .ok (.gendigCounter 0x12345678) := by decide +kernel
theorem test_decode_pin : decode ([0x00, 0xA4] ++ List.replicate 276 7) = .ok (.setup (List.replicate 276 7))
    ∧ decode ([0x01, 0xA4] ++ List.replicate 276 7) = .ok (.login (List.replicate 276 7))
    ∧ decode ([0x02, 0xA4] ++ List.replicate 276 7) = .ok (.change (List.replicate 276 7))
    ∧ decode ([0x03, 0xA4] ++ List.replicate 276 7) = .ok (.fetchSecret (List.replicate 276 7)) := by decide +kernel
theorem test_decode_dispatch :
    decode [0x00, 0xA5, 1, 0, 0, 0, 0x14, 1, 0, 0, 3, 0, 0, 0] = .ok (.seDispatch 1 276 3)
    ∧ decode [0x01, 0xA5, 32, 0, 0, 0, 5, 0, 0, 0] = .ok (.cmdReadSeSlot 32 5)
    ∧ decode [0x02, 0xA5, 16, 0, 0, 0] = .ok (.cmdGetRandomBytes 16)
    ∧ decode [0x03, 0xA5] = .ok .cmdIsBricked := by decide +kernel

/-! ### One operation on a small machine -/

/-- What a step's outcome leaves, asked of its next state. -/
def leaves (o : Host.Outcome State Fault Refusal) (p : State → Bool) : Bool :=
  match o with
  | .next t => p t
  | .fault _ => false
  | .refused _ => false

/-- The operation ended so. -/
def ended (o : Host.Outcome State Fault Refusal) (e : Ending) : Bool := leaves o (fun t => decide (t.ctl.ending = e))

/-- The bytes put on the line, in order. -/
def onLine (t : State) : Option Bytes :=
  cleanBytes defaults t.wire.trace.length (t.wire.trace.filterMap (fun e => match e with
    | .sym x _ => some x
    | .low _ => none))

/-- The operation ended so, and these bytes went out. -/
def exchanged (o : Host.Outcome State Fault Refusal) (e : Ending) (b : Bytes) : Bool :=
  leaves o (fun t => decide (t.ctl.ending = e) && decide (onLine t = some b))

/-- A booted machine with a working line on which these replies arrive, one to each prompt. -/
def bench (replies : List Bytes) : State :=
  scripted (List.replicate 6000 false) (replies.map (serializeBytes defaults))

/-- Consecutive bytes. -/
def run (first n : Nat) : Bytes := (List.range n).map (fun k => BitVec.ofNat 8 (first + k))

/-- A status reply of success (V16). -/
def okReply : Bytes := [0x04, 0x00, 0x03, 0x40]

/-- The watchdog's status reply (V16), which ends a transaction at once. -/
def watchdogReply : Bytes := [0x04, 0xEE, 0x31, 0x41]

/-- V1, V2. -/
theorem test_serialize : ended (exec (.serialize 0xA5) (bench []))
      (.success (.symbols [0x7F, 0x7D, 0x7F, 0x7D, 0x7D, 0x7F, 0x7D, 0x7F])) = true
    ∧ ended (exec (.serialize 0x77) (bench []))
      (.success (.symbols [0x7F, 0x7F, 0x7F, 0x7D, 0x7F, 0x7F, 0x7F, 0x7D])) = true := by decide +kernel

/-- V3, V9. -/
theorem test_deserialize : ended (exec (.deserialize ([0x00, 0xFF] ++ serializeByte defaults 0xA5 ++ [0x7D, 0x7D, 0x7D]) 4)
      (bench [])) (.success (.bytes [0xA5])) = true
    ∧ ended (exec (.deserialize (serializeByte defaults 0x04 ++ [0x7D] ++ serializeByte defaults 0x11
        ++ List.replicate 7 0x7D) 4) (bench [])) (.success (.bytes [0x04, 0x22, 0x00])) = true := by decide +kernel
/-- V8: two results are allowed, and the draw is taken. -/
theorem test_deserialize_junk : leaves (exec (.deserialize (serializeByte defaults 0x04 ++ [0x00] ++ serializeByte defaults 0x00)
      4) { bench [] with env := { (bench []).env with junk := { script := [true], taken := 0 } } })
    (fun t => decide (t.ctl.ending = .success (.bytes [0x04, 0x01])) && decide (t.env.junk.script = [])) = true := by
  decide +kernel

/-- V10. -/
theorem test_send : leaves (exec (.send [0xCC]) (bench [])) (fun t => decide (t.wire.trace.map (fun e => match e with
      | .sym x _ => x
      | .low _ => 0) = [0x7D, 0x7D, 0x7F, 0x7F, 0x7D, 0x7D, 0x7F, 0x7F])) = true := by decide +kernel

/-- V11. -/
theorem test_receive : exchanged (exec (.receive 4) (bench [okReply])) (.success (.bytes okReply)) [0x88] = true
    ∧ exchanged (exec (.receive 4) (bench [[]])) (.error (.busTimeout .rx)) [0x88] = true
    ∧ leaves (exec (.receive 4) (bench [[0x04, 0x00]]))
      (fun t => decide (t.reg.rxbuf = [0x04, 0x00]) && t.reg.tof) = true := by decide +kernel
/-- More than the 256 bytes of `RXBUF` may be asked for (R102). -/
theorem test_receive_long : ended (exec (.receive 257) (bench [okReply])) (.success (.bytes okReply)) = true := by
  decide +kernel
/-- V11: a burst of junk is success with no byte. -/
theorem test_receive_junk : ended (exec (.receive 4) (scripted (List.replicate 8 false) [List.replicate 5 0x00]))
    (.success (.bytes [])) = true := by decide +kernel

/-- V12. -/
theorem test_wake : leaves (exec .wake (bench [])) (fun t => decide (t.wire.trace = [.low true]) && decide (t.reg.lstate = .awake)
      && !t.reg.baudsel) = true
    ∧ leaves (exec .wake (scripted [true] [])) (fun t => decide (t.ctl.ending = .error (.busTimeout .tx))
      && decide (t.reg.lstate = .asleep) && decide (t.wire.trace = []) && !t.reg.baudsel) = true := by decide +kernel
theorem test_idle : leaves (exec .idle (bench [])) (fun t => decide (onLine t = some [0xBB]) && decide (t.reg.lstate = .idled)) = true
    := by decide +kernel
/-- `TK_VALID` is cleared before the token (R106). -/
theorem test_sleep : leaves (exec .sleep (bench [])) (fun t => decide (onLine t = some [0xCC]) && decide (t.reg.lstate = .asleep)) = true
    ∧ leaves (exec .sleep { scripted [true] [] with reg := { (bench []).reg with tkValid := true } })
      (fun t => decide (t.ctl.ending = .error (.busTimeout .tx)) && !t.reg.tkValid) = true := by decide +kernel

/-- V14, V15. -/
theorem test_crc16 : leaves (exec (.crc16 0 (run 0x31 9)) (bench []))
      (fun t => decide (t.ctl.ending = .success (.word16 0xBCDD)) && decide (t.reg.crc = 0xBCDD)) = true
    ∧ ended (exec (.crc16 0xFFFF (run 0x31 9)) (bench [])) (.success (.word16 0xECD2)) = true
    ∧ ended (exec (.crc16 0x80C3 [0x11]) (bench [])) (.success (.word16 0x4333)) = true := by decide +kernel
/-- V17, V18. -/
theorem test_encodeCommand : ended (exec (.encodeCommand 0x30 0x00 0x0000 []) (bench []))
      (.success (.bytes [0x77, 0x07, 0x30, 0x00, 0x00, 0x00, 0x03, 0x5D])) = true
    ∧ leaves (exec (.encodeCommand 0x16 0x00 0x0000 (run 0 20)) (bench [])) (fun t => decide (t.reg.txbuf
      = [0x77, 0x1B, 0x16, 0x00, 0x00, 0x00] ++ run 0 20 ++ [0x53, 0xB5])) = true := by decide +kernel
theorem test_encodeCommand_refused : (match exec (.encodeCommand 0 0 0 (zeros 249)) (bench []) with
    | .refused r => decide (r = .dataTooLong)
    | .next _ => false
    | .fault _ => false) = true := by decide +kernel
/-- V19, V20, V22. -/
theorem test_decodeResponse :
    ended (exec (.decodeResponse [0x07, 0x0C, 0x00, 0x00, 0x00, 0x09, 0x6D] 4) (bench [])) (.success (.bytes [0x0C, 0, 0, 0])) = true
    ∧ ended (exec (.decodeResponse [0x04, 0x01, 0x00, 0x00] 32) (bench [])) (.error (.chipError 0x01)) = true
    ∧ ended (exec (.decodeResponse [0x04, 0x01, 0x00, 0xC3] 1) (bench [])) (.success (.bytes [0x01])) = true
    ∧ ended (exec (.decodeResponse [0x04, 0x01, 0x00, 0x00] 1) (bench [])) (.error .crcMismatch) = true := by decide +kernel
/-- V21. -/
theorem test_decodeResponse_checks :
    ended (exec (.decodeResponse [0x07, 0x0C, 0x00] 4) (bench [])) (.error .shortRead) = true
    ∧ ended (exec (.decodeResponse okReply 4) (bench [])) (.error .lengthMismatch) = true
    ∧ ended (exec (.decodeResponse [0x07, 0x0C, 0x01, 0x00, 0x00, 0x09, 0x6D] 4) (bench [])) (.error .crcMismatch) = true
    ∧ ended (exec (.decodeResponse [0x07, 0x0C, 0x00, 0x00] 4) (bench [])) (.error .shortRead) = true
    ∧ ended (exec (.decodeResponse [0x03, 0x00, 0x0F, 0x00] 4) (bench [])) (.error .lengthMismatch) = true := by decide +kernel

/-- V37: the watchdog's status is no reason to try again, and no token closes the exchange. -/
theorem test_transact_watchdog : leaves (exec (.transact 0x15 0x02 5 [] .status .idle) (bench [watchdogReply]))
    (fun t => decide (t.ctl.ending = .error (.chipError 0xEE)) && decide (t.reg.retry = 1) && decide (t.reg.phase = .ready)
      && decide (onLine t = some [0x77, 0x07, 0x15, 0x02, 0x05, 0x00, 0x3A, 0xC8, 0x88])) = true := by decide +kernel
/-- V34: three bytes where four are expected are tried again (R119, R120). -/
theorem test_transact_retry : leaves (exec (.transact 0x30 0 0 [] (.raw 4) .sleep) (bench [[0, 0, 0x60], [0, 0, 0x60, 3]]))
    (fun t => decide (t.ctl.ending = .success (.bytes [0, 0, 0x60, 3])) && decide (t.reg.retry = 2)
      && decide (t.reg.lstate = .asleep)) = true := by decide +kernel
/-- V36, with two attempts instead of a hundred. -/
theorem test_transact_exhausted : leaves (exec (.counterRead .idle) { bench [[], []] with cfg := { defaults with retryMax := 2 } })
    (fun t => decide (t.ctl.ending = .error .retriesExhausted) && decide (t.reg.retry = 2) && decide (t.reg.busCalls = 1)
      && decide (t.reg.lstate = .awake) && decide (onLine t
        = some [0x77, 0x07, 0x24, 0x00, 0x00, 0x00, 0x0C, 0xFD, 0x88, 0x88])) = true := by decide +kernel

/-- V23. -/
theorem test_read : exchanged (exec (.read 5 0 .idle) (bench [[0x23, 0x0C] ++ zeros 31 ++ [0xB9, 0xCC]]))
    (.success (.bytes (0x0C :: zeros 31))) [0x77, 0x07, 0x02, 0x82, 0x28, 0x00, 0x0A, 0x50, 0x88, 0xBB] = true := by decide +kernel
theorem test_read_block : leaves (exec (.read 9 2 .idle) (bench [watchdogReply])) (fun t => decide (t.reg.txbuf
    = [0x77, 0x07, 0x02, 0x82, 0x48, 0x02, 0x89, 0xC5])) = true := by decide +kernel
/-- V24. -/
theorem test_write : exchanged (exec (.write 5 0 (0x0C :: zeros 31) .idle) (bench [okReply])) (.success .unit)
    ([0x77, 0x27, 0x12, 0x82, 0x28, 0x00, 0x0C] ++ zeros 31 ++ [0x59, 0x1D, 0x88, 0xBB]) = true := by decide +kernel
/-- The masked block and the MAC of V46. -/
def block46 : Bytes :=
  [0xC1, 0xBB, 0x2A, 0x5A, 0x55, 0x79, 0x31, 0xA7, 0xE9, 0x20, 0x1B, 0x7E, 0xF3, 0x6B, 0x0D, 0x8B, 0x77, 0x8C, 0xA8, 0x8F,
   0x71, 0x84, 0x63, 0x87, 0x16, 0x1C, 0x1C, 0x5C, 0x12, 0x45, 0x0B, 0x2C]
def mac46 : Bytes :=
  [0x39, 0xDE, 0x56, 0x3E, 0x5C, 0x91, 0xF2, 0xEA, 0x18, 0x5D, 0x3B, 0x55, 0x6C, 0x17, 0xC9, 0x71, 0x68, 0xC0, 0x93, 0xB7,
   0xBD, 0x27, 0x0D, 0x67, 0x1C, 0x7B, 0x6D, 0x6A, 0x23, 0xBD, 0xB2, 0x8E]
/-- V25, V46. -/
theorem test_writeMac : ended (exec (.writeMac 5 0 block46 mac46 .idle) (bench [okReply])) (.success .unit) = true
    ∧ (commandFrame defaults defaults.op.write defaults.p1.write32Enc (p2Addr defaults 5 0) (block46 ++ mac46)).take 6
      = [0x77, 0x47, 0x12, 0xC2, 0x28, 0x00]
    ∧ (commandFrame defaults defaults.op.write defaults.p1.write32Enc (p2Addr defaults 5 0) (block46 ++ mac46)).drop 70
      = [0xAB, 0x5A] := by decide +kernel
/-- V26, V18. -/
theorem test_nonce : exchanged (exec (.nonce (run 0 20) .idle) (bench [[0x23] ++ run 0xA0 32 ++ [0x5F, 0x57]]))
    (.success (.bytes (run 0xA0 32)))
    ([0x77, 0x1B, 0x16, 0x00, 0x00, 0x00] ++ run 0 20 ++ [0x53, 0xB5, 0x88, 0xBB]) = true := by decide +kernel
/-- V27. -/
theorem test_genDig : exchanged (exec (.genDig 5 .idle) (bench [okReply])) (.success .unit)
      [0x77, 0x07, 0x15, 0x02, 0x05, 0x00, 0x3A, 0xC8, 0x88, 0xBB] = true
    ∧ exchanged (exec (.genDig 3 .sleep) (bench [okReply])) (.success .unit)
      [0x77, 0x07, 0x15, 0x02, 0x03, 0x00, 0x3F, 0x08, 0x88, 0xCC] = true := by decide +kernel
theorem test_genDigCounter : exchanged (exec (.genDigCounter 0 .idle) (bench [okReply])) (.success .unit)
    [0x77, 0x07, 0x15, 0x04, 0x00, 0x00, 0xB0, 0x0F, 0x88, 0xBB] = true := by decide +kernel
/-- The body of V43. -/
def checkMacBody43 : Bytes := zeros 32 ++
  [0x32, 0x5B, 0x46, 0xF0, 0xE7, 0x3E, 0xFC, 0xC3, 0xDD, 0xA3, 0x72, 0x53, 0x31, 0x27, 0xFF, 0x62, 0x44, 0x14, 0xA0, 0x37,
   0xD5, 0x44, 0xBA, 0x08, 0xD0, 0xD1, 0x0C, 0x06, 0x41, 0x5D, 0x99, 0x6D] ++ run 0xD0 13
/-- V28. -/
theorem test_checkMac : ended (exec (.checkMac 1 (zeros 77) .idle) (bench [okReply])) (.success .unit) = true
    ∧ ended (exec (.checkMac 1 (zeros 77) .idle) (bench [[0x04, 0x01, 0x00, 0xC3]])) (.error (.chipError 0x01)) = true := by
  decide +kernel
/-- The CRC of the frame of V43, over its two halves (R113). -/
theorem test_checkMac_frame :
    commandBody defaults.op.checkMac defaults.p1.checkMac 1 checkMacBody43 = [0x54, 0x28, 0x01, 0x01, 0x00] ++ checkMacBody43
    ∧ crcBytes 0x8005 0 ([0x54, 0x28, 0x01, 0x01, 0x00] ++ checkMacBody43.take 40) = 0xCA10
    ∧ crcBytes 0x8005 0xCA10 (checkMacBody43.drop 40) = 0x8C00 := by decide +kernel
/-- V29. -/
theorem test_macGen : leaves (exec (.macGen 1 .idle) (bench [watchdogReply])) (fun t => decide (t.reg.txbuf
    = [0x77, 0x07, 0x08, 0x41, 0x01, 0x00, 0x24, 0x67])) = true := by decide +kernel
/-- V30, V31. -/
theorem test_counterRead : exchanged (exec (.counterRead .idle) (bench [[0x07, 0x2B, 0, 0, 0, 0x24, 0x3D]]))
    (.success (.word32 43)) [0x77, 0x07, 0x24, 0x00, 0x00, 0x00, 0x0C, 0xFD, 0x88, 0xBB] = true := by decide +kernel
theorem test_counterIncr : exchanged (exec (.counterIncr .idle) (bench [[0x07, 0x0D, 0, 0, 0, 0x36, 0xED]]))
    (.success (.word32 13)) [0x77, 0x07, 0x24, 0x01, 0x00, 0x00, 0x0F, 0x77, 0x88, 0xBB] = true := by decide +kernel
/-- V32. -/
theorem test_selfTest : exchanged (exec (.selfTest .idle) (bench [okReply])) (.success .unit)
      [0x77, 0x07, 0x77, 0x3B, 0x00, 0x00, 0x9D, 0xFB, 0x88, 0xBB] = true
    ∧ ended (exec (.selfTest .idle) (bench [[0x04, 0x07, 0x40, 0xC2]])) (.error (.chipError 0x07)) = true := by decide +kernel
/-- V33. -/
theorem test_lock : exchanged (exec (.lock 0x80 0 .idle) (bench [okReply])) (.success .unit)
    [0x77, 0x07, 0x17, 0x80, 0x00, 0x00, 0x39, 0x8D, 0x88, 0xBB] = true := by decide +kernel
/-- V34. -/
theorem test_info : exchanged (exec (.info .idle) (bench [[0x00, 0x00, 0x60, 0x03]])) (.success (.bytes [0x00, 0x00, 0x60, 0x03]))
    [0x77, 0x07, 0x30, 0x00, 0x00, 0x00, 0x03, 0x5D, 0x88, 0xBB] = true := by decide +kernel
/-- V35. -/
theorem test_keyedHash : leaves (exec (.keyedHash 4 (run 0x30 32) .idle) (bench [okReply, watchdogReply])) (fun t =>
      decide (onLine t = some ([0x77, 0x07, 0x47, 0x04, 0x04, 0x00, 0xAE, 0x47, 0x88, 0xBB,
        0x77, 0x27, 0x47, 0xC2, 0x20, 0x00] ++ run 0x30 32 ++ [0x17, 0xCC, 0x88]))) = true := by decide +kernel
theorem test_keyedHashEnd : leaves (exec (.keyedHashEnd (run 0x30 32) .sleep) (bench [watchdogReply])) (fun t =>
    decide (t.reg.txbuf = [0x77, 0x27, 0x47, 0xC2, 0x20, 0x00] ++ run 0x30 32 ++ [0x17, 0xCC])) = true := by decide +kernel
/-- V38. -/
theorem test_chipReset : leaves (exec .chipReset { bench [] with reg := { (bench []).reg with
      tk := run 0 32, tkValid := true, busCalls := 5, lstate := .idled } })
    (fun t => decide (onLine t = some [0xCC]) && !t.reg.tkValid && decide (t.reg.tk = zeros 32)
      && decide (t.reg.lstate = .asleep) && decide (t.reg.busCalls = 5)) = true := by decide +kernel

/-- The chip's random string of V26, in its frame. -/
def rngReply : Bytes := [0x23] ++ run 0xA0 32 ++ [0x5F, 0x57]

/-- The state after so many transactions, `TK_VALID` as said. -/
def counted (t : State) (n : Nat) (tkValid : Bool) : Bool := decide (t.reg.busCalls = n) && decide (t.reg.tkValid = tkValid)

/-- V39, its hash apart. -/
theorem test_pickNonce : leaves (exec (.pickNonce (run 0 20)) (bench [rngReply])) (fun t => counted t 1 true
    && decide (t.reg.txbuf = [0x77, 0x1B, 0x16, 0x00, 0x00, 0x00] ++ run 0 20 ++ [0x53, 0xB5])) = true := by decide +kernel
/-- V40, its hash apart. -/
theorem test_gendigSlot : leaves (exec (.gendigSlot 5 (0x0C :: zeros 31)) (bench [rngReply, okReply])) (fun t => counted t 2 true
    && decide (t.reg.txbuf = [0x77, 0x07, 0x15, 0x02, 0x05, 0x00, 0x3A, 0xC8])) = true := by decide +kernel
/-- V52, its hash apart. -/
theorem test_gendigCounter : leaves (exec (.gendigCounter 12) (bench [rngReply, okReply])) (fun t => counted t 2 true
    && decide (t.reg.txbuf = [0x77, 0x07, 0x15, 0x04, 0x00, 0x00, 0xB0, 0x0F])) = true := by decide +kernel
/-- V41. -/
theorem test_ctEqual : ended (exec (.ctEqual [0, 1] [0, 3]) (bench [])) (.success (.flag false)) = true
    ∧ ended (exec (.ctEqual [] []) (bench [])) (.success (.flag true)) = true
    ∧ ended (exec (.ctEqual [7, 8] [7, 8]) (bench [])) (.success (.flag true)) = true := by decide +kernel
/-- V42: one `MacGen`, and the mark gone. -/
theorem test_isCorrectTempkey : leaves (exec (.isCorrectTempkey (zeros 32)) { bench [rngReply] with
      reg := { (bench []).reg with tkValid := true } }) (fun t => counted t 1 false
    && decide (t.reg.txbuf = [0x77, 0x07, 0x08, 0x41, 0x01, 0x00, 0x24, 0x67])) = true := by decide +kernel
/-- V43: two transactions, the second of 85 bytes. -/
theorem test_checkmac : leaves (exec (.checkmac 1 (run 0x50 32)) (bench [rngReply, okReply])) (fun t => counted t 2 false
    && decide (t.ctl.ending = .success .unit) && decide (t.reg.txbuf.length = 85)
    && decide (t.reg.txbuf.take 6 = [0x77, 0x54, 0x28, 0x01, 0x01, 0x00])) = true := by decide +kernel
/-- V44: a miscompare is `SeFailure`. -/
theorem test_pairUnlock : leaves (exec .pairUnlock (bench [rngReply, [0x04, 0x01, 0x00, 0xC3]])) (fun t => counted t 2 false
    && decide (t.ctl.ending = .error .seFailure)) = true := by decide +kernel
/-- V45 for one block: five transactions, the last `Read(9, 0)`. -/
theorem test_encryptedRead : leaves (exec (.encryptedRead 9 3 (zeros 32) 31) (bench [rngReply, okReply, rngReply, okReply, rngReply]))
    (fun t => counted t 5 false && decide (t.reg.txbuf = [0x77, 0x07, 0x02, 0x82, 0x48, 0x00, 0x0A, 0x44])
      && (match t.ctl.ending with
        | .success (.bytes b) => decide (b.length = 31)
        | _ => false)) = true := by decide +kernel
/-- V46: five transactions, the last a `Write` of 64 bytes to slot 5. -/
theorem test_encryptedWrite : leaves (exec (.encryptedWrite 5 3 (zeros 32) (zeros 32))
      (bench [rngReply, okReply, rngReply, okReply, okReply])) (fun t => counted t 5 false
    && decide (t.ctl.ending = .success .unit) && decide (t.reg.txbuf.take 6 = [0x77, 0x47, 0x12, 0xC2, 0x28, 0x00])) = true := by
  decide +kernel
/-- V47: no keyed hash for the plain key, one for key 4. -/
theorem test_mixin : leaves (exec (.mixin 0 (run 0x30 32)) (bench [rngReply, okReply])) (fun t => counted t 2 false) = true
    ∧ leaves (exec (.mixin 4 (run 0x30 32)) (bench [rngReply, okReply, okReply, rngReply])) (fun t => counted t 4 false
      && decide (t.reg.txbuf.take 8 = [0x77, 0x27, 0x47, 0xC2, 0x20, 0x00, 0x30, 0x31])) = true := by decide +kernel
/-- V48. -/
theorem test_stretch : leaves (exec (.stretch (run 0x30 32) 0) (bench [])) (fun t => counted t 0 false
      && decide (t.ctl.ending = .success (.bytes (run 0x30 32)))) = true
    ∧ leaves (exec (.stretch (run 0x30 32) 1) (bench [rngReply, okReply, okReply, rngReply])) (fun t => counted t 4 false
      && decide (t.ctl.ending = .success (.bytes (run 0xA0 32)))) = true := by decide +kernel
/-- A line that fails at the first pulse (R138). -/
theorem test_authReads : leaves (exec (.authReadSlot 5) (scripted [true] [])) (fun t => counted t 1 false
      && decide (t.ctl.ending = .error .seFailure)) = true
    ∧ leaves (exec .authReadCounter (scripted [true] [])) (fun t => counted t 1 false
      && decide (t.ctl.ending = .error .seFailure)) = true := by decide +kernel
/-- V51 for two increments, then a chip whose watchdog expired. -/
theorem test_addCounter : leaves (exec (.addCounter 2) (bench [rngReply, okReply, [0x07, 0x0C, 0, 0, 0, 0x09, 0x6D],
      [0x07, 0x0D, 0, 0, 0, 0x36, 0xED], watchdogReply])) (fun t => counted t 5 false
    && decide (t.ctl.ending = .error .seFailure)) = true := by decide +kernel

/-- V54: a wrong magic value, a PIN length of 33, a new PIN length of 2^31; before any bus traffic. -/
theorem test_setup_refused : leaves (exec (.setup (zeros 276)) (bench [])) (fun t => counted t 0 false
      && decide (t.ctl.ending = .error .badRequest) && decide (t.wire.trace = [])) = true
    ∧ ended (exec (.setup (plainRecord 0 0 33 0 0)) (bench [])) (.error .badRequest) = true
    ∧ ended (exec (.setup (plainRecord 0 0 0 0 0x80000000)) (bench [])) (.error .badRequest) = true := by decide +kernel
/-- V54: an old PIN length of 32 is accepted; the line then fails at the warm-up, which is a brick (R163). -/
theorem test_setup_brick : leaves (exec (.setup (plainRecord 0 0 0 32 0)) (scripted [true] [])) (fun t => counted t 1 false
    && decide (t.ctl.ending = .error .brick)) = true := by decide +kernel
theorem test_record_refused : ended (exec (.login (zeros 276)) (bench [])) (.error .badRequest) = true
    ∧ ended (exec (.change (zeros 276)) (bench [])) (.error .badRequest) = true
    ∧ ended (exec (.fetchSecret (zeros 276)) (bench [])) (.error .badRequest) = true := by decide +kernel
/-- V63, V69: no delay drawn, the chip put to sleep; V64, V65: the delay drawn first. -/
theorem test_seDispatch : leaves (exec (.seDispatch 1 1025 0) (bench [])) (fun t => counted t 0 false
      && decide (t.ctl.ending = .success (.code (-2))) && decide (t.env.delay.taken = 0) && decide (onLine t = some [0xCC])
      && decide (t.reg.lstate = .asleep)) = true
    ∧ leaves (exec (.seDispatch 7 276 0) (bench [])) (fun t => counted t 0 false
      && decide (t.ctl.ending = .success (.code (-2))) && decide (t.env.delay.taken = 1)) = true
    ∧ ended (exec (.seDispatch 1 276 4) (bench [])) (.success (.code (-2))) = true
    ∧ ended (exec (.seDispatch 1 275 0) (bench [])) (.success (.code (-2))) = true := by decide +kernel
/-- V66. -/
theorem test_readSeSlot : ended (exec (.cmdReadSeSlot 32 16) (bench [])) (.error .badRequest) = true
    ∧ ended (exec (.cmdReadSeSlot 31 5) (bench [])) (.error .badRequest) = true
    ∧ leaves (exec (.cmdReadSeSlot 32 5) (bench [rngReply, okReply, [0x23, 0x0C] ++ zeros 31 ++ [0xB9, 0xCC]]))
      (fun t => counted t 3 false && decide (t.host.buf = 0x0C :: zeros 31)) = true := by decide +kernel
/-- V67. -/
theorem test_getRandomBytes : leaves (exec (.cmdGetRandomBytes 16) (bench [])) (fun t => counted t 0 false
      && decide (t.host.buf.length = 16) && decide (t.env.rand.taken = 48)) = true
    ∧ leaves (exec (.seDispatch 3 0 9) { bench [] with host := { buf := [7], pending := [] } }) (fun t =>
      decide (t.ctl.ending = .success (.code 0)) && decide (t.host.buf = [7])) = true := by decide +kernel
/-- V68: an accepted pairing, and a dead line. -/
theorem test_isBricked : ended (exec .cmdIsBricked (bench [rngReply, okReply])) (.success .unit) = true
    ∧ leaves (exec .cmdIsBricked (scripted [true] [])) (fun t => counted t 1 false
      && decide (t.ctl.ending = .error .brick)) = true := by decide +kernel

/-! ### Witnesses: for every statement with hypotheses, a concrete case that meets them all together

`OperationEnds`, `ResetInvariant`, `ResetValues`, `DecodedWords`, `Crc16`, `DeserializeAnswers` and `ChipReset`'s first
clauses have none to meet. -/

/-- A booted machine on which everything is as after reset. -/
def idle0 : State := scripted [] []

/-- Draws of ENTROPY after reset. -/
def drawn (n : Nat) : Bytes := idle0.face.randoms n

theorem retries : 0 < defaults.retryMax := by decide
theorem pulses : defaults.pulse0 ≠ defaults.pulse1 := by decide

/-- A state that a step gives, when one is given at all. -/
theorem next_of_leaves {o : Host.Outcome State Fault Refusal} {p : State → Bool} (h : leaves o p = true) :
    ∃ t, o = .next t ∧ p t = true := by
  cases o with
  | next t => exact ⟨t, rfl, h⟩
  | fault => cases h
  | refused => cases h

theorem witness_DecodeEncode : (Instr.transact 0x24 0x01 0x1234 [9] (.data 253) .sleep).wf = true
    ∧ (Instr.send [0]).wf = true := by decide

/-- A machine whose WIRE lets everything through to a chip with these access rules and cells. -/
def honest (policy : List Config.AccessRule) (slots : List Host.Cell) : State :=
  { scripted (List.replicate 600 false) [] with
    wire := { (scripted [] []).wire with
      outMoves := { script := List.replicate 4 .pass, taken := 0 }, inMoves := { script := [.pass], taken := 0 } }
    chip := { Chip.initial with
      policy := policy, slots := slots, watchdog := { script := [.quiet], taken := 0 }, coin := { script := [false], taken := 0 }
      lapse := { script := List.replicate 3 false, taken := 0 } } }

/-- A booted machine with these actions pending. -/
def pendingOn (l : List HostAction) : State := idle0.withPending l

theorem witness_StepRunsDecoded :
    ((pendingOn [.call [0x04, 0xA0]]).ctl.booted = true ∧ (pendingOn [.call [0x04, 0xA0]]).host.pending = .call [0x04, 0xA0] :: []
      ∧ decode [0x04, 0xA0] = .ok .wake)
    ∧ decode [0x01, 0x15] = .error (.unknownHead 0x1501)
    ∧ (pendingOn []).host.pending = [] ∧ (pendingOn [.setBuf [1]]).host.pending = .setBuf [1] :: []
    ∧ (pendingOn [.stray [0x7D]]).host.pending = .stray [0x7D] :: []
    ∧ (pendingOn [.forge [0x7D]]).host.pending = .forge [0x7D] :: []
    ∧ (pendingOn [.watchdog]).host.pending = .watchdog :: [] := by
  refine ⟨⟨rfl, rfl, ?_⟩, ?_, rfl, rfl, rfl, rfl, rfl⟩ <;> decide +kernel

/-- Power is lost before the first low pulse, and after one: the wake then succeeds. -/
theorem witness_StepRunsDecoded_cut (n : Nat) (h : n = 0 ∨ n = 1) :
    let s : State := { scripted (List.replicate n false) [] with host := { buf := [], pending := [.cut [0x04, 0xA0] n] } }
    s.ctl.booted = true ∧ s.host.pending = .cut [0x04, 0xA0] n :: [] ∧ decode [0x04, 0xA0] = .ok .wake
    ∧ ∃ t, exec .wake ((s.withPending []).dyingAfter n) = .next t
      ∧ t.ctl.ending = (if n = 0 then .error (.busTimeout .tx) else .success .unit) := by
  rcases h with rfl | rfl <;> exact ⟨rfl, rfl, by decide +kernel,
    let ⟨t, h, hp⟩ := next_of_leaves (p := fun t => decide (t.ctl.ending = _)) (by decide +kernel)
    ⟨t, h, of_decide_eq_true hp⟩⟩

/-- CHIP hears what WIRE forges, a sleep token too; its watchdog puts it to sleep, and then it has no pairing (R59, R74,
R214). -/
theorem test_forge : leaves (step { honest [] [] with
      host := { buf := [], pending := [.forge (serializeBytes defaults [0xCC])] }
      chip := { (honest [] []).chip with power := .awake } }) (fun t => decide (t.chip.power = .asleep)) = true
    ∧ leaves (step { honest [] [] with
      host := { buf := [], pending := [.watchdog] }
      chip := { (honest [] []).chip with power := .awake, paired := true, tempKeyValid := true } })
      (fun t => decide (t.chip.power = .asleep) && !t.chip.paired && !t.chip.tempKeyValid) = true := by decide +kernel

/-- Only a TempKey into which the slot's key was folded proves knowledge of it (R67); the slot that pairs is provisioned
(R220). -/
theorem test_chip_rules : (Chip.initial.ruleAt (p2Addr defaults 9 0)).read = .encrypted (some 3)
    ∧ (Chip.initial.ruleAt (p2Addr defaults 3 0)).write = .encrypted (some 3)
    ∧ ({ Chip.initial with tempKeyValid := true } : Chip).proves (some 3) = false
    ∧ ({ Chip.initial with tempKeyValid := true, folded := some 3 } : Chip).proves (some 3) = true
    ∧ Chip.initial.keyOf defaults defaults.slot.pairing = defaults.rom.pairingSecret := by
  refine ⟨rfl, rfl, by decide, by decide, initial_pairing⟩

theorem witness_ColdReset : (pendingOn [.coldReset]).ctl.booted = true
    ∧ (pendingOn [.coldReset]).host.pending = .coldReset :: [] := ⟨rfl, rfl⟩

/-- A machine right after a cold reset on a working line. -/
def coldQuiet : State := { scripted (List.replicate 9 false) [] with ctl := { booted := false, ending := .none } }

theorem witness_BootStep : coldQuiet.ctl.booted = false ∧ coldQuiet.face.quiet 9 :=
  ⟨rfl, quiet_of_script (rest := []) rfl⟩

theorem witness_ParametersKept : ∃ t, exec (.serialize 0xA5) idle0 = .next t := ⟨_, rfl⟩

theorem witness_ChipKept : ∃ t, exec .wake (bench []) = .next t ∧ memWf (bench []).chip.slots = true :=
  let ⟨t, h, _⟩ := next_of_leaves (o := exec .wake (bench [])) (p := fun _ => true) (by decide +kernel)
  ⟨t, h, initial_memWf⟩

theorem witness_StepKeepsInvariant : (honest [] []).inv = true ∧ step (honest [] []) = .next (honest [] []) :=
  ⟨by decide +kernel, rfl⟩

/-- A rule that lets block 0 of slot 5 be written in the clear. -/
def openRule : Config.AccessRule := { addr := p2Addr defaults 5 0, read := .clear, write := .clear, needsPairing := false }

theorem honest_quiet (policy : List Config.AccessRule) (slots : List Host.Cell) (n : Nat) (hn : n ≤ 600) :
    (honest policy slots).face.quiet n :=
  quiet_mono (n := 600) (quiet_of_script (rest := []) (by rw [List.append_nil]; rfl)) hn

theorem honest_passes (policy : List Config.AccessRule) (slots : List Host.Cell) :
    (honest policy slots).wirePasses (3 + (promptBytes (honest policy slots).cfg).length) := ⟨rfl, rfl⟩

theorem inverted_ne (v : Bytes) (h : v.length = 32) : v.map (fun x => ~~~x) ≠ v := by
  intro e
  cases v with
  | nil => cases h
  | cons x v =>
    have := congrArg (fun y : Byte => y.getLsbD 0) (List.cons.inj e).1
    simp at this

/-- A block that is written under TempKey, whichever it is. -/
def macRule : Config.AccessRule := { openRule with write := .encrypted none }

/-- The same with a TempKey on the chip. -/
def keyed : State := { honest [macRule] [] with chip := { (honest [macRule] []).chip with tempKeyValid := true } }

/-- The MAC that a `Write` of these 32 bytes calls for there. -/
def rightMac (data : Bytes) : Bytes :=
  sha256 (writeMacMsg keyed.chip.tempKey (p2Addr defaults 5 0) (xorBytes data keyed.chip.tempKey))

/-- A block that admits the `Write` and one without a rule; and under TempKey the right MAC and another, and a chip that
holds no TempKey. -/
theorem witness_HonestWrite :
    let s := honest [openRule] []
    ((s.cfg.wf = true ∧ 0 < s.cfg.retryMax ∧ memWf s.chip.slots = true ∧ (zeros 32).length = 32
        ∧ s.chip.selfTestFailed = false)
      ∧ (s.chip.pairingMet (s.chip.ruleAt (p2Addr s.cfg 5 0)) = true ∧ (s.chip.ruleAt (p2Addr s.cfg 5 0)).write = .clear
        ∧ s.undisturbed 32 ⟨s.cfg.op.write, s.cfg.p1.write32, p2Addr s.cfg 5 0, zeros 32⟩)
      ∧ ¬ (s.chip.pairingMet (s.chip.ruleAt (p2Addr s.cfg 6 0)) = true ∧ (s.chip.ruleAt (p2Addr s.cfg 6 0)).write = .clear)
        ∧ s.undisturbed 32 ⟨s.cfg.op.write, s.cfg.p1.write32, p2Addr s.cfg 6 0, zeros 32⟩) := by
  refine ⟨⟨by decide +kernel, by decide, by decide, by decide, rfl⟩,
    ⟨by decide, by decide, honest_quiet _ _ _ (by decide), honest_passes _ _, rfl, by decide, by decide, by decide, ?_⟩,
    by decide, honest_quiet _ _ _ (by decide), honest_passes _ _, rfl, by decide, by decide, by decide, ?_⟩ <;> decide +kernel

theorem witness_HonestWrite_mac (mac : Bytes) :
    (keyed.cfg.wf = true ∧ 0 < keyed.cfg.retryMax ∧ memWf keyed.chip.slots = true ∧ (zeros 32).length = 32
      ∧ keyed.chip.selfTestFailed = false ∧ keyed.cfg.p1.write32Enc ≠ keyed.cfg.p1.write32 ∧ keyed.chip.tempKey.length = 32)
    ∧ keyed.undisturbed 64 ⟨keyed.cfg.op.write, keyed.cfg.p1.write32Enc, p2Addr keyed.cfg 5 0, zeros 32 ++ mac⟩
    ∧ keyed.chip.writesUnder (p2Addr keyed.cfg 5 0) = true
    ∧ (rightMac (zeros 32)).length = 32 ∧ ((rightMac (zeros 32)).map (fun x => ~~~x)).length = 32
    ∧ (rightMac (zeros 32)).map (fun x => ~~~x) ≠ rightMac (zeros 32)
    ∧ (honest [macRule] []).chip.writesUnder (p2Addr defaults 5 0) = false
      ∧ (honest [macRule] []).undisturbed 64 ⟨defaults.op.write, defaults.p1.write32Enc, p2Addr defaults 5 0, zeros 32 ++ mac⟩ := by
  have coin (ch : Chip) (hs : ch.selfTestFailed = false) (hc : ch.drawCoin.1 = false) : (ch.perform defaults ⟨defaults.op.write,
      defaults.p1.write32Enc, p2Addr defaults 5 0, zeros 32 ++ mac⟩).2.drawCoin.1 = false := by
    unfold Chip.perform
    rw [if_neg (fun h => by rw [hs] at h; exact absurd h.1 (by decide)),
      if_neg (fun h => absurd h.1 (by decide : defaults.op.write ≠ defaults.op.read)),
      if_neg (fun h => absurd h.2 (by decide : defaults.p1.write32Enc ≠ defaults.p1.write32)), if_pos ⟨rfl, rfl⟩]
    unfold Chip.doWriteMac
    split
    · dsimp only
      split <;> exact hc
    · exact hc
  refine ⟨⟨by decide +kernel, by decide, by decide, by decide, rfl, by decide, by decide⟩,
    ⟨honest_quiet [macRule] [] _ (by decide), honest_passes [macRule] [], rfl, by decide, by decide, by decide,
      coin _ rfl (by decide)⟩, by decide, sha256_length _, (List.length_map _).trans (sha256_length _), inverted_ne _ (sha256_length _),
    by decide, ⟨honest_quiet _ _ _ (by decide), honest_passes _ _, rfl, by decide, by decide, by decide, coin _ rfl (by decide)⟩⟩

theorem witness_HonestNonce : let s := honest [] []
    s.cfg.wf = true ∧ 0 < s.cfg.retryMax ∧ (run 0 20).length = 20 ∧ s.chip.selfTestFailed = false
    ∧ s.undisturbed 20 ⟨s.cfg.op.nonce, s.cfg.p1.nonce, 0, run 0 20⟩ := by
  refine ⟨by decide +kernel, by decide, by decide, rfl, honest_quiet _ _ _ (by decide), honest_passes _ _, rfl, by decide,
    by decide, ?_⟩
  decide +kernel

/-- A chip with one attempt left and one with none. -/
theorem witness_HonestIncrement (slots : List Host.Cell) (spent : Bool)
    (h : slots = [(blockBase (p2Addr defaults 6 0), 1)] ∧ spent = false ∨ slots = [] ∧ spent = true) :
    let s := honest [] slots
    s.cfg.wf = true ∧ 0 < s.cfg.retryMax ∧ s.chip.selfTestFailed = false ∧ s.chip.budgetSpent s.cfg = spent
    ∧ (s.cfg.op.counter ≠ s.cfg.op.macGen ∧ s.cfg.p1.counterRead ≠ s.cfg.p1.counterIncr
      ∧ s.undisturbed 0 ⟨s.cfg.op.counter, s.cfg.p1.counterIncr, s.cfg.counterId, []⟩)
    ∧ s.cfg.op.keyedHash ∉ [s.cfg.op.read, s.cfg.op.write, s.cfg.op.nonce, s.cfg.op.genDig, s.cfg.op.checkMac,
        s.cfg.op.macGen, s.cfg.op.counter, s.cfg.op.selfTest, s.cfg.op.lock, s.cfg.op.info]
      ∧ s.undisturbed 0 ⟨s.cfg.op.keyedHash, s.cfg.p1.keyedHashStart, s.cfg.slot.pinAttempt, []⟩ := by
  rcases h with ⟨rfl, rfl⟩ | ⟨rfl, rfl⟩ <;>
  · refine ⟨by decide +kernel, by decide, rfl, by decide +kernel, ⟨by decide, by decide, honest_quiet _ _ _ (by decide),
      honest_passes _ _, rfl, by decide, by decide, by decide, ?_⟩, by decide, honest_quiet _ _ _ (by decide), honest_passes _ _,
      rfl, by decide, by decide, by decide, ?_⟩ <;> decide +kernel

/-- A form that stores, all four messages let through, and a byte outside its block. -/
theorem witness_MemoryFrame : let s := honest [openRule] []
    s.inv = true ∧ s.cfg.op.write ≠ s.cfg.op.macGen ∧ s.cfg.op.write ≠ s.cfg.op.keyedHash
    ∧ (∃ t, exec (.write 5 0 (zeros 32) .idle) s = .next t ∧ passedAll s t) ∧ ¬ storesTo s.cfg (.write 5 0 (zeros 32) .idle) 0 := by
  refine ⟨by decide +kernel, by decide, by decide, ?_, ?_⟩
  · obtain ⟨t, h, hp⟩ := next_of_leaves (o := exec (.write 5 0 (zeros 32) .idle) (honest [openRule] []))
      (p := fun t => decide (t.wire.outMoves = { script := [], taken := 0 })) (by decide +kernel)
    exact ⟨t, h, 4, rfl, (of_decide_eq_true hp).trans rfl⟩
  · exact fun h => absurd h.1 (by decide)

/-! #### BitBus and FrameCodec -/

theorem witness_Serialize : idle0.cfg.pulse0 ≠ idle0.cfg.pulse1
    ∧ exec (.serialize 0xA5) idle0 = exec (.serialize 0xA5) idle0 := ⟨pulses, rfl⟩

theorem witness_DeserializeRoundTrip : idle0.cfg.pulse0 ≠ idle0.cfg.pulse1
    ∧ (∀ x ∈ ([0x00, 0xFF] : List Symbol), isPulse idle0.cfg x = false) ∧ (List.replicate 7 (0x7D : Symbol)).length < 8 := by
  decide

theorem witness_Send : (scripted (List.replicate 8 false) []).face.quiet (8 * ([0xCC] : Bytes).length)
    ∧ (0 < 8 * ([0xCC] : Bytes).length ∧ (scripted [true] []).face.stallsAfter 0)
    ∧ (7 < 8 * ([0xCC] : Bytes).length ∧ (scripted (List.replicate 7 false ++ [true]) []).face.stallsAfter 7) :=
  ⟨scripted_quiet 8 [] [], ⟨by decide, scripted_stalls 0 []⟩, ⟨by decide, scripted_stalls 7 []⟩⟩

theorem witness_Receive : (scripted [true] []).wire.inFlight = []
    ∧ (0 < 8 * (promptBytes (scripted [true] []).cfg).length ∧ (scripted [true] []).face.stallsAfter 0)
    ∧ (7 < 8 * (promptBytes defaults).length ∧ (scripted (List.replicate 7 false ++ [true]) []).face.stallsAfter 7)
    ∧ (scripted (List.replicate 8 false) [[0x00]]).face.quiet (8 * (promptBytes defaults).length)
    ∧ ([0x00] : List Symbol) ≠ [] ∧ (scripted (List.replicate 8 false) [[0x00]]).face.hears [[0x00]]
    ∧ (scripted (List.replicate 8 false) [[]]).face.hears [[]] :=
  ⟨rfl, ⟨by decide, scripted_stalls 0 []⟩, ⟨by decide, scripted_stalls 7 []⟩, scripted_quiet 8 [] _, by decide,
    scripted_hears _ _, scripted_hears _ _⟩

theorem witness_WakeIdleSleep : (scripted [false] []).face.quiet 1 ∧ (scripted [true] []).face.stallsAfter 0
    ∧ (scripted (List.replicate 8 false) []).face.quiet 8 ∧ (scripted (List.replicate 7 false ++ [true]) []).face.stallsAfter 7 :=
  ⟨scripted_quiet 1 [] [], scripted_stalls 0 [], scripted_quiet 8 [] [], scripted_stalls 7 []⟩

theorem witness_EncodeCommand : (zeros 248).length ≤ idle0.cfg.maxDataLen ∧ idle0.cfg.maxDataLen < (zeros 249).length := by
  decide +kernel

theorem witness_FrameRoundTrip : (zeros 248).length ≤ idle0.cfg.maxDataLen ∧ idle0.cfg.maxDataLen ≤ 248
    ∧ 1 ≤ (zeros 1).length ∧ (zeros 252).length ≤ 252 := by decide +kernel

/-- Each check of `decode_response` at its edge: three bytes; a count one off, with a status and without; a frame one byte
short; a wrong CRC; the right one. -/
theorem witness_DecodeResponse : ([4, 0, 3] : Bytes).length < 4
    ∧ (4 ≤ okReply.length ∧ (okReply.getD 0 0).toNat ≠ 2 + 3 ∧ ¬ ((okReply.getD 0 0).toNat = 4 ∧ okReply.getD 1 0 ≠ 0)
      ∧ (watchdogReply.getD 0 0).toNat = 4 ∧ watchdogReply.getD 1 0 ≠ 0)
    ∧ (4 ≤ ([5, 0, 0, 0] : Bytes).length ∧ (([5, 0, 0, 0] : Bytes).getD 0 0).toNat = 2 + 3 ∧ ([5, 0, 0, 0] : Bytes).length < 2 + 3)
    ∧ (1 + 3 ≤ okReply.length ∧ slice okReply (1 + 1) 2 = u16le (crcBytes 0x8005 0 (slice okReply 0 (1 + 1)))
      ∧ slice [4, 1, 0, 0] (1 + 1) 2 ≠ u16le (crcBytes 0x8005 0 (slice [4, 1, 0, 0] 0 (1 + 1)))) := by decide +kernel

/-! #### Transactions -/

/-- A `CounterRead` that succeeds at the third attempt. -/
def slowRead : Exchange := ⟨0x24, 0x00, 0, [], .data 4, .sleep, [[], okReply], [1, 2, 3, 4]⟩

theorem slowRead_completes : AllComplete defaults [slowRead] := by
  refine completes_cons ⟨by decide, ⟨by decide, by decide, by decide⟩, ?_⟩ completes_nil
  intro raw h
  simp only [slowRead, List.mem_cons, List.not_mem_nil, or_false] at h
  rcases h with rfl | rfl
  · exact ⟨by decide, .inl (by decide)⟩
  · exact ⟨by decide, .inr (.inl (by decide))⟩

theorem witness_TransactCompletes : (granted [slowRead]).cfg.pulse0 ≠ (granted [slowRead]).cfg.pulse1
    ∧ slowRead.data.length ≤ (granted [slowRead]).cfg.maxDataLen ∧ (granted [slowRead]).face.grants [slowRead] :=
  ⟨pulses, by decide, granted_grants slowRead_completes⟩

/-- Prompts that stall at their first symbol and at their last, silence, and a reply of the wrong length. -/
def lateRead : List FailedAttempt := [.stalled 0, .heard [], .stalled 7, .heard okReply]

theorem lateRead_fails : ∀ a ∈ lateRead, a.fails defaults (.data 4) := by
  intro a h
  simp only [lateRead, List.mem_cons, List.not_mem_nil, or_false] at h
  rcases h with rfl | rfl | rfl | rfl
  · exact (by decide : 0 < 8 * (promptBytes defaults).length)
  · exact ⟨by decide, .inl (by decide)⟩
  · exact (by decide : 7 < 8 * (promptBytes defaults).length)
  · exact ⟨by decide, .inr (.inl (by decide))⟩

theorem scripted_stallsAs (l : List Bool) (b : List (List Symbol)) : (scripted l b).face.stallsAs l := by
  have h := (ahead_script Config.freeStall l [] 0 none).1
  rw [List.append_nil] at h
  exact h

theorem witness_TransactCompletes_stalls :
    let s := scripted (slowRead.stalls defaults lateRead)
      (lateRead.flatMap (FailedAttempt.bursts defaults) ++ [serializeBytes defaults (slowRead.reply defaults)])
    s.cfg.pulse0 ≠ s.cfg.pulse1 ∧ slowRead.data.length ≤ s.cfg.maxDataLen ∧ lateRead.length < s.cfg.retryMax
    ∧ expectAccepts slowRead.expect slowRead.payload ∧ (∀ a ∈ lateRead, a.fails s.cfg slowRead.expect)
    ∧ s.face.stallsAs (slowRead.stalls s.cfg lateRead)
    ∧ s.face.hears (lateRead.flatMap (FailedAttempt.bursts s.cfg) ++ [serializeBytes s.cfg (slowRead.reply s.cfg)]) :=
  ⟨pulses, by decide, by decide, ⟨rfl, by decide, by decide⟩, lateRead_fails, scripted_stallsAs _ _, scripted_hears _ _⟩

/-- A machine on which this many receive attempts end with the bursts given. -/
def heardOnly (n : Nat) (bursts : List Bytes) : State :=
  scripted (List.replicate (1 + 8 * (0 + 8) + 8 * n) false) (bursts.map (serializeBytes defaults))

theorem witness_TransactExhausted : let s := heardOnly 100 (List.replicate 100 [])
    s.cfg.pulse0 ≠ s.cfg.pulse1 ∧ ([] : Bytes).length ≤ s.cfg.maxDataLen ∧ (List.replicate 100 ([] : Bytes)).length = s.cfg.retryMax
    ∧ (∀ raw ∈ List.replicate 100 ([] : Bytes), raw.length ≤ Expect.want (.data 4) ∧ expectFails s.cfg (.data 4) raw)
    ∧ s.face.quiet (1 + 8 * (([] : Bytes).length + 8)
        + 8 * ((List.replicate 100 ([] : Bytes)).length * (promptBytes s.cfg).length))
    ∧ s.face.hears ((List.replicate 100 ([] : Bytes)).map (serializeBytes s.cfg)) := by
  refine ⟨pulses, by decide, List.length_replicate, fun raw h => ?_, ?_, scripted_hears _ _⟩
  · rw [(List.mem_replicate.mp h).2]
    exact ⟨by decide, .inl (by decide)⟩
  · rw [List.length_replicate]
    exact quiet_of_script (rest := []) (by rw [List.append_nil]; rfl)

/-- Twenty-five rounds of those failed attempts. -/
theorem witness_TransactExhausted_prompts : let failed := (List.replicate 25 lateRead).flatten
    let s := scripted (attemptStalls defaults 0 failed) (failed.flatMap (FailedAttempt.bursts defaults))
    s.cfg.pulse0 ≠ s.cfg.pulse1 ∧ ([] : Bytes).length ≤ s.cfg.maxDataLen ∧ failed.length = s.cfg.retryMax
    ∧ (∀ a ∈ failed, a.fails s.cfg (.data 4)) ∧ s.face.stallsAs (attemptStalls s.cfg ([] : Bytes).length failed)
    ∧ s.face.hears (failed.flatMap (FailedAttempt.bursts s.cfg)) := by
  refine ⟨pulses, by decide, by decide, fun a h => ?_, scripted_stallsAs _ _, scripted_hears _ _⟩
  obtain ⟨l, hl, ha⟩ := List.mem_flatten.mp h
  rw [(List.mem_replicate.mp hl).2] at ha
  exact lateRead_fails a ha

/-- A line that stalls at the low pulse, at the first symbol of the command and at its last; and one that stalls at the
first symbol of the close token and at its last. -/
theorem witness_TransactExhausted_stalls : ([] : Bytes).length ≤ defaults.maxDataLen
    ∧ (scripted [true] []).face.stallsAfter 0
    ∧ (∀ n, n = 0 ∨ n = 63 → n < 8 * (([] : Bytes).length + 8)
      ∧ (scripted (List.replicate (1 + n) false ++ [true]) []).face.stallsAfter (1 + n))
    ∧ ∀ n, n = 0 ∨ n = 7 →
      let s := scripted (List.replicate (slowRead.cost defaults - 8 + n) false ++ [true]) (slowRead.bursts defaults)
      s.cfg.pulse0 ≠ s.cfg.pulse1 ∧ slowRead.data.length ≤ s.cfg.maxDataLen ∧ slowRead.completes s.cfg
      ∧ s.face.hears (slowRead.bursts s.cfg) ∧ n < 8 ∧ s.face.stallsAfter (slowRead.cost s.cfg - 8 + n) :=
  ⟨by decide, scripted_stalls 0 [], fun n h => ⟨by rcases h with rfl | rfl <;> decide, scripted_stalls (1 + n) []⟩,
    fun n h => ⟨pulses, (by decide : ([] : Bytes).length ≤ defaults.maxDataLen), slowRead_completes _ (List.mem_singleton.mpr rfl), scripted_hears _ _,
      by rcases h with rfl | rfl <;> decide, scripted_stalls _ _⟩⟩

theorem witness_TransactChipError : let s := heardOnly 2 [[], statusFrame defaults 0x0F]
    s.cfg.pulse0 ≠ s.cfg.pulse1 ∧ ([] : Bytes).length ≤ s.cfg.maxDataLen ∧ ([[]] : List Bytes).length < s.cfg.retryMax
    ∧ (0x0F : Byte) ≠ 0 ∧ (Expect.data 2 = .status ∨ ∃ n, Expect.data 2 = .data n ∧ 2 ≤ n)
    ∧ (∀ raw ∈ ([[]] : List Bytes), raw.length ≤ Expect.want (.data 2) ∧ expectFails s.cfg (.data 2) raw)
    ∧ s.face.quiet (1 + 8 * (([] : Bytes).length + 8) + 8 * ((([[]] : List Bytes).length + 1) * (promptBytes s.cfg).length))
    ∧ s.face.hears ((([[]] : List Bytes) ++ [statusFrame s.cfg 0x0F]).map (serializeBytes s.cfg)) := by
  refine ⟨pulses, by decide, by decide, by decide, .inr ⟨2, rfl, le_refl 2⟩, fun raw h => ?_,
    quiet_of_script (rest := []) (by rw [List.append_nil]; rfl), scripted_hears _ _⟩
  rw [List.mem_singleton.mp h]
  exact ⟨by decide, .inl (by decide)⟩

/-- A command answered with bytes at the first attempt. -/
def dataCommand (op p1 : Byte) (p2 : Word16) (data : Bytes) (n : Nat) : Exchange :=
  ⟨op, p1, p2, data, .data n, .idle, [], zeros n⟩

theorem dataCommand_granted (op p1 : Byte) (p2 : Word16) (data : Bytes) (n : Nat) (h2 : 2 ≤ n) (hn : n ≤ 252) :
    (granted [dataCommand op p1 p2 data n]).face.grants [dataCommand op p1 p2 data n] :=
  granted_grants (completes_cons (completes_data retries _ _ _ _ _ n _ h2 hn List.length_replicate) completes_nil)

theorem witness_DataCommands : defaults.pulse0 ≠ defaults.pulse1
    ∧ (∃ s : State, s.cfg = defaults ∧ s.face.grants [dataCommand s.cfg.op.read s.cfg.p1.read32 (p2Addr s.cfg 5 0) [] 32])
    ∧ (∃ s : State, s.cfg = defaults ∧ s.face.grants [dataCommand s.cfg.op.nonce s.cfg.p1.nonce 0 (run 0 20) 32])
    ∧ (∃ s : State, s.cfg = defaults ∧ s.face.grants [dataCommand s.cfg.op.macGen s.cfg.p1.macGen 1 [] 32])
    ∧ (∃ s : State, s.cfg = defaults ∧ s.face.grants [dataCommand s.cfg.op.keyedHash s.cfg.p1.keyedHashEnd 32 (zeros 32) 32])
    ∧ (∃ s : State, s.cfg = defaults ∧ s.face.grants
        [(⟨s.cfg.op.info, s.cfg.p1.info, 0, [], .raw s.cfg.infoRawLen, .idle, [], zeros 4⟩ : Exchange)]) :=
  ⟨pulses, ⟨granted _, rfl, dataCommand_granted _ _ _ _ 32 (by decide) (by decide)⟩,
    ⟨granted _, rfl, dataCommand_granted _ _ _ _ 32 (by decide) (by decide)⟩,
    ⟨granted _, rfl, dataCommand_granted _ _ _ _ 32 (by decide) (by decide)⟩,
    ⟨granted _, rfl, dataCommand_granted _ _ _ _ 32 (by decide) (by decide)⟩,
    ⟨granted [⟨defaults.op.info, defaults.p1.info, 0, [], .raw defaults.infoRawLen, .idle, [], zeros 4⟩], rfl,
      granted_grants (completes_cons ⟨retries, ⟨rfl, by decide⟩, fun _ h => absurd h List.not_mem_nil⟩ completes_nil)⟩⟩

/-- A command accepted at the first attempt. -/
def statusCommand (op p1 : Byte) (p2 : Word16) (data : Bytes) : Exchange := ⟨op, p1, p2, data, .status, .sleep, [], [0]⟩

theorem statusCommand_granted (op p1 : Byte) (p2 : Word16) (data : Bytes) :
    ∃ s : State, s.cfg = defaults ∧ s.face.grants [statusCommand op p1 p2 data] :=
  ⟨granted _, rfl, granted_grants (completes_cons (completes_status retries _ _ _ _ _) completes_nil)⟩

theorem witness_StatusCommands : defaults.pulse0 ≠ defaults.pulse1
    ∧ (∃ s : State, s.cfg = defaults ∧ s.face.grants
        [statusCommand defaults.op.write defaults.p1.write32 (p2Addr defaults 5 0) (zeros 32)])
    ∧ (∃ s : State, s.cfg = defaults ∧ s.face.grants
        [statusCommand defaults.op.write defaults.p1.write32Enc (p2Addr defaults 5 0) (zeros 32 ++ zeros 32)])
    ∧ (∃ s : State, s.cfg = defaults ∧ s.face.grants [statusCommand defaults.op.genDig defaults.p1.genDigData 5 []])
    ∧ (∃ s : State, s.cfg = defaults ∧ s.face.grants [statusCommand defaults.op.genDig defaults.p1.genDigCounter 0 []])
    ∧ (∃ s : State, s.cfg = defaults ∧ s.face.grants [statusCommand defaults.op.checkMac defaults.p1.checkMac 1 (zeros 77)])
    ∧ (∃ s : State, s.cfg = defaults ∧ s.face.grants [statusCommand defaults.op.selfTest defaults.p1.selfTest 0 []])
    ∧ (∃ s : State, s.cfg = defaults ∧ s.face.grants [statusCommand defaults.op.lock 0x80 0 []]) :=
  ⟨pulses, statusCommand_granted _ _ _ _, statusCommand_granted _ _ _ _, statusCommand_granted _ _ _ _,
    statusCommand_granted _ _ _ _, statusCommand_granted _ _ _ _, statusCommand_granted _ _ _ _, statusCommand_granted _ _ _ _⟩

theorem witness_CounterCommands : defaults.pulse0 ≠ defaults.pulse1
    ∧ (granted [xCounterRead defaults 43]).face.grants [xCounterRead defaults 43]
    ∧ (granted [xCounterIncr defaults 0xFFFFFFFF]).face.grants [xCounterIncr defaults 0xFFFFFFFF] :=
  ⟨pulses, granted_grants (completes_cons (completes_incr (c := defaults) retries 43) completes_nil),
    granted_grants (completes_cons (completes_incr (c := defaults) retries 0xFFFFFFFF) completes_nil)⟩

theorem witness_KeyedHash : defaults.pulse0 ≠ defaults.pulse1 ∧ (granted (xKeyedHash defaults 4 (zeros 32) (zeros 32))).face.grants
    (xKeyedHash defaults 4 (zeros 32) (zeros 32)) := ⟨pulses, granted_grants (completes_keyedHash retries _ _ _ rfl)⟩

theorem witness_ChipReset : (scripted (List.replicate 9 false) []).face.quiet 9 := scripted_quiet 9 [] []


/-! #### SessionCrypto -/

/-- A machine whose environment grants exchanges that complete: its parameters are the standard's, its draws of ENTROPY
and its boot session those of reset. -/
theorem meets {P : State → Prop} {xs : List Exchange} (h : AllComplete defaults xs)
    (hp : ∀ s : State, s.cfg = defaults → (∀ n, s.face.randoms n = drawn n) → s.reg.bootSeed = State.reset.reg.bootSeed →
      s.face.grants xs → P s) : ∃ s, P s :=
  ⟨granted xs, hp _ rfl (fun _ => rfl) rfl (granted_grants h)⟩

theorem witness_PickNonce : ∃ s : State, s.cfg.pulse0 ≠ s.cfg.pulse1 ∧ s.face.grants [xNonce s.cfg (zeros 20) (zeros 32)] := by
  refine meets (xs := [xNonce defaults (zeros 20) (zeros 32)])
    (completes_cons (completes_data retries _ _ _ _ _ 32 (zeros 32) (by decide) (by decide) rfl) completes_nil)
    fun s hc _ _ hg => ?_
  rw [hc]
  exact ⟨pulses, hg⟩

theorem witness_Gendig :
    (∃ s : State, s.cfg.pulse0 ≠ s.cfg.pulse1 ∧ s.face.grants (xGendigSlot s.cfg 5 (s.face.randoms 20) (zeros 32)))
    ∧ (∃ s : State, s.cfg.pulse0 ≠ s.cfg.pulse1 ∧ s.face.grants (xGendigCounter s.cfg (s.face.randoms 20) (zeros 32))) := by
  constructor
  · refine meets (completes_gendigSlot retries 5 (drawn 20) (zeros 32) rfl) fun s hc hr _ hg => ?_
    rw [hc, hr]
    exact ⟨pulses, hg⟩
  · refine meets (completes_gendigCounter retries (drawn 20) (zeros 32) rfl) fun s hc hr _ hg => ?_
    rw [hc, hr]
    exact ⟨pulses, hg⟩

theorem witness_CtEqual : ([0, 1] : Bytes).length = ([0, 3] : Bytes).length ∧ ([] : Bytes).length = ([] : Bytes).length :=
  ⟨rfl, rfl⟩

theorem witness_IsCorrectTempkey : ∃ s : State, s.cfg.pulse0 ≠ s.cfg.pulse1 ∧ s.face.grants [xMacGen s.cfg (zeros 32)] := by
  refine meets (completes_macGen retries (zeros 32) rfl) fun s hc _ _ hg => ?_
  rw [hc]
  exact ⟨pulses, hg⟩

theorem witness_Checkmac :
    (∃ s : State, s.cfg.pulse0 ≠ s.cfg.pulse1 ∧ s.face.grants (xCheckmac s.cfg 3 (zeros 32) ((s.face.randoms 33).take 20)
      ((s.face.randoms 33).drop 20) (zeros 32)))
    ∧ (∃ s : State, s.cfg.pulse0 ≠ s.cfg.pulse1 ∧ s.face.grants (xCheckmac s.cfg s.cfg.slot.pairing s.cfg.rom.pairingSecret
      ((s.face.randoms 33).take 20) ((s.face.randoms 33).drop 20) (zeros 32))) := by
  constructor
  · refine meets (completes_checkmac retries 3 (zeros 32) ((drawn 33).take 20) ((drawn 33).drop 20) (zeros 32) rfl)
      fun s hc hr _ hg => ?_
    rw [hc, hr]
    exact ⟨pulses, hg⟩
  · refine meets (completes_checkmac retries defaults.slot.pairing defaults.rom.pairingSecret ((drawn 33).take 20)
      ((drawn 33).drop 20) (zeros 32) rfl) fun s hc hr _ hg => ?_
    rw [hc, hr]
    exact ⟨pulses, hg⟩

/-- One byte of one block, and 33 bytes of two. -/
theorem witness_EncryptedRead (n k : Nat) (h : n = 1 ∧ k = 1 ∨ n = 33 ∧ k = 2) :
    ∃ s : State, s.cfg.pulse0 ≠ s.cfg.pulse1 ∧ 1 ≤ n ∧ (List.replicate k zeroRead).length = blocksFor n
      ∧ s.face.grants (xEncryptedRead s.cfg 9 3 0 (s.face.randoms (53 * (List.replicate k zeroRead).length))
        (List.replicate k zeroRead)) := by
  refine meets (completes_encryptedRead retries 9 3 k 0 (drawn (53 * (List.replicate k zeroRead).length)))
    fun s hc hr _ hg => ?_
  rw [hc, hr]
  refine ⟨pulses, by omega, ?_, hg⟩
  rcases h with ⟨rfl, rfl⟩ | ⟨rfl, rfl⟩ <;> decide

/-- One block, and three. -/
theorem witness_EncryptedWrite (k : Nat) (h : k = 1 ∨ k = 3) :
    ∃ s : State, s.cfg.pulse0 ≠ s.cfg.pulse1 ∧ zeros (32 * k) ≠ []
      ∧ (zeros (32 * k)).length = 32 * (List.replicate k zeroWrite).length
      ∧ s.face.grants (xEncryptedWrite s.cfg 5 3 (zeros 32) 0 (zeros (32 * k))
        (s.face.randoms (53 * (List.replicate k zeroWrite).length)) (List.replicate k zeroWrite)) := by
  refine meets (completes_encryptedWrite retries 5 3 (zeros 32) k 0 (zeros (32 * k))
    (drawn (53 * (List.replicate k zeroWrite).length))) fun s hc hr _ hg => ?_
  rw [hc, hr]
  refine ⟨pulses, ?_, ?_, hg⟩ <;> rcases h with rfl | rfl <;> decide

theorem witness_Mixin :
    (∃ s : State, s.cfg.pulse0 ≠ s.cfg.pulse1 ∧ s.face.grants (xPair s.cfg (s.face.randoms 33) (zeros 32)))
    ∧ (∃ s : State, s.cfg.pulse0 ≠ s.cfg.pulse1 ∧ (4 : SlotId) ≠ s.cfg.slot.keyPlain
      ∧ s.face.grants (xPair s.cfg (s.face.randoms 33) (zeros 32) ++ xKeyedHash s.cfg 4 (zeros 32) (zeros 32))) := by
  constructor
  · refine meets (completes_pair retries (drawn 33) (zeros 32) rfl) fun s hc hr _ hg => ?_
    rw [hc, hr]
    exact ⟨pulses, hg⟩
  · refine meets (completes_append (completes_pair retries (drawn 33) (zeros 32) rfl)
      (completes_keyedHash retries 4 (zeros 32) (zeros 32) rfl)) fun s hc hr _ hg => ?_
    rw [hc, hr]
    exact ⟨pulses, by decide, hg⟩

/-- Any number of iterations, none included. -/
theorem witness_Stretch (n : Nat) : ∃ s : State, s.cfg.pulse0 ≠ s.cfg.pulse1
    ∧ s.face.grants (xStretch s.cfg (zeros 32) (s.face.randoms (33 * (List.replicate n zeroStretch).length))
      (List.replicate n zeroStretch)) := by
  refine meets (completes_stretch retries (zeros 32) n (drawn (33 * (List.replicate n zeroStretch).length)))
    fun s hc hr _ hg => ?_
  rw [hc, hr]
  exact ⟨pulses, hg⟩

/-- A MAC with every bit inverted. -/
def wrongMac (d : Bytes) : Bytes := (tempkeyMac defaults d).map (fun x => ~~~x)

theorem wrongMac_length (d : Bytes) : (wrongMac d).length = 32 := (List.length_map _).trans (tempkeyMac_length _ _)

theorem wrongMac_ne (d : Bytes) : wrongMac d ≠ tempkeyMac defaults d := inverted_ne _ (tempkeyMac_length _ _)

theorem witness_AuthReads :
    (∃ s : State, s.cfg.pulse0 ≠ s.cfg.pulse1
      ∧ s.face.grants (xAuthReadSlot s.cfg 5 (s.face.randoms 53) (zeros 32) (zeros 32) (zeros 32)))
    ∧ (∃ s : State, s.cfg.pulse0 ≠ s.cfg.pulse1
      ∧ s.face.grants (xAuthReadCounter s.cfg 12 (s.face.randoms 53) (zeros 32) (zeros 32))) := by
  constructor
  · refine meets (completes_authReadSlot retries 5 (drawn 53) (zeros 32) (zeros 32) (zeros 32) rfl rfl rfl)
      fun s hc hr _ hg => ?_
    rw [hc, hr]
    exact ⟨pulses, hg⟩
  · refine meets (completes_authReadCounter retries 12 (drawn 53) (zeros 32) (zeros 32) rfl rfl) fun s hc hr _ hg => ?_
    rw [hc, hr]
    exact ⟨pulses, hg⟩

/-- The same with another MAC. -/
theorem witness_AuthReads_wrong :
    (∃ (s : State) (mac : Bytes), s.cfg.pulse0 ≠ s.cfg.pulse1
      ∧ mac ≠ tempkeyMac s.cfg (roundDigest 5 (zeros 32) (s.face.randoms 53) (zeros 32))
      ∧ s.face.grants (withMac s.cfg (xAuthReadSlot s.cfg 5 (s.face.randoms 53) (zeros 32) (zeros 32) (zeros 32)) mac))
    ∧ (∃ (s : State) (mac : Bytes), s.cfg.pulse0 ≠ s.cfg.pulse1
      ∧ mac ≠ tempkeyMac s.cfg (gendigCounterDigest s.cfg 12 (slice (s.face.randoms 53) 33 20) (zeros 32))
      ∧ s.face.grants (withMac s.cfg (xAuthReadCounter s.cfg 12 (s.face.randoms 53) (zeros 32) (zeros 32)) mac)) := by
  constructor
  · refine meets (completes_withMac retries
      (completes_authReadSlot retries 5 (drawn 53) (zeros 32) (zeros 32) (zeros 32) rfl rfl rfl) _
      (wrongMac_length (roundDigest 5 (zeros 32) (drawn 53) (zeros 32)))) fun s hc hr _ hg =>
        ⟨wrongMac (roundDigest 5 (zeros 32) (drawn 53) (zeros 32)), ?_⟩
    rw [hc, hr]
    exact ⟨pulses, wrongMac_ne _, hg⟩
  · refine meets (completes_withMac retries
      (completes_authReadCounter retries 12 (drawn 53) (zeros 32) (zeros 32) rfl rfl) _
      (wrongMac_length (gendigCounterDigest defaults 12 (slice (drawn 53) 33 20) (zeros 32)))) fun s hc hr _ hg =>
      ⟨wrongMac (gendigCounterDigest defaults 12 (slice (drawn 53) 33 20) (zeros 32)), ?_⟩
    rw [hc, hr]
    exact ⟨pulses, wrongMac_ne _, hg⟩

/-- One increment, and two. -/
theorem witness_AddCounter (values : List Word32) (_ : values = [] ∨ values = [12]) : ∃ s : State,
    s.cfg.pulse0 ≠ s.cfg.pulse1 ∧ s.face.grants (xAddCounter s.cfg values 13 (s.face.randoms 53) (zeros 32) (zeros 32)) := by
  refine meets (completes_addCounter retries values 13 (drawn 53) (zeros 32) (zeros 32) rfl rfl) fun s hc hr _ hg => ?_
  rw [hc, hr]
  exact ⟨pulses, hg⟩

theorem witness_AddCounter_wrong (values : List Word32) (_ : values = [] ∨ values = [12]) : ∃ (s : State) (mac : Bytes),
    s.cfg.pulse0 ≠ s.cfg.pulse1
    ∧ mac ≠ tempkeyMac s.cfg (gendigCounterDigest s.cfg 13 (slice (s.face.randoms 53) 33 20) (zeros 32))
    ∧ s.face.grants (withMac s.cfg (xAddCounter s.cfg values 13 (s.face.randoms 53) (zeros 32) (zeros 32)) mac) := by
  refine meets (completes_withMac retries
    (completes_addCounter retries values 13 (drawn 53) (zeros 32) (zeros 32) rfl rfl) _
    (wrongMac_length (gendigCounterDigest defaults 13 (slice (drawn 53) 33 20) (zeros 32)))) fun s hc hr _ hg =>
      ⟨wrongMac (gendigCounterDigest defaults 13 (slice (drawn 53) 33 20) (zeros 32)), ?_⟩
  rw [hc, hr]
  exact ⟨pulses, wrongMac_ne _, hg⟩

theorem witness_SessionEnds : sessionOperation .pairUnlock = true ∧ sessionOperation (.addCounter 1) = true := ⟨rfl, rfl⟩

/-! #### PinEngine -/

/-- The smallest and the largest counter the arithmetic admits (V59). -/
theorem witness_Budget : defaults.quant = 32 ∧ defaults.maxAttempts = 21 ∧ (0 : Word32).toNat + defaults.maxAttempts + 32 < 2 ^ 32
    ∧ (0xFFFFFFCA : Word32).toNat + defaults.maxAttempts + 32 < 2 ^ 32 := by decide

/-- For each refusal a record that it stops: no magic value; an inverted signature; flags that forbid the operation; a
change with unknown flags, with no new PIN, with an old PIN on a blank record, with none on another; a login in a state
that is no state; a login without a PIN. -/
theorem witness_RecordRefused :
    ¬ recordValid defaults (zeros 276)
    ∧ (recordValid defaults (forgedRecord 0 0 4 0 0) ∧ ¬ recordVerifies defaults idle0.reg.bootSeed (forgedRecord 0 0 4 0 0))
    ∧ (recordValid defaults (goodRecord 0 0 4 0 0) ∧ recordVerifies defaults idle0.reg.bootSeed (goodRecord 0 0 4 0 0)
      ∧ hasFlag (recordFlags defaults (goodRecord 0 0 4 0 0)) defaults.flag.successful = false)
    ∧ (recordValid defaults (goodRecord 1 2 0 0 0) ∧ recordVerifies defaults idle0.reg.bootSeed (goodRecord 1 2 0 0 0)
      ∧ hasFlag (recordFlags defaults (goodRecord 1 2 0 0 0)) defaults.flag.successful = true
      ∧ badChangeFlags defaults (fieldWord (goodRecord 1 2 0 0 0) defaults.layout.changeFlags) = true)
    ∧ (recordValid defaults (goodRecord 1 1 0 0 0) ∧ recordVerifies defaults idle0.reg.bootSeed (goodRecord 1 1 0 0 0)
      ∧ hasFlag (recordFlags defaults (goodRecord 1 1 0 0 0)) defaults.flag.successful = true
      ∧ badChangeFlags defaults (fieldWord (goodRecord 1 1 0 0 0) defaults.layout.changeFlags) = false
      ∧ hasFlag (fieldWord (goodRecord 1 1 0 0 0) defaults.layout.changeFlags) defaults.flag.changeWalletPin = true
      ∧ fieldWord (goodRecord 1 1 0 0 0) defaults.layout.newPinLen = 0) := by
  unfold recordValid
  exact ⟨by decide +kernel, ⟨by decide +kernel, forgedRecord_refused _ _ _ _ _⟩,
    ⟨by decide +kernel, goodRecord_verifies _ _ _ _ _, by decide +kernel⟩,
    ⟨by decide +kernel, goodRecord_verifies _ _ _ _ _, by decide +kernel, by decide +kernel⟩,
    ⟨by decide +kernel, goodRecord_verifies _ _ _ _ _, by decide +kernel, by decide +kernel, by decide +kernel,
      by decide +kernel⟩⟩

theorem witness_RecordRefused_changes (r : Bytes) (h : r = goodRecord 3 1 0 1 1 ∨ r = goodRecord 1 1 0 0 1) :
    recordValid defaults r ∧ recordVerifies defaults idle0.reg.bootSeed r
    ∧ hasFlag (recordFlags defaults r) defaults.flag.successful = true
    ∧ badChangeFlags defaults (fieldWord r defaults.layout.changeFlags) = false
    ∧ hasFlag (fieldWord r defaults.layout.changeFlags) defaults.flag.changeWalletPin = true
    ∧ hasFlag (recordFlags defaults r) defaults.flag.isBlank ≠ decide (fieldWord r defaults.layout.oldPinLen = 0) := by
  unfold recordValid
  rcases h with rfl | rfl <;> exact ⟨by decide +kernel, goodRecord_verifies _ _ _ _ _, by decide +kernel, by decide +kernel,
    by decide +kernel, by decide +kernel⟩

theorem witness_RecordRefused_logins :
    (recordValid defaults (goodRecord 1 0 4 0 0) ∧ recordVerifies defaults idle0.reg.bootSeed (goodRecord 1 0 4 0 0)
      ∧ hasFlag (recordFlags defaults (goodRecord 1 0 4 0 0)) defaults.flag.isBlank
        ≠ hasFlag (recordFlags defaults (goodRecord 1 0 4 0 0)) defaults.flag.successful)
    ∧ (recordValid defaults (goodRecord 0 0 0 0 0) ∧ recordVerifies defaults idle0.reg.bootSeed (goodRecord 0 0 0 0 0)
      ∧ hasFlag (recordFlags defaults (goodRecord 0 0 0 0 0)) defaults.flag.isBlank = false
      ∧ hasFlag (recordFlags defaults (goodRecord 0 0 0 0 0)) defaults.flag.successful = false
      ∧ fieldWord (goodRecord 0 0 0 0 0) defaults.layout.pinLen = 0) := by
  unfold recordValid
  exact ⟨⟨by decide +kernel, goodRecord_verifies _ _ _ _ _, by decide +kernel⟩,
    ⟨by decide +kernel, goodRecord_verifies _ _ _ _ _, by decide +kernel, by decide +kernel, by decide +kernel⟩⟩

/-- The replies of a `setup`, all zeros, the counter at 12. -/
def zeroSetup : SetupReply := ⟨zeros 32, zeroCounters 12, zeros 32, zeros 32⟩

/-- A valid record, as far as its lengths go: at their bound. -/
theorem bound_valid : recordValid defaults (plainRecord 0 0 32 32 32) := by unfold recordValid; decide +kernel

theorem witness_SetupBlank : ∃ s : State, s.cfg.pulse0 ≠ s.cfg.pulse1 ∧ recordValid s.cfg (plainRecord 0 0 32 32 32)
    ∧ s.face.grants (xSetup s.cfg (s.face.randoms setupDraws) zeroSetup) := by
  refine meets (xs := xSetup defaults (drawn setupDraws) zeroSetup) (completes_append (completes_pair retries _ _ rfl)
    (completes_append (completes_counters retries _ _) (completes_append (completes_pair retries _ _ rfl)
      (completes_checkmac retries _ _ _ _ _ rfl)))) fun s hc hr _ hg => ?_
  rw [hc, hr]
  exact ⟨pulses, bound_valid, hg⟩

/-- A line that fails at the first pulse: the warm-up fails, whatever the record. -/
theorem witness_SetupBlank_brick : let s := scripted [true] []
    recordValid s.cfg (plainRecord 0 0 32 32 32)
    ∧ ∃ t, exec .pairUnlock { s with
        env := { s.env with rand := s.env.rand.after Config.freeRand 4 }
        reg := { s.reg with
          record := clearedRecord s.cfg (plainRecord 0 0 32 32 32) (s.face.randoms 4), recHeld := true } } = .next t
      ∧ t.ctl.ending = .error .seFailure :=
  ⟨bound_valid, let ⟨t, h, hp⟩ := next_of_leaves (p := fun t => decide (t.ctl.ending = .error .seFailure)) (by decide +kernel)
    ⟨t, h, of_decide_eq_true hp⟩⟩

/-- The machine on which `setup` finds a personalised chip: what grants its exchanges, and then the refusal. -/
def personal (xs : List Exchange) : State :=
  scripted (List.replicate ((xs.map (fun x => x.cost defaults)).sum + checkMacCost defaults) false)
    (xs.flatMap (fun x => x.bursts defaults) ++ [serializeBytes defaults (statusFrame defaults 1)])

theorem personal_meets {P : State → Prop} {xs : List Exchange} (h : AllComplete defaults xs)
    (hp : ∀ s : State, s.cfg = defaults → (∀ n, s.face.randoms n = drawn n) → s.face.grants xs →
      (s.face.exchanges xs).quiet (checkMacCost defaults) →
      (s.face.exchanges xs).hears [serializeBytes defaults (statusFrame defaults 1)] → P s) : ∃ s, P s := by
  have hq := (quiet_add (personal xs).face _ _).mp (quiet_of_script (rest := []) (by rw [List.append_nil]; rfl))
  have hh := (hears_append (personal xs).face _ _).mp (scripted_hears _ _)
  refine ⟨personal xs, hp _ rfl (fun _ => rfl) ⟨hq.1, hh.1, h⟩ (quiet_of_stall ?_ hq.2) (hears_of_moves ?_ hh.2)⟩
  · rw [exchanges_env]; rfl
  · rw [exchanges_inMoves]; rfl

theorem witness_SetupPersonal : ∃ s : State, s.cfg.pulse0 ≠ s.cfg.pulse1 ∧ recordValid s.cfg (plainRecord 0 0 32 32 32)
    ∧ (1 : Byte) ≠ 0 ∧ 0 < s.cfg.retryMax ∧ s.face.grants (xSetupStart s.cfg (s.face.randoms setupDraws) zeroSetup)
    ∧ (s.face.exchanges (xSetupStart s.cfg (s.face.randoms setupDraws) zeroSetup)).quiet
        (1 + 8 * (77 + 8) + 8 * (promptBytes s.cfg).length)
    ∧ (s.face.exchanges (xSetupStart s.cfg (s.face.randoms setupDraws) zeroSetup)).hears
        [serializeBytes s.cfg (statusFrame s.cfg 1)] := by
  refine personal_meets (xs := xSetupStart defaults (drawn setupDraws) zeroSetup)
    (completes_append (completes_pair retries _ _ rfl) (completes_append (completes_counters retries _ _)
      (completes_append (completes_pair retries _ _ rfl) (completes_cons
        (completes_data retries _ _ _ _ _ 32 _ (by decide) (by decide) rfl) completes_nil)))) fun s hc hr hg hq hh => ?_
  rw [hc, hr]
  exact ⟨pulses, bound_valid, by decide, retries, hg, hq, hh⟩

theorem witness_LoginBlank : recordValid defaults (goodRecord 3 0 0 0 0)
    ∧ recordVerifies defaults idle0.reg.bootSeed (goodRecord 3 0 0 0 0)
    ∧ hasFlag (recordFlags defaults (goodRecord 3 0 0 0 0)) defaults.flag.isBlank = true
    ∧ hasFlag (recordFlags defaults (goodRecord 3 0 0 0 0)) defaults.flag.successful = true := by
  unfold recordValid
  exact ⟨by decide +kernel, goodRecord_verifies _ _ _ _ _, by decide +kernel, by decide +kernel⟩

/-- A record ready for an attempt with a PIN of the length given. -/
theorem prepared (n : Word32) (hn : n = 1 ∨ n = 32) : recordValid defaults (goodRecord 0 0 n 0 0)
    ∧ recordVerifies defaults State.reset.reg.bootSeed (goodRecord 0 0 n 0 0)
    ∧ hasFlag (recordFlags defaults (goodRecord 0 0 n 0 0)) defaults.flag.isBlank = false
    ∧ hasFlag (recordFlags defaults (goodRecord 0 0 n 0 0)) defaults.flag.successful = false
    ∧ fieldWord (goodRecord 0 0 n 0 0) defaults.layout.pinLen ≠ 0 := by
  unfold recordValid
  rcases hn with rfl | rfl <;>
    exact ⟨by decide +kernel, goodRecord_verifies _ _ _ _ _, by decide +kernel, by decide +kernel, by decide +kernel⟩

theorem eight : defaults.kdfIter = (zeroAttempt 8).stretches.length := by decide

/-- The replies of a login that succeeds with the counter at 10, which takes one increment (V59). -/
def zeroLogin : LoginReply := ⟨zeroAttempt 8, zeros 32, zeros 32, 10, 11, zeroUpdates [], List.replicate 3 zeroRead⟩

theorem witness_LoginSucceeds (n : Word32) (hn : n = 1 ∨ n = 32) : ∃ s : State, s.cfg.pulse0 ≠ s.cfg.pulse1
    ∧ (recordValid s.cfg (goodRecord 0 0 n 0 0) ∧ recordVerifies s.cfg s.reg.bootSeed (goodRecord 0 0 n 0 0)
      ∧ hasFlag (recordFlags s.cfg (goodRecord 0 0 n 0 0)) s.cfg.flag.isBlank = false
      ∧ hasFlag (recordFlags s.cfg (goodRecord 0 0 n 0 0)) s.cfg.flag.successful = false
      ∧ fieldWord (goodRecord 0 0 n 0 0) s.cfg.layout.pinLen ≠ 0)
    ∧ s.cfg.kdfIter = zeroLogin.attempt.stretches.length ∧ s.cfg.slot.pinAttempt ≠ s.cfg.slot.keyPlain
    ∧ budgetFits s.cfg zeroLogin.counter = true ∧ bumpOf s.cfg zeroLogin.counter = zeroLogin.updates.increments.length + 1
    ∧ zeroLogin.seed.length = 3
    ∧ s.face.grants (xLogin s.cfg (recordPin s.cfg (goodRecord 0 0 n 0 0)) (s.face.randoms (loginDraws zeroLogin)) zeroLogin) := by
  refine meets (xs := xLogin defaults (recordPin defaults (goodRecord 0 0 n 0 0)) (drawn (loginDraws zeroLogin)) zeroLogin)
    (completes_append (completes_attempt retries _ _ _) (completes_append (completes_test retries _ _ (tempkeyMac_length _ _))
      (completes_append (completes_updates retries _ _ _ _ _) (completes_encryptedRead retries _ _ _ _ _))))
    fun s hc hr hb hg => ?_
  rw [hc, hr, hb]
  exact ⟨pulses, prepared n hn, by decide, by decide, by decide, by decide, rfl, hg⟩

/-- A login whose own counter read gives the largest number there is: the run stops. -/
theorem witness_OperationEnds_stops : ∃ s u : State, comesToUpdates s u (.login (goodRecord 0 0 1 0 0)) ∧ readsOverspent u := by
  let K := attemptDraws (zeroAttempt 8)
  let pin := recordPin defaults (goodRecord 0 0 1 0 0)
  refine meets (xs := (xPinAttempt defaults pin (drawn (K + 53)) (zeroAttempt 8)
      ++ xTestDigest defaults ((drawn (K + 53)).drop K) (zeros 32) (zeros 32)
        (testMac defaults (attemptDigest defaults pin (zeroAttempt 8)) ((drawn (K + 53)).drop K) (zeros 32)))
      ++ xAuthReadCounter defaults 0xFFFFFFFF ((drawn (K + 53 + 53)).drop (K + 53)) (zeros 32) (zeros 32))
    (completes_append (completes_append (completes_attempt retries _ _ _) (completes_test retries _ _ (tempkeyMac_length _ _)))
      (completes_authReadCounter retries _ _ _ _ rfl rfl)) fun s hc hr hb hg => ?_
  obtain ⟨p1, p2, p3, p4, p5⟩ := prepared 1 (.inl rfl)
  obtain ⟨u, k, hu, hf⟩ := pins_loginToUpdates (goodRecord 0 0 1 0 0) (zeros 32) (zeros 32) (zeroAttempt 8) s
    (by rw [hc]; exact pulses) (by rw [hc]; exact p1) (by rw [hc, hb]; exact p2) (by rw [hc]; exact p3) (by rw [hc]; exact p4)
    (by rw [hc]; exact p5) (by rw [hc]; exact eight) (by rw [hc]; decide) (drawn (K + 53)) (hr _).symm
    (by rw [hc]; exact ((grants_append _ _ _).mp hg).1)
  refine ⟨u, hu, ?_⟩
  have huc : u.cfg = defaults := (pin_state hf).1.trans hc
  have hg' := pin_grants (K + 53) k false (s.face.held.withRecord (goodRecord 0 0 1 0 0)) hg
  rw [hc] at hf
  rw [← hf] at hg'
  obtain ⟨t, ht, he⟩ := runOrStop_of_goes (v := .word32) (authReadCounter_goes 0xFFFFFFFF (zeros 32) (zeros 32) u
    (by rw [huc]; exact pulses) (by rw [huc, hf, pin_randoms, hr]; rw [← hf]; exact hg'))
  exact ⟨0xFFFFFFFF, t, ht, congrArg (fun f : Face => f.ctl.ending) he, by rw [huc]; decide⟩

/-- The replies of a login whose MAC is the right one with every bit inverted. -/
def wrongLogin (pin draws : Bytes) : WrongReply :=
  ⟨zeroAttempt 8, zeros 32, zeros 32, (testMac defaults (attemptDigest defaults pin (zeroAttempt 8))
    (draws.drop (attemptDraws (zeroAttempt 8))) (zeros 32)).map (fun x => ~~~x), zeroCounters 12⟩

theorem wrongDraws_wrongLogin (pin draws : Bytes) : wrongDraws (wrongLogin pin draws) = wrongDraws (wrongLogin [] []) := rfl

theorem witness_LoginWrongPin (n : Word32) (hn : n = 1 ∨ n = 32) : ∃ (s : State) (r : WrongReply),
    s.cfg.pulse0 ≠ s.cfg.pulse1
    ∧ (recordValid s.cfg (goodRecord 0 0 n 0 0) ∧ recordVerifies s.cfg s.reg.bootSeed (goodRecord 0 0 n 0 0)
      ∧ hasFlag (recordFlags s.cfg (goodRecord 0 0 n 0 0)) s.cfg.flag.isBlank = false
      ∧ hasFlag (recordFlags s.cfg (goodRecord 0 0 n 0 0)) s.cfg.flag.successful = false
      ∧ fieldWord (goodRecord 0 0 n 0 0) s.cfg.layout.pinLen ≠ 0)
    ∧ s.cfg.kdfIter = r.attempt.stretches.length ∧ s.cfg.slot.pinAttempt ≠ s.cfg.slot.keyPlain
    ∧ r.mac ≠ testMac s.cfg (attemptDigest s.cfg (recordPin s.cfg (goodRecord 0 0 n 0 0)) r.attempt)
        ((s.face.randoms (wrongDraws r)).drop (attemptDraws r.attempt)) r.testGendig
    ∧ s.face.grants (xLoginWrong s.cfg (recordPin s.cfg (goodRecord 0 0 n 0 0)) (s.face.randoms (wrongDraws r)) r) := by
  let pin := recordPin defaults (goodRecord 0 0 n 0 0)
  let draws := drawn (wrongDraws (wrongLogin [] []))
  refine meets (xs := xLoginWrong defaults pin draws (wrongLogin pin draws))
    (completes_append (completes_attempt retries _ _ _) (completes_append (completes_test retries _ _ ?_)
      (completes_counters retries _ _))) fun s hc hr hb hg => ⟨wrongLogin pin draws, ?_⟩
  · exact (List.length_map _).trans (tempkeyMac_length _ _)
  · rw [hc, hr, hb, wrongDraws_wrongLogin]
    exact ⟨pulses, prepared n hn, eight, by decide, inverted_ne _ (tempkeyMac_length _ _), hg⟩

theorem witness_ChangeSecret : ∃ s : State, s.cfg.wf = true ∧ s.cfg.layout.wf = true ∧ (goodRecord 1 8 0 0 0).length = 276
    ∧ recordValid s.cfg (goodRecord 1 8 0 0 0) ∧ recordVerifies s.cfg s.reg.bootSeed (goodRecord 1 8 0 0 0)
    ∧ hasFlag (recordFlags s.cfg (goodRecord 1 8 0 0 0)) s.cfg.flag.successful = true
    ∧ badChangeFlags s.cfg (fieldWord (goodRecord 1 8 0 0 0) s.cfg.layout.changeFlags) = false
    ∧ hasFlag (fieldWord (goodRecord 1 8 0 0 0) s.cfg.layout.changeFlags) s.cfg.flag.changeWalletPin = false
    ∧ (List.replicate 3 zeroWrite).length = 3
    ∧ s.face.grants (xEncryptedWrite s.cfg s.cfg.slot.seed s.cfg.slot.pinHash
      (cachedDigest s.cfg s.reg.bootSeed (goodRecord 1 8 0 0 0)) 0
      (maskSecret s.cfg (field (goodRecord 1 8 0 0 0) s.cfg.layout.secret) ++ zeros 24) (s.face.randoms 159)
      (List.replicate 3 zeroWrite)) := by
  refine meets (xs := xEncryptedWrite defaults defaults.slot.seed defaults.slot.pinHash
      (cachedDigest defaults State.reset.reg.bootSeed (goodRecord 1 8 0 0 0)) 0
      (maskSecret defaults (field (goodRecord 1 8 0 0 0) defaults.layout.secret) ++ zeros 24) (drawn 159)
      (List.replicate 3 zeroWrite)) (completes_encryptedWrite retries _ _ _ _ _ _ _) fun s hc hr hb hg => ?_
  rw [hc, hr, hb]
  unfold recordValid
  exact ⟨by decide +kernel, by decide +kernel, by decide +kernel, by decide +kernel, goodRecord_verifies _ _ _ _ _,
    by decide +kernel, by decide +kernel, by decide +kernel, rfl, hg⟩

/-- The replies of a change of PIN with the counter at 10: the old PIN's, the writes of the secret. -/
def zeroChange (old : Option OldReply) (k : Nat) : ChangeReply :=
  ⟨old, List.replicate k zeroWrite, zeroAttempt 8, zeroWrite, 10, 11, zeroUpdates []⟩

/-- An old PIN's replies. -/
def zeroOld : OldReply := ⟨zeroAttempt 8, zeros 32, zeros 32⟩

theorem completes_change (old : Option OldReply) (k : Nat) (ho : old = none ∨ old = some zeroOld) (record draws : Bytes) :
    AllComplete defaults (xChange defaults record draws (zeroChange old k)) := by
  refine completes_append ?_ (completes_append (completes_encryptedWrite retries _ _ _ _ _ _ _)
    (completes_append (completes_attempt retries _ _ _) (completes_append (completes_encryptedWrite retries _ _ _ 1 _ _ _)
      (completes_updates retries _ _ _ _ _))))
  rcases ho with rfl | rfl
  · exact completes_nil
  · exact completes_append (completes_attempt retries _ _ _) (completes_test retries _ _ (tempkeyMac_length _ _))

/-- A record ready for a change of PIN: the first PIN of a blank one, without the secret; another PIN, and the secret with
it. -/
def changing (rec : Bytes) (old : Option OldReply) (k : Nat) : Prop :=
  rec = goodRecord 3 1 0 0 4 ∧ old = none ∧ k = 0 ∨ rec = goodRecord 1 9 0 4 32 ∧ old = some zeroOld ∧ k = 3

theorem changing_flags {rec : Bytes} {old : Option OldReply} {k : Nat} (h : changing rec old k) : rec.length = 276
    ∧ recordValid defaults rec ∧ recordVerifies defaults State.reset.reg.bootSeed rec
    ∧ hasFlag (recordFlags defaults rec) defaults.flag.successful = true
    ∧ badChangeFlags defaults (fieldWord rec defaults.layout.changeFlags) = false
    ∧ hasFlag (fieldWord rec defaults.layout.changeFlags) defaults.flag.changeWalletPin = true
    ∧ fieldWord rec defaults.layout.newPinLen ≠ 0 := by
  unfold recordValid
  rcases h with ⟨rfl, rfl, rfl⟩ | ⟨rfl, rfl, rfl⟩ <;> exact ⟨by decide +kernel, by decide +kernel,
    goodRecord_verifies _ _ _ _ _, by decide +kernel, by decide +kernel, by decide +kernel, by decide +kernel⟩

theorem changing_old {rec : Bytes} {old : Option OldReply} {k : Nat} (h : changing rec old k) :
    (fieldWord rec defaults.layout.oldPinLen = 0 ↔ old = none)
    ∧ hasFlag (recordFlags defaults rec) defaults.flag.isBlank = decide (old = none)
    ∧ k = (if hasFlag (fieldWord rec defaults.layout.changeFlags) defaults.flag.changeSecret then 3 else 0) := by
  rcases h with ⟨rfl, rfl, rfl⟩ | ⟨rfl, rfl, rfl⟩ <;> exact ⟨by decide +kernel, by decide +kernel, by decide +kernel⟩

theorem zeroChange_budget (old : Option OldReply) (k : Nat) : budgetFits defaults (zeroChange old k).counter = true
    ∧ bumpOf defaults (zeroChange old k).counter = (zeroChange old k).updates.increments.length + 1 := by
  show budgetFits defaults 10 = true ∧ bumpOf defaults 10 = (zeroUpdates []).increments.length + 1
  decide

theorem witness_ChangePin (rec : Bytes) (old : Option OldReply) (k : Nat) (h : changing rec old k) : ∃ s : State,
    (s.cfg.wf = true ∧ s.cfg.layout.wf = true)
    ∧ (rec.length = 276 ∧ recordValid s.cfg rec ∧ recordVerifies s.cfg s.reg.bootSeed rec
      ∧ hasFlag (recordFlags s.cfg rec) s.cfg.flag.successful = true
      ∧ badChangeFlags s.cfg (fieldWord rec s.cfg.layout.changeFlags) = false
      ∧ hasFlag (fieldWord rec s.cfg.layout.changeFlags) s.cfg.flag.changeWalletPin = true
      ∧ fieldWord rec s.cfg.layout.newPinLen ≠ 0)
    ∧ ((fieldWord rec s.cfg.layout.oldPinLen = 0 ↔ (zeroChange old k).old = none)
      ∧ hasFlag (recordFlags s.cfg rec) s.cfg.flag.isBlank = decide ((zeroChange old k).old = none)
      ∧ (zeroChange old k).secret.length
        = (if hasFlag (fieldWord rec s.cfg.layout.changeFlags) s.cfg.flag.changeSecret then 3 else 0))
    ∧ (∀ o, (zeroChange old k).old = some o → s.cfg.kdfIter = o.attempt.stretches.length)
    ∧ s.cfg.kdfIter = (zeroChange old k).attempt.stretches.length ∧ s.cfg.slot.pinAttempt ≠ s.cfg.slot.keyPlain
    ∧ (budgetFits s.cfg (zeroChange old k).counter = true
      ∧ bumpOf s.cfg (zeroChange old k).counter = (zeroChange old k).updates.increments.length + 1)
    ∧ s.face.grants (xChange s.cfg rec (s.face.randoms (changeDraws (zeroChange old k))) (zeroChange old k)) := by
  have ho : old = none ∨ old = some zeroOld := h.elim (fun h => .inl h.2.1) (fun h => .inr h.2.1)
  refine meets (completes_change old k ho rec (drawn (changeDraws (zeroChange old k)))) fun s hc hr hb hg => ?_
  rw [hc, hr, hb]
  have hw := changing_old h
  refine ⟨⟨by decide +kernel, by decide +kernel⟩, changing_flags h, ⟨hw.1, hw.2.1, ?_⟩, fun o e => ?_, eight, by decide,
    zeroChange_budget old k, hg⟩
  · exact List.length_replicate.trans hw.2.2
  · rcases ho with rfl | rfl
    · cases e
    · cases e; exact eight

/-- A change of PIN whose old PIN the chip does not confirm. -/
theorem witness_ChangePin_old : ∃ (s : State) (mac : Bytes),
    s.cfg.pulse0 ≠ s.cfg.pulse1
    ∧ (recordValid s.cfg (goodRecord 1 9 0 4 32) ∧ recordVerifies s.cfg s.reg.bootSeed (goodRecord 1 9 0 4 32)
      ∧ hasFlag (recordFlags s.cfg (goodRecord 1 9 0 4 32)) s.cfg.flag.successful = true
      ∧ badChangeFlags s.cfg (fieldWord (goodRecord 1 9 0 4 32) s.cfg.layout.changeFlags) = false
      ∧ hasFlag (fieldWord (goodRecord 1 9 0 4 32) s.cfg.layout.changeFlags) s.cfg.flag.changeWalletPin = true
      ∧ fieldWord (goodRecord 1 9 0 4 32) s.cfg.layout.newPinLen ≠ 0)
    ∧ fieldWord (goodRecord 1 9 0 4 32) s.cfg.layout.oldPinLen ≠ 0
    ∧ hasFlag (recordFlags s.cfg (goodRecord 1 9 0 4 32)) s.cfg.flag.isBlank = false
    ∧ s.cfg.kdfIter = zeroOld.attempt.stretches.length ∧ s.cfg.slot.pinAttempt ≠ s.cfg.slot.keyPlain
    ∧ mac ≠ testMac s.cfg (attemptDigest s.cfg (recordOldPin s.cfg (goodRecord 1 9 0 4 32)) zeroOld.attempt)
        ((s.face.randoms (attemptDraws zeroOld.attempt + 53)).drop (attemptDraws zeroOld.attempt)) zeroOld.testGendig
    ∧ s.face.grants (xOldWrong s.cfg (recordOldPin s.cfg (goodRecord 1 9 0 4 32))
        (s.face.randoms (attemptDraws zeroOld.attempt + 53)) zeroOld mac) := by
  let pin := recordOldPin defaults (goodRecord 1 9 0 4 32)
  let draws := drawn (attemptDraws zeroOld.attempt + 53)
  let mac := (testMac defaults (attemptDigest defaults pin zeroOld.attempt) (draws.drop (attemptDraws zeroOld.attempt))
    zeroOld.testGendig).map (fun x => ~~~x)
  refine meets (xs := xOldWrong defaults pin draws zeroOld mac)
    (completes_append (completes_attempt retries _ _ _) (completes_test retries _ _ ?_)) fun s hc hr hb hg => ⟨mac, ?_⟩
  · exact (List.length_map _).trans (tempkeyMac_length _ _)
  · rw [hc, hr, hb]
    exact ⟨pulses, (changing_flags (rec := goodRecord 1 9 0 4 32) (.inr ⟨rfl, rfl, rfl⟩)).2, by decide +kernel,
      by decide +kernel, eight, by decide, inverted_ne _ (tempkeyMac_length _ _), hg⟩

theorem witness_FetchSecret : ∃ s : State, s.cfg.pulse0 ≠ s.cfg.pulse1 ∧ recordValid s.cfg (goodRecord 1 0 0 0 0)
    ∧ recordVerifies s.cfg s.reg.bootSeed (goodRecord 1 0 0 0 0)
    ∧ hasFlag (recordFlags s.cfg (goodRecord 1 0 0 0 0)) s.cfg.flag.successful = true
    ∧ (List.replicate 3 zeroRead).length = 3
    ∧ s.face.grants (xEncryptedRead s.cfg s.cfg.slot.seed s.cfg.slot.pinHash 0 (s.face.randoms 159)
      (List.replicate 3 zeroRead)) := by
  refine meets (completes_encryptedRead retries defaults.slot.seed defaults.slot.pinHash 3 0 (drawn 159))
    fun s hc hr hb hg => ?_
  rw [hc, hr, hb]
  unfold recordValid
  exact ⟨pulses, by decide +kernel, goodRecord_verifies _ _ _ _ _, by decide +kernel, rfl, hg⟩

/-! #### The dispatch boundary -/

/-- One length too many; then for each request refused its own case, at the largest length that is admitted or one under
the smallest. -/
theorem witness_DispatchRefuses : idle0.cfg.wf = true ∧ idle0.cfg.lenInMax < 1025 ∧ 1024 ≤ idle0.cfg.lenInMax
    ∧ ((0 : Word32) ≠ idle0.cfg.method.pinControl ∧ (0 : Word32) ≠ idle0.cfg.method.readSeSlot
      ∧ (0 : Word32) ≠ idle0.cfg.method.getRandomBytes ∧ (0 : Word32) ≠ idle0.cfg.method.isBricked)
    ∧ isPinMethod idle0.cfg 4 = false ∧ 275 ≤ idle0.cfg.lenInMax ∧ 275 < 276
    ∧ idle0.cfg.slot.numSlots ≤ (16 : Word32).toNat ∧ 31 ≤ idle0.cfg.lenInMax ∧ 31 < 32
    ∧ (scripted (List.replicate 9 false) []).face.quiet 9 :=
  ⟨by decide +kernel, by decide, by decide, by decide, by decide, by decide, by decide, by decide, by decide, by decide,
    scripted_quiet 9 [] []⟩

/-- A record of zeros, which a login and a fetch both refuse: next states; the buffer as short as may be. -/
theorem witness_DispatchPinControl : idle0.cfg.wf = true ∧ 276 ≤ idle0.cfg.lenInMax ∧ 276 ≤ 276
    ∧ (∀ m, m = defaults.pinMethod.attempt ∨ m = defaults.pinMethod.getSecret → isPinMethod idle0.cfg m = true
      ∧ ∃ t, exec (pinInstr idle0.cfg m (hostBytes idle0.host.buf 0 276)) idle0.delayed = .next t) := by
  refine ⟨by decide +kernel, by decide, le_refl _, fun m hm => ?_⟩
  rcases hm with rfl | rfl
  · exact ⟨by decide, let ⟨t, h, _⟩ := next_of_leaves (p := fun _ => true) (by decide +kernel); ⟨t, h⟩⟩
  · exact ⟨by decide, let ⟨t, h, _⟩ := next_of_leaves (p := fun _ => true) (by decide +kernel); ⟨t, h⟩⟩

/-- What every dispatched call leaves: one that is refused, and one that succeeds. -/
theorem witness_DispatchPinControl_leaves (m : Word32) (h : m = 7 ∨ m = defaults.method.getRandomBytes) :
    ∃ t, exec (.seDispatch m 276 0) { bench [] with reg := { (bench []).reg with recHeld := true } } = .next t
      ∧ t.reg.recHeld = false := by
  rcases h with rfl | rfl <;> exact let ⟨t, h, hp⟩ := next_of_leaves (p := fun t => !t.reg.recHeld) (by decide +kernel)
    ⟨t, h, by simpa using hp⟩

theorem witness_RandomBytes : idle0.cfg.wf = true ∧ (0 : Nat) ≤ idle0.cfg.lenInMax ∧ 1024 ≤ idle0.cfg.lenInMax
    ∧ (scripted (List.replicate 9 false) []).face.quiet 9 :=
  ⟨by decide +kernel, by decide, by decide, scripted_quiet 9 [] []⟩

/-- A slot number one too large, a buffer one too short; a length that may be dispatched, the largest; and the last slot
with the shortest buffer. -/
theorem witness_ReadSeSlot : (idle0.cfg.slot.numSlots ≤ (16 : Word32).toNat ∧ 31 < 32)
    ∧ (idle0.cfg.wf = true ∧ 1024 ≤ idle0.cfg.lenInMax)
    ∧ ∃ s : State, s.cfg.pulse0 ≠ s.cfg.pulse1 ∧ (15 : Word32).toNat < s.cfg.slot.numSlots ∧ 32 ≤ 32
      ∧ s.face.grants (xPair s.cfg (s.face.randoms 33) (zeros 32) ++ [xRead s.cfg ((15 : Word32).setWidth 16) 0 (zeros 32)]) := by
  refine ⟨by decide, ⟨by decide +kernel, by decide⟩, meets (completes_append (completes_pair retries (drawn 33) (zeros 32) rfl)
    (completes_read retries ((15 : Word32).setWidth 16) 0 (zeros 32) rfl)) fun s hc hr _ hg => ?_⟩
  rw [hc, hr]
  exact ⟨pulses, by decide, le_refl _, hg⟩

theorem witness_IsBricked : (idle0.cfg.wf = true ∧ 1024 ≤ idle0.cfg.lenInMax) ∧ ∃ s : State, s.cfg.pulse0 ≠ s.cfg.pulse1
    ∧ s.face.grants (xPair s.cfg (s.face.randoms 33) (zeros 32)) := by
  refine ⟨⟨by decide +kernel, by decide⟩, meets (completes_pair retries (drawn 33) (zeros 32) rfl) fun s hc hr _ hg => ?_⟩
  rw [hc, hr]
  exact ⟨pulses, hg⟩

end Sys2Proof.Tests
end

section
/-! The BitBus statements (spec/40_bitbus.md R99, R101, R104 to R106, R108), from the laws of the line and of the
symbols: one equation for each meaning, then the obligations of the family. -/

namespace Sys2Proof.Machine

open Sys2Proof.Config (Params)

/-! ### Each BitBus meaning is its operation, run -/

theorem exec_serialize (b : Byte) (s : State) :
    exec (.serialize b) s = .next (s.endWith (.success (.symbols (serializeByte s.cfg b)))) := rfl

theorem exec_deserialize (symbols : List Symbol) (maxLen : Nat) (s : State) :
    exec (.deserialize symbols maxLen) s = run (deserialize symbols maxLen) .bytes s := rfl

theorem exec_send (bs : Bytes) (s : State) : exec (.send bs) s = run (send bs) (fun _ => .unit) s := rfl

theorem exec_wake (s : State) : exec .wake s = run wake (fun _ => .unit) s := rfl

theorem exec_idle (s : State) : exec .idle s = run idle (fun _ => .unit) s := rfl

theorem exec_sleep (s : State) : exec .sleep s = run sleep (fun _ => .unit) s := rfl

/-- An operation that reaches a result in a known state. -/
theorem run_of_ok {α : Type} {x : Op α} {v : α → Value} {s t : State} {a : α} (h : x s = .ok a t) :
    run x v s = .next (t.endWith (.success (v a))) := by simp only [run, h]

/-! ### The symbols of a byte -/

/-- The eight symbols of a byte written out, bit 0 first (R99). -/
theorem serializeByte_eq (c : Params) (b : Byte) : serializeByte c b =
    [symOf c (b.getLsbD 0), symOf c (b.getLsbD 1), symOf c (b.getLsbD 2), symOf c (b.getLsbD 3),
     symOf c (b.getLsbD 4), symOf c (b.getLsbD 5), symOf c (b.getLsbD 6), symOf c (b.getLsbD 7)] := rfl

/-- The byte can be read off its symbols again: which of them are `PULSE1` are its bits (R78). -/
theorem byteOfBits_serializeByte {c : Params} (hc : c.pulse0 ≠ c.pulse1) (b : Byte) :
    byteOfBits ((serializeByte c b).map (fun x => decide (x = c.pulse1))) = b := by
  rw [bits_of_serializeByte hc, byteOfBits_bits]

theorem serializeByte_injective {c : Params} (hc : c.pulse0 ≠ c.pulse1) : Function.Injective (serializeByte c) := by
  intro b b' h
  rw [← byteOfBits_serializeByte hc b, h, byteOfBits_serializeByte hc]

/-- The ending shows the symbols, so two calls with one outcome had one byte's symbols. -/
theorem serializeByte_eq_of_exec_eq {b b' : Byte} {s : State}
    (h : exec (.serialize b') s = exec (.serialize b) s) : serializeByte s.cfg b' = serializeByte s.cfg b := by
  rw [exec_serialize, exec_serialize] at h
  injection h with hState
  have hEnding := congrArg (fun t : State => t.ctl.ending) hState
  simpa only [endWith_ending, Ending.success.injEq, Value.symbols.injEq] using hEnding

end Sys2Proof.Machine

namespace Sys2Proof.Settled

open Sys2Proof.Machine

/-- Settles O14: `deserialize` gives the bytes and ends in the state it began in (R108). -/
theorem deserializeRoundTrip : Obligations.DeserializeRoundTrip := by
  unfold Obligations.DeserializeRoundTrip
  intro s j t bs n hc hj ht
  rw [exec_deserialize]
  exact run_of_ok (deserialize_serialized hc hj bs t ht n)

/-- Settles O16: the two ways a `send` can end, on a line that is ready throughout and on one that stalls before the last
symbol (R101). -/
theorem send : Obligations.Send := by
  unfold Obligations.Send
  intro s bs
  rw [exec_send]
  exact ⟨fun hq => run_of_goes (send_goes bs s hq), fun n hn hq => run_of_fails (send_stalls bs s n hn hq)⟩

/-- Settles O18: each of the three on a working line and on one that stalls (R104 to R106). -/
theorem wakeIdleSleep : Obligations.WakeIdleSleep := by
  unfold Obligations.WakeIdleSleep
  intro s
  rw [exec_wake, exec_idle, exec_sleep]
  refine ⟨⟨?wakes, ?wakeStalls⟩, ⟨?idles, ?idleStalls⟩, ⟨?sleeps, ?sleepStalls⟩⟩
  case wakes => exact fun hq => run_of_goes (wake_goes s hq)
  case wakeStalls => exact fun hq => run_of_fails (wake_stalls s hq)
  case idles => exact fun hq => run_of_goes (idle_goes s hq)
  case idleStalls => exact fun n hn hq => run_of_fails (idle_stalls s n hn hq)
  case sleeps => exact fun hq => run_of_goes (sleep_goes s hq)
  case sleepStalls => exact fun n hn hq => run_of_fails (sleep_stalls s n hn hq)

/-- Settles O13: the symbols as R99 lists them, and no two bytes alike because a byte can be read off its symbols. -/
theorem serialize : Obligations.Serialize := by
  unfold Obligations.Serialize
  intro b s
  constructor
  · rw [exec_serialize, serializeByte_eq]
  · intro hc b' h
    exact serializeByte_injective hc (serializeByte_eq_of_exec_eq h)

end Sys2Proof.Settled
end

section
/-! The FrameCodec statements (spec/41_framecodec.md R111 to R117): one equation for each meaning, what each check of
`decode_response` answers, how a command frame is parsed, then the obligations of the family. -/

namespace Sys2Proof.Machine

open Sys2Proof.Config (Params)

/-! ### Each FrameCodec meaning is its operation, run -/

/-- The result is also what the accumulator ends as, and nothing else is written (R112). -/
theorem exec_crc16 (seed : Word16) (bytes : Bytes) (s : State) :
    exec (.crc16 seed bytes) s = .next (({ s with reg := { s.reg with
      crc := crcBytes s.cfg.crcPoly seed bytes } } : State).endWith
        (.success (.word16 (crcBytes s.cfg.crcPoly seed bytes)))) := rfl

theorem exec_encodeCommand_of_le {data : Bytes} {s : State} (h : data.length ≤ s.cfg.maxDataLen) (opcode p1 : Byte)
    (p2 : Word16) :
    exec (.encodeCommand opcode p1 p2 data) s = .next (({ s with reg := { s.reg with
      txbuf := commandFrame s.cfg opcode p1 p2 data
      crc := frameCrc s.cfg (commandBody opcode p1 p2 data) } } : State).endWith
        (.success (.bytes (commandFrame s.cfg opcode p1 p2 data)))) :=
  if_pos h

theorem exec_encodeCommand_of_lt {data : Bytes} {s : State} (h : s.cfg.maxDataLen < data.length) (opcode p1 : Byte)
    (p2 : Word16) : exec (.encodeCommand opcode p1 p2 data) s = .refused .dataTooLong :=
  if_neg (Nat.not_le_of_lt h)

theorem exec_transact_of_lt {data : Bytes} {s : State} (h : s.cfg.maxDataLen < data.length) (opcode p1 : Byte)
    (p2 : Word16) (expect : Expect) (close : Close) :
    exec (.transact opcode p1 p2 data expect close) s = .refused .dataTooLong :=
  if_neg (Nat.not_le_of_lt h)

theorem exec_decodeResponse (raw : Bytes) (n : Nat) (s : State) :
    exec (.decodeResponse raw n) s = run (decodeResponse raw n) .bytes s := rfl

/-- An operation that raises an error outcome in a known state. -/
theorem run_of_error {α : Type} {x : Op α} {v : α → Value} {s t : State} {e : Err} (h : x s = .error e t) :
    run x v s = .next (t.endWith (.error e)) := by simp only [run, h]

/-! ### The accumulator -/

/-- The accumulator moves by a shift, and by the polynomial where the data bit differs from bit 15 (R111). -/
theorem crcBit_eq (poly acc : Word16) (d : Bool) :
    crcBit poly acc d = if d ≠ acc.getLsbD 15 then (acc <<< 1) ^^^ poly else acc <<< 1 := by
  rw [crcBit, ite_not]

/-- The ending shows the accumulator, so an outcome determines it. -/
theorem crcBytes_eq_of_exec_eq {seed v : Word16} {bytes : Bytes} {s : State}
    (h : exec (.crc16 seed bytes) s = .next (({ s with reg := { s.reg with crc := v } } : State).endWith
      (.success (.word16 v)))) : crcBytes s.cfg.crcPoly seed bytes = v := by
  rw [exec_crc16] at h
  injection h with hState
  have hEnding := congrArg (fun t : State => t.ctl.ending) hState
  simpa only [endWith_ending, Ending.success.injEq, Value.word16.injEq] using hEnding

/-- The chaining law R113, for the operation: what the first call leaves does not show in the second. -/
theorem exec_crc16_append (seed : Word16) (a b : Bytes) (s : State) :
    exec (.crc16 seed (a ++ b)) s = exec (.crc16 (crcBytes s.cfg.crcPoly seed a) b) s := by
  rw [exec_crc16, exec_crc16, crcBytes_append]

/-! ### The checks of `decode_response`, in their order (R115) -/

theorem decodeResponse_of_tooShort {raw : Bytes} (h : raw.length < 4) (n : Nat) (s : State) :
    decodeResponse raw n s = .error .shortRead s := by
  rw [decodeResponse, if_pos (show raw.length < Config.errReplyLen from h), raise_run]

/-- Four bytes pass the first check. -/
theorem not_tooShort {raw : Bytes} (h : 4 ≤ raw.length) : ¬ raw.length < Config.errReplyLen := Nat.not_lt_of_le h

theorem decodeResponse_of_lengthMismatch {raw : Bytes} {n : Nat} (h4 : 4 ≤ raw.length)
    (hcount : (raw.getD 0 0).toNat ≠ n + 3) (hstatus : ¬ ((raw.getD 0 0).toNat = 4 ∧ raw.getD 1 0 ≠ 0)) (s : State) :
    decodeResponse raw n s = .error .lengthMismatch s := by
  rw [decodeResponse, if_neg (not_tooShort h4)]
  simp only [if_pos hcount]
  exact congrFun (if_neg hstatus) s

theorem decodeResponse_of_incomplete {raw : Bytes} {n : Nat} (h4 : 4 ≤ raw.length)
    (hcount : (raw.getD 0 0).toNat = n + 3) (hshort : raw.length < n + 3) (s : State) :
    decodeResponse raw n s = .error .shortRead s := by
  rw [decodeResponse, if_neg (not_tooShort h4)]
  simp only [hcount, ne_eq, not_true_eq_false, if_false, if_pos hshort, raise_run]

/-- A frame of the length expected, whole: only its CRC is left to decide, and the accumulator holds it (R115). -/
theorem decodeResponse_of_complete {raw : Bytes} {n : Nat} (h4 : 4 ≤ raw.length)
    (hcount : (raw.getD 0 0).toNat = n + 3) (hlong : n + 3 ≤ raw.length) (s : State) :
    decodeResponse raw n s =
      (if slice raw (n + 1) 2 ≠ u16le (frameCrc s.cfg (slice raw 0 (n + 1))) then raise .crcMismatch
        else pure (slice raw 1 n) : Op Bytes)
      { s with reg := { s.reg with crc := frameCrc s.cfg (slice raw 0 (n + 1)) } } := by
  rw [decodeResponse, if_neg (not_tooShort h4)]
  simp only [hcount, ne_eq, not_true_eq_false, if_false, if_neg (Nat.not_lt_of_le hlong)]
  rfl

/-! ### Command frames -/

/-- The length byte of a command frame counts all of it but the flag, where it can (R80). -/
theorem commandCount_toNat {n : Nat} (h : n ≤ 248) : (BitVec.ofNat 8 (n + 7)).toNat = n + 7 := by
  rw [BitVec.toNat_ofNat]; omega

/-- A command frame is parsed to what went into it (R97, R117). -/
theorem parseCommand_commandFrame (c : Params) (opcode p1 : Byte) (p2 : Word16) {data : Bytes}
    (h : data.length ≤ 248) : parseCommand c (commandFrame c opcode p1 p2 data) = some ⟨opcode, p1, p2, data⟩ := by
  have hcount := commandCount_toNat h
  simp only [commandFrame, commandBody, u16le, List.cons_append, List.nil_append, parseCommand, hcount,
    Nat.add_sub_cancel, List.take_left, List.drop_left, List.length_append, List.length_cons, List.length_nil,
    word16_u16le]
  exact if_pos ⟨trivial, Nat.le_add_left .., trivial, trivial⟩

theorem slice_commandFrame_body (c : Params) (opcode p1 : Byte) (p2 : Word16) (data : Bytes) :
    slice (commandFrame c opcode p1 p2 data) 1 (data.length + 5) = commandBody opcode p1 p2 data := by
  rw [← commandBody_length opcode p1 p2 data]
  exact slice_frame_body _ _

theorem slice_commandFrame_crc (c : Params) (opcode p1 : Byte) (p2 : Word16) (data : Bytes) :
    slice (commandFrame c opcode p1 p2 data) (data.length + 6) 2
      = u16le (frameCrc c (commandBody opcode p1 p2 data)) := by
  rw [show data.length + 6 = (commandBody opcode p1 p2 data).length + 1 by rw [commandBody_length]]
  exact slice_frame_crc _ _

end Sys2Proof.Machine

namespace Sys2Proof.Settled

open Sys2Proof.Machine

/-- Settles O19: the accumulator as a fold of its single step, and the chaining law (R111 to R113). -/
theorem crc16 : Obligations.Crc16 := by
  unfold Obligations.Crc16
  refine ⟨crcBit_eq, fun s => ⟨?empty, ?single, ?string, ?chained⟩⟩
  case empty => exact fun seed => exec_crc16 seed [] s
  case single => exact fun seed b => exec_crc16 seed [b] s
  case string => exact fun seed bytes => exec_crc16 seed bytes s
  case chained =>
    intro seed v a b h
    rw [exec_crc16_append, crcBytes_eq_of_exec_eq h]

/-- Settles O21: the chip's parse of a command frame, and the decoding of a response frame (R117). -/
theorem frameRoundTrip : Obligations.FrameRoundTrip := by
  unfold Obligations.FrameRoundTrip
  refine fun s => ⟨?command, ?response⟩
  case command =>
    intro opcode p1 p2 data hmax h248
    refine ⟨_, commandFrame s.cfg opcode p1 p2 data, exec_encodeCommand_of_le hmax opcode p1 p2, rfl,
      parseCommand_commandFrame s.cfg opcode p1 p2 (hmax.trans h248), ?_⟩
    rw [slice_commandFrame_body, slice_commandFrame_crc, frameCrc]
  case response =>
    exact fun p h1 h252 => ⟨_, rfl, run_of_ok (decodeResponse_frame p h1 h252 s)⟩

/-- Settles O20: the frame where the data fits, the refusal by both operations where it does not (R114). -/
theorem encodeCommand : Obligations.EncodeCommand := by
  unfold Obligations.EncodeCommand
  intro s opcode p1 p2 data
  constructor
  · intro hmax
    exact ⟨commandBody opcode p1 p2 data, _, commandFrame s.cfg opcode p1 p2 data, rfl, rfl, rfl,
      commandFrame_length .., exec_encodeCommand_of_le hmax opcode p1 p2⟩
  · exact fun hlong => ⟨exec_encodeCommand_of_lt hlong opcode p1 p2, exec_transact_of_lt hlong opcode p1 p2⟩

/-- Settles O22: one lemma for each check that fires, and the frame that passes them all (R115). -/
theorem decodeResponse : Obligations.DecodeResponse := by
  unfold Obligations.DecodeResponse
  intro s raw n
  simp only [exec_decodeResponse]
  refine ⟨?tooShort, fun h4 hcount => ⟨?status, ?mismatch⟩, fun h4 hcount => ⟨?incomplete, ?badCrc, ?payload⟩⟩
  case tooShort => exact fun h => run_of_error (decodeResponse_of_tooShort h n s)
  case status =>
    exact fun ⟨h, hst⟩ => run_of_error (decodeResponse_chipError n raw s h4 h (by omega) hst)
  case mismatch => exact fun h => run_of_error (decodeResponse_of_lengthMismatch h4 hcount h s)
  case incomplete => exact fun h => run_of_error (decodeResponse_of_incomplete h4 hcount h s)
  case badCrc =>
    exact fun h hcrc => run_of_error ((decodeResponse_of_complete h4 hcount h s).trans (congrFun (if_pos hcrc) _))
  case payload =>
    exact fun h hcrc => run_of_ok
      ((decodeResponse_of_complete h4 hcount h s).trans (congrFun (if_neg (not_not_intro hcrc)) _))

end Sys2Proof.Settled
end

section
/-! The SessionCrypto statements (spec/43_sessioncrypto.md R138, R141), from what a session operation guarantees of its
end (`Triple`, `SessionFail`): one form for all the session meanings, how such a run ends, then the obligations of the
family. -/

namespace Sys2Proof.Machine

theorem exec_ctEqual (a b : Bytes) (s : State) :
    exec (.ctEqual a b) s = .next (s.endWith (.success (.flag (ctEqualBytes a b)))) := rfl

/-- Every operation of SessionCrypto is the run of one whose errors are all `SeFailure` with `TK_VALID` 0 (R138). -/
theorem exec_of_sessionOperation {i : Instr} (h : sessionOperation i = true) :
    ∃ (α : Type) (x : Op α) (v : α → Value) (Q : α → State → Prop), (∀ s, exec i s = runOrStop x v s)
      ∧ Triple (fun _ => True) x Q (SessionFail fun _ => True) := by
  cases i with
  | pickNonce n => exact ⟨_, pickNonce n, _, _, fun _ => rfl, triple_pickNonce keeps_trivial n False.elim⟩
  | gendigSlot slot p => exact ⟨_, gendigSlot slot p, _, _, fun _ => rfl, triple_gendigSlot keeps_trivial slot p⟩
  | isCorrectTempkey d =>
    exact ⟨_, isCorrectTempkey d, _, _, fun _ => rfl, triple_isCorrectTempkey keeps_trivial d⟩
  | checkmac k b => exact ⟨_, checkmac k b, _, _, fun _ => rfl, triple_checkmac keeps_trivial k b⟩
  | pairUnlock => exact ⟨_, pairUnlock, _, _, fun _ => rfl, triple_pairUnlock keeps_trivial⟩
  | encryptedRead slot a k n =>
    exact ⟨_, encryptedRead slot a k n, _, _, fun _ => rfl, triple_encryptedRead keeps_trivial slot a k n⟩
  | encryptedWrite slot a k d =>
    exact ⟨_, encryptedWrite slot a k d, _, _, fun _ => rfl,
      triple_encryptedWrite keeps_trivial slot a k d (fun _ _ _ _ => trivial)⟩
  | mixin k b => exact ⟨_, mixin k b, _, _, fun _ => rfl, triple_mixin keeps_trivial k b False.elim⟩
  | stretch b n => exact ⟨_, stretch b n, _, _, fun _ => rfl, triple_stretch keeps_trivial b n False.elim⟩
  | authReadSlot slot => exact ⟨_, authReadSlot slot, _, _, fun _ => rfl, triple_authReadSlot keeps_trivial slot⟩
  | authReadCounter => exact ⟨_, authReadCounter, _, _, fun _ => rfl, triple_authReadCounter keeps_trivial⟩
  | addCounter n => exact ⟨_, addCounter n, _, _, fun _ => rfl, triple_addCounter keeps_trivial n⟩
  | gendigCounter w => exact ⟨_, gendigCounter w, _, _, fun _ => rfl, triple_gendigCounter keeps_trivial w⟩
  | _ => exact absurd h Bool.false_ne_true

/-- Because `SeFailure` is no stop, an operation with no other error always comes to a next state. -/
theorem runOrStop_of_sessionFail {α : Type} {P J : State → Prop} {x : Op α} {v : α → Value} {Q : α → State → Prop}
    {s : State} (hx : Triple P x Q (SessionFail J)) (hs : P s) : ∃ t, runOrStop x v s = .next t
      ∧ ((∃ w, t.ctl.ending = .success w) ∨ t.ctl.ending = .error .seFailure ∧ t.reg.tkValid = false) := by
  cases hxs : x s with
  | ok a t => exact ⟨t.endWith (.success (v a)), by simp only [runOrStop, hxs], .inl ⟨v a, rfl⟩⟩
  | error e t =>
    obtain ⟨-, rfl, htk⟩ := (hx s hs).2 e t hxs
    exact ⟨t.endWith (.error .seFailure), by simp only [runOrStop, hxs], .inr ⟨rfl, htk⟩⟩

end Sys2Proof.Machine

namespace Sys2Proof.Settled

open Sys2Proof.Machine

/-- Settles O42: each operation is the run of one that guarantees `SessionFail` of its errors, and every such run ends in
one of the two ways (R138, R194, R241). -/
theorem sessionEnds : Obligations.SessionEnds := by
  unfold Obligations.SessionEnds
  intro i s hi
  obtain ⟨α, x, v, Q, hexec, hx⟩ := exec_of_sessionOperation hi
  rw [hexec]
  exact runOrStop_of_sessionFail hx trivial

/-- Settles O33: the next state is the one before with the result recorded, and the OR over the bytes' differences is
zero just for equal strings (R141). -/
theorem ctEqual : Obligations.CtEqual := by
  unfold Obligations.CtEqual
  intro s a b _
  exact ⟨ctEqualBytes a b, exec_ctEqual a b s, ctEqualBytes_iff a b⟩

end Sys2Proof.Settled
end

section
/-! The PinEngine statement on the attempt budget (spec/44_pinengine.md R174): clearing the low bits of a word is rounding
down to a multiple of a power of two, and the rest is arithmetic of natural numbers. -/

namespace Sys2Proof.Machine

open Sys2Proof.Config (Params)

theorem toNat_and_not_lowBits {w : Nat} (x : BitVec w) (k : Nat) :
    (x &&& ~~~BitVec.ofNat w (2 ^ k - 1)).toNat = x.toNat / 2 ^ k * 2 ^ k := by
  refine Nat.eq_of_testBit_eq fun i => ?_
  rw [BitVec.testBit_toNat, Nat.testBit_mul_two_pow, Nat.testBit_div_two_pow, BitVec.testBit_toNat, BitVec.getLsbD_and,
    BitVec.getLsbD_not, BitVec.getLsbD_ofNat, Nat.testBit_two_pow_sub_one]
  rcases Nat.lt_or_ge i w with hi | hi
  · rcases Nat.lt_or_ge i k with hk | hk
    · simp [hi, hk, Nat.not_le.mpr hk]
    · simp [hi, hk, Nat.not_lt.mpr hk]
  · rcases Nat.lt_or_ge i k with hk | hk
    · simp [Nat.not_lt.mpr hi, Nat.not_le.mpr hk]
    · rw [Nat.sub_add_cancel hk, BitVec.getLsbD_of_ge x i hi, Bool.false_and, Bool.and_false]

section
variable {p : Params} {c : Word32} (hq : p.quant = 32)
include hq

theorem newMatchCount_of_quant :
    newMatchCount p c = (c + BitVec.ofNat 32 p.maxAttempts + 32#32) &&& ~~~31#32 := by
  rw [newMatchCount, hq]
  rfl

variable (hfit : c.toNat + p.maxAttempts + 32 < 2 ^ 32)
include hfit

/-- The precondition of R174 is what keeps the two additions from wrapping. -/
theorem toNat_newMatchCount : (newMatchCount p c).toNat = (c.toNat + p.maxAttempts + 32) / 32 * 32 := by
  have hsum : (c + BitVec.ofNat 32 p.maxAttempts + 32#32).toNat = c.toNat + p.maxAttempts + 32 := by
    simp only [BitVec.toNat_add, BitVec.toNat_ofNat]
    omega
  rw [newMatchCount_of_quant hq, ← hsum]
  exact toNat_and_not_lowBits _ 5

theorem newMatchCount_bounds :
    c.toNat + p.maxAttempts < (newMatchCount p c).toNat ∧ (newMatchCount p c).toNat ≤ c.toNat + p.maxAttempts + 32 := by
  rw [toNat_newMatchCount hq hfit]
  omega

theorem newMatchCount_mod : (newMatchCount p c).toNat % 32 = 0 := by
  rw [toNat_newMatchCount hq hfit, Nat.mul_mod_left]

/-- The bump stops exactly `MAX_ATTEMPTS` short of the new match count: its subtractions do not truncate. -/
theorem newMatchCount_eq_add_bumpOf : (newMatchCount p c).toNat = c.toNat + bumpOf p c + p.maxAttempts := by
  have hlow := (newMatchCount_bounds hq hfit).1
  unfold bumpOf
  omega

end

end Sys2Proof.Machine

namespace Sys2Proof.Settled

open Sys2Proof.Machine

/-- Settles O43: the new match count is `c + MAX_ATTEMPTS + 32` rounded down to a multiple of 32, which bounds it on both
sides; the bump is what those bounds leave (R166, R174). -/
theorem budget : Obligations.Budget := by
  unfold Obligations.Budget
  constructor
  · intro p c hq hfit
    obtain ⟨hlow, hhigh⟩ := newMatchCount_bounds hq hfit
    have hbump := newMatchCount_eq_add_bumpOf hq hfit
    refine ⟨newMatchCount_of_quant hq, rfl, newMatchCount_mod hq hfit, hlow, hhigh, ?_, ?_, ?_⟩ <;> omega
  · intro p hq hmax
    simp only [bumpOf, newMatchCount_of_quant hq, hmax]
    decide

end Sys2Proof.Settled
end

section
/-! The BitBus and SeLink statements that speak of whole runs of the line (spec/40_bitbus.md R100, R102; spec/42_selink.md
R119 to R136): a command is its transaction, a transaction that fails leaves the registers and the trace of its attempts,
then the obligations of the two families. -/

namespace Sys2Proof.Machine

open Sys2Proof.Config (Params)

/-! ### A command and its transaction -/

theorem exec_transact_of_le {data : Bytes} {s : State} (h : data.length ≤ s.cfg.maxDataLen) (opcode p1 : Byte)
    (p2 : Word16) (expect : Expect) (close : Close) :
    exec (.transact opcode p1 p2 data expect close) s = run (transact opcode p1 p2 data expect close) .bytes s :=
  if_pos h

section granted
variable {s : State} (hc : s.cfg.pulse0 ≠ s.cfg.pulse1) {x : Exchange} (hg : s.face.grants [x])
include hc hg

theorem transact_goes_of_grants :
    Goes (transact x.opcode x.p1 x.p2 x.data x.expect x.close) s x.payload (s.face.exchange x) := by
  obtain ⟨hquiet, hhears, hcompletes⟩ := grants_single hg
  exact transact_goes x s hc hcompletes hquiet hhears

/-- A command that is its transaction, closed either way. -/
theorem command_goes {y : Op Bytes} (hy : y s = transact x.opcode x.p1 x.p2 x.data x.expect x.close s) :
    Goes y s x.payload (s.face.exchange x) := by
  obtain ⟨t, ht, hface⟩ := transact_goes_of_grants hc hg
  exact ⟨t, hy.trans ht, hface⟩

/-- A command that makes something of its transaction's payload. -/
theorem command_goes_map {α : Type} {y : Op α} (k : Bytes → α)
    (hy : y s = (do let p ← transact x.opcode x.p1 x.p2 x.data x.expect x.close; pure (k p) : Op α) s) :
    Goes y s (k x.payload) (s.face.exchange x) := by
  obtain ⟨t, ht, hface⟩ := transact_goes_of_grants hc hg
  exact ⟨t, by rw [hy, bind_ok ht, pure_run], hface⟩

end granted

/-- A command that gives a number gives the one whose bytes were answered (R129, R130). -/
theorem counter_goes {s : State} {y : Op Word32} {opcode p1 : Byte} {p2 : Word16} {close : Close} {failed : List Bytes}
    {v : Word32} (hc : s.cfg.pulse0 ≠ s.cfg.pulse1)
    (hg : s.face.grants [⟨opcode, p1, p2, [], .data 4, close, failed, u32le v⟩])
    (hy : y s = (do let p ← transact opcode p1 p2 [] (.data 4) close; pure (le32 p) : Op Word32) s) :
    Goes y s v (s.face.exchange ⟨opcode, p1, p2, [], .data 4, close, failed, u32le v⟩) := by
  have h := command_goes_map hc hg le32 hy
  rwa [le32_u32le] at h

/-- `keyedHash` is its two transactions in sequence (R134). -/
theorem keyedHash_exchanges {s : State} {keynum : SlotId} {msg h : Bytes} {close : Close} {failed failed' : List Bytes}
    (hc : s.cfg.pulse0 ≠ s.cfg.pulse1)
    (hg : s.face.grants [⟨s.cfg.op.keyedHash, s.cfg.p1.keyedHashStart, keynum, [], .status, .idle, failed, [0]⟩,
      ⟨s.cfg.op.keyedHash, s.cfg.p1.keyedHashEnd, 32, msg, .data 32, close, failed', h⟩]) :
    Goes (keyedHash keynum msg close) s h (s.face.exchanges
      [⟨s.cfg.op.keyedHash, s.cfg.p1.keyedHashStart, keynum, [], .status, .idle, failed, [0]⟩,
        ⟨s.cfg.op.keyedHash, s.cfg.p1.keyedHashEnd, 32, msg, .data 32, close, failed', h⟩]) := by
  obtain ⟨hstart, hend⟩ := (grants_append s.face [_] [_]).mp hg
  refine goes_bind (command_goes_map hc hstart (fun _ => ()) rfl) fun t ht => ?_
  have hcfg : t.cfg = s.cfg := congrArg Face.cfg ht
  rw [← hcfg] at hc
  refine goes_face_eq (congrArg (Face.exchange · _) ht) (command_goes hc (by rw [ht]; exact hend) ?_)
  rw [← hcfg]
  rfl

/-! ### What a transaction leaves that fails in its receive attempts -/

/-- The face of a transaction after so many prompts and no close token (R120). -/
def Face.gaveUp (f : Face) (frame : Bytes) (crc0 : Word16) (k : Nat) (rx : Bytes) (crc : Word16) : Face :=
  let g := (f.commanded frame crc0).retried k rx crc
  g.withRegs { g.reg with phase := .ready }

theorem gaveUp_reg (f : Face) (frame rx : Bytes) (crc0 crc : Word16) (k : Nat) :
    (f.gaveUp frame crc0 k rx crc).reg = { f.reg with
      busCalls := f.reg.busCalls + 1, retry := k, phase := .ready, lstate := .awake, baudsel := false
      txbuf := frame, rxbuf := rx, crc := crc, tof := f.reg.tof || decide (k ≠ 0) } := by
  simp only [Face.gaveUp, Face.retried, Face.commanded, Face.withRegs, Regs.starting, Nat.zero_add]

theorem gaveUp_trace (f : Face) (frame rx : Bytes) (crc0 crc : Word16) (k : Nat) :
    (f.gaveUp frame crc0 k rx crc).trace = f.trace ++ [.low true]
      ++ (serializeBytes f.cfg (frame ++ (List.replicate k (promptBytes f.cfg)).flatten)).map (fun y => .sym y false) := by
  rw [serializeBytes_append, List.map_append, ← List.append_assoc]
  rfl

/-- A run that ends in such a face, its parts one by one. -/
theorem gaveUp_parts {t s : State} {frame rx : Bytes} {crc0 crc : Word16} {k : Nat} {e : Err}
    (h : t.face = (s.face.gaveUp frame crc0 k rx crc).ended (.error e)) :
    t.ctl.ending = .error e
    ∧ t.reg = { s.reg with
      busCalls := s.reg.busCalls + 1, retry := k, phase := .ready, lstate := .awake, baudsel := false
      txbuf := frame, rxbuf := rx, crc := crc, tof := s.reg.tof || decide (k ≠ 0) }
    ∧ t.wire.trace = s.wire.trace ++ [.low true]
      ++ (serializeBytes s.cfg (frame ++ (List.replicate k (promptBytes s.cfg)).flatten)).map (fun y => .sym y false)
    ∧ t.cfg = s.cfg ∧ t.host = s.host ∧ t.env.rand = s.env.rand :=
  ⟨congrArg (fun f : Face => f.ctl.ending) h, (congrArg Face.reg h).trans (gaveUp_reg ..),
    (congrArg Face.trace h).trans (gaveUp_trace s.face frame rx crc0 crc k), congrArg Face.cfg h, congrArg Face.host h,
    congrArg (fun f : Face => f.env.rand) h⟩

/-- A status reply with an error code is one for a status, and for any payload of at least two bytes (R122). -/
theorem statusFrame_carriesError (c : Params) {expect : Expect} {code : Byte} (h0 : code ≠ 0)
    (he : expect = .status ∨ ∃ n, expect = .data n ∧ 2 ≤ n) : carriesError c expect code (statusFrame c code) := by
  rcases he with rfl | ⟨n, rfl, hn⟩
  · exact ⟨h0, rfl⟩
  · have hlength : (statusFrame c code).length = 4 := rfl
    exact ⟨h0, by omega, by omega, by omega, rfl, rfl⟩

/-! ### The face of a receive that listened -/

/-- With nothing in flight, what `listened` says of the symbols in flight is that there are none. -/
theorem listened_eq {s : State} (hi : s.wire.inFlight = []) : s.face.listened =
    { ((s.face.sentAt s.reg.baudsel (serializeBytes s.cfg (promptBytes s.cfg))).transmitted
        (8 * (promptBytes s.cfg).length)).heard 1 with arrived := [], reg := { s.reg with tof := true } } := by
  have hnone : (if promptBytes s.cfg = [] then s.face.inFlight else []) = [] := by
    rw [show s.face.inFlight = [] from hi, ite_self]
  exact congrArg (fun symbols => ({ s.face.listened with inFlight := symbols } : Face)) hnone

end Sys2Proof.Machine

namespace Sys2Proof.Settled

open Sys2Proof.Machine

/-- Settles O15: `deserialize` skips the leading junk, then reads whole groups (R100). -/
theorem deserializeAnswers : Obligations.DeserializeAnswers := by
  unfold Obligations.DeserializeAnswers
  intro s symbols n
  rw [exec_deserialize]
  exact run_of_ok (deserialize_run symbols n s)

/-- Settles O17: the prompt stalls, or a burst comes, or nothing does (R102, R107, R109). -/
theorem receive : Obligations.Receive := by
  unfold Obligations.Receive
  refine fun s maxLen hi => ⟨?stalled, fun hq => ⟨?burst, ?silence⟩⟩
  case stalled => exact fun n hn hs => run_of_fails (receive_stalls maxLen s n hn hs)
  case burst =>
    intro burst hb hh
    obtain ⟨t, bs, d, hd, hr, hf⟩ := receive_burst maxLen s burst hb hq hh
    rw [listened_eq hi] at hf
    exact ⟨_, bs, d, run_of_ok hd, run_of_ok hr, congrArg (Face.ended · _) hf⟩
  case silence =>
    intro hh
    have h := receive_silence maxLen s hq hh
    rw [listened_eq hi] at h
    exact run_of_fails h

/-- Settles O23: with what was heard at every failed attempt given, and with prompts that stalled among them (R119, R120,
R199). -/
theorem transactCompletes : Obligations.TransactCompletes := by
  unfold Obligations.TransactCompletes
  intro s x hc hmax
  rw [exec_transact_of_le hmax]
  exact ⟨fun hg => run_of_goes (transact_goes_of_grants hc hg),
    fun failed hn ha hf hq hh => run_of_goes (transact_attempts_goes x failed s hc hn ha hf hq hh)⟩

/-- Settles O24: attempts used up, prompts that stall among them; a stall at the pulse, in the command, in the close token
(R119 to R121). -/
theorem transactExhausted : Obligations.TransactExhausted := by
  unfold Obligations.TransactExhausted
  refine ⟨?usedUp, ?stalledPrompts, ?begun, ?closing⟩
  case usedUp =>
    intro s opcode p1 p2 data expect close failed hc hmax hn hf hq hh
    rw [exec_transact_of_le hmax, ← hn]
    obtain ⟨rx, crc, hfails⟩ := transact_exhausted opcode p1 p2 data expect close failed s hc hn hf hq hh
    obtain ⟨t, ht, hface⟩ := run_of_fails (v := .bytes) hfails
    obtain ⟨hending, hreg, htrace, hcfg, hhost, hrand⟩ := gaveUp_parts hface
    exact ⟨t, rx, crc, ht, hending, hreg, htrace, hcfg, hhost, hrand⟩
  case stalledPrompts =>
    intro s opcode p1 p2 data expect close failed hc hmax hn hf hq hh
    rw [exec_transact_of_le hmax]
    obtain ⟨rx, crc, hfails⟩ := transact_attempts_exhausted opcode p1 p2 data expect close failed s hc hn hf hq hh
    obtain ⟨t, ht, hface⟩ := run_of_fails (v := .bytes) hfails
    exact ⟨t, rx, crc, ht, hface⟩
  case begun =>
    intro s opcode p1 p2 data expect close hmax
    rw [exec_transact_of_le hmax]
    exact ⟨fun hs => run_of_fails (transact_wake_stalls opcode p1 p2 data expect close s hs),
      fun n hn hs => run_of_fails (transact_send_stalls opcode p1 p2 data expect close s n hn hs)⟩
  case closing =>
    intro s x n hc hmax hx hh hn hs
    rw [exec_transact_of_le hmax]
    exact run_of_fails (transact_close_stalls x s n hc hx hn hs hh)

/-- Settles O25: the status reply with the code is the last thing heard, and ends the transaction (R120, R122). -/
theorem transactChipError : Obligations.TransactChipError := by
  unfold Obligations.TransactChipError
  intro s opcode p1 p2 data expect close failed code hc hmax hn h0 he hf hq hh
  rw [exec_transact_of_le hmax]
  obtain ⟨rx, crc, hfails⟩ := transact_chipError opcode p1 p2 data expect close failed code _ s hc hn hf
    (statusFrame_carriesError s.cfg h0 he) hq hh
  obtain ⟨t, ht, hface⟩ := run_of_fails (v := .bytes) hfails
  obtain ⟨hending, hreg, htrace, hcfg, hhost, hrand⟩ := gaveUp_parts hface
  refine ⟨t, rx, crc, ht, hending, hreg.trans ?_, htrace, hcfg, hhost, hrand⟩
  rw [decide_eq_true (Nat.succ_ne_zero failed.length), Bool.or_true]

/-- Settles O26: each of the five is its transaction, whose payload it gives (R123, R125, R128, R133, R134). -/
theorem dataCommands : Obligations.DataCommands := by
  unfold Obligations.DataCommands
  intro s close failed p hc
  refine ⟨?read, ?nonce, ?macGen, ?keyedHashEnd, ?info⟩
  case read => exact fun slot block hg => run_of_goes (command_goes hc hg rfl)
  case nonce => exact fun numin hg => run_of_goes (command_goes hc hg rfl)
  case macGen => exact fun keynum hg => run_of_goes (command_goes hc hg rfl)
  case keyedHashEnd => exact fun msg hg => run_of_goes (command_goes hc hg rfl)
  case info => exact fun hg => run_of_goes (command_goes hc hg rfl)

/-- Settles O27: each of the seven is its transaction, whose status it drops (R124, R126, R127, R131, R132). -/
theorem statusCommands : Obligations.StatusCommands := by
  unfold Obligations.StatusCommands
  intro s close failed hc
  refine ⟨?write, ?writeMac, ?genDig, ?genDigCounter, ?checkMac, ?selfTest, ?lock⟩
  case write => exact fun slot block data hg => run_of_goes (command_goes_map hc hg (fun _ => ()) rfl)
  case writeMac => exact fun slot block data mac hg => run_of_goes (command_goes_map hc hg (fun _ => ()) rfl)
  case genDig => exact fun slot hg => run_of_goes (command_goes_map hc hg (fun _ => ()) rfl)
  case genDigCounter => exact fun id hg => run_of_goes (command_goes_map hc hg (fun _ => ()) rfl)
  case checkMac => exact fun keynum body hg => run_of_goes (command_goes_map hc hg (fun _ => ()) rfl)
  case selfTest => exact fun hg => run_of_goes (command_goes_map hc hg (fun _ => ()) rfl)
  case lock => exact fun p1 p2 hg => run_of_goes (command_goes_map hc hg (fun _ => ()) rfl)

/-- Settles O28: four bytes read as a number, low byte first (R129, R130). -/
theorem counterCommands : Obligations.CounterCommands := by
  unfold Obligations.CounterCommands
  exact fun s close failed v hc =>
    ⟨fun hg => run_of_goes (counter_goes hc hg rfl), fun hg => run_of_goes (counter_goes hc hg rfl)⟩

/-- Settles O29: the two transactions in sequence (R134). -/
theorem keyedHash : Obligations.KeyedHash := by
  unfold Obligations.KeyedHash
  exact fun s keynum msg h close failed failed' hc hg => run_of_goes (keyedHash_exchanges hc hg)

/-- Settles O30: what any line lets a chip reset leave, and what a working line shows of it (R135, R136, R217). -/
theorem chipReset : Obligations.ChipReset := by
  unfold Obligations.ChipReset
  intro s
  obtain ⟨t, ht, hleaves⟩ := chipReset_total s
  obtain ⟨l, hreg⟩ := hleaves.reg
  refine ⟨_, l, run_of_ok ht, rfl, hreg, hleaves.cfg, hleaves.host, hleaves.rand, fun hq => ?_⟩
  obtain ⟨u, hu, hface⟩ := chipReset_goes s hq
  cases ht.symm.trans hu
  have hl : l = .asleep := (congrArg Regs.lstate hreg).symm.trans (congrArg (fun f : Face => f.reg.lstate) hface)
  exact ⟨hl, congrArg Face.trace hface⟩

end Sys2Proof.Settled
end

section
/-! The SessionCrypto statements of the operations that complete (spec/43_sessioncrypto.md R139 to R152): each is what the
laws say the operation reaches, its draws written as the statement writes them; then the obligations of the family. -/

namespace Sys2Proof.Machine

open Sys2Proof.Config (Params)

/-! ### Draws and marks as the statements write them -/

theorem slice_zero (b : Bytes) (n : Nat) : slice b 0 n = b.take n := by
  rw [slice, List.drop_zero]

theorem slice_randoms_20_13 (f : Face) : slice (f.randoms 33) 20 13 = (f.randoms 33).drop 20 := by
  rw [slice, List.take_of_length_le (by rw [List.length_drop, randoms_length])]

theorem randoms_33_take (f : Face) : (f.randoms 33).take 20 = f.randoms 20 := randoms_take f (by decide)

/-- The draws of a pairing, cut where R143 cuts them. -/
theorem xPair_eq (c : Params) (f : Face) (rng : Bytes) : xPair c (f.randoms 33) rng
    = xCheckmac c c.slot.pairing c.rom.pairingSecret ((f.randoms 33).take 20) ((f.randoms 33).drop 20) rng := by
  rw [xPair, slice_zero, slice_randoms_20_13]

theorem pairTk_eq (f : Face) (rng : Bytes) :
    pairTk (f.randoms 33) rng = sha256 (nonceMsg rng ((f.randoms 33).take 20)) := by
  rw [pairTk, slice_zero]

/-- Any exchange clears the mark of what was held before. -/
theorem and_decide_ne_nil {α : Type} [DecidableEq α] {l : List α} (h : l ≠ []) (b : Bool) :
    (b && decide (l = [])) = false := by
  rw [decide_eq_false h, Bool.and_false]

theorem stretchTkAfter_of_nil {rs : List StretchReply} (h : rs = []) (tk draws : Bytes) :
    stretchTkAfter tk draws rs = tk := by
  subst h; rfl

/-! ### Runs of session operations -/

section
variable {α : Type} {x : Op α} {v : α → Value} {s : State} {a : α} {xs : List Exchange} {n : Nat} {tk : Bytes} {b : Bool}

theorem runOrStop_of_session (h : Goes x s a (s.face.session xs n tk b)) :
    ∃ t tk, runOrStop x v s = .next t ∧ t.face = (s.face.session xs n tk b).ended (.success (v a)) := by
  obtain ⟨t, ht, hface⟩ := runOrStop_of_goes (v := v) h
  exact ⟨t, tk, ht, hface⟩

theorem runOrStop_of_session_wrong (h : Fails x s .seFailure (s.face.session xs n tk b)) :
    ∃ t tk, runOrStop x v s = .next t ∧ t.face = (s.face.session xs n tk b).ended (.error .seFailure) := by
  obtain ⟨t, ht, hface⟩ := runOrStop_of_fails (v := v) h (fun _ => Err.noConfusion)
  exact ⟨t, tk, ht, hface⟩

end

end Sys2Proof.Machine

namespace Sys2Proof.Settled

open Sys2Proof.Machine

/-- Settles O31: one exchange, then the hash of the nonce message in `TK` (R139). -/
theorem pickNonce : Obligations.PickNonce := by
  unfold Obligations.PickNonce
  exact fun s numin rng hc hg => runOrStop_of_goes (pickNonce_goes numin rng s hc hg)

/-- Settles O32: a fresh nonce, then the fold over a slot or over the counter (R140, R152). -/
theorem gendig : Obligations.Gendig := by
  unfold Obligations.Gendig
  exact fun s rng hc => ⟨fun slot plaintext hg => runOrStop_of_goes (gendigSlot_goes slot plaintext rng s hc hg),
    fun v hg => runOrStop_of_goes (gendigCounter_goes v rng s hc hg)⟩

/-- Settles O34: the flag is the comparison of the MAC received with the one expected (R142). -/
theorem isCorrectTempkey : Obligations.IsCorrectTempkey := by
  unfold Obligations.IsCorrectTempkey
  intro s expected mac hc hg
  obtain ⟨t, ht, hface⟩ := runOrStop_of_goes (v := .flag) (isCorrectTempkey_goes expected mac s hc hg)
  exact ⟨t, ctEqualBytes mac (tempkeyMac s.cfg expected), ht, hface, ctEqualBytes_iff mac (tempkeyMac s.cfg expected)⟩

/-- Settles O35: `pair_unlock` is `checkmac` with the pairing slot and its secret (R143, R144). -/
theorem checkmac : Obligations.Checkmac := by
  unfold Obligations.Checkmac
  intro s rng hc
  constructor
  · intro keynum secret xs hg
    have h := checkmac_goes keynum secret rng s hc (by rw [slice_zero, slice_randoms_20_13]; exact hg)
    rw [slice_zero, slice_randoms_20_13, ← randoms_33_take] at h
    exact runOrStop_of_goes h
  · intro xs hg
    have h := pairUnlock_goes rng s hc (by rw [xPair_eq]; exact hg)
    rw [xPair_eq, pairTk_eq] at h
    exact runOrStop_of_goes h

/-- Settles O36: at least one block is read, so a round leaves `TK_VALID` 0 (R145). -/
theorem encryptedRead : Obligations.EncryptedRead := by
  unfold Obligations.EncryptedRead
  intro s slot authSlot secret n rs hc hn hrs draws xs hg
  have hne : rs ≠ [] := by
    rintro rfl
    simp only [List.length_nil, blocksFor, Config.blockLen] at hrs
    omega
  have h := encryptedRead_goes slot authSlot secret n rs s hc hrs.symm hg
  rw [and_decide_ne_nil hne] at h
  exact runOrStop_of_session h

/-- Settles O37: as many rounds as the data has blocks (R146). -/
theorem encryptedWrite : Obligations.EncryptedWrite := by
  unfold Obligations.EncryptedWrite
  intro s slot authSlot secret data rs hc hdata hlength draws xs hg
  have hne : rs ≠ [] := by
    rintro rfl
    exact hdata (List.length_eq_zero_iff.mp hlength)
  have h := encryptedWrite_goes slot authSlot secret data rs s hc (by omega) hg
  rw [and_decide_ne_nil hne] at h
  exact runOrStop_of_session h

/-- Settles O38: with the plain key no keyed hash is sent, with a key slot one is (R147). -/
theorem mixin : Obligations.Mixin := by
  unfold Obligations.Mixin
  exact fun s start rng hc => ⟨fun hg => runOrStop_of_session (mixin_plain_goes start rng s hc hg),
    fun keynum h hk hg => runOrStop_of_session (mixin_key_goes keynum start rng h s hc hk hg)⟩

/-- Settles O39: one round for each iteration; with none, `TK` is what it was (R148). -/
theorem stretch : Obligations.Stretch := by
  unfold Obligations.Stretch
  intro s start rs hc xs hg
  obtain ⟨t, ht, hface⟩ := runOrStop_of_goes (v := .bytes) (stretch_goes start rs s hc hg)
  exact ⟨t, _, ht, fun hnil => stretchTkAfter_of_nil hnil .., hface⟩

/-- Settles O40: the right MAC and any other, for a slot and for the counter (R149, R150). -/
theorem authReads : Obligations.AuthReads := by
  unfold Obligations.AuthReads
  intro s pairRng gendigRng hc
  refine ⟨?slot, ?counter, ?slotWrong, ?counterWrong⟩
  case slot => exact fun slot v hg => runOrStop_of_session (authReadSlot_goes slot pairRng v gendigRng s hc hg)
  case counter => exact fun v hg => runOrStop_of_session (authReadCounter_goes v pairRng gendigRng s hc hg)
  case slotWrong =>
    exact fun slot v mac hm hg =>
      runOrStop_of_session_wrong (authReadSlot_wrong slot pairRng v gendigRng mac s hc hm hg)
  case counterWrong =>
    exact fun v mac hm hg => runOrStop_of_session_wrong (authReadCounter_wrong v pairRng gendigRng mac s hc hm hg)

/-- Settles O41: the increments, then the check of the last value (R151, R232). -/
theorem addCounter : Obligations.AddCounter := by
  unfold Obligations.AddCounter
  exact fun s values last pairRng gendigRng hc =>
    ⟨fun hg => runOrStop_of_session (addCounter_goes values last pairRng gendigRng s hc hg),
      fun mac hm hg =>
        runOrStop_of_session_wrong (addCounter_wrong values last pairRng gendigRng mac s hc hm hg)⟩

end Sys2Proof.Settled
end

section
/-! The PinEngine statements (spec/44_pinengine.md R156 to R173): the record taken into `REC`, what each operation comes to
once the record is checked, the runs of the laws taken from there; then the obligations of the family. -/

namespace Sys2Proof.Machine

open Sys2Proof.Config (Params)

/-! ### The record taken -/

/-- The state with the caller's record in `REC` (R176). -/
def State.holding (s : State) (record : Bytes) : State :=
  { s with reg := { s.reg with record := record, recHeld := true } }

theorem writeRec_run (record : Bytes) (s : State) : writeRec record s = .ok () (s.holding record) := rfl

section
variable {x : Op Unit} {s t : State} {record : Bytes} {xs : List Exchange} {n : Nat} {h : Held} {v : Bool} {e : Err}

theorem onRecord_run : (do writeRec record; x : Op Unit) s = x (s.holding record) := bind_ok (writeRec_run record s)

theorem holding_face :
    (s.holding record).face = s.face.pin [] 0 s.reg.tk s.reg.tkValid (s.face.held.withRecord record) := rfl

/-- Taking the record leaves the line and the draws alone. -/
theorem grants_holding (hg : s.face.grants xs) : (s.holding record).face.grants xs :=
  onRecord_grants s record xs _ holding_face hg

theorem pin_holding {tk : Bytes} :
    (s.holding record).face.pin xs n tk v h = s.face.pin xs n tk v h := by
  rw [holding_face, pin_pin, List.nil_append, Nat.zero_add]

/-- A PIN operation that ends well on the record taken. -/
theorem runOrStop_of_pins_holding (hx : Pins x (s.holding record) () xs n v h) : ∃ t tk,
    runOrStop (do writeRec record; x) (fun _ => .unit) s = .next t
      ∧ t.face = (s.face.pin xs n tk v h).ended (.success .unit) := by
  obtain ⟨t, tk, ht, hface⟩ := hx
  exact runOrStop_of_pins ⟨t, tk, onRecord_run.trans ht, hface.trans pin_holding⟩

/-- A PIN operation that raises an error outcome on the record taken. -/
theorem runOrStop_of_pinsFail_holding (hx : PinsFail x (s.holding record) e xs n v h) (he : ∀ f, e ≠ .stop f) : ∃ t tk,
    runOrStop (do writeRec record; x) (fun _ => .unit) s = .next t
      ∧ t.face = (s.face.pin xs n tk v h).ended (.error e) := by
  obtain ⟨t, tk, ht, hface⟩ := hx
  exact runOrStop_of_pinsFail ⟨t, tk, onRecord_run.trans ht, hface.trans pin_holding⟩ he

theorem runOrStop_error_holding (hx : x (s.holding record) = .error e t) (he : ∀ f, e ≠ .stop f) :
    runOrStop (do writeRec record; x) (fun _ => .unit) s = .next (t.endWith (.error e)) :=
  runOrStop_error (onRecord_run.trans hx) he

end

/-- Which run a next state with an error outcome comes from. -/
theorem error_of_runOrStop {α : Type} {x : Op α} {v : α → Value} {s t : State} {e : Err} (h : runOrStop x v s = .next t)
    (he : t.ctl.ending = .error e) : ∃ u, x s = .error e u ∧ t = u.endWith (.error e) := by
  unfold runOrStop at h
  split at h
  · cases h; cases he
  · cases h
  · rename_i e' u _ hx
    cases h
    cases he
    exact ⟨u, hx, rfl⟩

/-! ### What each operation comes to -/

theorem bind_error {α β : Type} {x : Op α} {k : α → Op β} {s t : State} {e : Err} (h : x s = .error e t) :
    (x >>= k) s = .error e t := by rw [bind_run, h]

section
variable {s : State} (hr : s.reg.recHeld = true)
include hr

section
variable (hv : ¬ recordValid s.cfg s.reg.record)
include hv

theorem setup_refuses_invalid : setup s = .error .badRequest s := bind_error (validate_refuses s hr hv)
theorem login_refuses_invalid : login s = .error .badRequest s := bind_error (validate_refuses s hr hv)
theorem change_refuses_invalid : change s = .error .badRequest s := bind_error (validate_refuses s hr hv)
theorem fetchSecret_refuses_invalid : fetchSecret s = .error .badRequest s := bind_error (validate_refuses s hr hv)

end

variable (hv : recordValid s.cfg s.reg.record)
include hv

section
variable (hs : ¬ recordVerifies s.cfg s.reg.bootSeed s.reg.record)
include hs

theorem login_refuses_unverified : login s = .error .hmacFail s :=
  (bind_ok (validate_run s hr hv)).trans (bind_error (verify_refuses s hr hs))
theorem change_refuses_unverified : change s = .error .hmacFail s :=
  (bind_ok (validate_run s hr hv)).trans (bind_error (verify_refuses s hr hs))
theorem fetchSecret_refuses_unverified : fetchSecret s = .error .hmacFail s :=
  (bind_ok (validate_run s hr hv)).trans (bind_error (verify_refuses s hr hs))

end

variable (hs : recordVerifies s.cfg s.reg.bootSeed s.reg.record)
include hs

/-- A checked record's login is decided by its flags, then by the length of its PIN (R165). -/
theorem login_checked : login s =
    (if hasFlag (recordFlags s.cfg s.reg.record) s.cfg.flag.isBlank then
      if hasFlag (recordFlags s.cfg s.reg.record) s.cfg.flag.successful then loginBlank else raise .badRequest
    else if hasFlag (recordFlags s.cfg s.reg.record) s.cfg.flag.successful then raise .badRequest
    else do
      let pinLen ← recWord Config.Layout.pinLen
      if pinLen = 0 then raise .badRequest else loginPin pinLen : Op Unit) s := by
  unfold login
  rw [bind_ok (validate_run s hr hv), bind_ok (verify_run s hr hs), bind_ok (getCfg_run s), bind_ok (recWord_run _ s hr)]
  rfl

theorem login_refuses_flags (hf : hasFlag (recordFlags s.cfg s.reg.record) s.cfg.flag.isBlank
    ≠ hasFlag (recordFlags s.cfg s.reg.record) s.cfg.flag.successful) : login s = .error .badRequest s := by
  rw [login_checked hr hv hs]
  cases hb : hasFlag (recordFlags s.cfg s.reg.record) s.cfg.flag.isBlank with
  | true =>
    have hsucc := Bool.eq_false_of_not_eq_true (fun h => hf (hb.trans h.symm))
    rw [if_pos rfl, hsucc, if_neg Bool.false_ne_true, raise_run]
  | false =>
    have hsucc := Bool.eq_true_of_not_eq_false (fun h => hf (hb.trans h.symm))
    rw [if_neg Bool.false_ne_true, if_pos hsucc, raise_run]

theorem login_refuses_noPin (hblank : hasFlag (recordFlags s.cfg s.reg.record) s.cfg.flag.isBlank = false)
    (hsucc : hasFlag (recordFlags s.cfg s.reg.record) s.cfg.flag.successful = false)
    (hpin : fieldWord s.reg.record s.cfg.layout.pinLen = 0) : login s = .error .badRequest s := by
  rw [login_checked hr hv hs, hblank, hsucc, if_neg Bool.false_ne_true, if_neg Bool.false_ne_true,
    bind_ok (recWord_run _ s hr), if_pos hpin, raise_run]

theorem login_blank_run (hblank : hasFlag (recordFlags s.cfg s.reg.record) s.cfg.flag.isBlank = true)
    (hsucc : hasFlag (recordFlags s.cfg s.reg.record) s.cfg.flag.successful = true) : login s = loginBlank s := by
  rw [login_checked hr hv hs, if_pos hblank, if_pos hsucc]

theorem fetchSecret_refuses_flags
    (hsucc : hasFlag (recordFlags s.cfg s.reg.record) s.cfg.flag.successful = false) :
    fetchSecret s = .error .badRequest s := by
  unfold fetchSecret
  rw [bind_ok (validate_run s hr hv), bind_ok (verify_run s hr hs), bind_ok (getCfg_run s), bind_ok (recWord_run _ s hr)]
  exact congrFun (if_neg (ne_true_of_eq_false hsucc)) s

/-- A checked record's change is refused for its flags, or begins with the digest it is keyed by (R170). -/
theorem change_checked : change s =
    (if ¬ hasFlag (recordFlags s.cfg s.reg.record) s.cfg.flag.successful then raise .badRequest
    else if badChangeFlags s.cfg (fieldWord s.reg.record s.cfg.layout.changeFlags) then raise .badRequest
    else do
      let oldD ← changeDigest (fieldWord s.reg.record s.cfg.layout.changeFlags) (recordFlags s.cfg s.reg.record)
      writeDigest oldD
      if hasFlag (fieldWord s.reg.record s.cfg.layout.changeFlags) s.cfg.flag.changeSecret then changeSecret oldD
      else pure ()
      if hasFlag (fieldWord s.reg.record s.cfg.layout.changeFlags) s.cfg.flag.changeWalletPin then changePin oldD
      else pure ()
      sign : Op Unit) s := by
  unfold change
  rw [bind_ok (validate_run s hr hv), bind_ok (verify_run s hr hs), bind_ok (getCfg_run s), bind_ok (recWord_run _ s hr),
    bind_ok (recWord_run _ s hr)]
  rfl

theorem change_refuses_flags (hsucc : hasFlag (recordFlags s.cfg s.reg.record) s.cfg.flag.successful = false) :
    change s = .error .badRequest s := by
  rw [change_checked hr hv hs, if_pos (ne_true_of_eq_false hsucc), raise_run]

variable (hsucc : hasFlag (recordFlags s.cfg s.reg.record) s.cfg.flag.successful = true)
include hsucc

theorem change_refuses_changeFlags
    (hbad : badChangeFlags s.cfg (fieldWord s.reg.record s.cfg.layout.changeFlags) = true) :
    change s = .error .badRequest s := by
  rw [change_checked hr hv hs, if_neg (not_not_intro hsucc), if_pos hbad, raise_run]

omit hv hs hsucc in
/-- A change of PIN needs a new PIN, and an old one exactly where the record is not blank (R170). -/
theorem changeDigest_refuses {cf flags : Word32} (hpin : hasFlag cf s.cfg.flag.changeWalletPin = true)
    (hlengths : fieldWord s.reg.record s.cfg.layout.newPinLen = 0
      ∨ hasFlag flags s.cfg.flag.isBlank ≠ decide (fieldWord s.reg.record s.cfg.layout.oldPinLen = 0)) :
    changeDigest cf flags s = .error .badRequest s := by
  unfold changeDigest
  rw [bind_ok (getCfg_run s), if_pos hpin, bind_ok (recWord_run _ s hr), bind_ok (recWord_run _ s hr)]
  by_cases hnew : fieldWord s.reg.record s.cfg.layout.newPinLen = 0
  · exact congrFun (if_pos hnew) s
  have hold := hlengths.resolve_left hnew
  rw [if_neg hnew]
  by_cases h0 : fieldWord s.reg.record s.cfg.layout.oldPinLen = 0
  · have hblank : ¬ hasFlag flags s.cfg.flag.isBlank = true := fun h => hold (h.trans (decide_eq_true h0).symm)
    rw [if_neg (fun h => h.2 h0), if_pos ⟨hblank, h0⟩, raise_run]
  · have hblank : hasFlag flags s.cfg.flag.isBlank = true :=
      Bool.eq_true_of_not_eq_false (fun h => hold (h.trans (decide_eq_false h0).symm))
    rw [if_pos ⟨hblank, h0⟩, raise_run]

theorem change_refuses_lengths
    (hbad : badChangeFlags s.cfg (fieldWord s.reg.record s.cfg.layout.changeFlags) = false)
    (hpin : hasFlag (fieldWord s.reg.record s.cfg.layout.changeFlags) s.cfg.flag.changeWalletPin = true)
    (hlengths : fieldWord s.reg.record s.cfg.layout.newPinLen = 0 ∨ hasFlag (recordFlags s.cfg s.reg.record)
      s.cfg.flag.isBlank ≠ decide (fieldWord s.reg.record s.cfg.layout.oldPinLen = 0)) :
    change s = .error .badRequest s := by
  rw [change_checked hr hv hs, if_neg (not_not_intro hsucc), if_neg (ne_true_of_eq_false hbad),
    bind_error (changeDigest_refuses hr hpin hlengths)]

end

/-- A change of something that is not the PIN is a change of the secret: no other flag is allowed (R170). -/
theorem changeSecret_of_not_changePin {c : Params} {cf : Word32} (hbad : badChangeFlags c cf = false)
    (hpin : hasFlag cf c.flag.changeWalletPin = false) : hasFlag cf c.flag.changeSecret = true := by
  simp only [badChangeFlags, Bool.or_eq_false_iff, decide_eq_false_iff_not, not_not] at hbad
  obtain ⟨hne, hother⟩ := hbad
  simp only [hasFlag, decide_eq_false_iff_not, not_not] at hpin
  refine decide_eq_true fun hsecret => hne ?_
  have hmasks : cf &&& (c.flag.changeWalletPin ||| c.flag.changeSecret) = 0 := by
    rw [BitVec.and_or_distrib_left, hpin, hsecret, BitVec.or_self]
  calc cf = cf &&& (~~~(c.flag.changeWalletPin ||| c.flag.changeSecret)
        ||| (c.flag.changeWalletPin ||| c.flag.changeSecret)) := by rw [BitVec.or_comm, BitVec.or_not_self, BitVec.and_allOnes]
    _ = 0 := by rw [BitVec.and_or_distrib_left, hother, hmasks, BitVec.or_self]

end Sys2Proof.Machine

namespace Sys2Proof.Settled

open Sys2Proof.Machine

/-- Settles O44: each refusal leaves the record as it was taken (R156, R158, R165, R170, R173, R176). -/
theorem recordRefused : Obligations.RecordRefused := by
  unfold Obligations.RecordRefused
  intro s r kept
  have refused : ∀ {x : Op Unit} {e : Err}, x (s.holding r) = .error e (s.holding r) → (∀ f, e ≠ .stop f) →
      runOrStop (do writeRec r; x) (fun _ => .unit) s = .next (kept.endWith (.error e)) := runOrStop_error_holding
  refine ⟨fun hv i hi => ?invalid, fun hv hs i hi => ?unverified, fun hv hs =>
    ⟨fun hsucc i hi => ?notSuccessful, ?changeFlags, ?lengths, ?loginFlags, ?noPin⟩⟩
  case invalid =>
    simp only [List.mem_cons, List.not_mem_nil, or_false] at hi
    rcases hi with rfl | rfl | rfl | rfl
    · exact refused (setup_refuses_invalid rfl hv) (fun _ => Err.noConfusion)
    · exact refused (login_refuses_invalid rfl hv) (fun _ => Err.noConfusion)
    · exact refused (change_refuses_invalid rfl hv) (fun _ => Err.noConfusion)
    · exact refused (fetchSecret_refuses_invalid rfl hv) (fun _ => Err.noConfusion)
  case unverified =>
    simp only [List.mem_cons, List.not_mem_nil, or_false] at hi
    rcases hi with rfl | rfl | rfl
    · exact refused (login_refuses_unverified rfl hv hs) (fun _ => Err.noConfusion)
    · exact refused (change_refuses_unverified rfl hv hs) (fun _ => Err.noConfusion)
    · exact refused (fetchSecret_refuses_unverified rfl hv hs) (fun _ => Err.noConfusion)
  case notSuccessful =>
    simp only [List.mem_cons, List.not_mem_nil, or_false] at hi
    rcases hi with rfl | rfl
    · exact refused (change_refuses_flags rfl hv hs hsucc) (fun _ => Err.noConfusion)
    · exact refused (fetchSecret_refuses_flags rfl hv hs hsucc) (fun _ => Err.noConfusion)
  case changeFlags =>
    exact fun hsucc hbad => refused (change_refuses_changeFlags rfl hv hs hsucc hbad) (fun _ => Err.noConfusion)
  case lengths =>
    exact fun hsucc hbad hpin hlengths =>
      refused (change_refuses_lengths rfl hv hs hsucc hbad hpin hlengths) (fun _ => Err.noConfusion)
  case loginFlags => exact fun hf => refused (login_refuses_flags rfl hv hs hf) (fun _ => Err.noConfusion)
  case noPin =>
    exact fun hblank hsucc hpin => refused (login_refuses_noPin rfl hv hs hblank hsucc hpin) (fun _ => Err.noConfusion)

/-- Settles O45: the blank chip, and the warm-up pairing that fails (R162 to R164, R198). -/
theorem setupBlank : Obligations.SetupBlank := by
  unfold Obligations.SetupBlank
  constructor
  · intro s record r hc hv draws hg
    exact runOrStop_of_pins_holding (pins_setup_blank r (s.holding record) rfl hc hv (grants_holding hg))
  · intro s record hv cleared t ht hending
    obtain ⟨u, hu, rfl⟩ := error_of_runOrStop ht hending
    rw [endWith_endWith]
    exact runOrStop_error_holding (setup_brick (s.holding record) u rfl hv hu) (fun _ => Err.noConfusion)

/-- Settles O46: 23 exchanges and the `CheckMac` that is refused (R162 to R164). -/
theorem setupPersonal : Obligations.SetupPersonal := by
  unfold Obligations.SetupPersonal
  intro s record r code hc hv h0 hm draws xs g hg hq hh
  exact setup_personal_run s record r code hc hv h0 hm draws rfl xs rfl hg hq hh

/-- Settles O47: a blank login's writes are known in full (R165). -/
theorem loginBlank : Obligations.LoginBlank := by
  unfold Obligations.LoginBlank
  intro s record hv hs hblank hsucc
  have hlogin := (login_blank_run (s := s.holding record) rfl hv hs hblank hsucc).trans (loginBlank_run _ rfl)
  exact runOrStop_of_goes ⟨_, onRecord_run.trans hlogin, rfl⟩

/-- Settles O48: the login of the laws, on the record taken (R161, R165, R166). -/
theorem loginSucceeds : Obligations.LoginSucceeds := by
  unfold Obligations.LoginSucceeds
  intro s record r hc hv hs hblank hsucc hl hk hp hb hi hn draws pin hg
  exact runOrStop_of_pins_holding
    (pins_login r (s.holding record) rfl hc hv hs hblank hsucc hl hk hp hb hi hn (grants_holding hg))

/-- Settles O49: the same login up to the MAC that is not the one expected (R165, R167). -/
theorem loginWrongPin : Obligations.LoginWrongPin := by
  unfold Obligations.LoginWrongPin
  intro s record r hc hv hs hblank hsucc hl hk hp draws pin hm hg
  exact runOrStop_of_pinsFail_holding
    (pins_login_wrong r (s.holding record) rfl hc hv hs hblank hsucc hl hk hp hm (grants_holding hg))
    (fun _ => Err.noConfusion)

/-- Settles O50: no flag but the secret's is left, and the masked secret has its 72 bytes (R169, R170, R172). -/
theorem changeSecret : Obligations.ChangeSecret := by
  unfold Obligations.ChangeSecret
  intro s record rs hwf hlayout hlength hv hs hsucc hbad hpin hn draws xs hg
  exact runOrStop_of_pins_holding
    (pins_changeSecret rs (s.holding record) rfl (wf_pulses hwf) hv hs hsucc hbad
      (changeSecret_of_not_changePin hbad hpin) hpin hn (maskSecret_length hwf hlayout hlength) (grants_holding hg))

/-- Settles O51: the change that goes through, and the old PIN that the chip does not confirm (R170, R171, R197). -/
theorem changePin : Obligations.ChangePin := by
  unfold Obligations.ChangePin
  constructor
  · intro s record r hwf hlayout hlength hv hs hsucc hbad hpin hnew hold hblank hn hko hk hp hb hi draws hg
    exact runOrStop_of_pins_holding (pins_change_pin r (s.holding record) rfl (wf_pulses hwf) hv hs hsucc hbad hpin hnew hold
        hblank hn (maskSecret_length hwf hlayout hlength) hko hk hp hb hi (grants_holding hg))
  · intro s record r mac hc hv hs hsucc hbad hpin hnew hold hblank hk hp n draws pin hm hg
    exact runOrStop_of_pinsFail_holding (pins_change_wrong r mac (s.holding record) rfl hc hv hs hsucc hbad hpin hnew hold
        hblank hk hp hm (grants_holding hg)) (fun _ => Err.noConfusion)

/-- Settles O52: the fetch of the laws, on the record taken (R169, R173). -/
theorem fetchSecret : Obligations.FetchSecret := by
  unfold Obligations.FetchSecret
  intro s record rs hc hv hs hsucc hn draws xs hg
  exact runOrStop_of_pins_holding
    (pins_fetchSecret rs (s.holding record) rfl hc hv hs hsucc hn (grants_holding hg))

end Sys2Proof.Settled
end

section
/-! The statements of the dispatch boundary (spec/45_dispatch.md R177 to R185): what the body of `se_dispatch` routes to, what
each routine answers, what the exit leaves; then the obligations of the family. -/

namespace Sys2Proof.Machine

open Sys2Proof.Config (Params)

/-! ### The body's routing (R177, R179) -/

/-- Where a method code leads, once the length is in range and the delay drawn. -/
def dispatchRoute (c : Params) (method : Word32) (len : Nat) (arg2 : Word32) : Op Unit :=
  if method = c.method.pinControl then pinControl len arg2
  else if method = c.method.readSeSlot then readSeSlot len arg2
  else if method = c.method.getRandomBytes then getRandomBytes len
  else if method = c.method.isBricked then isBricked
  else raise .badRequest

theorem dispatchBody_of_lt {s : State} {len : Nat} (h : s.cfg.lenInMax < len) (method arg2 : Word32) :
    dispatchBody method len arg2 s = .error .badRequest s := by
  unfold dispatchBody
  rw [bind_ok (getCfg_run s), if_pos h, raise_run]

theorem dispatchBody_of_le {s : State} {len : Nat} (h : len ≤ s.cfg.lenInMax) (method arg2 : Word32) :
    dispatchBody method len arg2 s = dispatchRoute s.cfg method len arg2 s.delayed := by
  unfold dispatchBody
  rw [bind_ok (getCfg_run s), if_neg (Nat.not_lt.mpr h)]
  rfl

section
variable {c : Params} {method arg2 : Word32} {len : Nat}

theorem dispatchRoute_pinControl : dispatchRoute c c.method.pinControl len arg2 = pinControl len arg2 := if_pos rfl

theorem dispatchRoute_unknown (h : method ≠ c.method.pinControl ∧ method ≠ c.method.readSeSlot
    ∧ method ≠ c.method.getRandomBytes ∧ method ≠ c.method.isBricked) :
    dispatchRoute c method len arg2 = raise .badRequest := by
  obtain ⟨hpin, hread, hrandom, hbricked⟩ := h
  rw [dispatchRoute, if_neg hpin, if_neg hread, if_neg hrandom, if_neg hbricked]

variable (hwf : c.wf = true)
include hwf

/-- The four method codes are apart (R8). -/
theorem methods_apart : c.method.readSeSlot ≠ c.method.pinControl ∧ c.method.getRandomBytes ≠ c.method.pinControl
    ∧ c.method.getRandomBytes ≠ c.method.readSeSlot ∧ c.method.isBricked ≠ c.method.pinControl
    ∧ c.method.isBricked ≠ c.method.readSeSlot ∧ c.method.isBricked ≠ c.method.getRandomBytes := by
  have h := wf_methods hwf
  simp only [List.nodup_cons, List.mem_cons, List.not_mem_nil, or_false, not_or] at h
  obtain ⟨⟨h1, h2, h3⟩, ⟨h4, h5⟩, h6, -⟩ := h
  exact ⟨Ne.symm h1, Ne.symm h2, Ne.symm h4, Ne.symm h3, Ne.symm h5, Ne.symm h6⟩

theorem dispatchRoute_readSeSlot : dispatchRoute c c.method.readSeSlot len arg2 = readSeSlot len arg2 := by
  rw [dispatchRoute, if_neg (methods_apart hwf).1, if_pos rfl]

theorem dispatchRoute_getRandomBytes : dispatchRoute c c.method.getRandomBytes len arg2 = getRandomBytes len := by
  obtain ⟨-, hpin, hread, -⟩ := methods_apart hwf
  rw [dispatchRoute, if_neg hpin, if_neg hread, if_pos rfl]

theorem dispatchRoute_isBricked : dispatchRoute c c.method.isBricked len arg2 = isBricked := by
  obtain ⟨-, -, -, hpin, hread, hrandom⟩ := methods_apart hwf
  rw [dispatchRoute, if_neg hpin, if_neg hread, if_neg hrandom, if_pos rfl]

end

/-! ### The routines -/

theorem pinControl_refuses {s : State} {len : Nat} {arg2 : Word32} (h : isPinMethod s.cfg arg2 = false ∨ len < 276) :
    pinControl len arg2 s = .error .badRequest s := by
  unfold pinControl
  rw [bind_ok (getCfg_run s)]
  by_cases hm : isPinMethod s.cfg arg2 = true
  · have hshort : len < 276 := h.resolve_left (ne_false_of_eq_true hm)
    rw [if_neg (not_not_intro hm)]
    exact congrFun (if_pos hshort) s
  · rw [if_pos hm, raise_run]

theorem readSeSlot_refuses {s : State} {len : Nat} {arg2 : Word32} (h : s.cfg.slot.numSlots ≤ arg2.toNat ∨ len < 32) :
    readSeSlot len arg2 s = .error .badRequest s := by
  unfold readSeSlot
  rw [bind_ok (getCfg_run s)]
  by_cases hslot : s.cfg.slot.numSlots ≤ arg2.toNat
  · rw [if_pos hslot, raise_run]
  · rw [if_neg hslot]
    exact congrFun (if_pos (h.resolve_left hslot)) s

theorem goes_hostWrite (v : Bytes) (s : State) : Goes (hostWrite v) s () (s.face.withBuf v) := ⟨_, rfl, rfl⟩

theorem readSeSlot_goes {s : State} {len : Nat} {arg2 : Word32} (hc : s.cfg.pulse0 ≠ s.cfg.pulse1)
    (hslot : arg2.toNat < s.cfg.slot.numSlots) (hlen : 32 ≤ len) (rng v : Bytes)
    (hg : s.face.grants (xPair s.cfg (s.face.randoms 33) rng ++ [xRead s.cfg (arg2.setWidth 16) 0 v])) :
    Goes (readSeSlot len arg2) s () ((s.face.session
      (xPair s.cfg (s.face.randoms 33) rng ++ [xRead s.cfg (arg2.setWidth 16) 0 v]) 33
      (pairTk (s.face.randoms 33) rng) false).withBuf v) := by
  unfold readSeSlot
  refine goes_bind (goes_cfg s) fun t ht => ?_
  rw [if_neg (show ¬ s.face.cfg.slot.numSlots ≤ arg2.toNat from Nat.not_le.mpr hslot),
    if_neg (show ¬ len < Config.blockLen from Nat.not_lt.mpr hlen)]
  have htc : t.cfg = s.cfg := congrArg Face.cfg ht
  have hpair := pairUnlock_goes rng t (by rwa [htc]) (by rw [htc, ht]; exact grants_left hg)
  rw [htc, ht] at hpair
  refine goes_bind hpair fun u hu => ?_
  have huc : u.cfg = s.cfg := (congrArg Face.cfg hu).trans (session_cfg ..)
  have hread := read_goes (arg2.setWidth 16) 0 v u (by rwa [huc])
    (by rw [huc, hu, session_grants]; exact ((grants_append ..).mp hg).2)
  have htk : u.reg.tk = pairTk (s.face.randoms 33) rng := congrArg (fun f : Face => f.reg.tk) hu
  have hvalid : u.reg.tkValid = false := congrArg (fun f : Face => f.reg.tkValid) hu
  rw [huc, hu, htk, hvalid, session_session] at hread
  exact goes_bind (goes_seCall hread) fun w hw => hw ▸ goes_hostWrite v w

theorem readSeSlot_noStop {s t : State} {len : Nat} {arg2 : Word32} {e : Err} (h : readSeSlot len arg2 s = .error e t) :
    ∀ f, e ≠ .stop f :=
  fun f hf => ((triple_readSeSlot (B := False) host_trivial len arg2 s trivial).2 e t h).2 f hf

theorem getRandomBytes_run (len : Nat) (s : State) : getRandomBytes len s = .ok () { s with
    env := { s.env with rand := s.env.rand.after Config.freeRand len }
    host := { s.host with buf := hostOverwrite s.host.buf (s.face.randoms len) } } := by
  cases len with
  | zero => rfl
  | succ n => rfl

theorem isBricked_of_ok {s t : State} (h : pairUnlock s = .ok () t) : isBricked s = .ok () t := catching_ok h

theorem isBricked_of_seFailure {s t : State} (h : pairUnlock s = .error .seFailure t) :
    isBricked s = .error .brick t := by
  rw [isBricked, unlockOrBrick, catching_error h (fun _ => Err.noConfusion), if_pos rfl, raise_run]

theorem isBricked_noStop {s t : State} {e : Err} (h : isBricked s = .error e t) : ∀ f, e ≠ .stop f :=
  fun f hf => ((triple_unlockOrBrick (B := False) keeps_trivial s trivial).2 e t h).2 f hf

/-! ### HOST's side is kept by what does not touch the buffer (R51) -/

theorem seq_host (h : HostSide) : SeqKeeps False (fun s => s.host = h) := by
  constructor
  case toLineKeeps => constructor <;> intros <;> assumption
  all_goals intros; assumption

theorem keeps_host (h : HostSide) : Keeps False AnyCommand (fun s => s.host = h) where
  wide hw := hw.elim
  plain _ _ _ _ _ := trivial
  transact o p q d e cl _ s hs := triple_transact (seq_host h) o p q d e cl (fun hw => hw.elim) s hs.1
  env _ _ hs := hs
  tk _ _ _ hs := hs
  clear _ hs := hs
  digest _ _ _ hs := hs
  cache _ _ _ hs := hs
  record _ _ _ hs := hs

/-! ### The exit (R177, R184) -/

theorem runOrStop_of_ok {α : Type} {x : Op α} {v : α → Value} {s t : State} {a : α} (h : x s = .ok a t) :
    runOrStop x v s = .next (t.endWith (.success (v a))) := by simp only [runOrStop, h]

/-- The reset on exit does not look at how the body ended. -/
theorem exec_chipReset_ending {t u : State} (h : chipReset t = .ok () u) (e : Ending) :
    exec .chipReset (t.endWith e) = .next (u.endWith (.success .unit)) := by
  show run chipReset (fun _ => .unit) (t.endWith e) = _
  rw [run_noted t noted_chipReset e, run_of_ok h]

/-- A body that ends, in two steps: the reset of what it leaves with `REC` released, and the code of its ending. -/
theorem dispatch_after {m arg2 : Word32} {len : Nat} {s t : State} {o : Except Err Unit} {e : Ending}
    (h : outcomeOf (dispatchBody m len arg2) s = .ok o t) (hcfg : t.cfg = s.cfg)
    (hcode : ∀ c, codeOf c e = resultCode c o) :
    ∃ u, exec .chipReset (t.released.endWith e) = .next u
      ∧ exec (.seDispatch m len arg2) s = .next (u.endWith (.success (.code (codeOf s.cfg.code e)))) := by
  obtain ⟨u, hu, hleaves⟩ := chipReset_total t.released
  refine ⟨_, exec_chipReset_ending hu e, ?_⟩
  rw [dispatch_of h hu, endWith_endWith, hcode, hleaves.cfg, show t.released.cfg = s.cfg from hcfg]

/-- Every next state of `se_dispatch` is what a chip reset leaves, with a code. -/
theorem dispatch_next {m arg2 : Word32} {len : Nat} {s t : State} (h : exec (.seDispatch m len arg2) s = .next t) :
    ∃ w u v, u.reg.bootSeed = s.reg.bootSeed ∧ u.reg.recHeld = false ∧ ResetLeaves u w
      ∧ t = w.endWith (.success (.code v)) := by
  have ended : ∀ {o : Except Err Unit} {r : State}, outcomeOf (dispatchBody m len arg2) s = .ok o r →
      r.reg.bootSeed = s.reg.bootSeed → ∃ w u v, u.reg.bootSeed = s.reg.bootSeed ∧ u.reg.recHeld = false
        ∧ ResetLeaves u w ∧ t = w.endWith (.success (.code v)) := by
    intro o r ho hseed
    obtain ⟨w, hw, hleaves⟩ := chipReset_total r.released
    rw [dispatch_of ho hw] at h
    cases h
    exact ⟨w, r.released, _, hseed, rfl, hleaves, rfl⟩
  have hseed := relates_dispatchBody seed_stable m len arg2 s
  cases hbody : dispatchBody m len arg2 s with
  | ok a r => exact ended (outcome_ok hbody) (hseed.1 a r hbody)
  | error e r =>
    rcases stop_or_not e with rfl | he
    · rw [dispatch_stop hbody] at h
      cases h
    · exact ended (outcome_error hbody he) (hseed.2 e r hbody)

/-- A body that refuses: only the exit is left (R178, R180, R181, R185). -/
theorem dispatch_refuses {m arg2 : Word32} {len : Nat} {s u : State}
    (h : dispatchBody m len arg2 s = .error .badRequest u) : ∃ t, exec (.seDispatch m len arg2) s = .next t
      ∧ t.ctl.ending = .success (.code u.cfg.code.badRequest) ∧ t.reg.busCalls = u.reg.busCalls ∧ t.host = u.host
      ∧ t.reg.recHeld = false ∧ t.env.delay = u.env.delay ∧ t.env.rand = u.env.rand
      ∧ (u.face.quiet 9 → t.face = u.face.dispatched.ended (.success (.code u.cfg.code.badRequest))) := by
  have hout := outcome_error h (fun _ => Err.noConfusion)
  obtain ⟨w, hw, hleaves⟩ := chipReset_total u.released
  obtain ⟨l, hreg⟩ := hleaves.reg
  have hexec := dispatch_of hout hw
  refine ⟨_, hexec, ?_, ?_, hleaves.host, ?_, hleaves.delay, hleaves.rand, fun hq => ?_⟩
  · rw [endWith_ending, hleaves.cfg]
    rfl
  · rw [endWith_reg, hreg]
    rfl
  · rw [endWith_reg, hreg]
    rfl
  · obtain ⟨v, hv, hface⟩ := dispatch_goes hout hq
    cases hexec.symm.trans hv
    exact hface

/-! ### A PIN operation through the boundary (R180) -/

theorem givesRecordBack_error (e : Err) : givesRecordBack (.error e) = returnsRecord (.error e) := by
  cases e <;> rfl

/-- What `pin_control` leaves of an operation that ends. -/
theorem pinControl_handedBack {s t : State} {len : Nat} {arg2 : Word32} {o : Except Err Unit} {e : Ending}
    (hm : isPinMethod s.cfg arg2 = true) (hl : 276 ≤ len)
    (hx : outcomeOf (pinOperation s.cfg arg2) (s.holding (hostBytes s.host.buf 0 276)) = .ok o t)
    (ht : t.reg.recHeld = true) (hback : givesRecordBack e = returnsRecord o) :
    ∃ u, pinControl len arg2 s = propagate o u ∧ u.released.endWith e = (t.endWith e).handedBack ∧ u.cfg = t.cfg := by
  refine ⟨_, pinControl_run hm hl rfl hx ht, ?_, rfl⟩
  simp only [State.handedBack, endWith_ending, hback]
  rfl

/-- What the body of `se_dispatch` catches of `pin_control` is the operation's own outcome. -/
theorem outcome_propagate {x : Op Unit} {s u : State} {o : Except Err Unit} (h : x s = propagate o u)
    (ho : ∀ e, o = .error e → ∀ f, e ≠ .stop f) : outcomeOf x s = .ok o u := by
  cases o with
  | ok a => exact outcome_ok h
  | error e => exact outcome_error h (ho e rfl)

theorem dispatch_pinControl {s t : State} {len : Nat} {arg2 : Word32} {o : Except Err Unit} {e : Ending}
    (hlen : len ≤ s.cfg.lenInMax) (hl : 276 ≤ len) (hm : isPinMethod s.cfg arg2 = true)
    (hx : outcomeOf (pinOperation s.cfg arg2) (s.delayed.holding (hostBytes s.host.buf 0 276)) = .ok o t)
    (ht : t.reg.recHeld = true) (hcfg : t.cfg = s.cfg) (ho : ∀ x, o = .error x → ∀ f, x ≠ .stop f)
    (hback : givesRecordBack e = returnsRecord o) (hcode : ∀ c, codeOf c e = resultCode c o) :
    ∃ u, exec .chipReset (t.endWith e).handedBack = .next u
      ∧ exec (.seDispatch s.cfg.method.pinControl len arg2) s
        = .next (u.endWith (.success (.code (codeOf s.cfg.code e)))) := by
  obtain ⟨v, hv, hreleased, hvc⟩ := pinControl_handedBack (s := s.delayed) hm hl hx ht hback
  have hbody : dispatchBody s.cfg.method.pinControl len arg2 s = propagate o v := by
    rw [dispatchBody_of_le hlen, dispatchRoute_pinControl, hv]
  rw [← hreleased]
  exact dispatch_after (outcome_propagate hbody ho) (hvc.trans hcfg) hcode

end Sys2Proof.Machine

namespace Sys2Proof.Settled

open Sys2Proof.Machine

/-- Settles O53: the body refuses before the delay or after it, and the exit does the rest (R178 to R185). -/
theorem dispatchRefuses : Obligations.DispatchRefuses := by
  unfold Obligations.DispatchRefuses
  intro s method arg2 len hwf refusedFrom
  refine ⟨fun hlen => dispatch_refuses (dispatchBody_of_lt hlen method arg2), fun hlen hcases => ?_⟩
  refine dispatch_refuses (u := s.delayed) ?_
  rw [dispatchBody_of_le hlen]
  rcases hcases with hunknown | ⟨rfl, hpin⟩ | ⟨rfl, hread⟩
  · rw [dispatchRoute_unknown hunknown, raise_run]
  · rw [dispatchRoute_pinControl]
    exact pinControl_refuses (s := s.delayed) hpin
  · rw [dispatchRoute_readSeSlot hwf]
    exact readSeSlot_refuses (s := s.delayed) hread

/-- Settles O54: the operation's outcome decides the hand-back and the code; the exit fixes the registers (R177, R180,
R184, R187). -/
theorem dispatchPinControl : Obligations.DispatchPinControl := by
  unfold Obligations.DispatchPinControl
  constructor
  · intro s len arg2 hwf hlen hl hm i t hexec
    have hrun : runOrStop (do writeRec (hostBytes s.host.buf 0 276); pinOperation s.cfg arg2) (fun _ => .unit) s.delayed
        = .next t := (pinInstr_exec hm _ _).symm.trans hexec
    have hheld := pinOperation_held s.cfg arg2 (s.delayed.holding (hostBytes s.host.buf 0 276)) rfl
    have hcfg := relates_pinOperation cfg_stable s.cfg arg2 (s.delayed.holding (hostBytes s.host.buf 0 276))
    rw [runOrStop, onRecord_run] at hrun
    cases hx : pinOperation s.cfg arg2 (s.delayed.holding (hostBytes s.host.buf 0 276)) with
    | ok a u =>
      rw [hx] at hrun
      cases hrun
      exact dispatch_pinControl hlen hl hm (outcome_ok hx) (hheld.1 a u hx) (hcfg.1 a u hx) (fun _ h => by cases h) rfl
        (fun _ => rfl)
    | error e u =>
      rcases stop_or_not e with rfl | he
      · rw [hx] at hrun
        cases hrun
      · have hnext := runOrStop_error_holding (s := s.delayed) hx he
        rw [runOrStop, onRecord_run] at hnext
        cases hrun.symm.trans hnext
        exact dispatch_pinControl hlen hl hm (outcome_error hx he) (hheld.2 e u hx) (hcfg.2 e u hx)
          (fun _ h => by cases h; exact he) (givesRecordBack_error e) (fun _ => rfl)
  · intro s t method arg2 len hexec
    obtain ⟨w, u, v, hseed, hrec, hleaves, rfl⟩ := dispatch_next hexec
    obtain ⟨l, hreg⟩ := hleaves.reg
    rw [endWith_reg, hreg]
    exact ⟨⟨v, rfl⟩, hrec, rfl, rfl, rfl, rfl, rfl, rfl, rfl, rfl, rfl, hseed⟩

/-- Settles O55: the bytes drawn go over the buffer's first ones, directly and behind the boundary (R182). -/
theorem randomBytes : Obligations.RandomBytes := by
  unfold Obligations.RandomBytes
  intro s len
  constructor
  · exact ⟨_, run_of_ok (getRandomBytes_run len s), rfl, rfl, rfl⟩
  · intro hwf hlen hq arg2
    have hbody : dispatchBody s.cfg.method.getRandomBytes len arg2 s = getRandomBytes len s.delayed := by
      rw [dispatchBody_of_le hlen, dispatchRoute_getRandomBytes hwf]
    exact dispatch_goes (outcome_ok (hbody.trans (getRandomBytes_run len s.delayed))) hq

/-- Settles O56: refused, answered, and behind the boundary (R181, R184). -/
theorem readSeSlot : Obligations.ReadSeSlot := by
  unfold Obligations.ReadSeSlot
  intro s len arg2
  refine ⟨?refused, ?answered, ?dispatched⟩
  case refused => exact fun h => runOrStop_error (readSeSlot_refuses h) (fun _ => Err.noConfusion)
  case answered =>
    intro hc hslot hlen rng v xs hg
    obtain ⟨t, ht, hface⟩ := runOrStop_of_goes (v := fun _ => .unit) (readSeSlot_goes hc hslot hlen rng v hg)
    exact ⟨t, _, ht, hface⟩
  case dispatched =>
    intro hwf hlen
    refine dispatch_method (fun _ => rfl) ?_ (relates_readSeSlot cfg_stable len arg2) (fun e t => readSeSlot_noStop)
    rw [dispatchBody_of_le hlen, dispatchRoute_readSeSlot hwf]

/-- Settles O57: the pairing's one error becomes `Brick`, and nothing else changes (R183, R184, R198). -/
theorem isBricked : Obligations.IsBricked := by
  unfold Obligations.IsBricked
  refine fun s => ⟨?pairing, ?accepted, ?dispatched⟩
  case pairing =>
    have hhost := triple_pairUnlock (keeps_host s.host) s rfl
    cases hx : Machine.pairUnlock s with
    | ok a t =>
      exact ⟨_, runOrStop_of_ok hx, hhost.1 a t hx, .inl ⟨rfl, runOrStop_of_ok (isBricked_of_ok hx)⟩⟩
    | error e t =>
      obtain ⟨hkept, rfl, htk⟩ := hhost.2 e t hx
      refine ⟨_, runOrStop_error hx (fun _ => Err.noConfusion), hkept, .inr ⟨rfl, htk, ?_⟩⟩
      rw [endWith_endWith]
      exact runOrStop_error (isBricked_of_seFailure hx) (fun _ => Err.noConfusion)
  case accepted =>
    intro hc rng xs hg
    obtain ⟨t, ht, hface⟩ := pairUnlock_goes rng s hc hg
    exact runOrStop_of_session ⟨t, isBricked_of_ok ht, hface⟩
  case dispatched =>
    intro hwf len arg2 hlen
    refine dispatch_method (fun _ => rfl) ?_ (relates_unlockOrBrick cfg_stable) (fun e t => isBricked_noStop)
    rw [dispatchBody_of_le hlen, dispatchRoute_isBricked hwf]

end Sys2Proof.Settled
end

section
/-! The statements on the words of a call (spec/30_encoding.md R95, R98; log 2): every reader of operands takes what its
writer puts, so the decoder takes what the encoder puts, operation by operation. -/

namespace Sys2Proof

open Sys2Proof.Machine

/-! ### Readers and the words they read -/

/-- The reader reads `a` off these words, whatever follows them, and leaves what follows. -/
def Reads {α : Type} (x : Reader α) (words : Bytes) (a : α) : Prop := ∀ rest, x (words ++ rest) = .ok (a, rest)

section
variable {α β : Type}

theorem reads_nothing (a : α) : Reads (pure a) [] a := reader_pure a

theorem Reads.bind {x : Reader α} {k : α → Reader β} {w w' : Bytes} {a : α} {b : β} (hx : Reads x w a)
    (hk : Reads (k a) w' b) : Reads (x >>= k) (w ++ w') b := by
  intro rest
  rw [List.append_assoc, reader_bind (hx _), hk]

/-- The last operand, and the operation made of all of them. -/
theorem Reads.last {x : Reader α} {w : Bytes} {a : α} (hx : Reads x w a) (f : α → β) :
    Reads (do let v ← x; pure (f v)) w (f a) := by
  intro rest
  rw [reader_bind (hx rest), reader_pure]

end

theorem reads_byte (v : Byte) : Reads getByte [v] v := getByte_single v

theorem reads_word16 (v : Word16) : Reads getWord16 (u16le v) v := getWord16_put v

theorem reads_word32 (v : Word32) : Reads getWord32 (u32le v) v := getWord32_put v

theorem reads_nat {n : Nat} (h : fits32 n = true) : Reads getNat (putNat n) n := getNat_put h

theorem reads_fixed {n : Nat} {b : Bytes} (h : b.length = n) : Reads (getFixed n) b b := getFixed_put h

theorem reads_bytes {b : Bytes} (h : lenFits b = true) : Reads getBytes (putBytes b) b := getBytes_put h

theorem reads_close (c : Close) : Reads getClose (putClose c) c := getClose_put c

theorem reads_expect {e : Expect} (h : e.wf = true) : Reads getExpect (putExpect e) e := getExpect_put h

/-! ### Operands -/

/-- `Lock` has the one head whose low byte is an operand; no other operation's head is in its range. -/
theorem getOperands_lock (p1 : Byte) : getOperands (Head.lock + p1.toNat)
    = (do return .lock p1 (← getWord16) (← getClose) : Reader Instr) := by
  have hbyte : p1.toNat < 256 := p1.isLt
  have hlock : (0x1700 + p1.toNat) / 256 = 0x17 := by omega
  have apart : ∀ n, n / 256 ≠ 0x17 → Head.lock + p1.toNat ≠ n := fun n hn h => hn (h ▸ hlock)
  have hlow : BitVec.ofNat 8 (Head.lock + p1.toNat) = p1 := by
    apply BitVec.eq_of_toNat_eq
    rw [BitVec.toNat_ofNat, Head.lock]
    omega
  unfold getOperands
  rw [if_neg (apart Head.serialize (by decide)), if_neg (apart Head.deserialize (by decide)),
    if_neg (apart Head.send (by decide)), if_neg (apart Head.receive (by decide)),
    if_neg (apart Head.wake (by decide)), if_neg (apart Head.idle (by decide)),
    if_neg (apart Head.sleep (by decide)), if_neg (apart Head.crc16 (by decide)),
    if_neg (apart Head.encodeCommand (by decide)), if_neg (apart Head.decodeResponse (by decide)),
    if_neg (apart Head.transact (by decide)), if_neg (apart Head.chipReset (by decide)),
    if_neg (apart Head.read (by decide)), if_neg (apart Head.write (by decide)),
    if_neg (apart Head.writeMac (by decide)), if_neg (apart Head.nonce (by decide)),
    if_neg (apart Head.genDig (by decide)), if_neg (apart Head.genDigCounter (by decide)),
    if_neg (apart Head.checkMac (by decide)), if_neg (apart Head.macGen (by decide)),
    if_neg (apart Head.counterRead (by decide)), if_neg (apart Head.counterIncr (by decide)),
    if_neg (apart Head.selfTest (by decide)),
    if_pos (show (Head.lock + p1.toNat) / 256 = Head.lock / 256 from hlock), hlow]

/-- The operands that a head calls for are those that its operation puts. -/
theorem getOperands_put {i : Instr} (h : i.wf = true) : Reads (getOperands (headOf i)) (putOperands i) i := by
  cases i with
  | serialize b => exact (reads_byte b).last _
  | deserialize symbols maxLen =>
    simp only [Instr.wf, Bool.and_eq_true] at h
    exact (reads_bytes h.1).bind ((reads_nat h.2).last _)
  | send bytes =>
    simp only [Instr.wf, Bool.and_eq_true] at h
    exact (reads_bytes h.2).last _
  | receive maxLen =>
    simp only [Instr.wf, Bool.and_eq_true] at h
    exact (reads_nat h.2).last _
  | wake => exact reads_nothing _
  | idle => exact reads_nothing _
  | sleep => exact reads_nothing _
  | crc16 seed bytes => exact (reads_word16 seed).bind ((reads_bytes h).last _)
  | encodeCommand opcode p1 p2 data =>
    simp only [putOperands, List.append_assoc]
    exact (reads_byte opcode).bind ((reads_byte p1).bind ((reads_word16 p2).bind ((reads_bytes h).last _)))
  | decodeResponse raw expectedLen =>
    simp only [Instr.wf, Bool.and_eq_true] at h
    exact (reads_bytes h.1.1).bind ((reads_nat h.2).last _)
  | transact opcode p1 p2 data expect close =>
    simp only [Instr.wf, Bool.and_eq_true] at h
    simp only [putOperands, List.append_assoc]
    exact (reads_byte opcode).bind ((reads_byte p1).bind ((reads_word16 p2).bind ((reads_bytes h.1).bind
      ((reads_expect h.2).bind ((reads_close close).last _)))))
  | read slot block close =>
    simp only [putOperands, List.append_assoc]
    exact (reads_word16 slot).bind ((reads_nat h).bind ((reads_close close).last _))
  | write slot block data close =>
    simp only [Instr.wf, isBlock, Bool.and_eq_true, decide_eq_true_eq] at h
    simp only [putOperands, List.append_assoc]
    exact (reads_word16 slot).bind ((reads_nat h.1).bind ((reads_fixed h.2).bind ((reads_close close).last _)))
  | writeMac slot block data mac close =>
    simp only [Instr.wf, isBlock, Bool.and_eq_true, decide_eq_true_eq] at h
    obtain ⟨⟨hblock, hdata⟩, hmac⟩ := h
    simp only [putOperands, List.append_assoc]
    exact (reads_word16 slot).bind ((reads_nat hblock).bind ((reads_fixed hdata).bind ((reads_fixed hmac).bind
      ((reads_close close).last _))))
  | nonce numin close => exact (reads_fixed (of_decide_eq_true h)).bind ((reads_close close).last _)
  | genDig slot close => exact (reads_word16 slot).bind ((reads_close close).last _)
  | genDigCounter id close => exact (reads_word16 id).bind ((reads_close close).last _)
  | checkMac keynum body close =>
    simp only [putOperands, List.append_assoc]
    exact (reads_word16 keynum).bind ((reads_fixed (of_decide_eq_true h)).bind ((reads_close close).last _))
  | macGen keynum close => exact (reads_word16 keynum).bind ((reads_close close).last _)
  | counterRead close => exact (reads_close close).last _
  | counterIncr close => exact (reads_close close).last _
  | selfTest close => exact (reads_close close).last _
  | lock p1 p2 close =>
    rw [headOf, getOperands_lock]
    exact (reads_word16 p2).bind ((reads_close close).last _)
  | info close =>
    change Reads (getOperands Head.info) _ _
    exact (reads_close close).last _
  | keyedHash keynum msg close =>
    change Reads (getOperands Head.keyedHash) _ _
    simp only [putOperands, List.append_assoc]
    exact (reads_word16 keynum).bind ((reads_fixed (of_decide_eq_true h)).bind ((reads_close close).last _))
  | keyedHashEnd msg close =>
    change Reads (getOperands Head.keyedHashEnd) _ _
    exact (reads_fixed (of_decide_eq_true h)).bind ((reads_close close).last _)
  | chipReset =>
    change Reads (getOperands Head.chipReset) _ _
    exact reads_nothing _
  | pickNonce numin =>
    change Reads (getOperands Head.pickNonce) _ _
    exact (reads_fixed (of_decide_eq_true h)).last _
  | gendigSlot slot plaintext =>
    change Reads (getOperands Head.gendigSlot) _ _
    exact (reads_word16 slot).bind ((reads_fixed (of_decide_eq_true h)).last _)
  | ctEqual a b =>
    change Reads (getOperands Head.ctEqual) _ _
    simp only [Instr.wf, lenFits, Bool.and_eq_true, decide_eq_true_eq] at h
    exact (reads_bytes h.1).bind ((reads_bytes (show lenFits b = true by rw [lenFits, ← h.2]; exact h.1)).last _)
  | isCorrectTempkey expected =>
    change Reads (getOperands Head.isCorrectTempkey) _ _
    exact (reads_fixed (of_decide_eq_true h)).last _
  | checkmac keynum secret =>
    change Reads (getOperands Head.checkmac) _ _
    exact (reads_word16 keynum).bind ((reads_fixed (of_decide_eq_true h)).last _)
  | pairUnlock =>
    change Reads (getOperands Head.pairUnlock) _ _
    exact reads_nothing _
  | encryptedRead slot authSlot authSecret n =>
    change Reads (getOperands Head.encryptedRead) _ _
    simp only [Instr.wf, isBlock, Bool.and_eq_true, decide_eq_true_eq] at h
    obtain ⟨⟨hsecret, -⟩, hn⟩ := h
    simp only [putOperands, List.append_assoc]
    exact (reads_word16 slot).bind ((reads_word16 authSlot).bind ((reads_fixed hsecret).bind ((reads_nat hn).last _)))
  | encryptedWrite slot authSlot authSecret data =>
    change Reads (getOperands Head.encryptedWrite) _ _
    simp only [Instr.wf, isBlock, Bool.and_eq_true, decide_eq_true_eq] at h
    obtain ⟨⟨⟨hsecret, -⟩, -⟩, hdata⟩ := h
    simp only [putOperands, List.append_assoc]
    exact (reads_word16 slot).bind ((reads_word16 authSlot).bind ((reads_fixed hsecret).bind ((reads_bytes hdata).last _)))
  | mixin keynum start =>
    change Reads (getOperands Head.mixin) _ _
    exact (reads_word16 keynum).bind ((reads_fixed (of_decide_eq_true h)).last _)
  | stretch start iterations =>
    change Reads (getOperands Head.stretch) _ _
    simp only [Instr.wf, isBlock, Bool.and_eq_true, decide_eq_true_eq] at h
    exact (reads_fixed h.1).bind ((reads_nat h.2).last _)
  | authReadSlot slot =>
    change Reads (getOperands Head.authReadSlot) _ _
    exact (reads_word16 slot).last _
  | authReadCounter =>
    change Reads (getOperands Head.authReadCounter) _ _
    exact reads_nothing _
  | addCounter n =>
    change Reads (getOperands Head.addCounter) _ _
    simp only [Instr.wf, Bool.and_eq_true] at h
    exact (reads_nat h.2).last _
  | gendigCounter value =>
    change Reads (getOperands Head.gendigCounter) _ _
    exact (reads_word32 value).last _
  | setup record =>
    change Reads (getOperands Head.setup) _ _
    exact (reads_fixed (of_decide_eq_true h)).last _
  | login record =>
    change Reads (getOperands Head.login) _ _
    exact (reads_fixed (of_decide_eq_true h)).last _
  | change record =>
    change Reads (getOperands Head.change) _ _
    exact (reads_fixed (of_decide_eq_true h)).last _
  | fetchSecret record =>
    change Reads (getOperands Head.fetchSecret) _ _
    exact (reads_fixed (of_decide_eq_true h)).last _
  | seDispatch method len arg2 =>
    change Reads (getOperands Head.seDispatch) _ _
    simp only [putOperands, List.append_assoc]
    exact (reads_word32 method).bind ((reads_nat h).bind ((reads_word32 arg2).last _))
  | cmdReadSeSlot len arg2 =>
    change Reads (getOperands Head.cmdReadSeSlot) _ _
    exact (reads_nat h).bind ((reads_word32 arg2).last _)
  | cmdGetRandomBytes len =>
    change Reads (getOperands Head.cmdGetRandomBytes) _ _
    exact (reads_nat h).last _
  | cmdIsBricked =>
    change Reads (getOperands Head.cmdIsBricked) _ _
    exact reads_nothing _

/-! ### Calls -/

/-- Every head fits the 16 bits it is written in. -/
theorem headOf_lt (i : Instr) : headOf i < 2 ^ 16 := by
  cases i with
  | lock p1 p2 close =>
    have hbyte : p1.toNat < 256 := p1.isLt
    simp only [headOf, Head.lock]
    omega
  | _ => exact of_decide_eq_true rfl

theorem decodePrefix_encode {i : Instr} (h : i.wf = true) (rest : Bytes) :
    decodePrefix (encode i ++ rest) = .ok (i, rest) := by
  have hhead : (BitVec.ofNat 16 (headOf i)).toNat = headOf i := by
    rw [BitVec.toNat_ofNat, Nat.mod_eq_of_lt (headOf_lt i)]
  rw [decodePrefix, encode, putHead, List.append_assoc, getWord16_put]
  simp only [hhead, getOperands_put h rest, h, if_true]

theorem decode_encode {i : Instr} (h : i.wf = true) (rest : Bytes) : decode (encode i ++ rest) = .ok i := by
  rw [decode, decodePrefix_encode h]

/-- A word of the opcode table that begins an operation's call, zero operands after it. -/
theorem decodeTableWord_encode {i : Instr} (h : i.wf = true) {n w : Nat} {rest : Bytes}
    (hw : tableWords n w = encode i ++ rest) : decodeTableWord n w = some i := by
  rw [decodeTableWord, hw, decode_encode h]

end Sys2Proof

namespace Sys2Proof.Settled

open Sys2Proof Sys2Proof.Machine

/-- Settles O1: the head tells the operation, and its operands are read off as they were put (R95, R98; log 2). -/
theorem decodeEncode : Obligations.DecodeEncode := by
  unfold Obligations.DecodeEncode
  exact fun i rest h => decodePrefix_encode h rest

/-- Settles O2: each word is the beginning of its operation's call, but for the one whose head is no operation's (R98). -/
theorem decodedWords : Obligations.DecodedWords := by
  unfold Obligations.DecodedWords
  refine ⟨?read, ?genDigCounter, ?counterIncr, ?lock, ?nonce, ?macGen, ?unknown⟩
  case read => exact decodeTableWord_encode (rest := zeros 393) rfl rfl
  case genDigCounter => exact decodeTableWord_encode (rest := zeros 397) rfl rfl
  case counterIncr => exact decodeTableWord_encode (rest := zeros 399) rfl rfl
  case lock => exact decodeTableWord_encode (rest := zeros 397) rfl rfl
  case nonce => exact decodeTableWord_encode (rest := zeros 379) rfl rfl
  case macGen => exact decode_encode (i := .macGen 1 .sleep) rfl []
  case unknown => rfl

end Sys2Proof.Settled
end

section
/-! The statements on the machine's steps and on what every operation keeps (spec/10_state.md R13, R24, R39 to R42;
spec/20_memory.md R50, R57; spec/30_encoding.md R95; spec/60_exceptions.md R187; spec/70_reset_and_hazards.md R215 to R218):
what one step is, the invariant action by action, how operations end; then the obligations. -/

namespace Sys2Proof.Machine

/-! ### One step (R13, R95) -/

theorem step_of_pending {s : State} {a : HostAction} {rest : List HostAction} (hb : s.ctl.booted = true)
    (hp : s.host.pending = a :: rest) : step s = act a (s.withPending rest) := by
  simp only [step, hb, if_true, hp]

theorem step_of_waiting {s : State} (hb : s.ctl.booted = true) (hp : s.host.pending = []) : step s = .next s := by
  simp only [step, hb, if_true, hp]

theorem step_of_booting {s : State} (hb : s.ctl.booted = false) : step s = .next (bootStep s) := by
  simp only [step, hb, Bool.false_eq_true, if_false]

theorem call_of_decode {words : Bytes} {i : Instr} (h : decode words = .ok i) (s : State) : call words s = exec i s := by
  simp only [call, h]

theorem call_of_refusal {words : Bytes} {r : DecodeRefusal} (h : decode words = .error r) (s : State) :
    call words s = .refused (.illegalCall r) := by
  simp only [call, h]

theorem callCut_of_next {words : Bytes} {n : Nat} {s t : State} (h : call words (s.dyingAfter n) = .next t) :
    callCut words n s = .next (t.lineOf s n).coldReset := by
  simp only [callCut, h]

/-- A next state of a call is one of the operation decoded, whose operands are in range. -/
theorem exec_of_call {words : Bytes} {s t : State} (h : call words s = .next t) :
    ∃ i, i.wf = true ∧ exec i s = .next t := by
  unfold call at h
  split at h
  next i hi => exact ⟨i, decode_wf hi, h⟩
  next => cases h

theorem call_of_callCut {words : Bytes} {n : Nat} {s t : State} (h : callCut words n s = .next t) :
    ∃ u, call words (s.dyingAfter n) = .next u ∧ t = (u.lineOf s n).coldReset := by
  unfold callCut at h
  split at h
  next u hu => cases h; exact ⟨u, hu, rfl⟩
  next => cases h
  next => cases h

/-! ### What a power cycle draws (R215), and what it does to the chip (R218) -/

theorem coldReset_bootSeed (s : State) : s.coldReset.reg.bootSeed = s.face.randoms 32 := by
  rw [State.coldReset, cold_bootSeed, Face.randoms, Draws.ahead]
  rfl

theorem coldReset_rand (s : State) : s.coldReset.env.rand = s.env.rand.after Config.freeRand 32 := by
  rw [Draws.after]
  rfl

section
variable (ch : Chip)

theorem blockPowerCycled_slots : ch.blockPowerCycled.slots = ch.slots := by
  unfold Chip.blockPowerCycled; dsimp only; split <;> rfl

theorem blockPowerCycled_counter0 : ch.blockPowerCycled.counter0 = ch.counter0 := by
  unfold Chip.blockPowerCycled; dsimp only; split <;> rfl

theorem blockPowerCycled_locks : ch.blockPowerCycled.locks = ch.locks := by
  unfold Chip.blockPowerCycled; dsimp only; split <;> rfl

/-- TempKey survives or is lost; it is never made. -/
theorem tempKeyValid_of_blockPowerCycled (h : ch.blockPowerCycled.tempKeyValid = true) : ch.tempKeyValid = true := by
  unfold Chip.blockPowerCycled at h
  dsimp only at h
  split at h
  · cases h
  · exact h

end

/-! ### Boot (R215) -/

theorem bootStep_of_chipReset {s t : State} (h : chipReset s.delayed = .ok () t) :
    bootStep s = { t with ctl := { t.ctl with booted := true, ending := .none } } := by
  have hboot : boot s = .ok () t := h
  simp only [bootStep, hboot]

/-! ### What every operation keeps -/

section
variable {W : Prop} {J : State → Prop}

/-- A property that asks nothing of the commands sent admits every operation. -/
theorem admits_any (hK : Keeps W AnyCommand J) (i : Instr) : Admits AnyCommand AnyMessage J i := by
  cases i with
  | seDispatch m n a => exact fun _ t _ _ _ => pinKeeps_any hK.held t.cfg a
  | login r => exact any_stores
  | change r => exact any_stores
  | encryptedWrite sl a k d => exact fun _ _ _ _ => trivial
  | transact o p q d e c => exact fun _ _ => trivial
  | write sl b d c => exact fun _ _ => trivial
  | writeMac sl b d m c => exact fun _ _ => trivial
  | _ => trivial

/-- Such a property is kept by every operation that keeps it on the line. -/
theorem exec_keeps_any (hH : KeepsHost W AnyCommand J) (hL : LineKeeps W J) (hJ : ∀ s e, J s → J (s.endWith e)) {i : Instr}
    (hi : W → i.wf = true) {s t : State} (hs : J s) (h : exec i s = .next t) : J t :=
  exec_keeps hH hL.ops
    (fun o p q d e c hd _ => triple_conseq (hH.transact o p q d e c hd) (fun _ hj => ⟨hj, trivial⟩) (fun _ _ hj => hj.1)
      (fun _ _ hj => hj.1))
    hJ i hi (admits_any hH.toKeeps i) s t hs h

end

theorem pending_stable : Stable (fun a b : State => b.host.pending = a.host.pending) := by
  constructor
  case trans => exact fun _ _ _ h h' => h'.trans h
  all_goals intros; rfl

theorem booted_stable : Stable (fun a b : State => b.ctl.booted = a.ctl.booted) := by
  constructor
  case trans => exact fun _ _ _ h h' => h'.trans h
  all_goals intros; rfl

/-- The chip hears, wakes and answers, and keeps through each what `Chip.Kept` says. -/
theorem chip_stable : Stable (fun a b : State => a.chip.Kept b.chip) where
  refl s := kept_refl s.chip
  trans _ _ _ := kept_trans
  reg s _ _ := kept_refl s.chip
  env s _ := kept_refl s.chip
  wire s _ := kept_refl s.chip
  hear s x := hearSymbols_kept s.cfg s.chip x
  wakeUp s := wakeUp_kept s.cfg s.chip
  answer s := answer_kept s.cfg s.chip
  buf s _ := kept_refl s.chip
  mark s := kept_refl s.chip

/-! ### The invariant, action by action -/

theorem exec_good {i : Instr} (hi : i.wf = true) {s t : State} (hs : Good s) (h : exec i s = .next t) : Good t :=
  exec_keeps_any host_good line_good good_end (fun _ => hi) hs h

/-- What of a state the invariant does not speak of may change, and the chip with its slots kept canonical. -/
theorem good_of_parts {s t : State} (h : Good s) (hcfg : t.cfg = s.cfg) (hreg : t.reg = s.reg)
    (hflight : t.wire.inFlight = s.wire.inFlight) (hchip : s.chip.Kept t.chip) : Good t := by
  refine good_of h (fun hf => ?_) (by rw [hreg]) (by rw [hreg]) (by rw [hcfg])
  constructor
  case slots => exact hchip.wf hf.slots
  case inFlight => exact hflight.trans hf.inFlight
  all_goals first | rw [hcfg] | rw [hreg]
  exacts [hf.cfgWf, hf.modes, hf.layoutWf, hf.tk, hf.digest, hf.cache, hf.seed, hf.record, hf.tx, hf.rx, hf.baud]

theorem coldReset_good {s : State} (h : Good s) : Good s.coldReset := by
  obtain ⟨hf, -, -⟩ := (inv_iff s).mp h
  refine (inv_iff _).mpr ⟨?_, rfl, Nat.zero_le _⟩
  exact {
    cfgWf := hf.cfgWf, modes := hf.modes, layoutWf := hf.layoutWf
    slots := (blockPowerCycled_kept s.chip).wf hf.slots
    tk := rfl, digest := rfl, cache := rfl, record := zeros_len 276
    seed := ahead_length Config.freeRand 32 s.env.rand
    tx := Nat.zero_le _, rx := Nat.zero_le _, baud := rfl, inFlight := rfl }

theorem bootStep_good {s : State} (h : Good s) : Good (bootStep s) := by
  obtain ⟨t, ht, -⟩ := chipReset_total s.delayed
  have hgood : Good t := (host_good.reset s.delayed (good_of_parts h rfl rfl rfl (kept_refl _))).1 () t ht
  rw [bootStep_of_chipReset ht]
  exact good_of_parts hgood rfl rfl rfl (kept_refl _)

theorem call_good {words : Bytes} {s t : State} (hs : Good s) (h : call words s = .next t) : Good t := by
  obtain ⟨i, hi, hexec⟩ := exec_of_call h
  exact exec_good hi hs hexec

theorem watchdogExpired_kept (s : State) : s.chip.Kept s.watchdogExpired.chip := by
  unfold State.watchdogExpired
  dsimp only
  split
  · exact fallAsleep_kept s.chip
  · exact kept_refl s.chip

theorem act_good {a : HostAction} {s t : State} (hs : Good s) (h : act a s = .next t) : Good t := by
  cases a with
  | call words => exact call_good hs h
  | cut words n =>
    obtain ⟨u, hu, rfl⟩ := call_of_callCut h
    have hgood : Good u := call_good (good_of_parts (t := s.dyingAfter n) hs rfl rfl rfl (kept_refl _)) hu
    exact coldReset_good (good_of_parts hgood rfl rfl rfl (kept_refl _))
  | setBuf buf =>
    cases h
    exact good_of_parts hs rfl rfl rfl (kept_refl _)
  | stray symbols =>
    cases h
    exact good_of_parts hs rfl rfl rfl (kept_refl _)
  | forge symbols =>
    cases h
    exact good_of_parts hs rfl rfl rfl (hearSymbols_kept s.cfg s.chip symbols)
  | watchdog =>
    cases h
    exact good_of_parts hs rfl rfl rfl (watchdogExpired_kept s)
  | coldReset =>
    cases h
    exact coldReset_good hs

theorem step_good {s t : State} (hs : Good s) (h : step s = .next t) : Good t := by
  cases hb : s.ctl.booted with
  | false =>
    rw [step_of_booting hb] at h
    cases h
    exact bootStep_good hs
  | true =>
    cases hp : s.host.pending with
    | nil =>
      rw [step_of_waiting hb hp] at h
      cases h
      exact hs
    | cons a rest =>
      rw [step_of_pending hb hp] at h
      exact act_good (good_of_parts (t := s.withPending rest) hs rfl rfl rfl (kept_refl _)) h

/-! ### How an operation ends (R11, R187, R241) -/

/-- A next state in which the operation has ended, with a result or with an error outcome that is no stop. -/
def Concludes (o : Host.Outcome State Fault Refusal) : Prop :=
  ∃ t, o = .next t ∧ ((∃ v, t.ctl.ending = .success v) ∨ ∃ e, t.ctl.ending = .error e ∧ ∀ f, e ≠ .stop f)

theorem concludes_success {o : Host.Outcome State Fault Refusal} {t : State} {v : Value}
    (h : o = .next (t.endWith (.success v))) : Concludes o := ⟨_, h, .inl ⟨v, rfl⟩⟩

theorem concludes_error {o : Host.Outcome State Fault Refusal} {t : State} {e : Err}
    (h : o = .next (t.endWith (.error e))) (he : ∀ f, e ≠ .stop f) : Concludes o := ⟨_, h, .inr ⟨e, rfl, he⟩⟩

theorem Concludes.not_fault {o : Host.Outcome State Fault Refusal} (h : Concludes o) (f : Fault) : o ≠ .fault f := by
  obtain ⟨t, rfl, -⟩ := h
  exact fun hfault => by cases hfault

section
variable {α : Type} {x : Op α} {v : α → Value} {Q : α → State → Prop} {E : Err → State → Prop}

theorem concludes_run (hx : Triple (fun _ => True) x Q E) (hE : ∀ e t, E e t → ∀ f, e ≠ .stop f) (s : State) :
    Concludes (run x v s) := by
  cases h : x s with
  | ok a t => exact concludes_success (run_of_ok h)
  | error e t => exact concludes_error (run_of_error h) (hE e t ((hx s trivial).2 e t h))

theorem concludes_runOrStop (hx : Triple (fun _ => True) x Q E) (hE : ∀ e t, E e t → ∀ f, e ≠ .stop f) (s : State) :
    Concludes (runOrStop x v s) := by
  cases h : x s with
  | ok a t => exact concludes_success (runOrStop_of_ok h)
  | error e t =>
    have he := hE e t ((hx s trivial).2 e t h)
    exact concludes_error (runOrStop_error h he) he

end

theorem runOrStop_fault_iff {α : Type} {x : Op α} {v : α → Value} {s : State} :
    runOrStop x v s = .fault .counterBudget ↔ Stops x s := by
  constructor
  · intro h
    unfold runOrStop at h
    split at h
    · cases h
    · rename_i f t ht
      cases h
      exact ⟨t, ht⟩
    · cases h
  · rintro ⟨t, ht⟩
    simp only [runOrStop, ht]

theorem concludes_or_stops {α : Type} (x : Op α) (v : α → Value) (s : State) :
    Concludes (runOrStop x v s) ∨ runOrStop x v s = .fault .counterBudget := by
  cases h : x s with
  | ok a t => exact .inl (concludes_success (runOrStop_of_ok h))
  | error e t =>
    rcases stop_or_not e with rfl | he
    · exact .inr (runOrStop_fault_iff.mpr ⟨t, h⟩)
    · exact .inl (concludes_error (runOrStop_error h he) he)

theorem exec_concludes_of_session {i : Instr} (hi : sessionOperation i = true) (s : State) : Concludes (exec i s) := by
  obtain ⟨α, x, v, Q, hexec, hx⟩ := exec_of_sessionOperation hi
  rw [hexec]
  exact concludes_runOrStop hx (fun e _ h f => by rw [h.2.1]; exact Err.noConfusion) s

/-- The operations that may stop or be refused: those that renew the budget, and those that are offered data. -/
def mayNotConclude : Instr → Bool
  | .login _ | .change _ | .seDispatch _ _ _ | .encodeCommand _ _ _ _ | .transact _ _ _ _ _ _ => true
  | _ => false

/-- Every other operation concludes, from every state. -/
theorem exec_concludes {i : Instr} (hi : mayNotConclude i = false) (s : State) : Concludes (exec i s) := by
  have lineKeeps := seq_trivial.toLineKeeps
  have hL := lineKeeps.ops
  have hK := keeps_trivial
  have hR := keeps_trivial.held
  have line {α : Type} {x : Op α} {v : α → Value} {Q : α → State → Prop}
      (hx : Triple (fun _ => True) x Q (LineFail fun _ => True)) : Concludes (run x v s) :=
    concludes_run hx (fun e t h => (line_noStop e t h).2) s
  have link {α : Type} {x : Op α} {v : α → Value} {Q : α → State → Prop}
      (hx : Triple (fun _ => True) x Q (LinkFail fun _ => True)) : Concludes (run x v s) :=
    concludes_run hx (fun _ _ h => h.2) s
  have pin {x : Op Unit} {v : Unit → Value} {Q : Unit → State → Prop} {J : State → Prop}
      (hx : Triple (fun _ => True) x Q (PinFail False J)) : Concludes (runOrStop x v s) :=
    concludes_runOrStop hx (fun _ _ h f => h.2 f) s
  cases i with
  | serialize b => exact concludes_success (exec_serialize b s)
  | deserialize xs n => exact concludes_success (run_of_ok (deserialize_run xs n s))
  | send bs => exact line (triple_send lineKeeps bs)
  | receive n => exact line (triple_receive hL n)
  | wake => exact line (triple_wake lineKeeps)
  | idle => exact line (triple_idle hL)
  | sleep => exact line (triple_sleep hL)
  | crc16 seed bs => exact concludes_success (exec_crc16 seed bs s)
  | decodeResponse raw n => exact concludes_run (triple_decodeResponse hL raw n) (fun _ _ h => h.2) s
  | read sl b c => exact link (triple_read hK sl b c)
  | write sl b d c => exact link (triple_write hK sl b d c False.elim (fun _ _ => trivial))
  | writeMac sl b d m c => exact link (triple_writeMac hK sl b d m c False.elim (fun _ _ => trivial))
  | nonce n c => exact link (triple_nonce hK n c False.elim)
  | genDig sl c => exact link (triple_genDig hK sl c)
  | genDigCounter sl c => exact link (triple_genDigCounter hK sl c)
  | checkMac k b c => exact link (triple_checkMac hK k b c False.elim)
  | macGen k c => exact link (triple_macGen hK k c)
  | counterRead c => exact link (triple_counterRead hK c)
  | counterIncr c => exact link (triple_counterIncr hK c)
  | selfTest c => exact link (triple_selfTest hK c)
  | lock p q c => exact link (triple_lock hK p q c)
  | info c => exact link (triple_info hK c)
  | keyedHash k m c => exact link (triple_keyedHash hK k m c False.elim)
  | keyedHashEnd m c => exact link (triple_keyedHashEnd hK m c False.elim)
  | chipReset => exact concludes_run host_trivial.reset (fun _ _ h => h.elim) s
  | ctEqual a b => exact concludes_success (exec_ctEqual a b s)
  | setup r => exact pin (triple_onRecord hK r False.elim (triple_setup hR))
  | fetchSecret r => exact pin (triple_onRecord hK r False.elim (triple_fetchSecret hR))
  | cmdReadSeSlot n a => exact pin (triple_readSeSlot host_trivial n a)
  | cmdGetRandomBytes n => exact concludes_success (run_of_ok (getRandomBytes_run n s))
  | cmdIsBricked => exact pin (triple_unlockOrBrick hK)
  | login _ | change _ | seDispatch _ _ _ | encodeCommand _ _ _ _ | transact _ _ _ _ _ _ => cases hi
  | _ => exact exec_concludes_of_session rfl s

theorem not_comesToUpdates {i : Instr} (hi : mayNotConclude i = false) (s u : State) : ¬ comesToUpdates s u i := by
  cases i with
  | login _ | change _ | seDispatch _ _ _ => cases hi
  | _ => exact id

/-- An operation that concludes and renews no budget satisfies what is said of every operation's end. -/
theorem ends_of_concludes {i : Instr} {s : State} {P : Prop} (h : Concludes (exec i s))
    (hu : ∀ u, ¬ comesToUpdates s u i) :
    (Concludes (exec i s) ∨ exec i s = .fault .counterBudget ∨ P)
      ∧ (exec i s = .fault .counterBudget ↔ ∃ u, comesToUpdates s u i ∧ readsOverspent u) :=
  ⟨.inl h, iff_of_false (h.not_fault _) (fun ⟨u, hcomes, _⟩ => hu u hcomes)⟩

/-- One that is refused. -/
theorem ends_of_refused {i : Instr} {s : State} {r : Refusal} {P : Prop} (h : exec i s = .refused r) (hP : P)
    (hu : ∀ u, ¬ comesToUpdates s u i) :
    (Concludes (exec i s) ∨ exec i s = .fault .counterBudget ∨ P)
      ∧ (exec i s = .fault .counterBudget ↔ ∃ u, comesToUpdates s u i ∧ readsOverspent u) :=
  ⟨.inr (.inr hP), iff_of_false (fun hfault => by rw [h] at hfault; cases hfault) (fun ⟨u, hcomes, _⟩ => hu u hcomes)⟩

/-- One that renews the budget, and stops where `Stops` says. -/
theorem ends_of_stops {α : Type} {x : Op α} {v : α → Value} {i : Instr} {s : State} {P : Prop}
    (hexec : exec i s = runOrStop x v s)
    (hstops : Stops x s ↔ ∃ u, comesToUpdates s u i ∧ readsOverspent u) :
    (Concludes (exec i s) ∨ exec i s = .fault .counterBudget ∨ P)
      ∧ (exec i s = .fault .counterBudget ↔ ∃ u, comesToUpdates s u i ∧ readsOverspent u) := by
  rw [hexec, ← hstops]
  exact ⟨(concludes_or_stops x v s).imp_right .inl, runOrStop_fault_iff⟩

end Sys2Proof.Machine

namespace Sys2Proof.Settled

open Sys2Proof.Machine

/-- Settles O3: a step takes the next pending action, and each action is one equation (R13, R14, R95). -/
theorem stepRunsDecoded : Obligations.StepRunsDecoded := by
  unfold Obligations.StepRunsDecoded
  intro s rest hb
  refine ⟨?call, ?illegal, ?waiting, ?setBuf, ?stray, ?forge, ?watchdog, ?cut⟩
  case call => exact fun words i hp hi => (step_of_pending hb hp).trans (call_of_decode hi _)
  case illegal => exact fun words r hp hr => (step_of_pending hb hp).trans (call_of_refusal hr _)
  case waiting => exact step_of_waiting hb
  case setBuf => exact fun b hp => step_of_pending hb hp
  case stray => exact fun xs hp => step_of_pending hb hp
  case forge => exact fun xs hp => step_of_pending hb hp
  case watchdog => exact step_of_pending hb
  case cut =>
    exact fun words n i t hp hi ht => (step_of_pending hb hp).trans (callCut_of_next ((call_of_decode hi _).trans ht))

/-- Settles O4: the state of a cold reset, field by field (R215, R218). -/
theorem coldReset : Obligations.ColdReset := by
  unfold Obligations.ColdReset
  intro s rest hb hp
  exact ⟨_, step_of_pending hb hp, rfl, rfl, rfl, rfl, rfl, rfl, rfl, rfl, rfl, rfl, rfl, rfl,
    coldReset_bootSeed (s.withPending rest), coldReset_rand (s.withPending rest),
    blockPowerCycled_slots s.chip, blockPowerCycled_counter0 s.chip, blockPowerCycled_locks s.chip,
    tempKeyValid_of_blockPowerCycled s.chip, rfl, rfl, rfl, rfl, rfl, rfl⟩

/-- Settles O5: the delay, then the chip reset of a working line (R215). -/
theorem bootStep : Obligations.BootStep := by
  unfold Obligations.BootStep
  intro s hb hq
  obtain ⟨t, ht, hface⟩ := chipReset_goes s.delayed hq
  have hctl : t.ctl = s.ctl := congrArg Face.ctl hface
  refine ⟨_, step_of_booting hb, ?_⟩
  rw [bootStep_of_chipReset ht, hctl]
  exact congrArg (fun f : Face => { f with ctl := { s.ctl with booted := true, ending := .none } }) hface

/-- Settles O6: each register of the reset state, as it is defined (R40). -/
theorem resetValues : Obligations.ResetValues := by
  unfold Obligations.ResetValues
  exact ⟨rfl, rfl, rfl, rfl, rfl, rfl, rfl, rfl, rfl, rfl, rfl, rfl, rfl, rfl⟩

/-- Settles O7: the default parameters are well formed, the provisioned slots canonical, the registers of their widths. -/
theorem resetInvariant : Obligations.ResetInvariant := by
  unfold Obligations.ResetInvariant
  refine (inv_iff _).mpr ⟨?_, rfl, Nat.zero_le _⟩
  exact {
    cfgWf := by decide +kernel, modes := by decide, layoutWf := by decide +kernel
    slots := initial_memWf
    tk := rfl, digest := rfl, cache := rfl, record := zeros_len 276
    seed := by rw [State.reset, cold_bootSeed, List.length_map, List.length_range]
    tx := Nat.zero_le _, rx := Nat.zero_le _, baud := rfl, inFlight := rfl }

/-- Settles O8: by the action that the step takes, an operation's case by what every operation keeps (R20 to R28). -/
theorem stepKeepsInvariant : Obligations.StepKeepsInvariant := by
  unfold Obligations.StepKeepsInvariant
  exact fun s t hs h => step_good hs h

/-- Settles O9: by how the operation may end: concluded, refused for its data, or stopped in the renewal of the budget
(R11, R114, R174, R241). -/
theorem operationEnds : Obligations.OperationEnds := by
  unfold Obligations.OperationEnds
  intro i s
  cases i with
  | login record => exact ends_of_stops rfl (login_stops record s)
  | change record => exact ends_of_stops rfl (change_stops record s)
  | seDispatch method len arg2 => exact ends_of_stops rfl (dispatch_stops method len arg2 s)
  | encodeCommand opcode p1 p2 data =>
    rcases Nat.lt_or_ge s.cfg.maxDataLen data.length with hlong | hfits
    · have hrefused := exec_encodeCommand_of_lt hlong opcode p1 p2
      exact ends_of_refused hrefused ⟨hrefused, opcode, p1, p2, data, hlong, .inl rfl⟩ (fun _ => id)
    · exact ends_of_concludes (concludes_success (exec_encodeCommand_of_le hfits opcode p1 p2)) (fun _ => id)
  | transact opcode p1 p2 data expect close =>
    rcases Nat.lt_or_ge s.cfg.maxDataLen data.length with hlong | hfits
    · have hrefused := exec_transact_of_lt hlong opcode p1 p2 expect close
      exact ends_of_refused hrefused ⟨hrefused, opcode, p1, p2, data, hlong, .inr ⟨expect, close, rfl⟩⟩ (fun _ => id)
    · refine ends_of_concludes ?_ (fun _ => id)
      rw [exec_transact_of_le hfits]
      exact concludes_run (triple_transact seq_trivial opcode p1 p2 data expect close False.elim) (fun _ _ h => h.2) s
  | _ => exact ends_of_concludes (exec_concludes rfl s) (not_comesToUpdates rfl s)

/-- Settles O10: each is kept by every small step, and the mark of R41 by every operation (R32, R39, R42, U1). -/
theorem parametersKept : Obligations.ParametersKept := by
  unfold Obligations.ParametersKept
  intro i s t h
  refine ⟨?cfg, ?seed, ?pending, ?booted, ?unmeant⟩
  case cfg =>
    obtain ⟨u, e, hu, rfl⟩ := exec_related cfg_stable i s t h
    exact hu
  case seed =>
    obtain ⟨u, e, hu, rfl⟩ := exec_related seed_stable i s t h
    exact hu
  case pending =>
    obtain ⟨u, e, hu, rfl⟩ := exec_related pending_stable i s t h
    exact hu
  case booted =>
    obtain ⟨u, e, hu, rfl⟩ := exec_related booted_stable i s t h
    exact hu
  case unmeant =>
    exact exec_keeps_any (host_unmeant s.ctl.unmeant) (seq_unmeant s.ctl.unmeant).toLineKeeps (fun _ _ hj => hj)
      False.elim rfl h

/-- Settles O11: nothing the chip hears, and no waking or answer, undoes what it keeps (R50, R57, R132). -/
theorem chipKept : Obligations.ChipKept := by
  unfold Obligations.ChipKept
  intro i s t h
  obtain ⟨u, e, hkept, rfl⟩ := exec_related chip_stable i s t h
  exact ⟨hkept.counter, hkept.locks, hkept.policy, hkept.serial, hkept.wf⟩

end Sys2Proof.Settled
end

section
/-! The statements on the slots and on an honest chip (spec/20_memory.md R52 to R60; spec/42_selink.md R124, R130, R134;
spec/43_sessioncrypto.md R139): the frame of every operation, and the commands served behind an honest WIRE. -/

namespace Sys2Proof.Machine

open Sys2Proof.Config (Params)

/-! ### The blocks that an operation's own commands name (R52, R60) -/

/-- `Write` has an opcode of its own, but for the two that R8 leaves free, which are assumed to differ. -/
theorem write_not_plain {c : Params} (hw : c.wf = true) (hm : c.op.write ≠ c.op.macGen) (hk : c.op.write ≠ c.op.keyedHash) :
    c.op.write ∉ plainOps c := by
  have hnodup := wf_opcodes hw
  simp only [List.nodup_cons, List.mem_cons, not_or] at hnodup
  simp only [plainOps, List.mem_cons, not_or]
  obtain ⟨⟨hread, -⟩, ⟨hnonce, hgenDig, hcheckMac, hcounter, hselfTest, hlock, hinfo, hnil⟩, -⟩ := hnodup
  exact ⟨Ne.symm hread, hnonce, hgenDig, hcheckMac, hm, hcounter, hselfTest, hlock, hinfo, hk, hnil⟩

/-- The blocks of a good login's updates are among those that `X` allows. -/
theorem honest_updates {X : Nat → Prop} {s0 : State} (hX : ∀ a, inUpdates s0.cfg a → X a) :
    Stores (CommandIn X) (fun s => Honest X s0 s ∧ s.reg.recHeld = true) updateBlocks := by
  rintro s t slot i ⟨hs, -⟩ ⟨ht, -⟩ ⟨hslot, rfl⟩ - a ha
  rw [hs.cfg] at hslot
  rw [ht.cfg] at ha
  rcases hslot with rfl | rfl
  · exact hX a (.inl ha)
  · exact hX a (.inr ha)

/-- So are those of a change: the OTP key has 72 bytes, so the secret has three blocks. -/
theorem honest_change {X : Nat → Prop} {s0 : State} (hw : s0.cfg.wf = true) (hX : ∀ a, inChange s0.cfg a → X a) :
    Stores (CommandIn X) (fun s => Honest X s0 s ∧ s.reg.recHeld = true) changeBlocks := by
  have hotp : ¬ 72 < s0.cfg.rom.otpKey.length := by
    obtain ⟨-, -, hlen, -⟩ := wf_secrets hw
    rw [hlen]
    decide
  rintro s t slot i hs ht hblock
  rcases hblock with hupdates | ⟨hslot, rfl⟩ | ⟨hslot, hi⟩
  · exact honest_updates (fun a ha => hX a (.inl ha)) s t slot i hs ht hupdates
  · rw [hs.1.cfg] at hslot
    intro _ a ha
    rw [ht.1.cfg, hslot] at ha
    exact hX a (.inr (.inl ha))
  · rw [hs.1.cfg] at hslot hi
    intro _ a ha
    rw [ht.1.cfg, hslot] at ha
    exact hX a (.inr (.inr ⟨i, hi.resolve_right hotp, ha⟩))

/-- Each PIN operation keeps what is said of the slots, where the blocks it stores to are allowed. -/
theorem honest_pinKeeps {X : Nat → Prop} {s0 t : State} (hH : KeepsHost False (CommandIn X) (Honest X s0))
    (hw : s0.cfg.wf = true) (ht : Honest X s0 t) (arg2 : Word32)
    (hlogin : arg2 = s0.cfg.pinMethod.attempt → ∀ a, inUpdates s0.cfg a → X a)
    (hchange : arg2 = s0.cfg.pinMethod.change → ∀ a, inChange s0.cfg a → X a) :
    PinKeeps True (Honest X s0) t.cfg arg2 := by
  have hR := hH.toKeeps.held
  rw [ht.cfg]
  unfold PinKeeps pinOperation
  refine triple_ite (fun _ => triple_setup hR) (fun _ => ?_)
  refine triple_ite (fun h => triple_login hR (honest_updates (hlogin h)) (fun _ => trivial)) (fun _ => ?_)
  refine triple_ite (fun h => triple_change hR (honest_change hw (hchange h)) (fun _ => trivial)) (fun _ => ?_)
  exact triple_ite (fun _ => triple_fetchSecret hR) (fun _ => triple_pinRaise (by simp))

/-- Every operation admits the stores to the blocks that it names. -/
theorem honest_admits {s0 : State} (i : Instr) (hw : s0.cfg.wf = true)
    (hH : KeepsHost False (CommandIn (storesTo s0.cfg i)) (Honest (storesTo s0.cfg i) s0)) :
    Admits (CommandIn (storesTo s0.cfg i)) (StoresIn (storesTo s0.cfg i) s0.cfg) (Honest (storesTo s0.cfg i) s0) i := by
  cases i with
  | send bytes => exact fun n cmd hcmd hop a ha => ⟨n, cmd, hcmd, hop, ha⟩
  | transact opcode p1 p2 data expect close => exact fun s hs hop a ha => ⟨hs.cfg ▸ hop, ha⟩
  | write slot block data close => exact fun s hs _ a ha => by rw [hs.cfg] at ha; exact ha
  | writeMac slot block data mac close => exact fun s hs _ a ha => by rw [hs.cfg] at ha; exact ha
  | encryptedWrite slot keynum key data => exact fun s b hs hb _ a ha => by rw [hs.cfg] at ha; exact ⟨b, hb, ha⟩
  | login record => exact honest_updates (fun a ha => ha)
  | change record => exact honest_change hw (fun a ha => ha)
  | seDispatch method len arg2 =>
    intro s t hs ht hmethod
    rw [hs.cfg] at hmethod
    exact honest_pinKeeps hH hw ht arg2 (fun h a ha => ⟨hmethod, .inl ⟨h, ha⟩⟩) (fun h a ha => ⟨hmethod, .inr ⟨h, ha⟩⟩)
  | _ => trivial

end Sys2Proof.Machine

namespace Sys2Proof.Settled

open Sys2Proof.Machine

/-- Settles O12: every operation keeps the slots outside the blocks its own commands name, message by message (R52, R60). -/
theorem memoryFrame : Obligations.MemoryFrame := by
  unfold Obligations.MemoryFrame
  intro i s t hinv hm hk h hpassed a ha
  have fit := ((inv_iff s).mp hinv).1
  have hc := wf_pulses fit.cfgWf
  have hH := keeps_honest (X := storesTo s.cfg i) (s0 := s) hc (write_not_plain fit.cfgWf hm hk)
  have hkept := exec_keeps hH (seq_honest hc).toLineOps
    (fun o p q d e c hd hA => triple_conseq (hH.transact o p q d e c hd) (fun _ hj => ⟨hj, hA _ hj⟩) (fun _ _ hj => hj.1)
      (fun _ _ hj => hj.1))
    (fun _ _ hj => hj.of rfl rfl rfl rfl) i False.elim (honest_admits i fit.cfgWf hH) s t
    (honest_self _ s fit.inFlight fit.slots) h
  exact hkept.slots hpassed ha

end Sys2Proof.Settled
end

section
/-! The statements on an honest chip behind an honest WIRE (spec/20_memory.md R52 to R60; spec/42_selink.md R124, R130,
R134; spec/43_sessioncrypto.md R139): how the chip serves each of the commands they speak of, what a transaction makes of
that, then the obligations. -/

namespace Sys2Proof.Machine

open Sys2Proof.Config (Params)

/-! ### The chip as the command finds it (R59, R104) -/

/-- A chip that was not awake, woken and its watchdog asked: all that it keeps is as before. -/
def Chip.awakened (c : Params) (ch : Chip) : Chip :=
  { ch with
    power := .awake, reply := some (statusFrame c c.st.wake), prompted := false
    lapse := (ch.lapse.next Config.freeLapse).2, watchdog := (ch.watchdog.next Config.freeWatchdog).2 }

theorem readied_of_not_awake {ch : Chip} (h : ch.power ≠ .awake) (c : Params) : ch.readied c = ch.awakened c := by
  rw [Chip.readied, wakeUp_of_not_awake h]
  rfl

theorem not_awake_of_undisturbed {s : State} {n : Nat} {cmd : Command} (hu : s.undisturbed n cmd) :
    s.chip.power ≠ .awake := by
  obtain ⟨-, -, -, hp, -⟩ := hu
  exact hp

theorem drawBytes_length (ch : Chip) (n : Nat) : (ch.drawBytes n).1.length = n := ahead_length Config.freeChipRng n ch.rng

/-! ### Which command is meant (R84, R97) -/

section
variable {c : Params} {ch : Chip} (hw : c.wf = true) (hst : ch.selfTestFailed = false) (p2 : Word16) (data : Bytes)
include hw hst

theorem perform_write : ch.perform c ⟨c.op.write, c.p1.write32, p2, data⟩ = ch.doWrite c p2 data := by
  have hop := wf_opcodes hw
  simp only [List.nodup_cons, List.mem_cons, not_or] at hop
  obtain ⟨⟨hread, -⟩, -⟩ := hop
  simp [Chip.perform, hst, Ne.symm hread]

theorem perform_writeMac (hne : c.p1.write32Enc ≠ c.p1.write32) :
    ch.perform c ⟨c.op.write, c.p1.write32Enc, p2, data⟩ = ch.doWriteMac c p2 data := by
  have hop := wf_opcodes hw
  simp only [List.nodup_cons, List.mem_cons, not_or] at hop
  obtain ⟨⟨hread, -⟩, -⟩ := hop
  simp [Chip.perform, hst, Ne.symm hread, hne]

theorem perform_nonce : ch.perform c ⟨c.op.nonce, c.p1.nonce, p2, data⟩ = ch.doNonce c data := by
  have hop := wf_opcodes hw
  simp only [List.nodup_cons, List.mem_cons, not_or] at hop
  obtain ⟨⟨-, hread, -⟩, ⟨hwrite, -⟩, -⟩ := hop
  simp [Chip.perform, hst, Ne.symm hread, Ne.symm hwrite]

theorem perform_counterIncr (hmac : c.op.counter ≠ c.op.macGen) (hmode : c.p1.counterRead ≠ c.p1.counterIncr) :
    ch.perform c ⟨c.op.counter, c.p1.counterIncr, p2, data⟩ = ch.doCounterIncr c p2 := by
  have hop := wf_opcodes hw
  simp only [List.nodup_cons, List.mem_cons, not_or] at hop
  obtain ⟨⟨-, -, -, -, hread, -⟩, ⟨-, -, -, hwrite, -⟩, ⟨-, -, hnonce, -⟩, ⟨-, hgenDig, -⟩, ⟨hcheckMac, -⟩, -⟩ := hop
  simp [Chip.perform, hst, Ne.symm hread, Ne.symm hwrite, Ne.symm hnonce, Ne.symm hgenDig, Ne.symm hcheckMac, hmac,
    Ne.symm hmode]

omit hw in
theorem perform_hashStart (hop : c.op.keyedHash ∉ [c.op.read, c.op.write, c.op.nonce, c.op.genDig, c.op.checkMac,
    c.op.macGen, c.op.counter, c.op.selfTest, c.op.lock, c.op.info]) :
    ch.perform c ⟨c.op.keyedHash, c.p1.keyedHashStart, p2, data⟩ = ch.doHashStart c p2 := by
  simp only [List.mem_cons, not_or] at hop
  obtain ⟨hread, hwrite, hnonce, hgenDig, hcheckMac, hmac, hcounter, hselfTest, hlock, hinfo, -⟩ := hop
  simp [Chip.perform, hst, hread, hwrite, hnonce, hgenDig, hcheckMac, hmac, hcounter, hselfTest, hlock,
    hinfo]

end

theorem slotExists_pinAttempt {c : Params} (hw : c.wf = true) : slotExists c c.slot.pinAttempt = true := by
  simp only [Params.wf, Bool.and_eq_true, List.all_eq_true] at hw
  exact (by tauto : ∀ slot ∈ [c.slot.pairing, c.slot.kdf, c.slot.pinHash, c.slot.pinAttempt, c.slot.lastgood,
    c.slot.matchCount, c.slot.seed], decide (slot.toNat < c.slot.numSlots) = true) _ (by simp)

/-! ### What the chip makes of a command (R52 to R60) -/

/-- The chip answers a command with `r`, and then holds the slots `m` and the counter `n`. -/
structure Chip.Serves (c : Params) (ch : Chip) (cmd : Command) (r : Reply) (m : List Host.Cell) (n : CounterValue) : Prop where
  reply : (ch.served c cmd).1 = r
  slots : (ch.served c cmd).2.slots = m
  counter : (ch.served c cmd).2.counter0 = n

theorem serves_of_perform {c : Params} {ch k : Chip} {cmd : Command} {r : Reply} (hp : ch.power ≠ .awake)
    (h : (ch.awakened c).perform c cmd = (r, k)) : ch.Serves c cmd r k.slots k.counter0 := by
  have hserved : ch.served c cmd = (r, k) := by rw [Chip.served, readied_of_not_awake hp, h]
  exact ⟨by rw [hserved], by rw [hserved], by rw [hserved]⟩

section
variable {c : Params} {ch : Chip} (hw : c.wf = true) (hst : ch.selfTestFailed = false) (hp : ch.power ≠ .awake)
include hw hst hp

theorem serves_write {p2 : Word16} {data : Bytes} (hd : data.length = 32) (hmet : ch.pairingMet (ch.ruleAt p2) = true)
    (hclear : (ch.ruleAt p2).write = .clear) :
    ch.Serves c ⟨c.op.write, c.p1.write32, p2, data⟩ (.status stOk) (memWrite ch.slots (blockBase p2) data) ch.counter0 :=
  serves_of_perform (k := (ch.awakened c).storeBlock p2 data) hp
    ((perform_write (ch := ch.awakened c) hw hst p2 data).trans (if_pos ⟨hmet, hclear, hd⟩))

theorem serves_write_refused {p2 : Word16} {data : Bytes}
    (hno : ¬ (ch.pairingMet (ch.ruleAt p2) = true ∧ (ch.ruleAt p2).write = .clear)) :
    ch.Serves c ⟨c.op.write, c.p1.write32, p2, data⟩ (.status c.st.exec) ch.slots ch.counter0 :=
  serves_of_perform (k := ch.awakened c) hp ((perform_write (ch := ch.awakened c) hw hst p2 data).trans (if_neg (fun ⟨hmet, hclear, _⟩ => hno ⟨hmet, hclear⟩)))

section
variable (hmode : c.p1.write32Enc ≠ c.p1.write32) {p2 : Word16} {data mac : Bytes} (hd : data.length = 32)
  (hm : mac.length = 32)
include hmode hd hm

omit hw hst hp hmode in
/-- A block under TempKey, whose rule admits it, comes down to its MAC. -/
theorem doWriteMac_admitted {k : Chip} (hadmits : k.writesUnder p2 = true) : k.doWriteMac c p2 (data ++ mac)
    = if mac = sha256 (writeMacMsg k.tempKey p2 (xorBytes data k.tempKey))
      then (.status stOk, k.storeBlock p2 (xorBytes data k.tempKey)) else (.status c.st.miscompare, k) := by
  have hlen : (data ++ mac).length = 2 * Config.blockLen := by rw [List.length_append, hd, hm]; rfl
  have htake : (data ++ mac).take Config.blockLen = data := List.take_left' hd
  have hdrop : (data ++ mac).drop Config.blockLen = mac := List.drop_left' hd
  rw [Chip.doWriteMac, if_pos ⟨hadmits, hlen⟩, htake, hdrop]

theorem serves_writeMac (hadmits : ch.writesUnder p2 = true)
    (hright : mac = sha256 (writeMacMsg ch.tempKey p2 (xorBytes data ch.tempKey))) :
    ch.Serves c ⟨c.op.write, c.p1.write32Enc, p2, data ++ mac⟩ (.status stOk)
      (memWrite ch.slots (blockBase p2) (xorBytes data ch.tempKey)) ch.counter0 :=
  serves_of_perform (k := (ch.awakened c).storeBlock p2 (xorBytes data ch.tempKey)) hp ((perform_writeMac (ch := ch.awakened c) hw hst p2 _ hmode).trans
    ((doWriteMac_admitted (k := ch.awakened c) hd hm hadmits).trans (if_pos hright)))

theorem serves_writeMac_wrong (hadmits : ch.writesUnder p2 = true)
    (hwrong : mac ≠ sha256 (writeMacMsg ch.tempKey p2 (xorBytes data ch.tempKey))) :
    ch.Serves c ⟨c.op.write, c.p1.write32Enc, p2, data ++ mac⟩ (.status c.st.miscompare) ch.slots ch.counter0 :=
  serves_of_perform (k := ch.awakened c) hp ((perform_writeMac (ch := ch.awakened c) hw hst p2 _ hmode).trans
    ((doWriteMac_admitted (k := ch.awakened c) hd hm hadmits).trans (if_neg hwrong)))

omit hd hm in
theorem serves_writeMac_refused (hno : ch.writesUnder p2 = false) :
    ch.Serves c ⟨c.op.write, c.p1.write32Enc, p2, data ++ mac⟩ (.status c.st.exec) ch.slots ch.counter0 :=
  serves_of_perform (k := ch.awakened c) hp ((perform_writeMac (ch := ch.awakened c) hw hst p2 _ hmode).trans
    (if_neg (fun h => Bool.false_ne_true (hno.symm.trans h.1))))

end

theorem served_nonce {numin : Bytes} (hn : numin.length = 20) :
    ∃ rng k, ch.served c ⟨c.op.nonce, c.p1.nonce, 0, numin⟩ = (.payload rng, k) ∧ rng.length = 32
      ∧ k.tempKey = sha256 (nonceMsg rng numin) ∧ k.tempKeyValid = true ∧ k.slots = ch.slots ∧ k.counter0 = ch.counter0 := by
  let drawn := (ch.awakened c).drawBytes Config.blockLen
  refine ⟨drawn.1, drawn.2.setTempKey (sha256 (nonceMsg drawn.1 numin)), ?served, drawBytes_length _ _, rfl, rfl, rfl, rfl⟩
  rw [Chip.served, readied_of_not_awake hp]
  exact (perform_nonce (ch := ch.awakened c) hw hst 0 numin).trans (if_pos hn)

section
variable (hmac : c.op.counter ≠ c.op.macGen) (hmode : c.p1.counterRead ≠ c.p1.counterIncr)
include hmac hmode

theorem serves_counterIncr (hleft : ch.budgetSpent c = false) :
    ch.Serves c ⟨c.op.counter, c.p1.counterIncr, c.counterId, []⟩ (.payload (u32le (ch.counter0 + 1))) ch.slots
      (ch.counter0 + 1) :=
  serves_of_perform (k := { ch.awakened c with counter0 := ch.counter0 + 1 }) hp
    ((perform_counterIncr (ch := ch.awakened c) hw hst _ _ hmac hmode).trans
      (if_pos ⟨rfl, fun hspent => Bool.false_ne_true (hleft.symm.trans hspent)⟩))

theorem serves_counterIncr_refused (hspent : ch.budgetSpent c = true) :
    ch.Serves c ⟨c.op.counter, c.p1.counterIncr, c.counterId, []⟩ (.status c.st.exec) ch.slots ch.counter0 :=
  serves_of_perform (k := ch.awakened c) hp ((perform_counterIncr (ch := ch.awakened c) hw hst _ _ hmac hmode).trans
    (if_neg (fun h => h.2 hspent)))

end

section
variable (hop : c.op.keyedHash ∉ [c.op.read, c.op.write, c.op.nonce, c.op.genDig, c.op.checkMac, c.op.macGen,
  c.op.counter, c.op.selfTest, c.op.lock, c.op.info])
include hop

theorem serves_hashStart (hleft : ch.budgetSpent c = false) :
    ch.Serves c ⟨c.op.keyedHash, c.p1.keyedHashStart, c.slot.pinAttempt, []⟩ (.status stOk) ch.slots (ch.counter0 + 1) :=
  serves_of_perform (k := { ch.awakened c with counter0 := ch.counter0 + 1, startedHash := some c.slot.pinAttempt }) hp
    ((perform_hashStart (ch := ch.awakened c) hst _ _ hop).trans ((if_pos (slotExists_pinAttempt hw)).trans
      ((if_pos rfl).trans (if_neg (fun hspent => Bool.false_ne_true (hleft.symm.trans hspent))))))

theorem serves_hashStart_refused (hspent : ch.budgetSpent c = true) :
    ch.Serves c ⟨c.op.keyedHash, c.p1.keyedHashStart, c.slot.pinAttempt, []⟩ (.status c.st.exec) ch.slots ch.counter0 :=
  serves_of_perform (k := ch.awakened c) hp
    ((perform_hashStart (ch := ch.awakened c) hst _ _ hop).trans ((if_pos (slotExists_pinAttempt hw)).trans
      ((if_pos rfl).trans (if_pos hspent))))

end

end

/-! ### What a transaction makes of it (R119, R122) -/

/-- The chip's refusals are error codes (R193). -/
theorem exec_ne_ok {c : Params} (hw : c.wf = true) : c.st.exec ≠ 0 := by
  have hcodes := wf_status hw
  simp only [List.nodup_cons, List.mem_cons, not_or] at hcodes
  exact Ne.symm hcodes.1.2.2.2.2.1

theorem miscompare_ne_ok {c : Params} (hw : c.wf = true) : c.st.miscompare ≠ 0 := by
  have hcodes := wf_status hw
  simp only [List.nodup_cons, List.mem_cons, not_or] at hcodes
  exact Ne.symm hcodes.1.1

section
variable {s : State} (hw : s.cfg.wf = true) (hretry : 0 < s.cfg.retryMax) {cmd : Command} {m : List Host.Cell}
  {n : CounterValue} (close : Close) (hd : cmd.data.length ≤ 248) (hu : s.undisturbed cmd.data.length cmd)
include hw hretry hd hu

theorem transact_success (h : s.chip.Serves s.cfg cmd (.status stOk) m n) :
    ∃ t, transact cmd.opcode cmd.p1 cmd.p2 cmd.data .status close s = .ok [0] t ∧ t.chip.slots = m ∧ t.chip.counter0 = n := by
  obtain ⟨t, ht, -, hslots, hcounter, -⟩ := transact_served hw hretry cmd .status close [0] hd hu rfl
    (fun _ => Expect.noConfusion) (by rw [h.reply]; rfl)
  exact ⟨t, ht, hslots.trans h.slots, hcounter.trans h.counter⟩

theorem transact_answer {p : Bytes} {j : Nat} (h : s.chip.Serves s.cfg cmd (.payload p) m n)
    (hp : p.length = j ∧ 2 ≤ j ∧ j ≤ 252) :
    ∃ t, transact cmd.opcode cmd.p1 cmd.p2 cmd.data (.data j) close s = .ok p t ∧ t.chip.slots = m
      ∧ t.chip.counter0 = n := by
  obtain ⟨t, ht, -, hslots, hcounter, -⟩ := transact_served hw hretry cmd (.data j) close p hd hu hp
    (fun _ => Expect.noConfusion) (by rw [h.reply]; rfl)
  exact ⟨t, ht, hslots.trans h.slots, hcounter.trans h.counter⟩

theorem transact_refusal {e : Expect} {code : Byte} (h : s.chip.Serves s.cfg cmd (.status code) m n) (hcode : code ≠ 0)
    (he : e = .status ∨ ∃ j, e = .data j ∧ 2 ≤ j) :
    ∃ t, transact cmd.opcode cmd.p1 cmd.p2 cmd.data e close s = .error (.chipError code) t ∧ t.chip.slots = m
      ∧ t.chip.counter0 = n := by
  obtain ⟨t, ht, hslots, hcounter⟩ := transact_refused hw hretry cmd e close code hd hu hcode he h.reply
  exact ⟨t, ht, hslots.trans h.slots, hcounter.trans h.counter⟩

end

/-- The host's copy of TempKey from the chip's answer to a `Nonce` (R139). -/
theorem pickNonce_of_nonce {numin rng : Bytes} {s t : State} (h : nonce numin .idle s = .ok rng t) :
    pickNonce numin s = .ok (sha256 (nonceMsg rng numin))
      { t with reg := { t.reg with tk := sha256 (nonceMsg rng numin), tkValid := true } } :=
  (bind_ok (x := seCall (nonce numin .idle)) (catching_ok h)).trans
    ((bind_ok rfl).trans (readHeld_held (held := Regs.tkValid) (value := Regs.tk) rfl))

/-- A block stored is the block read, and the bytes outside it are as before (R47, R52). -/
theorem read_of_stored {ch k : Chip} {c : Params} {slot : SlotId} {block : Nat} {v : Bytes} (hm : memWf ch.slots = true)
    (hv : v.length = 32) (h : k.slots = memWrite ch.slots (blockBase (p2Addr c slot block)) v) :
    k.memRead c (.slot slot block) 32 = v
      ∧ ∀ a, ¬ inBlock (p2Addr c slot block) a → memByte k.slots a = memByte ch.slots a := by
  constructor
  · rw [Chip.memRead, h, ← hv]
    exact memRead_memWrite hm _ v
  · intro a ha
    rw [h]
    exact memByte_store hm (Nat.le_of_eq hv) ha

end Sys2Proof.Machine

namespace Sys2Proof.Settled

open Sys2Proof.Machine

/-- Settles O58: by what the chip makes of the two forms of `Write`, admitted, refused, or its MAC wrong (R52, R60, R124). -/
theorem honestWrite : Obligations.HonestWrite := by
  unfold Obligations.HonestWrite
  intro s slot block data close hw hretry hmem hd hst p2 rule stored refused
  refine ⟨fun hu => ?clear, fun mac hmac hmode htk hu => ?underMac⟩
  case clear =>
    have hp := not_awake_of_undisturbed hu
    have hshort : data.length ≤ 248 := by omega
    have hu' : s.undisturbed data.length ⟨s.cfg.op.write, s.cfg.p1.write32, p2, data⟩ := by rw [hd]; exact hu
    refine ⟨fun hmet hclear => ?admitted, fun hno => ?refused⟩
    case admitted =>
      obtain ⟨t, ht, hslots, hcounter⟩ := transact_success hw hretry close hshort hu' (serves_write hw hst hp hd hmet hclear)
      obtain ⟨hread, hother⟩ := read_of_stored hmem hd hslots
      exact ⟨_, run_of_ok (x := write slot block data close) ((bind_ok (getCfg_run s)).trans (bind_ok ht)), rfl,
        hread, hother, hcounter⟩
    case refused =>
      obtain ⟨t, ht, hslots, hcounter⟩ := transact_refusal hw hretry close hshort hu' (serves_write_refused hw hst hp hno)
        (exec_ne_ok hw) (.inl rfl)
      exact ⟨_, _, run_of_error (x := write slot block data close) ((bind_ok (getCfg_run s)).trans (bind_error ht)), rfl,
        hslots, hcounter⟩
  case underMac =>
    have hp := not_awake_of_undisturbed hu
    have hlen : (data ++ mac).length = 64 := by rw [List.length_append, hd, hmac]
    have hshort : (data ++ mac).length ≤ 248 := by omega
    have hu' : s.undisturbed (data ++ mac).length ⟨s.cfg.op.write, s.cfg.p1.write32Enc, p2, data ++ mac⟩ := by
      rw [hlen]; exact hu
    have refusedWith {code : Byte} (hcode : code ≠ 0) (hserves : s.chip.Serves s.cfg
        ⟨s.cfg.op.write, s.cfg.p1.write32Enc, p2, data ++ mac⟩ (.status code) s.chip.slots s.chip.counter0) :
        refused (.writeMac slot block data mac close) code := by
      obtain ⟨t, ht, hslots, hcounter⟩ := transact_refusal hw hretry close hshort hu' hserves hcode (.inl rfl)
      exact ⟨_, run_of_error (x := writeMac slot block data mac close) ((bind_ok (getCfg_run s)).trans (bind_error ht)),
        rfl, hslots, hcounter⟩
    refine ⟨fun hadmits hright => ?right, fun hadmits hwrong => ?wrong, fun hno => ?refused⟩
    case right =>
      obtain ⟨t, ht, hslots, hcounter⟩ := transact_success hw hretry close hshort hu'
        (serves_writeMac hw hst hp hmode hd hmac hadmits hright)
      obtain ⟨hread, hother⟩ := read_of_stored hmem (by rw [xorBytes_length, hd, htk]; rfl) hslots
      exact ⟨_, run_of_ok (x := writeMac slot block data mac close) ((bind_ok (getCfg_run s)).trans (bind_ok ht)),
        rfl, hread, hother, hcounter⟩
    case wrong =>
      exact refusedWith (miscompare_ne_ok hw) (serves_writeMac_wrong hw hst hp hmode hd hmac hadmits hwrong)
    case refused => exact ⟨_, refusedWith (exec_ne_ok hw) (serves_writeMac_refused hw hst hp hmode hno)⟩

/-- Settles O59: chip and host hash the same message, and IDLE keeps the chip's TempKey (R53, R139). -/
theorem honestNonce : Obligations.HonestNonce := by
  unfold Obligations.HonestNonce
  intro s numin hw hretry hn hst hu
  have hp := not_awake_of_undisturbed hu
  obtain ⟨rng, k, hserved, hrng, htk, hvalid, hslots, hcounter⟩ := served_nonce hw hst hp hn
  obtain ⟨t, ht, -, tslots, tcounter, ttk, tvalid⟩ := transact_served hw hretry ⟨s.cfg.op.nonce, s.cfg.p1.nonce, 0, numin⟩
    (.data 32) .idle rng (by show numin.length ≤ 248; omega) (by rw [hn]; exact hu) ⟨hrng, by decide⟩
    (fun _ => Expect.noConfusion) (by rw [hserved]; rfl)
  have hnonce : nonce numin .idle s = .ok rng t := (bind_ok (getCfg_run s)).trans ht
  have hpick := runOrStop_of_ok (v := .bytes) (pickNonce_of_nonce hnonce)
  rw [hserved] at tslots tcounter ttk tvalid
  exact ⟨_, hpick, rfl, htk.symm.trans ttk.symm, rfl, (tvalid rfl).trans hvalid, tslots.trans hslots,
    tcounter.trans hcounter⟩

/-- Settles O60: by what the chip makes of an increment and of a keyed hash's first command, the budget spent or not
(R57, R58, R130, R134). -/
theorem honestIncrement : Obligations.HonestIncrement := by
  unfold Obligations.HonestIncrement
  intro s close hw hretry hst refused
  refine ⟨fun hmac hmode hu => ?incr, fun hop hu => ?hash⟩
  case incr =>
    let cmd : Command := ⟨s.cfg.op.counter, s.cfg.p1.counterIncr, s.cfg.counterId, []⟩
    have hp := not_awake_of_undisturbed hu
    refine ⟨fun hleft => ?left, fun hspent => ?spent⟩
    case left =>
      obtain ⟨t, ht, hslots, hcounter⟩ := transact_answer (cmd := cmd) (j := 4) hw hretry close (Nat.zero_le _) hu
        (serves_counterIncr hw hst hp hmac hmode hleft) ⟨rfl, by decide, by decide⟩
      have hrun : counterIncr close s = .ok (s.chip.counter0 + 1) t := by
        refine (bind_ok (getCfg_run s)).trans ((bind_ok ht).trans ?_)
        rw [le32_u32le]
        rfl
      exact ⟨_, run_of_ok hrun, rfl, hcounter, hslots⟩
    case spent =>
      obtain ⟨t, ht, hslots, hcounter⟩ := transact_refusal (cmd := cmd) (e := .data 4) hw hretry close (Nat.zero_le _) hu
        (serves_counterIncr_refused hw hst hp hmac hmode hspent) (exec_ne_ok hw) (.inr ⟨4, rfl, by decide⟩)
      exact ⟨_, run_of_error (x := counterIncr close) ((bind_ok (getCfg_run s)).trans (bind_error ht)), rfl, hcounter, hslots⟩
  case hash =>
    let cmd : Command := ⟨s.cfg.op.keyedHash, s.cfg.p1.keyedHashStart, s.cfg.slot.pinAttempt, []⟩
    have hp := not_awake_of_undisturbed hu
    refine ⟨fun hleft => ?left, fun hspent msg => ?spent⟩
    case left =>
      obtain ⟨t, ht, hslots, hcounter⟩ := transact_success (cmd := cmd) hw hretry .idle (Nat.zero_le _) hu
        (serves_hashStart hw hst hp hop hleft)
      have hexec := (exec_transact_of_le (Nat.zero_le _) _ _ _ .status .idle).trans (run_of_ok (v := .bytes) ht)
      exact ⟨_, hexec, rfl, hcounter, hslots, fun msg => keyedHash_second _ msg close s _ hexec rfl⟩
    case spent =>
      obtain ⟨t, ht, hslots, hcounter⟩ := transact_refusal (cmd := cmd) (e := .status) hw hretry .idle (Nat.zero_le _) hu
        (serves_hashStart_refused hw hst hp hop hspent) (exec_ne_ok hw) (.inl rfl)
      have hstart : keyedHashStart s.cfg.slot.pinAttempt s = .error (.chipError s.cfg.st.exec) t :=
        (bind_ok (getCfg_run s)).trans (bind_error ht)
      exact ⟨_, run_of_error (x := Machine.keyedHash _ msg close) (bind_error hstart), rfl, hcounter, hslots⟩

end Sys2Proof.Settled
end
